-- ==== Sys2Proof/Word.lean ====
section
/-! DEFINITION. The word types of the machine (rules R9, R22, R100): 32-bit words and addresses, 8-bit bytes,
4-bit register numbers. Nothing else stands here: field extraction is in Decode, arithmetic in Machine. -/

namespace Sys2Proof

/-- A 32-bit word: a register's contents, an address while it is computed, an instruction (R9, R160). -/
abbrev Word := BitVec 32

/-- An 8-bit byte of memory (R100). -/
abbrev Byte := BitVec 8

/-- A 4-bit register specifier, 0 to 15 (R11, R161). -/
abbrev RegNum := BitVec 4

end Sys2Proof
end

