-- ==== Sys2Proof/Config.lean ====
section
/-! DEFINITION. What an implementation or a platform fixes (R8), as plain data, and the free values: constants with
no body, so that nothing can be proved of them but what holds of every value. -/

namespace Sys2Proof

/-- `THUMB_VARIANT` (R8, D2): what T = 1 means. -/
inductive ThumbVariant
  | t      -- T = 1 is Thumb execution
  | nonT   -- T = 1 forces the next instruction to take the Undefined Instruction exception
  deriving DecidableEq, Repr, Inhabited

/-- `PC_STORE_OFFSET` (R8, R48, D3): what STR and STM store for R15, as an offset from the instruction. -/
inductive PcStoreOffset
  | eight
  | twelve
  deriving DecidableEq, Repr, Inhabited

/-- `ABORT_MODEL` (R8, R573, D4). -/
inductive AbortModel
  | baseRestored
  | baseUpdated
  deriving DecidableEq, Repr, Inhabited

/-- `ENDIAN_SUPPORT` (R8, R104, D6). -/
inductive EndianSupport
  | little
  | big
  | both
  deriving DecidableEq, Repr, Inhabited

/-- The three kinds of access the memory system is asked about (R112). -/
inductive AccessKind
  | fetch
  | load
  | store
  deriving DecidableEq, Repr, Inhabited

/-- The three access widths (R114): `n` = 1, 2, 4 of `MemRead` and `MemWrite` (R12). -/
inductive Size
  | byte
  | half
  | word
  deriving DecidableEq, Repr, Inhabited

/-- One row of the host's table `MemAbort(addr, n, kind, privileged)` (R112, D8): an access is aborted when its
address lies in `lo..hi` and the row lists its width, its kind and its privilege. Every function of those four
arguments is some list of such rows. -/
structure AbortRule where
  lo : Nat
  hi : Nat
  sizes : List Size
  kinds : List AccessKind
  privileged : List Bool
  deriving DecidableEq, Repr, Inhabited

/-- A memory-mapped I/O region of the platform, `lo..hi` inclusive (R126, R132, D26). -/
structure IoRegion where
  lo : Nat
  hi : Nat
  deriving DecidableEq, Repr, Inhabited

/-- One access delivered to an I/O device, in program order (R126, R128, D14): a load, or a store with its value. -/
structure IoEvent where
  address : Word
  size : Size
  stored : Option Word
  deriving DecidableEq, Repr, Inhabited

/-- The host's stop condition (R20 (c), R21), in the two forms R20 names: a designated halt address, and a bound on the
number of steps. Neither given: the run is never stopped from outside. Assumption log 33. -/
structure StopCondition where
  haltAddress : Option Word
  stepBound : Option Nat
  deriving DecidableEq, Repr, Inhabited

/-- The parameters of R8, and the host's stop condition (R21), constant for a run. No step changes them. -/
structure Platform where
  thumbVariant : ThumbVariant
  pcStoreOffset : PcStoreOffset
  abortModel : AbortModel
  highVectorsSupported : Bool
  hivecs : Bool
  endianSupport : EndianSupport
  bigend : Bool
  alignCheck : Bool
  abortRules : List AbortRule
  ioRegions : List IoRegion
  stop : StopCondition
  deriving DecidableEq, Repr, Inhabited

/-- When a coprocessor accepts an instruction (R482), how many words its LDC or STC moves (R484), and whether the host
supplies the coprocessor's operation on these words (R20 (b)): the words `w` with `w AND mask = match`, for the
privileges listed. -/
structure CoprocRule where
  mask : Word
  bits : Word
  privileged : List Bool
  count : Nat
  supplied : Bool
  deriving DecidableEq, Repr, Inhabited

/-- A coprocessor attached by the host (R481): the instructions it now accepts, and its internal state, which the ARM
processor never looks at. Both may change with every operation (R483). -/
structure Coproc where
  accepts : List CoprocRule
  internal : List Word
  deriving DecidableEq, Repr, Inhabited

/-- A level of the three inputs at one instruction boundary (R21, R566, R575, R576), and whether an
Instruction Memory Barrier completes there (R121, D15). -/
structure Inputs where
  reset : Bool
  irq : Bool
  fiq : Bool
  imb : Bool
  deriving DecidableEq, Repr, Inhabited

/-- FREE VALUE (D3): the implementation's offset for a stored R15. Assumption log 3. -/
opaque Config.pcStoreOffset : PcStoreOffset

/-- FREE VALUE (D4): the implementation's abort model. Assumption log 4. -/
opaque Config.abortModel : AbortModel

/-- FREE VALUE: the `k`-th word drawn where the spec says "any value" (93 section 2, V1 to V8). Assumption log 5. -/
opaque Config.freeWord : Nat → Word

/-- FREE VALUE: the `k`-th byte drawn for a memory location after an aborted store (R113). Assumption log 5. -/
opaque Config.freeByte : Nat → Byte

/-- FREE VALUE: what a device answers to a load, given every access delivered before it (R116). Assumption log 8. -/
opaque Config.ioRead : List IoEvent → Word → Size → Word

/-- FREE VALUE: `cdp(s, w)` of R481. Assumption log 9. -/
opaque Config.cpCdp : Coproc → Word → Coproc

/-- FREE VALUE: `mcr(s, w, value)` of R481. Assumption log 9. -/
opaque Config.cpMcr : Coproc → Word → Word → Coproc

/-- FREE VALUE: the data of `mrc(s, w)` of R481. Assumption log 9. -/
opaque Config.cpMrcData : Coproc → Word → Word

/-- FREE VALUE: the new state of `mrc(s, w)` of R481. Assumption log 9. -/
opaque Config.cpMrc : Coproc → Word → Coproc

/-- FREE VALUE: `ldc(s, w, words)` of R481. Assumption log 9. -/
opaque Config.cpLdc : Coproc → Word → List Word → Coproc

/-- FREE VALUE: word `k` of the list of `stc(s, w)` of R481. Assumption log 9. -/
opaque Config.cpStcWord : Coproc → Word → Nat → Word

/-- FREE VALUE: the new state of `stc(s, w)` of R481. Assumption log 9. -/
opaque Config.cpStc : Coproc → Word → Coproc

/-- FREE VALUE: a member of `ldc_aborted(s, w)` of R481, chosen afresh by the draw number. Assumption log 9. -/
opaque Config.cpLdcAborted : Coproc → Word → Nat → Coproc

end Sys2Proof
end

