-- ==== Sys2Proof/Syntax.lean ====
section
/-! DEFINITION. The instructions: one constructor of `Instr` per row of spec/opcode_table.json, in the table's order,
with its operands as the spec names them. -/

namespace Sys2Proof

/-- The fifteen conditions of Table 3-1 (R164). The sixteenth pattern, 0b1111, is no condition in version 5: it
selects the unconditional instruction space (R166). -/
inductive Cond
  | eq | ne | cs | cc | mi | pl | vs | vc | hi | ls | ge | lt | gt | le | al
  deriving DecidableEq, Repr

/-- The four shift types of bits 6:5 (R262, R366). -/
inductive Shift
  | lsl | lsr | asr | ror
  deriving DecidableEq, Repr

/-- Addressing mode 1, the shifter operand (R251 to R262): its three layouts. -/
inductive Operand2
  | imm (rotate : BitVec 4) (immed : BitVec 8)
  | shiftImm (amount : BitVec 5) (shift : Shift) (rm : RegNum)
  | shiftReg (rs : RegNum) (shift : Shift) (rm : RegNum)
  deriving DecidableEq, Repr

/-- The offset of addressing mode 2 (R363): 12-bit immediate, or a register scaled by an immediate. -/
inductive Offset2
  | imm (offset : BitVec 12)
  | reg (amount : BitVec 5) (shift : Shift) (rm : RegNum)
  deriving DecidableEq, Repr

/-- How base and offset combine in addressing mode 2 (R360, R363: P and W). -/
inductive Index
  | offset | pre | post
  deriving DecidableEq, Repr

/-- The offset of addressing mode 3 (R376): 8-bit immediate, or a register with its should-be-zero bits 11:8. -/
inductive Offset3
  | imm (offset : BitVec 8)
  | reg (sbz : BitVec 4) (rm : RegNum)
  deriving DecidableEq, Repr

/-- Addressing mode 4 (R431): P and U. -/
inductive Mode4
  | da | ia | db | ib
  deriving DecidableEq, Repr

/-- Addressing mode 5 (R491 to R495): P, U, W and the low byte. P = U = W = 0 is no form (R225). -/
inductive Mode5
  | offset (up : Bool) (words : BitVec 8)
  | pre (up : Bool) (words : BitVec 8)
  | post (up : Bool) (words : BitVec 8)
  | unindexed (option : BitVec 8)
  deriving DecidableEq, Repr

/-- The instructions of the modelled version (R4, R202). The rows named UNDEFINED and UNPREDICTABLE keep the whole
word. Register operands are in the order Rn, Rd (or RdHi, RdLo, Rs, Rm) of the encoding rows. -/
inductive Instr
  | blx1 (h : Bool) (immed : BitVec 24)
  | undefCoprocSpace (w : Word)
  | cdp2 (op1 crn crd cp : BitVec 4) (op2 : BitVec 3) (crm : BitVec 4)
  | mcr2 (op1 : BitVec 3) (crn : BitVec 4) (rd : RegNum) (cp : BitVec 4) (op2 : BitVec 3) (crm : BitVec 4)
  | mrc2 (op1 : BitVec 3) (crn : BitVec 4) (rd : RegNum) (cp : BitVec 4) (op2 : BitVec 3) (crm : BitVec 4)
  | ldc2 (mode : Mode5) (n : Bool) (rn : RegNum) (crd cp : BitVec 4)
  | stc2 (mode : Mode5) (n : Bool) (rn : RegNum) (crd cp : BitVec 4)
  | undefUnconditional (w : Word)
  | bkpt (immedHi : BitVec 12) (immedLo : BitVec 4)
  | unpredBkpt (w : Word)
  | bx (cond : Cond) (rm : RegNum)
  | blx2 (cond : Cond) (rm : RegNum)
  | unpredBx (w : Word)
  | clz (cond : Cond) (rd rm : RegNum)
  | unpredClz (w : Word)
  | mrs (cond : Cond) (spsr : Bool) (rd : RegNum)
  | unpredMrs (w : Word)
  | msrReg (cond : Cond) (spsr : Bool) (mask : BitVec 4) (rm : RegNum)
  | unpredMsrReg (w : Word)
  | msrImm (cond : Cond) (spsr : Bool) (mask rotate : BitVec 4) (immed : BitVec 8)
  | unpredMsrImm (w : Word)
  | undefControlImm (w : Word)
  | mul (cond : Cond) (s : Bool) (rd rs rm : RegNum)
  | unpredMul (w : Word)
  | mla (cond : Cond) (s : Bool) (rd rn rs rm : RegNum)
  | undefArith (w : Word)
  | umull (cond : Cond) (s : Bool) (rdHi rdLo rs rm : RegNum)
  | umlal (cond : Cond) (s : Bool) (rdHi rdLo rs rm : RegNum)
  | smull (cond : Cond) (s : Bool) (rdHi rdLo rs rm : RegNum)
  | smlal (cond : Cond) (s : Bool) (rdHi rdLo rs rm : RegNum)
  | swp (cond : Cond) (rn rd rm : RegNum)
  | swpb (cond : Cond) (rn rd rm : RegNum)
  | unpredSwp (w : Word)
  | undefLoadStore (w : Word)
  | strh (cond : Cond) (p u w : Bool) (rn rd : RegNum) (off : Offset3)
  | ldrh (cond : Cond) (p u w : Bool) (rn rd : RegNum) (off : Offset3)
  | ldrsb (cond : Cond) (p u w : Bool) (rn rd : RegNum) (off : Offset3)
  | ldrsh (cond : Cond) (p u w : Bool) (rn rd : RegNum) (off : Offset3)
  | undefDouble (w : Word)
  | undefControlReg (w : Word)
  | and (cond : Cond) (s : Bool) (rn rd : RegNum) (op : Operand2)
  | eor (cond : Cond) (s : Bool) (rn rd : RegNum) (op : Operand2)
  | sub (cond : Cond) (s : Bool) (rn rd : RegNum) (op : Operand2)
  | rsb (cond : Cond) (s : Bool) (rn rd : RegNum) (op : Operand2)
  | add (cond : Cond) (s : Bool) (rn rd : RegNum) (op : Operand2)
  | adc (cond : Cond) (s : Bool) (rn rd : RegNum) (op : Operand2)
  | sbc (cond : Cond) (s : Bool) (rn rd : RegNum) (op : Operand2)
  | rsc (cond : Cond) (s : Bool) (rn rd : RegNum) (op : Operand2)
  | tst (cond : Cond) (rn : RegNum) (op : Operand2)
  | unpredTst (w : Word)
  | teq (cond : Cond) (rn : RegNum) (op : Operand2)
  | unpredTeq (w : Word)
  | cmp (cond : Cond) (rn : RegNum) (op : Operand2)
  | unpredCmp (w : Word)
  | cmn (cond : Cond) (rn : RegNum) (op : Operand2)
  | unpredCmn (w : Word)
  | orr (cond : Cond) (s : Bool) (rn rd : RegNum) (op : Operand2)
  | mov (cond : Cond) (s : Bool) (rd : RegNum) (op : Operand2)
  | unpredMov (w : Word)
  | bic (cond : Cond) (s : Bool) (rn rd : RegNum) (op : Operand2)
  | mvn (cond : Cond) (s : Bool) (rd : RegNum) (op : Operand2)
  | unpredMvn (w : Word)
  | undefSpace (w : Word)
  | ldrt (cond : Cond) (up : Bool) (rn rd : RegNum) (off : Offset2)
  | ldrbt (cond : Cond) (up : Bool) (rn rd : RegNum) (off : Offset2)
  | strt (cond : Cond) (up : Bool) (rn rd : RegNum) (off : Offset2)
  | strbt (cond : Cond) (up : Bool) (rn rd : RegNum) (off : Offset2)
  | ldr (cond : Cond) (idx : Index) (up : Bool) (rn rd : RegNum) (off : Offset2)
  | ldrb (cond : Cond) (idx : Index) (up : Bool) (rn rd : RegNum) (off : Offset2)
  | str (cond : Cond) (idx : Index) (up : Bool) (rn rd : RegNum) (off : Offset2)
  | strb (cond : Cond) (idx : Index) (up : Bool) (rn rd : RegNum) (off : Offset2)
  | ldm3 (cond : Cond) (mode : Mode4) (w : Bool) (rn : RegNum) (list : BitVec 15)
  | ldm2 (cond : Cond) (mode : Mode4) (w : Bool) (rn : RegNum) (list : BitVec 15)
  | ldm1 (cond : Cond) (mode : Mode4) (w : Bool) (rn : RegNum) (list : BitVec 16)
  | stm2 (cond : Cond) (mode : Mode4) (w : Bool) (rn : RegNum) (list : BitVec 16)
  | stm1 (cond : Cond) (mode : Mode4) (w : Bool) (rn : RegNum) (list : BitVec 16)
  | b (cond : Cond) (immed : BitVec 24)
  | bl (cond : Cond) (immed : BitVec 24)
  | ldc (cond : Cond) (mode : Mode5) (n : Bool) (rn : RegNum) (crd cp : BitVec 4)
  | stc (cond : Cond) (mode : Mode5) (n : Bool) (rn : RegNum) (crd cp : BitVec 4)
  | cdp (cond : Cond) (op1 crn crd cp : BitVec 4) (op2 : BitVec 3) (crm : BitVec 4)
  | mcr (cond : Cond) (op1 : BitVec 3) (crn : BitVec 4) (rd : RegNum) (cp : BitVec 4) (op2 : BitVec 3)
      (crm : BitVec 4)
  | mrc (cond : Cond) (op1 : BitVec 3) (crn : BitVec 4) (rd : RegNum) (cp : BitVec 4) (op2 : BitVec 3)
      (crm : BitVec 4)
  | swi (cond : Cond) (immed : BitVec 24)
  deriving DecidableEq, Repr

end Sys2Proof
end

