-- ==== Sys2Proof/WellFormed.lean ====
section
/-! DEFINITION. Which instructions are UNPREDICTABLE by their word alone (R221, R222 (1); 93 section 3.1, U1 to U17)
and which are well formed: not UNPREDICTABLE, and, for an UNDEFINED row, a word of that space (R218 to R226). -/

namespace Sys2Proof

/-- Why a word is UNPREDICTABLE at the level of its encoding (93 section 3.1). -/
inductive EncodingFault
  /-- U1: a should-be-zero bit is 1, a should-be-one bit is 0, or a fixed bit differs (R221, R267). -/
  | fixedBits
  /-- U2: BKPT with a condition other than AL (R472). -/
  | bkptCondition
  /-- U3 to U7, U10, U15, U16: R15 where the instruction's page forbids it as an operand or destination. -/
  | pcOperand
  /-- U5, U15: two register fields that must differ name one register (R322, R462). -/
  | sameRegister
  /-- U9, U11, U17: base register writeback with Rn = R15 (R373, R383, R493, R494). -/
  | pcBaseWriteback
  /-- U9, U11: the index register Rm is R15 (R365 to R372, R378 to R382). -/
  | pcIndex
  /-- U9, U11: Rm = Rn in a form that writes Rn back (R373, R383). -/
  | indexIsBase
  /-- U9, U11: Rd = Rn in a form that writes Rn back (R373, R383, R385). -/
  | dataIsBase
  /-- U11: P = 0 with W = 1 in addressing mode 3 (R376). -/
  | postIndexedW
  /-- U13: LDM or STM with Rn = R15 (R433). -/
  | pcBase
  /-- U13: LDM or STM with an empty register list (R430). -/
  | emptyList
  /-- U14: W = 1 in LDM (2) or STM (2) (R435, R438). -/
  | userBankWriteback
  deriving DecidableEq, Repr

/-- The first check that applies, of a list of checks. -/
def firstFault : List (Bool × EncodingFault) → Option EncodingFault
  | [] => none
  | (hit, why) :: rest => if hit then some why else firstFault rest

/-- U4: with a register-specified shift amount, R15 as Rd, Rm, Rn or Rs is UNPREDICTABLE (R262). `others` are the
Rd and Rn fields the instruction has. -/
def Operand2.unpredictable (op : Operand2) (others : List RegNum) : Option EncodingFault :=
  match op with
  | .imm _ _ => none
  | .shiftImm _ _ _ => none
  | .shiftReg rs _ rm => firstFault [((rs :: rm :: others).contains 15#4, .pcOperand)]

/-- The restrictions of addressing mode 2, R373: `wb` says whether the form writes Rn back. -/
def mode2Checks (wb : Bool) (rn rd : RegNum) (off : Offset2) : List (Bool × EncodingFault) :=
  [(wb && rn == 15#4, .pcBaseWriteback), (wb && rd == rn, .dataIsBase)] ++
  match off with
  | .imm _ => []
  | .reg _ _ rm => [(rm == 15#4, .pcIndex), (wb && rm == rn, .indexIsBase)]

/-- The restrictions of addressing mode 3, R383, those on P, W and the should-be-zero bits included. -/
def mode3Checks (p w : Bool) (rn rd : RegNum) (off : Offset3) : List (Bool × EncodingFault) :=
  let wb := !p || w
  [(!p && w, .postIndexedW), (rd == 15#4, .pcOperand), (wb && rn == 15#4, .pcBaseWriteback),
    (wb && rd == rn, .dataIsBase)] ++
  match off with
  | .imm _ => []
  | .reg sbz rm => [(sbz != 0#4, .fixedBits), (rm == 15#4, .pcIndex), (wb && rm == rn, .indexIsBase)]

/-- Whether the form of addressing mode 2 writes the base register back (R363). -/
def Index.writesBack (idx : Index) : Bool :=
  match idx with
  | .offset => false
  | .pre => true
  | .post => true

/-- Whether the form of addressing mode 5 writes the base register back (R491). -/
def Mode5.writesBack (m : Mode5) : Bool :=
  match m with
  | .offset _ _ => false
  | .pre _ _ => true
  | .post _ _ => true
  | .unindexed _ => false

/-- U5 for MUL and MLA: R15 in any register field, or Rd = Rm (R322). -/
def mulFault (rd rm : RegNum) (others : List RegNum) : Option EncodingFault :=
  firstFault [((rd :: rm :: others).contains 15#4, .pcOperand), (rd == rm, .sameRegister)]

/-- U5 for the long multiplies: R15 anywhere, or RdHi, RdLo, Rm not three distinct registers (R322). -/
def mulLongFault (rdHi rdLo rs rm : RegNum) : Option EncodingFault :=
  firstFault [([rdHi, rdLo, rs, rm].contains 15#4, .pcOperand),
    (rdHi == rdLo || rdHi == rm || rdLo == rm, .sameRegister)]

/-- U15 for SWP and SWPB: R15 anywhere, Rn = Rm or Rn = Rd (R462). -/
def swapFault (rn rd rm : RegNum) : Option EncodingFault :=
  firstFault [([rn, rd, rm].contains 15#4, .pcOperand), (rn == rm || rn == rd, .sameRegister)]

/-- Why an instruction is UNPREDICTABLE by its encoding alone, if it is (R221, R222 (1)). -/
def Instr.unpredictable : Instr → Option EncodingFault
  | .blx1 _ _ => none
  | .undefCoprocSpace _ => none
  | .cdp2 _ _ _ _ _ _ => none
  | .mcr2 _ _ rd _ _ _ => firstFault [(rd == 15#4, .pcOperand)]
  | .mrc2 _ _ _ _ _ _ => none
  | .ldc2 mode _ rn _ _ => firstFault [(mode.writesBack && rn == 15#4, .pcBaseWriteback)]
  | .stc2 mode _ rn _ _ => firstFault [(mode.writesBack && rn == 15#4, .pcBaseWriteback)]
  | .undefUnconditional _ => none
  | .bkpt _ _ => none
  | .unpredBkpt _ => some .bkptCondition
  | .bx _ _ => none
  | .blx2 _ rm => firstFault [(rm == 15#4, .pcOperand)]
  | .unpredBx _ => some .fixedBits
  | .clz _ rd rm => firstFault [(rd == 15#4 || rm == 15#4, .pcOperand)]
  | .unpredClz _ => some .fixedBits
  | .mrs _ _ rd => firstFault [(rd == 15#4, .pcOperand)]
  | .unpredMrs _ => some .fixedBits
  | .msrReg _ _ _ _ => none
  | .unpredMsrReg _ => some .fixedBits
  | .msrImm _ _ _ _ _ => none
  | .unpredMsrImm _ => some .fixedBits
  | .undefControlImm _ => none
  | .mul _ _ rd rs rm => mulFault rd rm [rs]
  | .unpredMul _ => some .fixedBits
  | .mla _ _ rd rn rs rm => mulFault rd rm [rn, rs]
  | .undefArith _ => none
  | .umull _ _ rdHi rdLo rs rm => mulLongFault rdHi rdLo rs rm
  | .umlal _ _ rdHi rdLo rs rm => mulLongFault rdHi rdLo rs rm
  | .smull _ _ rdHi rdLo rs rm => mulLongFault rdHi rdLo rs rm
  | .smlal _ _ rdHi rdLo rs rm => mulLongFault rdHi rdLo rs rm
  | .swp _ rn rd rm => swapFault rn rd rm
  | .swpb _ rn rd rm => swapFault rn rd rm
  | .unpredSwp _ => some .fixedBits
  | .undefLoadStore _ => none
  | .strh _ p _ w rn rd off => firstFault (mode3Checks p w rn rd off)
  | .ldrh _ p _ w rn rd off => firstFault (mode3Checks p w rn rd off)
  | .ldrsb _ p _ w rn rd off => firstFault (mode3Checks p w rn rd off)
  | .ldrsh _ p _ w rn rd off => firstFault (mode3Checks p w rn rd off)
  | .undefDouble _ => none
  | .undefControlReg _ => none
  | .and _ _ rn rd op => op.unpredictable [rn, rd]
  | .eor _ _ rn rd op => op.unpredictable [rn, rd]
  | .sub _ _ rn rd op => op.unpredictable [rn, rd]
  | .rsb _ _ rn rd op => op.unpredictable [rn, rd]
  | .add _ _ rn rd op => op.unpredictable [rn, rd]
  | .adc _ _ rn rd op => op.unpredictable [rn, rd]
  | .sbc _ _ rn rd op => op.unpredictable [rn, rd]
  | .rsc _ _ rn rd op => op.unpredictable [rn, rd]
  | .tst _ rn op => op.unpredictable [rn]
  | .unpredTst _ => some .fixedBits
  | .teq _ rn op => op.unpredictable [rn]
  | .unpredTeq _ => some .fixedBits
  | .cmp _ rn op => op.unpredictable [rn]
  | .unpredCmp _ => some .fixedBits
  | .cmn _ rn op => op.unpredictable [rn]
  | .unpredCmn _ => some .fixedBits
  | .orr _ _ rn rd op => op.unpredictable [rn, rd]
  | .mov _ _ rd op => op.unpredictable [rd]
  | .unpredMov _ => some .fixedBits
  | .bic _ _ rn rd op => op.unpredictable [rn, rd]
  | .mvn _ _ rd op => op.unpredictable [rd]
  | .unpredMvn _ => some .fixedBits
  | .undefSpace _ => none
  | .ldrt _ _ rn rd off => firstFault ((rd == 15#4, .pcOperand) :: mode2Checks true rn rd off)
  | .ldrbt _ _ rn rd off => firstFault ((rd == 15#4, .pcOperand) :: mode2Checks true rn rd off)
  | .strt _ _ rn rd off => firstFault (mode2Checks true rn rd off)
  | .strbt _ _ rn rd off => firstFault ((rd == 15#4, .pcOperand) :: mode2Checks true rn rd off)
  | .ldr _ idx _ rn rd off => firstFault (mode2Checks idx.writesBack rn rd off)
  | .ldrb _ idx _ rn rd off => firstFault ((rd == 15#4, .pcOperand) :: mode2Checks idx.writesBack rn rd off)
  | .str _ idx _ rn rd off => firstFault (mode2Checks idx.writesBack rn rd off)
  | .strb _ idx _ rn rd off => firstFault ((rd == 15#4, .pcOperand) :: mode2Checks idx.writesBack rn rd off)
  | .ldm3 _ _ _ rn _ => firstFault [(rn == 15#4, .pcBase)]
  | .ldm2 _ _ w rn list =>
      firstFault [(rn == 15#4, .pcBase), (list == 0#15, .emptyList), (w, .userBankWriteback)]
  | .ldm1 _ _ _ rn list => firstFault [(rn == 15#4, .pcBase), (list == 0#16, .emptyList)]
  | .stm2 _ _ w rn list =>
      firstFault [(rn == 15#4, .pcBase), (list == 0#16, .emptyList), (w, .userBankWriteback)]
  | .stm1 _ _ _ rn list => firstFault [(rn == 15#4, .pcBase), (list == 0#16, .emptyList)]
  | .b _ _ => none
  | .bl _ _ => none
  | .ldc _ mode _ rn _ _ => firstFault [(mode.writesBack && rn == 15#4, .pcBaseWriteback)]
  | .stc _ mode _ rn _ _ => firstFault [(mode.writesBack && rn == 15#4, .pcBaseWriteback)]
  | .cdp _ _ _ _ _ _ _ => none
  | .mcr _ _ _ rd _ _ _ => firstFault [(rd == 15#4, .pcOperand)]
  | .mrc _ _ _ _ _ _ _ => none
  | .swi _ _ => none

/-- Bits `lo + len - 1 : lo` of a word equal a constant. -/
def Word.has (w : Word) (lo len : Nat) (v : Nat) : Bool := w.extractLsb' lo len == BitVec.ofNat len v

/-- R225: the coprocessor instruction extension space, whatever bits 31:28. -/
def inCoprocSpace (w : Word) : Bool := Word.has w 23 5 0b11000 && Word.has w 21 1 0

/-- R226: the unallocated part of the unconditional space. -/
def inUnconditionalSpace (w : Word) : Bool :=
  Word.has w 28 4 15 && (Word.has w 27 1 0 || Word.has w 25 3 0b100 || Word.has w 24 4 0b1111)

/-- R223: the control extension space with bit 25 = 1, unallocated (op1 = x0). -/
def inControlImmSpace (w : Word) : Bool :=
  !Word.has w 28 4 15 && Word.has w 23 5 0b00110 && Word.has w 20 2 0

/-- R219: the arithmetic extension space, op1 = 010x and 011x. -/
def inArithSpace (w : Word) : Bool :=
  !Word.has w 28 4 15 && Word.has w 24 4 0 && Word.has w 22 2 1 && Word.has w 4 4 0b1001

/-- R224: the load/store extension space with bits 6:5 = 00, other than SWP and SWPB. -/
def inLoadStoreSpace (w : Word) : Bool :=
  !Word.has w 28 4 15 && Word.has w 24 4 1 && Word.has w 4 4 0b1001 && !(Word.has w 23 1 0 && Word.has w 20 2 0)

/-- R224: the load/store extension space with bit 6 = 1 and L = 0 (LDRD and STRD of E variants). -/
def inDoubleSpace (w : Word) : Bool :=
  !Word.has w 28 4 15 && Word.has w 25 3 0 && Word.has w 20 1 0 && Word.has w 6 2 3 && Word.has w 4 1 1

/-- R223, R174: the control extension space with bit 25 = 0, unallocated. -/
def inControlRegSpace (w : Word) : Bool :=
  !Word.has w 28 4 15 && Word.has w 23 5 0b00010 && Word.has w 20 1 0 && !(Word.has w 7 1 1 && Word.has w 4 1 1) &&
  !Word.has w 4 4 0b0000 &&
  !(Word.has w 4 4 0b0001 && Word.has w 21 1 1) &&
  !(Word.has w 4 4 0b0011 && Word.has w 21 2 1) &&
  !(Word.has w 4 4 0b0111 && Word.has w 21 2 1)

/-- R218: the undefined instruction space. -/
def inUndefinedSpace (w : Word) : Bool :=
  !Word.has w 28 4 15 && Word.has w 25 3 0b011 && Word.has w 4 1 1

/-- The space an UNDEFINED row's word must lie in; every other constructor has no such condition. -/
def Instr.inItsSpace : Instr → Bool
  | .undefCoprocSpace w => inCoprocSpace w
  | .undefUnconditional w => inUnconditionalSpace w
  | .undefControlImm w => inControlImmSpace w
  | .undefArith w => inArithSpace w
  | .undefLoadStore w => inLoadStoreSpace w
  | .undefDouble w => inDoubleSpace w
  | .undefControlReg w => inControlRegSpace w
  | .undefSpace w => inUndefinedSpace w
  | _ => true

/-- A well-formed instruction: not UNPREDICTABLE by its encoding, and, for an UNDEFINED row, in its space. The rows
named UNPREDICTABLE have no well-formed instruction. -/
def Instr.wellFormed (i : Instr) : Bool := i.unpredictable == none && i.inItsSpace

end Sys2Proof
end

