-- ==== Sys2Proof/Decode.lean ====
section
/-! DEFINITION. The decoder: from a 32-bit word, or from its bytes, to an instruction (R160 to R182, R218 to R228), and
after it the encoder, written from the same encoding rows. The decoder reads every word; it refuses only a byte string
that is not one whole instruction. -/

namespace Sys2Proof

/-- Bits `lo + len - 1 : lo` of a word (R9). -/
def bits (w : Word) (lo len : Nat) : BitVec len := w.extractLsb' lo len

/-- Bit `i` of a word (R9). -/
def bit (w : Word) (i : Nat) : Bool := w.getLsbD i

/-- Table 3-1 (R164). 0b1111 is never asked of it: such a word is in the unconditional space (R166). -/
def Cond.ofBits (c : BitVec 4) : Cond :=
  if c = 0 then .eq else if c = 1 then .ne else if c = 2 then .cs else if c = 3 then .cc
  else if c = 4 then .mi else if c = 5 then .pl else if c = 6 then .vs else if c = 7 then .vc
  else if c = 8 then .hi else if c = 9 then .ls else if c = 10 then .ge else if c = 11 then .lt
  else if c = 12 then .gt else if c = 13 then .le else .al

/-- Bits 31:28 of a conditional instruction (R164). -/
def Cond.toBits : Cond → BitVec 4
  | .eq => 0 | .ne => 1 | .cs => 2 | .cc => 3 | .mi => 4 | .pl => 5 | .vs => 6 | .vc => 7
  | .hi => 8 | .ls => 9 | .ge => 10 | .lt => 11 | .gt => 12 | .le => 13 | .al => 14

/-- Bits 6:5 (R262, R366). -/
def Shift.ofBits (s : BitVec 2) : Shift :=
  if s = 0 then .lsl else if s = 1 then .lsr else if s = 2 then .asr else .ror

/-- Bits 6:5 (R262, R366). -/
def Shift.toBits : Shift → BitVec 2
  | .lsl => 0 | .lsr => 1 | .asr => 2 | .ror => 3

/-- P and U of addressing mode 4 (R431). -/
def Mode4.ofBits (p u : Bool) : Mode4 :=
  match p, u with
  | false, false => .da
  | false, true => .ia
  | true, false => .db
  | true, true => .ib

/-- P and U of addressing mode 4 (R431). -/
def Mode4.toBits : Mode4 → BitVec 2
  | .da => 0b00 | .ia => 0b01 | .db => 0b10 | .ib => 0b11

/-- P, U, W and bits 7:0 of addressing mode 5 (R491). P = U = W = 0 is tested before (R180). -/
def Mode5.ofWord (w : Word) : Mode5 :=
  if bit w 24 then
    if bit w 21 then .pre (bit w 23) (bits w 0 8) else .offset (bit w 23) (bits w 0 8)
  else
    if bit w 21 then .post (bit w 23) (bits w 0 8) else .unindexed (bits w 0 8)

/-- Bits 24:23, P and U (R491). -/
def Mode5.puBits : Mode5 → BitVec 2
  | .offset up _ => 1#1 ++ BitVec.ofBool up
  | .pre up _ => 1#1 ++ BitVec.ofBool up
  | .post up _ => 0#1 ++ BitVec.ofBool up
  | .unindexed _ => 0b01

/-- Bit 21, W (R491). -/
def Mode5.wBit : Mode5 → BitVec 1
  | .offset _ _ => 0
  | .pre _ _ => 1
  | .post _ _ => 1
  | .unindexed _ => 0

/-- Bits 7:0 (R491, R495). -/
def Mode5.low : Mode5 → BitVec 8
  | .offset _ words => words
  | .pre _ words => words
  | .post _ words => words
  | .unindexed option => option

/-- The shifter operand of bits 25 and 11:0 (R262). -/
def Operand2.ofWord (w : Word) : Operand2 :=
  if bit w 25 then .imm (bits w 8 4) (bits w 0 8)
  else if bit w 4 then .shiftReg (bits w 8 4) (Shift.ofBits (bits w 5 2)) (bits w 0 4)
  else .shiftImm (bits w 7 5) (Shift.ofBits (bits w 5 2)) (bits w 0 4)

/-- Bit 25 of the shifter operand (R262). -/
def Operand2.iBit : Operand2 → BitVec 1
  | .imm _ _ => 1
  | .shiftImm _ _ _ => 0
  | .shiftReg _ _ _ => 0

/-- Bits 11:0 of the shifter operand (R262). -/
def Operand2.low : Operand2 → BitVec 12
  | .imm rotate immed => rotate ++ immed
  | .shiftImm amount sh rm => amount ++ sh.toBits ++ 0#1 ++ rm
  | .shiftReg rs sh rm => rs ++ 0#1 ++ sh.toBits ++ 1#1 ++ rm

/-- The offset of addressing mode 2 (R363). -/
def Offset2.ofWord (w : Word) : Offset2 :=
  if bit w 25 then .reg (bits w 7 5) (Shift.ofBits (bits w 5 2)) (bits w 0 4) else .imm (bits w 0 12)

/-- Bit 25 of addressing mode 2 (R363). -/
def Offset2.iBit : Offset2 → BitVec 1
  | .imm _ => 0
  | .reg _ _ _ => 1

/-- Bits 11:0 of addressing mode 2 (R363). -/
def Offset2.low : Offset2 → BitVec 12
  | .imm offset => offset
  | .reg amount sh rm => amount ++ sh.toBits ++ 0#1 ++ rm

/-- P and W of addressing mode 2 (R363), the T forms apart. -/
def Index.ofBits (p w : Bool) : Index := if p then (if w then .pre else .offset) else .post

/-- Bit 24, P (R363). -/
def Index.pBit : Index → BitVec 1
  | .offset => 1 | .pre => 1 | .post => 0

/-- Bit 21, W (R363). -/
def Index.wBit : Index → BitVec 1
  | .offset => 0 | .pre => 1 | .post => 0

/-- The offset of addressing mode 3 (R376): bit 22, bits 11:8 and 3:0. -/
def Offset3.ofWord (w : Word) : Offset3 :=
  if bit w 22 then .imm (bits w 8 4 ++ bits w 0 4) else .reg (bits w 8 4) (bits w 0 4)

/-- Bit 22 of addressing mode 3 (R376). -/
def Offset3.iBit : Offset3 → BitVec 1
  | .imm _ => 1
  | .reg _ _ => 0

/-- Bits 11:8 of addressing mode 3 (R376). -/
def Offset3.high : Offset3 → BitVec 4
  | .imm offset => offset.extractLsb' 4 4
  | .reg sbz _ => sbz

/-- Bits 3:0 of addressing mode 3 (R376). -/
def Offset3.low : Offset3 → BitVec 4
  | .imm offset => offset.extractLsb' 0 4
  | .reg _ rm => rm

/-- R182, the unconditional instruction space, bits 31:28 = 0b1111 (and R225 before LDC2 and STC2). -/
def decodeUnconditional (w : Word) : Instr :=
  if bits w 25 3 = 0b101 then .blx1 (bit w 24) (bits w 0 24)
  else if bits w 25 3 = 0b110 then
    if bits w 23 2 = 0 ∧ bits w 21 1 = 0 then .undefCoprocSpace w
    else if bit w 20 then .ldc2 (Mode5.ofWord w) (bit w 22) (bits w 16 4) (bits w 12 4) (bits w 8 4)
    else .stc2 (Mode5.ofWord w) (bit w 22) (bits w 16 4) (bits w 12 4) (bits w 8 4)
  else if bits w 24 4 = 0b1110 then
    if bits w 4 1 = 0 then
      .cdp2 (bits w 20 4) (bits w 16 4) (bits w 12 4) (bits w 8 4) (bits w 5 3) (bits w 0 4)
    else if bits w 20 1 = 0 then
      .mcr2 (bits w 21 3) (bits w 16 4) (bits w 12 4) (bits w 8 4) (bits w 5 3) (bits w 0 4)
    else .mrc2 (bits w 21 3) (bits w 16 4) (bits w 12 4) (bits w 8 4) (bits w 5 3) (bits w 0 4)
  else .undefUnconditional w

/-- R172, Figure 3-2: bits 27:25 = 000, bit 7 = 1, bit 4 = 1. -/
def decodeMultiplies (w : Word) : Instr :=
  let c := Cond.ofBits (bits w 28 4)
  if bits w 5 2 = 0 then
    if bits w 24 1 = 0 then
      if bits w 21 3 = 0 then
        if bits w 12 4 = 0 then .mul c (bit w 20) (bits w 16 4) (bits w 8 4) (bits w 0 4) else .unpredMul w
      else if bits w 21 3 = 1 then .mla c (bit w 20) (bits w 16 4) (bits w 12 4) (bits w 8 4) (bits w 0 4)
      else if bits w 21 3 = 4 then .umull c (bit w 20) (bits w 16 4) (bits w 12 4) (bits w 8 4) (bits w 0 4)
      else if bits w 21 3 = 5 then .umlal c (bit w 20) (bits w 16 4) (bits w 12 4) (bits w 8 4) (bits w 0 4)
      else if bits w 21 3 = 6 then .smull c (bit w 20) (bits w 16 4) (bits w 12 4) (bits w 8 4) (bits w 0 4)
      else if bits w 21 3 = 7 then .smlal c (bit w 20) (bits w 16 4) (bits w 12 4) (bits w 8 4) (bits w 0 4)
      else .undefArith w
    else if bits w 23 1 = 0 ∧ bits w 20 2 = 0 then
      if bits w 8 4 = 0 then
        if bits w 22 1 = 0 then .swp c (bits w 16 4) (bits w 12 4) (bits w 0 4)
        else .swpb c (bits w 16 4) (bits w 12 4) (bits w 0 4)
      else .unpredSwp w
    else .undefLoadStore w
  else if bits w 5 2 = 1 then
    if bits w 20 1 = 0 then
      .strh c (bit w 24) (bit w 23) (bit w 21) (bits w 16 4) (bits w 12 4) (Offset3.ofWord w)
    else .ldrh c (bit w 24) (bit w 23) (bit w 21) (bits w 16 4) (bits w 12 4) (Offset3.ofWord w)
  else if bits w 20 1 = 0 then .undefDouble w
  else if bits w 5 2 = 2 then
    .ldrsb c (bit w 24) (bit w 23) (bit w 21) (bits w 16 4) (bits w 12 4) (Offset3.ofWord w)
  else .ldrsh c (bit w 24) (bit w 23) (bit w 21) (bits w 16 4) (bits w 12 4) (Offset3.ofWord w)

/-- R174, Figure 3-3: bits 27:23 = 00010, bit 20 = 0, bits 7 and 4 not both 1. -/
def decodeMisc (w : Word) : Instr :=
  let c := Cond.ofBits (bits w 28 4)
  if bits w 4 4 = 0b0000 then
    if bits w 21 1 = 0 then
      if bits w 16 4 = 15 ∧ bits w 0 12 = 0 then .mrs c (bit w 22) (bits w 12 4) else .unpredMrs w
    else
      if bits w 12 4 = 15 ∧ bits w 8 4 = 0 then .msrReg c (bit w 22) (bits w 16 4) (bits w 0 4) else .unpredMsrReg w
  else if bits w 4 4 = 0b0001 then
    if bits w 21 2 = 1 then
      if bits w 8 12 = 0xFFF then .bx c (bits w 0 4) else .unpredBx w
    else if bits w 21 2 = 3 then
      if bits w 16 4 = 15 ∧ bits w 8 4 = 15 then .clz c (bits w 12 4) (bits w 0 4) else .unpredClz w
    else .undefControlReg w
  else if bits w 4 4 = 0b0011 then
    if bits w 21 2 = 1 then
      if bits w 8 12 = 0xFFF then .blx2 c (bits w 0 4) else .unpredBx w
    else .undefControlReg w
  else if bits w 4 4 = 0b0111 then
    if bits w 21 2 = 1 then
      if bits w 28 4 = 14 then .bkpt (bits w 8 12) (bits w 0 4) else .unpredBkpt w
    else .undefControlReg w
  else .undefControlReg w

/-- R190, R267: the sixteen data-processing instructions by bits 24:21, and their should-be-zero fields. -/
def decodeDataProcessing (w : Word) : Instr :=
  let c := Cond.ofBits (bits w 28 4)
  let op := Operand2.ofWord w
  if bits w 21 4 = 0 then .and c (bit w 20) (bits w 16 4) (bits w 12 4) op
  else if bits w 21 4 = 1 then .eor c (bit w 20) (bits w 16 4) (bits w 12 4) op
  else if bits w 21 4 = 2 then .sub c (bit w 20) (bits w 16 4) (bits w 12 4) op
  else if bits w 21 4 = 3 then .rsb c (bit w 20) (bits w 16 4) (bits w 12 4) op
  else if bits w 21 4 = 4 then .add c (bit w 20) (bits w 16 4) (bits w 12 4) op
  else if bits w 21 4 = 5 then .adc c (bit w 20) (bits w 16 4) (bits w 12 4) op
  else if bits w 21 4 = 6 then .sbc c (bit w 20) (bits w 16 4) (bits w 12 4) op
  else if bits w 21 4 = 7 then .rsc c (bit w 20) (bits w 16 4) (bits w 12 4) op
  else if bits w 21 4 = 8 then if bits w 12 4 = 0 then .tst c (bits w 16 4) op else .unpredTst w
  else if bits w 21 4 = 9 then if bits w 12 4 = 0 then .teq c (bits w 16 4) op else .unpredTeq w
  else if bits w 21 4 = 10 then if bits w 12 4 = 0 then .cmp c (bits w 16 4) op else .unpredCmp w
  else if bits w 21 4 = 11 then if bits w 12 4 = 0 then .cmn c (bits w 16 4) op else .unpredCmn w
  else if bits w 21 4 = 12 then .orr c (bit w 20) (bits w 16 4) (bits w 12 4) op
  else if bits w 21 4 = 13 then if bits w 16 4 = 0 then .mov c (bit w 20) (bits w 12 4) op else .unpredMov w
  else if bits w 21 4 = 14 then .bic c (bit w 20) (bits w 16 4) (bits w 12 4) op
  else if bits w 16 4 = 0 then .mvn c (bit w 20) (bits w 12 4) op else .unpredMvn w

/-- R176: bits 27:25 = 001 with bits 24:23 = 10 and bit 20 = 0. -/
def decodeMsrImmediate (w : Word) : Instr :=
  if bits w 21 1 = 1 then
    if bits w 12 4 = 15 then
      .msrImm (Cond.ofBits (bits w 28 4)) (bit w 22) (bits w 16 4) (bits w 8 4) (bits w 0 8)
    else .unpredMsrImm w
  else .undefControlImm w

/-- R177: load and store word or unsigned byte. -/
def decodeLoadStore (w : Word) : Instr :=
  let c := Cond.ofBits (bits w 28 4)
  let off := Offset2.ofWord w
  if bits w 24 1 = 0 ∧ bits w 21 1 = 1 then
    if bits w 20 1 = 1 then
      if bits w 22 1 = 0 then .ldrt c (bit w 23) (bits w 16 4) (bits w 12 4) off
      else .ldrbt c (bit w 23) (bits w 16 4) (bits w 12 4) off
    else
      if bits w 22 1 = 0 then .strt c (bit w 23) (bits w 16 4) (bits w 12 4) off
      else .strbt c (bit w 23) (bits w 16 4) (bits w 12 4) off
  else
    let idx := Index.ofBits (bit w 24) (bit w 21)
    if bits w 20 1 = 1 then
      if bits w 22 1 = 0 then .ldr c idx (bit w 23) (bits w 16 4) (bits w 12 4) off
      else .ldrb c idx (bit w 23) (bits w 16 4) (bits w 12 4) off
    else
      if bits w 22 1 = 0 then .str c idx (bit w 23) (bits w 16 4) (bits w 12 4) off
      else .strb c idx (bit w 23) (bits w 16 4) (bits w 12 4) off

/-- R178: load and store multiple. -/
def decodeMultiple (w : Word) : Instr :=
  let c := Cond.ofBits (bits w 28 4)
  let m := Mode4.ofBits (bit w 24) (bit w 23)
  if bits w 20 1 = 1 then
    if bits w 22 1 = 0 then .ldm1 c m (bit w 21) (bits w 16 4) (bits w 0 16)
    else if bits w 15 1 = 0 then .ldm2 c m (bit w 21) (bits w 16 4) (bits w 0 15)
    else .ldm3 c m (bit w 21) (bits w 16 4) (bits w 0 15)
  else if bits w 22 1 = 0 then .stm1 c m (bit w 21) (bits w 16 4) (bits w 0 16)
  else .stm2 c m (bit w 21) (bits w 16 4) (bits w 0 16)

/-- R170, R171: the conditional words. -/
def decodeConditional (w : Word) : Instr :=
  let c := Cond.ofBits (bits w 28 4)
  if bits w 25 3 = 0b000 then
    if bits w 7 1 = 1 ∧ bits w 4 1 = 1 then decodeMultiplies w
    else if bits w 23 2 = 0b10 ∧ bits w 20 1 = 0 then decodeMisc w
    else decodeDataProcessing w
  else if bits w 25 3 = 0b001 then
    if bits w 23 2 = 0b10 ∧ bits w 20 1 = 0 then decodeMsrImmediate w else decodeDataProcessing w
  else if bits w 25 3 = 0b010 then decodeLoadStore w
  else if bits w 25 3 = 0b011 then
    if bits w 4 1 = 0 then decodeLoadStore w else .undefSpace w
  else if bits w 25 3 = 0b100 then decodeMultiple w
  else if bits w 25 3 = 0b101 then
    if bits w 24 1 = 0 then .b c (bits w 0 24) else .bl c (bits w 0 24)
  else if bits w 25 3 = 0b110 then
    if bits w 23 2 = 0 ∧ bits w 21 1 = 0 then .undefCoprocSpace w
    else if bits w 20 1 = 1 then .ldc c (Mode5.ofWord w) (bit w 22) (bits w 16 4) (bits w 12 4) (bits w 8 4)
    else .stc c (Mode5.ofWord w) (bit w 22) (bits w 16 4) (bits w 12 4) (bits w 8 4)
  else if bits w 24 1 = 1 then .swi c (bits w 0 24)
  else if bits w 4 1 = 0 then
    .cdp c (bits w 20 4) (bits w 16 4) (bits w 12 4) (bits w 8 4) (bits w 5 3) (bits w 0 4)
  else if bits w 20 1 = 0 then
    .mcr c (bits w 21 3) (bits w 16 4) (bits w 12 4) (bits w 8 4) (bits w 5 3) (bits w 0 4)
  else .mrc c (bits w 21 3) (bits w 16 4) (bits w 12 4) (bits w 8 4) (bits w 5 3) (bits w 0 4)

/-- R170: the instruction a 32-bit word is. Every word is one: a defined instruction, an UNDEFINED row or an
UNPREDICTABLE row (R202). -/
def decodeWord (w : Word) : Instr :=
  if bits w 28 4 = 15 then decodeUnconditional w else decodeConditional w

/-- Why a byte string is no instruction. -/
inductive Reject
  /-- Fewer than four bytes: an ARM instruction is one whole 32-bit word (R160). -/
  | truncated
  /-- More than four bytes: the decoder reads one instruction (R160). -/
  | trailing
  deriving DecidableEq, Repr

/-- The word of four bytes, lowest address first, in the little-endian mapping (R106). -/
def wordOfBytes (b0 b1 b2 b3 : Byte) : Word := b3 ++ b2 ++ b1 ++ b0

/-- The four bytes of a word, lowest address first, in the little-endian mapping (R106). -/
def bytesOfWord (w : Word) : List Byte :=
  [w.extractLsb' 0 8, w.extractLsb' 8 8, w.extractLsb' 16 8, w.extractLsb' 24 8]

/-- The decoder on bytes: total, rejecting by name what is not one 4-byte instruction. -/
def decode : List Byte → Except Reject Instr
  | [b0, b1, b2, b3] => .ok (decodeWord (wordOfBytes b0 b1 b2 b3))
  | [] => .error .truncated
  | [_] => .error .truncated
  | [_, _] => .error .truncated
  | [_, _, _] => .error .truncated
  | _ :: _ :: _ :: _ :: _ :: _ => .error .trailing

/-- The instruction the decoder reads from an instruction whose bits are `w`, as the opcode table numbers them; bits
from `nbits` up are zero. None where `w` has a bit outside the 32 of an ARM instruction. -/
def decodeTableWord (nbits w : Nat) : Option Instr :=
  match decode (bytesOfWord (BitVec.ofNat 32 (w % 2 ^ nbits))) with
  | .ok i => if w % 2 ^ nbits < 2 ^ 32 then some i else none
  | .error _ => none

/-- R190: `cond 00 I opcode S Rn Rd shifter_operand`. -/
def encodeDp (c : Cond) (opcode : BitVec 4) (s : Bool) (rn rd : RegNum) (op : Operand2) : Word :=
  c.toBits ++ 0b00#2 ++ op.iBit ++ opcode ++ BitVec.ofBool s ++ rn ++ rd ++ op.low

/-- R192: `cond 0000 op S f19_16 f15_12 Rs 1001 Rm`. -/
def encodeMul (c : Cond) (op : BitVec 3) (s : Bool) (hi lo rs rm : RegNum) : Word :=
  c.toBits ++ 0b0000#4 ++ op ++ BitVec.ofBool s ++ hi ++ lo ++ rs ++ 0b1001#4 ++ rm

/-- R195, R376: `cond 000 P U I W L Rn Rd addr 1 S H 1 addr`. -/
def encodeHalf (c : Cond) (p u w : Bool) (l : BitVec 1) (rn rd : RegNum) (sh : BitVec 2) (off : Offset3) : Word :=
  c.toBits ++ 0b000#3 ++ BitVec.ofBool p ++ BitVec.ofBool u ++ off.iBit ++ BitVec.ofBool w ++ l ++ rn ++ rd ++
    off.high ++ 1#1 ++ sh ++ 1#1 ++ off.low

/-- R194, R363: `cond 01 I P U B W L Rn Rd addr`. -/
def encodeLs (c : Cond) (p : BitVec 1) (u : Bool) (b w l : BitVec 1) (rn rd : RegNum) (off : Offset2) : Word :=
  c.toBits ++ 0b01#2 ++ off.iBit ++ p ++ BitVec.ofBool u ++ b ++ w ++ l ++ rn ++ rd ++ off.low

/-- R196: `cond 100 P U S W L Rn register_list`. -/
def encodeLsm (c : Cond) (m : Mode4) (s : BitVec 1) (w : Bool) (l : BitVec 1) (rn : RegNum) (list : BitVec 16) : Word :=
  c.toBits ++ 0b100#3 ++ m.toBits ++ s ++ BitVec.ofBool w ++ l ++ rn ++ list

/-- R199, R491: `cond 110 P U N W L Rn CRd cp_num offset_8`. -/
def encodeCpLs (c : BitVec 4) (m : Mode5) (n : Bool) (l : BitVec 1) (rn : RegNum) (crd cp : BitVec 4) : Word :=
  c ++ 0b110#3 ++ m.puBits ++ BitVec.ofBool n ++ m.wBit ++ l ++ rn ++ crd ++ cp ++ m.low

/-- R199: `cond 1110 opcode_1 CRn CRd cp_num opcode_2 0 CRm`. -/
def encodeCdp (c op1 crn crd cp : BitVec 4) (op2 : BitVec 3) (crm : BitVec 4) : Word :=
  c ++ 0b1110#4 ++ op1 ++ crn ++ crd ++ cp ++ op2 ++ 0#1 ++ crm

/-- R199: `cond 1110 opcode_1 L CRn Rd cp_num opcode_2 1 CRm`. -/
def encodeCpMove (c : BitVec 4) (op1 : BitVec 3) (l : BitVec 1) (crn rd cp : BitVec 4) (op2 : BitVec 3)
    (crm : BitVec 4) : Word :=
  c ++ 0b1110#4 ++ op1 ++ l ++ crn ++ rd ++ cp ++ op2 ++ 1#1 ++ crm

/-- R193: `cond 00 I 10 R ... `: the bits of an MRS or MSR word from 27 down to 20. -/
def statusBits (i : BitVec 1) (r : Bool) (write : BitVec 1) : BitVec 8 :=
  0b00#2 ++ i ++ 0b10#2 ++ BitVec.ofBool r ++ write ++ 0#1

/-- The 32-bit word of an instruction (R190 to R200, R231, R232). -/
def encode : Instr → Word
  | .blx1 h immed => 0b1111#4 ++ 0b101#3 ++ BitVec.ofBool h ++ immed
  | .undefCoprocSpace w => w
  | .cdp2 op1 crn crd cp op2 crm => encodeCdp 15 op1 crn crd cp op2 crm
  | .mcr2 op1 crn rd cp op2 crm => encodeCpMove 15 op1 0 crn rd cp op2 crm
  | .mrc2 op1 crn rd cp op2 crm => encodeCpMove 15 op1 1 crn rd cp op2 crm
  | .ldc2 mode n rn crd cp => encodeCpLs 15 mode n 1 rn crd cp
  | .stc2 mode n rn crd cp => encodeCpLs 15 mode n 0 rn crd cp
  | .undefUnconditional w => w
  | .bkpt immedHi immedLo => 0b1110#4 ++ 0b00010010#8 ++ immedHi ++ 0b0111#4 ++ immedLo
  | .unpredBkpt w => w
  | .bx c rm => c.toBits ++ 0b00010010#8 ++ 0xFFF#12 ++ 0b0001#4 ++ rm
  | .blx2 c rm => c.toBits ++ 0b00010010#8 ++ 0xFFF#12 ++ 0b0011#4 ++ rm
  | .unpredBx w => w
  | .clz c rd rm => c.toBits ++ 0b00010110#8 ++ 0xF#4 ++ rd ++ 0xF#4 ++ 0b0001#4 ++ rm
  | .unpredClz w => w
  | .mrs c r rd => c.toBits ++ statusBits 0 r 0 ++ 0xF#4 ++ rd ++ 0#12
  | .unpredMrs w => w
  | .msrReg c r mask rm => c.toBits ++ statusBits 0 r 1 ++ mask ++ 0xF#4 ++ 0#4 ++ 0#4 ++ rm
  | .unpredMsrReg w => w
  | .msrImm c r mask rotate immed => c.toBits ++ statusBits 1 r 1 ++ mask ++ 0xF#4 ++ rotate ++ immed
  | .unpredMsrImm w => w
  | .undefControlImm w => w
  | .mul c s rd rs rm => encodeMul c 0 s rd 0 rs rm
  | .unpredMul w => w
  | .mla c s rd rn rs rm => encodeMul c 1 s rd rn rs rm
  | .undefArith w => w
  | .umull c s rdHi rdLo rs rm => encodeMul c 4 s rdHi rdLo rs rm
  | .umlal c s rdHi rdLo rs rm => encodeMul c 5 s rdHi rdLo rs rm
  | .smull c s rdHi rdLo rs rm => encodeMul c 6 s rdHi rdLo rs rm
  | .smlal c s rdHi rdLo rs rm => encodeMul c 7 s rdHi rdLo rs rm
  | .swp c rn rd rm => c.toBits ++ 0b00010000#8 ++ rn ++ rd ++ 0#4 ++ 0b1001#4 ++ rm
  | .swpb c rn rd rm => c.toBits ++ 0b00010100#8 ++ rn ++ rd ++ 0#4 ++ 0b1001#4 ++ rm
  | .unpredSwp w => w
  | .undefLoadStore w => w
  | .strh c p u w rn rd off => encodeHalf c p u w 0 rn rd 0b01 off
  | .ldrh c p u w rn rd off => encodeHalf c p u w 1 rn rd 0b01 off
  | .ldrsb c p u w rn rd off => encodeHalf c p u w 1 rn rd 0b10 off
  | .ldrsh c p u w rn rd off => encodeHalf c p u w 1 rn rd 0b11 off
  | .undefDouble w => w
  | .undefControlReg w => w
  | .and c s rn rd op => encodeDp c 0 s rn rd op
  | .eor c s rn rd op => encodeDp c 1 s rn rd op
  | .sub c s rn rd op => encodeDp c 2 s rn rd op
  | .rsb c s rn rd op => encodeDp c 3 s rn rd op
  | .add c s rn rd op => encodeDp c 4 s rn rd op
  | .adc c s rn rd op => encodeDp c 5 s rn rd op
  | .sbc c s rn rd op => encodeDp c 6 s rn rd op
  | .rsc c s rn rd op => encodeDp c 7 s rn rd op
  | .tst c rn op => encodeDp c 8 true rn 0 op
  | .unpredTst w => w
  | .teq c rn op => encodeDp c 9 true rn 0 op
  | .unpredTeq w => w
  | .cmp c rn op => encodeDp c 10 true rn 0 op
  | .unpredCmp w => w
  | .cmn c rn op => encodeDp c 11 true rn 0 op
  | .unpredCmn w => w
  | .orr c s rn rd op => encodeDp c 12 s rn rd op
  | .mov c s rd op => encodeDp c 13 s 0 rd op
  | .unpredMov w => w
  | .bic c s rn rd op => encodeDp c 14 s rn rd op
  | .mvn c s rd op => encodeDp c 15 s 0 rd op
  | .unpredMvn w => w
  | .undefSpace w => w
  | .ldrt c up rn rd off => encodeLs c 0 up 0 1 1 rn rd off
  | .ldrbt c up rn rd off => encodeLs c 0 up 1 1 1 rn rd off
  | .strt c up rn rd off => encodeLs c 0 up 0 1 0 rn rd off
  | .strbt c up rn rd off => encodeLs c 0 up 1 1 0 rn rd off
  | .ldr c idx up rn rd off => encodeLs c idx.pBit up 0 idx.wBit 1 rn rd off
  | .ldrb c idx up rn rd off => encodeLs c idx.pBit up 1 idx.wBit 1 rn rd off
  | .str c idx up rn rd off => encodeLs c idx.pBit up 0 idx.wBit 0 rn rd off
  | .strb c idx up rn rd off => encodeLs c idx.pBit up 1 idx.wBit 0 rn rd off
  | .ldm3 c mode w rn list => encodeLsm c mode 1 w 1 rn (1#1 ++ list)
  | .ldm2 c mode w rn list => encodeLsm c mode 1 w 1 rn (0#1 ++ list)
  | .ldm1 c mode w rn list => encodeLsm c mode 0 w 1 rn list
  | .stm2 c mode w rn list => encodeLsm c mode 1 w 0 rn list
  | .stm1 c mode w rn list => encodeLsm c mode 0 w 0 rn list
  | .b c immed => c.toBits ++ 0b101#3 ++ 0#1 ++ immed
  | .bl c immed => c.toBits ++ 0b101#3 ++ 1#1 ++ immed
  | .ldc c mode n rn crd cp => encodeCpLs c.toBits mode n 1 rn crd cp
  | .stc c mode n rn crd cp => encodeCpLs c.toBits mode n 0 rn crd cp
  | .cdp c op1 crn crd cp op2 crm => encodeCdp c.toBits op1 crn crd cp op2 crm
  | .mcr c op1 crn rd cp op2 crm => encodeCpMove c.toBits op1 0 crn rd cp op2 crm
  | .mrc c op1 crn rd cp op2 crm => encodeCpMove c.toBits op1 1 crn rd cp op2 crm
  | .swi c immed => c.toBits ++ 0b1111#4 ++ immed

end Sys2Proof
end

