-- ==== Sys2Proof/Machine/State.lean ====
section
/-! DEFINITION. The state of the machine as plain data: every piece of state the spec gives it (R40 to R62, R60's
hidden state, R8's parameters), the reasons a step can stop, and the state after reset. -/

namespace Sys2Proof.Machine

/-- The five exception modes, each with its own R13, R14 and SPSR (R42, R592). -/
inductive ExcMode
  | fiq | irq | svc | abt | und
  deriving DecidableEq, Repr

/-- The six banks of R13 and R14 (R43, R45): User and System share one. -/
inductive Bank
  | usr | fiq | irq | svc | abt | und
  deriving DecidableEq, Repr

/-- The bank of an exception mode (R43). -/
def ExcMode.bank : ExcMode → Bank
  | .fiq => .fiq
  | .irq => .irq
  | .svc => .svc
  | .abt => .abt
  | .und => .und

/-- The 30 physical general-purpose registers apart from the PC (R41): R0 to R7; R8 to R12 in the User and the FIQ
copy; R13 and R14 six times each. -/
inductive PhysReg
  | low (n : Fin 8)
  | mid (fiq : Bool) (k : Fin 5)
  | sp (b : Bank)
  | lr (b : Bank)
  deriving DecidableEq, Repr

/-- A number for each bank. -/
def Bank.index : Bank → Fin 6
  | .usr => 0 | .fiq => 1 | .irq => 2 | .svc => 3 | .abt => 4 | .und => 5

/-- The place of a physical register in `State.regs`: R0 to R7 at 0 to 7, R8_usr to R12_usr at 8 to 12, R8_fiq to
R12_fiq at 13 to 17, the six R13 at 18 to 23, the six R14 at 24 to 29. -/
def PhysReg.index : PhysReg → Fin 30
  | .low n => ⟨n.val, by omega⟩
  | .mid false k => ⟨8 + k.val, by omega⟩
  | .mid true k => ⟨13 + k.val, by omega⟩
  | .sp b => ⟨18 + b.index.val, by omega⟩
  | .lr b => ⟨24 + b.index.val, by omega⟩

/-- The five saved program status registers (R41, R51), 32 bits each. -/
structure Spsrs where
  fiq : Word
  irq : Word
  svc : Word
  abt : Word
  und : Word
  deriving DecidableEq, Repr

/-- Why the machine stops. Every constructor is the spec's own UNPREDICTABLE (R20 (a), D7): the model refuses to go
on. Stopping is SAFE in every case: hardware may go on, no claim about a state after the stop can be made. -/
inductive Fault
  /-- Raised by every meaning whose word is UNPREDICTABLE by itself (R222 (1); U1 to U17). Safe. -/
  | unpredictable (why : EncodingFault)
  /-- Raised by MSR and by exception return: an illegal value for M[4:0] (R42, R345; U30). Safe. -/
  | illegalMode
  /-- Raised by MSR and by exception return: a 1 for a reserved CPSR bit 27:8 (R346; U31). Safe. -/
  | reservedPsrBits
  /-- Raised by MSR: it would change the T bit (R347; U32). Safe. -/
  | msrChangesT
  /-- Raised by MRS, MSR, S-form data processing to R15 and LDM (3) in User or System mode: no SPSR (R51; U33). Safe. -/
  | noSpsr
  /-- Raised by LDM (2) and STM (2) in User or System mode (R435, R438; U34). Safe. -/
  | userBankMode
  /-- Raised by data processing to R15 with bits 1:0 of the target not 00 in ARM state (R49; U35). Safe. -/
  | misalignedPc
  /-- Raised by BX, BLX (2), LDR, LDM (1) with target bits 1:0 = 10, and LDM (3) with T = 0 and bit 1 = 1 (U36). Safe. -/
  | interworkTarget
  /-- Raised by LDR to R15 from an address that is not word-aligned (R390; U37). Safe. -/
  | unalignedPcLoad
  /-- Raised by B, BL, BLX (1) whose target leaves the 32-bit address space (R231, R232; U38). Safe. -/
  | branchWrap
  /-- Raised by sequential execution past 0xFFFFFFFC (R50; U39). Safe. -/
  | pastTop
  /-- Raised by LDM, STM, LDC, STC whose words would pass 0xFFFFFFFC (R103; U40). Safe. -/
  | wordsPastTop
  /-- Raised by the fetch of a byte stored to since the last IMB (R121; U41). Safe. -/
  | staleInstruction
  /-- Raised by a fetch whose permission an MSR to User mode has changed (R348; U42). Safe. -/
  | stalePermission
  /-- Raised by an instruction that is executed right after LDM (2) or STM (2) and reads or writes one of R8 to R14 or an
  SPSR (R440; U43). Safe. -/
  | bankedAfterUserBank
  /-- Raised by LDRH, LDRSH, STRH at an odd address without alignment checking (R393, R395, R400; U44). Safe. -/
  | unalignedHalfword
  /-- Raised by a fetch from an I/O region (R124; U46). Safe. -/
  | fetchFromIo
  /-- Raised by LDM or STM touching both I/O and normal memory, or I/O with the PC in the list (R130; U46). Safe. -/
  | mixedIo
  deriving DecidableEq, Repr

/-- What the model has no meaning for (R20 (b)). -/
inductive Refusal
  /-- Raised by an arm of `exec` whose instruction has no meaning yet; none is left. Safe. -/
  | notModelled (mnemonic : String)
  /-- Raised by the step when T = 1 on a T variant: Thumb semantics are not in the source (R236, R511, D2). Safe. -/
  | thumbState
  /-- Raised by the ten coprocessor instructions when the attached coprocessor accepts the word and the host has supplied
  no model of its operation: `Unsupported(coprocessor)` (R20 (b), R481; Z9). Safe. -/
  | coprocessorOperation
  /-- Raised by LDC and STC when the host's coprocessor breaks its contract 1 ≤ count ≤ 16 (R484). Safe. -/
  | coprocessorContract
  deriving DecidableEq, Repr

/-- The machine. -/
structure State where
  /-- The 30 general-purpose registers but the PC, by `PhysReg.index` (R41). -/
  regs : Vector Word 30
  /-- R15 as the address of the next instruction to execute (R11, R47). -/
  pc : Word
  /-- The current program status register (R51). -/
  cpsr : Word
  /-- The saved program status registers (R51). -/
  spsr : Spsrs
  /-- Memory (R100): addresses strictly rising, no byte equal to what an unlisted address reads as. -/
  mem : List Host.Cell
  /-- The set `W` of R60: addresses stored to since the last IMB, strictly rising (R121). -/
  written : List Nat
  /-- `priv_drop_pending` of R60 (R348). -/
  privDropPending : Bool
  /-- `user_bank_hazard` of R60 (R440). -/
  userBankHazard : Bool
  /-- RESET_INPUT was asserted at the last boundary: the processor is stopped until it is de-asserted (R566). -/
  resetHeld : Bool
  /-- The inputs at the coming instruction boundaries, the next one first; none listed: all de-asserted (R21). -/
  inputs : List Inputs
  /-- The MODEL's own counter: how many free values have been drawn (93 section 2, "any value"). -/
  draws : Nat
  /-- Accesses delivered to I/O devices, oldest first (R126). -/
  ioLog : List IoEvent
  /-- The coprocessors attached, by number (R481). -/
  coprocs : Vector (Option Coproc) 16
  /-- The parameters of R8 and the host's stop condition (R21). -/
  platform : Platform
  deriving DecidableEq, Repr

/-- The parameters at their defaults (R8), and no stop condition. `PC_STORE_OFFSET` and `ABORT_MODEL` have no preferred value (D3, D4):
they are constants with no body. -/
def defaultPlatform : Platform where
  thumbVariant := .t
  pcStoreOffset := Config.pcStoreOffset
  abortModel := Config.abortModel
  highVectorsSupported := false
  hivecs := false
  endianSupport := .little
  bigend := false
  alignCheck := false
  abortRules := []
  ioRegions := []
  stop := { haltAddress := none, stepBound := none }

/-- The machine right after reset (R62, R631): Supervisor mode, ARM state, FIQ and IRQ disabled, CPSR bits 27:8 zero,
pc at the Reset vector, memory with nothing listed. DESIGN CHOICE, unsafe (assumption log 1): the registers and flags
the spec leaves unspecified after reset are zero here; the Reset ENTRY of a run (`resetEntry`) draws them. -/
def State.reset : State where
  regs := Vector.replicate 30 0
  pc := 0
  cpsr := 0x000000D3
  spsr := { fiq := 0, irq := 0, svc := 0, abt := 0, und := 0 }
  mem := []
  written := []
  privDropPending := false
  userBankHazard := false
  resetHeld := false
  inputs := []
  draws := 0
  ioLog := []
  coprocs := Vector.replicate 16 none
  platform := defaultPlatform

end Sys2Proof.Machine
end

