-- ==== Sys2Proof/Machine/Flags.lean ====
section
/-! DEFINITION. The program status register format (R51), the condition test (R14, R164) and every flag computation of
the spec (R15, R264, R324). -/

namespace Sys2Proof.Machine

/-- CPSR bit 31 (R51). -/
def flagN (psr : Word) : Bool := bit psr 31

/-- CPSR bit 30 (R51). -/
def flagZ (psr : Word) : Bool := bit psr 30

/-- CPSR bit 29 (R51). -/
def flagC (psr : Word) : Bool := bit psr 29

/-- CPSR bit 28 (R51). -/
def flagV (psr : Word) : Bool := bit psr 28

/-- CPSR bit 7 (R51): 1 disables IRQ. -/
def flagI (psr : Word) : Bool := bit psr 7

/-- CPSR bit 6 (R51): 1 disables FIQ. -/
def flagF (psr : Word) : Bool := bit psr 6

/-- CPSR bit 5 (R51, R55). -/
def flagT (psr : Word) : Bool := bit psr 5

/-- CPSR bits 4:0 (R51). -/
def modeBits (psr : Word) : BitVec 5 := bits psr 0 5

/-- The reserved bits 27:8 (R57). -/
def reservedBits (psr : Word) : BitVec 20 := bits psr 8 20

/-- The PSR with N, Z, C, V replaced: "The rest of the CPSR is unchanged" (R264). -/
def setNZCV (psr : Word) (n z c v : Bool) : Word :=
  BitVec.ofBool n ++ BitVec.ofBool z ++ BitVec.ofBool c ++ BitVec.ofBool v ++ bits psr 0 28

/-- The PSR with N and Z replaced (R324). -/
def setNZ (psr : Word) (n z : Bool) : Word := setNZCV psr n z (flagC psr) (flagV psr)

/-- The PSR with T replaced (R55). -/
def setT (psr : Word) (t : Bool) : Word := bits psr 6 26 ++ BitVec.ofBool t ++ bits psr 0 5

/-- M[4:0] of each exception mode (R42). -/
def ExcMode.bits : ExcMode → BitVec 5
  | .fiq => 0b10001
  | .irq => 0b10010
  | .svc => 0b10011
  | .abt => 0b10111
  | .und => 0b11011

/-- M[4:0] of User mode (R42). -/
def userBits : BitVec 5 := 0b10000

/-- M[4:0] of System mode (R42). -/
def systemBits : BitVec 5 := 0b11111

/-- The exception mode a mode number names, if it names one (R42). -/
def excMode (m : BitVec 5) : Option ExcMode :=
  if m = 0b10001 then some .fiq
  else if m = 0b10010 then some .irq
  else if m = 0b10011 then some .svc
  else if m = 0b10111 then some .abt
  else if m = 0b11011 then some .und
  else none

/-- The seven values M[4:0] may take (R42). -/
def legalMode (m : BitVec 5) : Bool := m == userBits || m == systemBits || (excMode m).isSome

/-- `InAPrivilegedMode()` (R15). -/
def privileged (psr : Word) : Bool := modeBits psr != userBits

/-- The bank of R13 and R14 that a mode sees (R43): User and System see the User bank. -/
def bankOf (m : BitVec 5) : Bank :=
  match excMode m with
  | some e => e.bank
  | none => .usr

/-- `ConditionPassed(cond)` on the flags of a PSR (R14, R164). -/
def conditionPassed (c : Cond) (psr : Word) : Bool :=
  match c with
  | .eq => flagZ psr
  | .ne => !flagZ psr
  | .cs => flagC psr
  | .cc => !flagC psr
  | .mi => flagN psr
  | .pl => !flagN psr
  | .vs => flagV psr
  | .vc => !flagV psr
  | .hi => flagC psr && !flagZ psr
  | .ls => !flagC psr || flagZ psr
  | .ge => flagN psr == flagV psr
  | .lt => flagN psr != flagV psr
  | .gt => !flagZ psr && flagN psr == flagV psr
  | .le => flagZ psr || flagN psr != flagV psr
  | .al => true

/-- `CarryFrom(a + b + c)` (R15). -/
def carryFrom (a b : Word) (c : Bool) : Bool := decide (2 ^ 32 - 1 < a.toNat + b.toNat + c.toNat)

/-- `BorrowFrom(a - b - c)` (R15). -/
def borrowFrom (a b : Word) (c : Bool) : Bool := decide (a.toNat < b.toNat + c.toNat)

/-- Whether an exact signed result lies outside -2^31 .. 2^31 - 1 (R15). -/
def outsideSigned (x : Int) : Bool := decide (x < -(2 ^ 31)) || decide (2 ^ 31 - 1 < x)

/-- `OverflowFrom(a + b + c)` (R15). -/
def overflowFromAdd (a b : Word) (c : Bool) : Bool := outsideSigned (a.toInt + b.toInt + (c.toNat : Int))

/-- `OverflowFrom(a - b - c)` (R15). -/
def overflowFromSub (a b : Word) (c : Bool) : Bool := outsideSigned (a.toInt - b.toInt - (c.toNat : Int))

/-- A carry as a word, 0 or 1 (R275). -/
def carryWord (c : Bool) : Word := if c then 1 else 0

/-- The flags of the logical class (R264): N and Z of the result, C from the shifter, V unaffected. -/
def logicalFlags (psr result : Word) (shifterCarry : Bool) : Word :=
  setNZCV psr (bit result 31) (result == 0) shifterCarry (flagV psr)

/-- The flags of the add class (R264) for `a + b + c`. -/
def addFlags (psr a b : Word) (c : Bool) : Word :=
  let result := a + b + carryWord c
  setNZCV psr (bit result 31) (result == 0) (carryFrom a b c) (overflowFromAdd a b c)

/-- The flags of the subtract class (R264) for `a - b - c`, `c` being NOT(C) of SBC and RSC. -/
def subFlags (psr a b : Word) (c : Bool) : Word :=
  let result := a - b - carryWord c
  setNZCV psr (bit result 31) (result == 0) (!borrowFrom a b c) (overflowFromSub a b c)

/-- The flags of MULS and MLAS (R324): N and Z of the 32-bit result. -/
def mulFlags (psr result : Word) : Word := setNZ psr (bit result 31) (result == 0)

/-- The flags of the long multiplies (R324): N and Z of the 64-bit result. -/
def mulLongFlags (psr hi lo : Word) : Word := setNZ psr (bit hi 31) (hi == 0 && lo == 0)

/-- The PSR with N, Z, C, V from bits 31:28 of a word and the other 28 bits as they are (R490). -/
def flagsFromWord (psr data : Word) : Word := bits data 28 4 ++ bits psr 0 28

end Sys2Proof.Machine
end

