-- ==== Sys2Proof/Machine/Ops.lean ====
section
/-! DEFINITION. The named operations every meaning is built from: registers, memory in one canonical form, accesses to
the memory system, the program counter, free values, taking an exception and returning from one, and the frame of an
instruction (encoding check, condition, body). -/

namespace Sys2Proof.Machine

/-- What a step or a meaning answers. -/
abbrev Result := Host.Outcome State Fault Refusal

/-! ## Registers -/

/-- The content of a physical register (R41). -/
def State.phys (s : State) (r : PhysReg) : Word := s.regs[r.index.val]

/-- The state with a physical register replaced (R41). -/
def State.setPhys (s : State) (r : PhysReg) (v : Word) : State :=
  { s with regs := s.regs.set r.index.val v }

/-- `phys(m, n)` of R43 for n = 0 .. 14: the physical register a name denotes in a mode. None for R15. -/
def physReg (m : BitVec 5) (n : RegNum) : Option PhysReg :=
  if h : n.toNat < 8 then some (.low ⟨n.toNat, h⟩)
  else if h : n.toNat < 13 then some (.mid (bankOf m == .fiq) ⟨n.toNat - 8, by omega⟩)
  else if n = 13 then some (.sp (bankOf m))
  else if n = 14 then some (.lr (bankOf m))
  else none

/-- Register n as mode m sees it; R15 reads the instruction's address plus 8 (R11, R47). -/
def State.readRegIn (s : State) (m : BitVec 5) (n : RegNum) : Word :=
  match physReg m n with
  | some r => s.phys r
  | none => s.pc + 8

/-- Register n as mode m sees it, n = 0 .. 14, written. No meaning writes R15 through here: each instruction that may
write it has a rule of its own for it (R49), so for n = 15 nothing is written. -/
def State.writeRegIn (s : State) (m : BitVec 5) (n : RegNum) (v : Word) : State :=
  match physReg m n with
  | some r => s.setPhys r v
  | none => s

/-- `R[n]` (R11). -/
def State.readReg (s : State) (n : RegNum) : Word := s.readRegIn (modeBits s.cpsr) n

/-- `R[n] <- v` (R11). -/
def State.writeReg (s : State) (n : RegNum) (v : Word) : State := s.writeRegIn (modeBits s.cpsr) n v

/-- `R_usr[n]` (R11, R435). -/
def State.readUserReg (s : State) (n : RegNum) : Word := s.readRegIn userBits n

/-- `R_usr[n] <- v` (R11, R435). -/
def State.writeUserReg (s : State) (n : RegNum) (v : Word) : State := s.writeRegIn userBits n v

/-- What STR and STM store for R15: `cur + PC_STORE_OFFSET` (R48, R386). -/
def State.storedPc (s : State) : Word :=
  match s.platform.pcStoreOffset with
  | .eight => s.pc + 8
  | .twelve => s.pc + 12

/-- The value a store of register n stores (R385 step 1, R386). -/
def State.storeValue (s : State) (n : RegNum) : Word := if n = 15 then s.storedPc else s.readReg n

/-- SPSR of an exception mode (R43). -/
def Spsrs.get (p : Spsrs) : ExcMode → Word
  | .fiq => p.fiq
  | .irq => p.irq
  | .svc => p.svc
  | .abt => p.abt
  | .und => p.und

/-- SPSR of an exception mode, written (R43). -/
def Spsrs.set (p : Spsrs) (e : ExcMode) (v : Word) : Spsrs :=
  match e with
  | .fiq => { p with fiq := v }
  | .irq => { p with irq := v }
  | .svc => { p with svc := v }
  | .abt => { p with abt := v }
  | .und => { p with und := v }

/-- The exception mode the machine is in, if it is in one: `CurrentModeHasSPSR()` (R15, R56). -/
def State.currentExc (s : State) : Option ExcMode := excMode (modeBits s.cpsr)

/-! ## Memory in canonical form -/

/-- What an address that nothing has written reads as. DESIGN CHOICE, unsafe (assumption log 2). -/
def Memory.unlisted : Byte := 0

/-- One byte of memory. -/
def Memory.read : List Host.Cell → Nat → Byte
  | [], _ => Memory.unlisted
  | (k, c) :: rest, a => if k = a then c else Memory.read rest a

/-- One byte of memory written, the canonical form kept. -/
def Memory.write : List Host.Cell → Nat → Byte → List Host.Cell
  | [], a, b => if b = Memory.unlisted then [] else [(a, b)]
  | (k, c) :: rest, a, b =>
    if a < k then (if b = Memory.unlisted then (k, c) :: rest else (a, b) :: (k, c) :: rest)
    else if a = k then (if b = Memory.unlisted then rest else (a, b) :: rest)
    else (k, c) :: Memory.write rest a b

/-- Every listed address lies above a bound. -/
def Memory.above (lo : Nat) (m : List Host.Cell) : Bool := m.all fun cell => lo < cell.1

/-- The canonical form: addresses strictly rising, inside the address space (R100), and no entry equal to what an
unlisted address reads as. -/
def Memory.wf : List Host.Cell → Bool
  | [] => true
  | (k, c) :: rest => Memory.above k rest && (c != Memory.unlisted) && decide (k < 2 ^ 32) && Memory.wf rest

/-- A number added to a strictly rising list of addresses. -/
def insertAddr (a : Nat) : List Nat → List Nat
  | [] => [a]
  | k :: rest => if a < k then a :: k :: rest else if a = k then k :: rest else k :: insertAddr a rest

/-- The bytes of an access (R114): `n` of R12. -/
def sizeBytes : Size → Nat
  | .byte => 1
  | .half => 2
  | .word => 4

/-- `addr AND NOT(n-1)` (R12, R109). -/
def alignTo (size : Size) (a : Word) : Word :=
  match size with
  | .byte => a
  | .half => a &&& 0xFFFFFFFE
  | .word => a &&& 0xFFFFFFFC

/-- Whether an address is aligned for an access of a size (R22, R109). -/
def aligned (size : Size) (a : Word) : Bool := alignTo size a == a

/-- The byte order in force (R104, D6): an implementation that supports one order has that one. -/
def bigEndian (p : Platform) : Bool :=
  match p.endianSupport with
  | .little => false
  | .big => true
  | .both => p.bigend

/-- The value at an aligned address, by R105 (big-endian) or R106 (little-endian). -/
def Memory.readSized (big : Bool) (size : Size) (m : List Host.Cell) (a : Nat) : Word :=
  match size, big with
  | .byte, _ => 0#24 ++ Memory.read m a
  | .half, false => 0#16 ++ Memory.read m (a + 1) ++ Memory.read m a
  | .half, true => 0#16 ++ Memory.read m a ++ Memory.read m (a + 1)
  | .word, false => Memory.read m (a + 3) ++ Memory.read m (a + 2) ++ Memory.read m (a + 1) ++ Memory.read m a
  | .word, true => Memory.read m a ++ Memory.read m (a + 1) ++ Memory.read m (a + 2) ++ Memory.read m (a + 3)

/-- Byte k of a value, counted from the lowest address, under a byte order (R105, R106). -/
def storedByte (big : Bool) (size : Size) (v : Word) (k : Nat) : Byte :=
  v.extractLsb' (8 * (if big then sizeBytes size - 1 - k else k)) 8

/-- The value written at an aligned address, one byte after the other from the lowest (R106, "MemWrite is the inverse
mapping"). -/
def Memory.writeSized (big : Bool) (size : Size) (v : Word) (m : List Host.Cell) (a : Nat) : List Host.Cell :=
  (List.range (sizeBytes size)).foldl (fun m k => Memory.write m (a + k) (storedByte big size v k)) m

/-! ## The memory system -/

/-- Whether a row of the abort table covers an access (R112). -/
def ruleCovers (r : AbortRule) (a : Word) (size : Size) (kind : AccessKind) (priv : Bool) : Bool :=
  decide (r.lo ≤ a.toNat) && decide (a.toNat ≤ r.hi) && r.sizes.contains size && r.kinds.contains kind &&
    r.privileged.contains priv

/-- `MemAbort(addr, n, kind, privileged)` (R112, D8), asked with the unmasked address (D11). -/
def State.memAbort (s : State) (a : Word) (size : Size) (kind : AccessKind) (priv : Bool) : Bool :=
  s.platform.abortRules.any fun r => ruleCovers r a size kind priv

/-- Whether an access at this address goes to an I/O device (R126, R132): decided on the masked address. -/
def State.isIo (s : State) (size : Size) (a : Word) : Bool :=
  s.platform.ioRegions.any fun r => decide (r.lo ≤ (alignTo size a).toNat) && decide ((alignTo size a).toNat ≤ r.hi)

/-- `MemRead(addr, n)` on normal memory (R12, R104 to R106). -/
def State.memRead (s : State) (size : Size) (a : Word) : Word :=
  Memory.readSized (bigEndian s.platform) size s.mem (alignTo size a).toNat

/-- `MemWrite(addr, n, v)` on normal memory (R12), the bytes entered in the set `W` (R121). -/
def State.memWrite (s : State) (size : Size) (a v : Word) : State :=
  { s with
    mem := Memory.writeSized (bigEndian s.platform) size v s.mem (alignTo size a).toNat
    written := (List.range (sizeBytes size)).foldl (fun w k => insertAddr ((alignTo size a).toNat + k) w) s.written }

/-- A value cut to an access's width (R114). -/
def narrow (size : Size) (v : Word) : Word :=
  match size with
  | .byte => v &&& 0xFF
  | .half => v &&& 0xFFFF
  | .word => v

/-- What a device answers to a load: a free value of the access's width (R116). -/
def ioValue (log : List IoEvent) (a : Word) (size : Size) : Word := narrow size (Config.ioRead log a size)

/-- A load that does not abort: from normal memory, or delivered to the device (R116, R126). -/
def State.load (s : State) (size : Size) (a : Word) : Word × State :=
  if s.isIo size a then
    (ioValue s.ioLog (alignTo size a) size,
      { s with ioLog := s.ioLog ++ [{ address := alignTo size a, size := size, stored := none }] })
  else (s.memRead size a, s)

/-- A store that does not abort: to normal memory, or delivered to the device (R126). -/
def State.store (s : State) (size : Size) (a v : Word) : State :=
  if s.isIo size a then
    { s with ioLog := s.ioLog ++ [{ address := alignTo size a, size := size, stored := some (narrow size v) }] }
  else s.memWrite size a v

/-! ## Free values -/

/-- A fresh draw (93, "any value"): a word nothing constrains, and the state that has drawn it. -/
def State.draw (s : State) : Word × State := (Config.freeWord s.draws, { s with draws := s.draws + 1 })

/-! ## The program counter -/

/-- `pc <- cur + 4`; past 0xFFFFFFFC it is UNPREDICTABLE (R50, U39). -/
def advance (s : State) : Result :=
  if s.pc = 0xFFFFFFFC then .fault .pastTop else .next { s with pc := s.pc + 4 }

/-- A write of the PC by an instruction other than B, BL, BLX (1): it also ends the wait of R348. -/
def State.jump (s : State) (target : Word) : State := { s with pc := target, privDropPending := false }

/-- A write of the PC with T from bit 0 of the value, as BX does (R234, R390, R434). -/
def interwork (target : Word) (s : State) : Result :=
  if bits target 0 2 = 0b10 then .fault .interworkTarget
  else .next ({ s with cpsr := setT s.cpsr (bit target 0) }.jump (target &&& 0xFFFFFFFE))

/-! ## Exceptions -/

/-- The seven exceptions (R560). -/
inductive ExceptionKind
  | reset | undefined | swi | prefetchAbort | dataAbort | irq | fiq
  deriving DecidableEq, Repr

/-- The mode an exception enters (R560). -/
def ExceptionKind.mode : ExceptionKind → ExcMode
  | .reset => .svc
  | .undefined => .und
  | .swi => .svc
  | .prefetchAbort => .abt
  | .dataAbort => .abt
  | .irq => .irq
  | .fiq => .fiq

/-- The offset of an exception's vector (R560). -/
def ExceptionKind.offset : ExceptionKind → Word
  | .reset => 0x00
  | .undefined => 0x04
  | .swi => 0x08
  | .prefetchAbort => 0x0C
  | .dataAbort => 0x10
  | .irq => 0x18
  | .fiq => 0x1C

/-- Whether entry sets F: "if <exception_mode> == Reset or FIQ" (R562). -/
def ExceptionKind.setsF : ExceptionKind → Bool
  | .reset => true
  | .fiq => true
  | .undefined => false
  | .swi => false
  | .prefetchAbort => false
  | .dataAbort => false
  | .irq => false

/-- `vec(off)` (R563, D5): the high vectors only where they are supported and selected. -/
def vector (p : Platform) (off : Word) : Word :=
  if p.highVectorsSupported && p.hivecs then 0xFFFF0000 + off else off

/-- The CPSR after entry (R562): bits 31:8 kept, I set, F set or kept, T clear, the exception's mode. -/
def entryCpsr (e : ExceptionKind) (psr : Word) : Word :=
  bits psr 8 24 ++ 1#1 ++ BitVec.ofBool (e.setsF || flagF psr) ++ 0#1 ++ e.mode.bits

/-- TAKING AN EXCEPTION (R562): the link in R14 of the exception's mode, the whole old CPSR in its SPSR, the new
CPSR, the pc at the vector. Entry also ends the waits of R348 and R440. -/
def takeException (e : ExceptionKind) (link : Word) (s : State) : State :=
  { s.setPhys (.lr e.mode.bank) link with
    spsr := s.spsr.set e.mode s.cpsr
    cpsr := entryCpsr e s.cpsr
    pc := vector s.platform e.offset
    privDropPending := false
    userBankHazard := false }

/-- Undefined Instruction: the link is the next instruction's address (R568). -/
def undefinedException (s : State) : State := takeException .undefined (s.pc + 4) s

/-- Prefetch Abort and BKPT: the link is the instruction's address plus 4 (R570, R472). -/
def prefetchAbort (s : State) : State := takeException .prefetchAbort (s.pc + 4) s

/-- Data Abort: the link is the aborted instruction's address plus 8 (R571). -/
def dataAbort (s : State) : State := takeException .dataAbort (s.pc + 8) s

/-- The SPSR of the current mode as the new CPSR, with the checks of R265 and R436. -/
def checkedSpsr (s : State) : Host.Outcome Word Fault Refusal :=
  match s.currentExc with
  | none => .fault .noSpsr
  | some e =>
    if reservedBits (s.spsr.get e) ≠ 0 then .fault .reservedPsrBits
    else if !legalMode (modeBits (s.spsr.get e)) then .fault .illegalMode
    else .next (s.spsr.get e)

/-- RETURNING FROM AN EXCEPTION (R580): SPSR to CPSR and a value to the PC in one step. With the new T = 1 the value
loses bit 0; with T = 0 `bad` says that it is no ARM address, and `armMask` is applied. -/
def returnFromException (bad : Option Fault) (armMask value : Word) (s : State) : Result :=
  match checkedSpsr s with
  | .fault f => .fault f
  | .refused r => .refused r
  | .next new =>
    if flagT new then .next ({ s with cpsr := new }.jump (value &&& 0xFFFFFFFE))
    else match bad with
      | some f => .fault f
      | none => .next ({ s with cpsr := new }.jump (value &&& armMask))

/-! ## The frame of an instruction -/

/-- The encoding-level UNPREDICTABLE check of every instruction (R222 (1)). -/
def encodingFault (i : Instr) : Option EncodingFault := i.unpredictable

/-- An instruction of the unconditional space (R166): the encoding check, then the body. -/
def always (i : Instr) (body : State → Result) (s : State) : Result :=
  match encodingFault i with
  | some why => .fault (.unpredictable why)
  | none => body s

/-- A conditional instruction (R222): the encoding check; then the condition, a NOP where it fails (R165); then the
body. -/
def conditional (i : Instr) (c : Cond) (body : State → Result) (s : State) : Result :=
  match encodingFault i with
  | some why => .fault (.unpredictable why)
  | none => if conditionPassed c s.cpsr then body s else advance s

end Sys2Proof.Machine
end

