-- ==== Sys2Proof/Machine/Operands.lean ====
section
/-! DEFINITION. The five addressing modes: the shifter operand and its carry (R251 to R262), and the addresses and base
writebacks of modes 2 (R364 to R372), 3 (R377 to R382), 4 (R431) and 5 (R492 to R495). -/

namespace Sys2Proof.Machine

/-! ## Shifts (R15) -/

/-- `x LSL n` (R15). -/
def lsl (x : Word) (n : Nat) : Word := x <<< n

/-- `x LSR n` (R15). -/
def lsr (x : Word) (n : Nat) : Word := x >>> n

/-- `x ASR n` (R15). -/
def asr (x : Word) (n : Nat) : Word := x.sshiftRight n

/-- `x ROR n` for n < 32 (R15). -/
def ror (x : Word) (n : Nat) : Word := if n = 0 then x else (x >>> n) ||| (x <<< (32 - n))

/-- All bits equal to bit 31 (R257, R258: a shift by 32 or more). -/
def signFill (x : Word) : Word := if bit x 31 then 0xFFFFFFFF else 0

/-! ## Addressing mode 1 -/

/-- Form 1, immediate (R251): value and carry-out. -/
def immediateOperand (rotate : BitVec 4) (immed : BitVec 8) (c : Bool) : Word × Bool :=
  let v := ror (immed.setWidth 32) (2 * rotate.toNat)
  (v, if rotate = 0 then c else bit v 31)

/-- Forms 2, 3, 5, 7, 9, 11: a register shifted by an immediate (R252, R253, R255, R257, R259, R261). -/
def shiftByImmediate (sh : Shift) (amount : BitVec 5) (x : Word) (c : Bool) : Word × Bool :=
  let n := amount.toNat
  match sh with
  | .lsl => if n = 0 then (x, c) else (lsl x n, bit x (32 - n))
  | .lsr => if n = 0 then (0, bit x 31) else (lsr x n, bit x (n - 1))
  | .asr => if n = 0 then (signFill x, bit x 31) else (asr x n, bit x (n - 1))
  | .ror => if n = 0 then (BitVec.ofBool c ++ bits x 1 31, bit x 0) else (ror x n, bit x (n - 1))

/-- Forms 4, 6, 8, 10: a register shifted by the low byte of Rs (R254, R256, R258, R260). -/
def shiftByRegister (sh : Shift) (rs x : Word) (c : Bool) : Word × Bool :=
  let n := (bits rs 0 8).toNat
  if n = 0 then (x, c)
  else match sh with
    | .lsl =>
      if n < 32 then (lsl x n, bit x (32 - n)) else if n = 32 then (0, bit x 0) else (0, false)
    | .lsr =>
      if n < 32 then (lsr x n, bit x (n - 1)) else if n = 32 then (0, bit x 31) else (0, false)
    | .asr => if n < 32 then (asr x n, bit x (n - 1)) else (signFill x, bit x 31)
    | .ror =>
      let k := n % 32
      if k = 0 then (x, bit x 31) else (ror x k, bit x (k - 1))

/-- `(shifter_operand, shifter_carry_out)` (R251 to R262), every register read as it is at the start. -/
def shifterOperand (op : Operand2) (s : State) : Word × Bool :=
  match op with
  | .imm rotate immed => immediateOperand rotate immed (flagC s.cpsr)
  | .shiftImm amount sh rm => shiftByImmediate sh amount (s.readReg rm) (flagC s.cpsr)
  | .shiftReg rs sh rm => shiftByRegister sh (s.readReg rs) (s.readReg rm) (flagC s.cpsr)

/-! ## Addressing modes 2 and 3 -/

/-- What an addressing-mode Operation supplies (R385 step 1): the address, and the base's new value where the form
writes it back. -/
structure Addressing where
  address : Word
  newBase : Option Word
  deriving DecidableEq, Repr

/-- Base plus or minus offset, modulo 2^32 (R360, R102). -/
def applyOffset (up : Bool) (base offset : Word) : Word := if up then base + offset else base - offset

/-- Offset, pre-indexed or post-indexed (R360): the address and the writeback. -/
def indexed (idx : Index) (up : Bool) (base offset : Word) : Addressing :=
  match idx with
  | .offset => { address := applyOffset up base offset, newBase := none }
  | .pre => { address := applyOffset up base offset, newBase := some (applyOffset up base offset) }
  | .post => { address := base, newBase := some (applyOffset up base offset) }

/-- The offset of addressing mode 2: `offset_12`, or the `index` of R366, which produces no carry. -/
def offset2Value (off : Offset2) (s : State) : Word :=
  match off with
  | .imm offset => offset.setWidth 32
  | .reg amount sh rm => (shiftByImmediate sh amount (s.readReg rm) (flagC s.cpsr)).1

/-- Addressing mode 2 (R364 to R372). -/
def mode2 (idx : Index) (up : Bool) (rn : RegNum) (off : Offset2) (s : State) : Addressing :=
  indexed idx up (s.readReg rn) (offset2Value off s)

/-- The offset of addressing mode 3: `offset_8`, or Rm (R377, R378). -/
def offset3Value (off : Offset3) (s : State) : Word :=
  match off with
  | .imm offset => offset.setWidth 32
  | .reg _ rm => s.readReg rm

/-- Addressing mode 3 (R377 to R382), by P and W (R376). -/
def mode3 (p u w : Bool) (rn : RegNum) (off : Offset3) (s : State) : Addressing :=
  indexed (Index.ofBits p w) u (s.readReg rn) (offset3Value off s)

/-! ## Addressing mode 4 -/

/-- The registers of a list, ascending (R430): bit i is register i. -/
def listed (list : BitVec 16) : List RegNum :=
  ((List.range 16).filter fun i => list.getLsbD i).map fun i => BitVec.ofNat 4 i

/-- Four times a count, as a word (R431). -/
def fourTimes (n : Nat) : Word := BitVec.ofNat 32 (4 * n)

/-- `start_address` (R431) for `n` registers. -/
def mode4Start (m : Mode4) (base : Word) (n : Nat) : Word :=
  match m with
  | .ia => base
  | .ib => base + 4
  | .da => base - fourTimes n + 4
  | .db => base - fourTimes n

/-- `new_Rn` (R431) for `n` registers. -/
def mode4NewBase (m : Mode4) (base : Word) (n : Nat) : Word :=
  match m with
  | .ia => base + fourTimes n
  | .ib => base + fourTimes n
  | .da => base - fourTimes n
  | .db => base - fourTimes n

/-- Whether `n` words from a start address pass from 0xFFFFFFFC to 0 (R103, R433 step 2). -/
def wordsWrap (start : Word) (n : Nat) : Bool :=
  decide (0xFFFFFFFC < (start &&& 0xFFFFFFFC).toNat + 4 * (n - 1))

/-- The addresses of `n` words from a start address, ascending by four (R431). -/
def wordAddresses (start : Word) (n : Nat) : List Word := (List.range n).map fun k => start + fourTimes k

/-! ## Addressing mode 5 -/

/-- Addressing mode 5 (R492 to R495): the first address and the writeback. -/
def mode5 (m : Mode5) (base : Word) : Addressing :=
  match m with
  | .offset up words => { address := applyOffset up base (fourTimes words.toNat), newBase := none }
  | .pre up words => indexed .pre up base (fourTimes words.toNat)
  | .post up words => indexed .post up base (fourTimes words.toNat)
  | .unindexed _ => { address := base, newBase := none }

/-- The base writeback of a committed instruction (R385 step 5). -/
def writeBase (rn : RegNum) (newBase : Option Word) (s : State) : State :=
  match newBase with
  | some v => s.writeReg rn v
  | none => s

/-- The base register after a Data Abort (R572 cases 2 and 3, R573): written only where writeback is specified and the
abort model is Base Updated. -/
def abortBase (rn : RegNum) (newBase : Option Word) (s : State) : State :=
  match s.platform.abortModel with
  | .baseRestored => s
  | .baseUpdated => writeBase rn newBase s

end Sys2Proof.Machine
end

