-- ==== Sys2Proof/Machine/Boundary.lean ====
section
/-! DEFINITION. What happens before an instruction runs (R61 clauses 1 to 6): the inputs at the boundary, Reset and
interrupt entry, Thumb state, the fetch, and the rule on the instruction after LDM (2) or STM (2) (R440). -/

namespace Sys2Proof.Machine

/-- The inputs of the coming boundary (R21): none listed means all de-asserted. -/
def currentInputs (s : State) : Inputs :=
  s.inputs.headD { reset := false, irq := false, fiq := false, imb := false }

/-- The boundary's inputs taken; an IMB that completes here empties `W` and ends the wait of R348 (R121, R348). -/
def takeInputs (s : State) : State :=
  if (currentInputs s).imb then
    { s with inputs := s.inputs.tail, written := [], privDropPending := false }
  else { s with inputs := s.inputs.tail }

/-- The CPSR after Reset entry (R62, R566): N, Z, C, V from a draw, bits 27:8 zero, I = F = 1, T = 0, Supervisor. -/
def resetCpsr (flags : Word) : Word := bits flags 28 4 ++ 0#20 ++ 0xD3#8

/-- Reset entry (R566, R631, D17): the generic entry, then every register, SPSR and flag the sequence does not assign
drawn, and the model's own hidden state cleared. Memory is as it was. -/
def resetEntry (s : State) : State :=
  let t := takeException .reset 0 s
  { t with
    regs := Vector.ofFn fun k => Config.freeWord (s.draws + k.val)
    spsr := {
      fiq := Config.freeWord (s.draws + 30)
      irq := Config.freeWord (s.draws + 31)
      svc := Config.freeWord (s.draws + 32)
      abt := Config.freeWord (s.draws + 33)
      und := Config.freeWord (s.draws + 34) }
    cpsr := resetCpsr (Config.freeWord (s.draws + 35))
    draws := s.draws + 36
    written := []
    resetHeld := false }

/-- IRQ entry (R575): the link is the next instruction's address plus 4. -/
def irqEntry (s : State) : State := takeException .irq (s.pc + 4) s

/-- FIQ entry (R576): the link is the next instruction's address plus 4. -/
def fiqEntry (s : State) : State := takeException .fiq (s.pc + 4) s

/-- How a boundary ends: an entry (or Reset held) took this step, or an instruction is to run. -/
inductive BoundaryOutcome
  | taken (s : State)
  | proceed (s : State)
  deriving DecidableEq, Repr

/-- R61 clauses 1 and 2, with the priorities of R578 and R579: Reset, then FIQ, then IRQ. While RESET_INPUT is asserted
the processor is stopped; on de-assertion Reset entry is performed. -/
def boundary (s : State) : BoundaryOutcome :=
  let now := currentInputs s
  let t := takeInputs s
  if now.reset then .taken { t with resetHeld := true }
  else if t.resetHeld then .taken (resetEntry t)
  else if now.fiq && !flagF t.cpsr then .taken (fiqEntry t)
  else if now.irq && !flagI t.cpsr then .taken (irqEntry t)
  else .proceed t

/-- How a fetch ends. -/
inductive FetchOutcome
  | ended (r : Result)
  | word (w : Word)

/-- T = 1 (R61 clause 3): Thumb execution, which the source does not describe (R236, R511), or, on a non-T variant, the
Undefined Instruction exception, whose link the source does not give (R55, V8, D2). -/
def thumbStep (s : State) : Result :=
  match s.platform.thumbVariant with
  | .t => .refused .thumbState
  | .nonT => .next (takeException .undefined s.draw.1 s.draw.2)

/-- Whether a byte of the word at the pc is in `W` (R121). -/
def isStale (s : State) : Bool :=
  (List.range 4).any fun k => s.written.contains ((alignTo .word s.pc).toNat + k)

/-- Whether User and privileged fetches of the word at the pc are answered differently (R348). -/
def permissionDiffers (s : State) : Bool :=
  s.memAbort s.pc .word .fetch true != s.memAbort s.pc .word .fetch false

/-- The word at the pc, under the configured byte order (R107, R117). -/
def fetchWord (s : State) : Word := s.memRead .word s.pc

/-- R61 clauses 3 to 5: Thumb state, the checks of R121, R348 and R124, the abort of R570, then the word. DESIGN CHOICE
(assumption log 32): a fetch from an I/O region that is also aborted is refused; the spec gives R124 and R570 no order. -/
def fetch (s : State) : FetchOutcome :=
  if flagT s.cpsr then .ended (thumbStep s)
  else if isStale s then .ended (.fault .staleInstruction)
  else if s.privDropPending && permissionDiffers s then .ended (.fault .stalePermission)
  else if s.isIo .word s.pc then .ended (.fault .fetchFromIo)
  else if s.memAbort s.pc .word .fetch (privileged s.cpsr) then .ended (.next (prefetchAbort s))
  else .word (fetchWord s)

/-- R8 to R14 (R45, R440). -/
def isBanked (n : RegNum) : Bool := decide (8 ≤ n.toNat) && n != 15

/-- The register fields of a shifter operand. -/
def operand2Regs : Operand2 → List RegNum
  | .imm _ _ => []
  | .shiftImm _ _ rm => [rm]
  | .shiftReg rs _ rm => [rs, rm]

/-- The register fields of an addressing mode 2 offset. -/
def offset2Regs : Offset2 → List RegNum
  | .imm _ => []
  | .reg _ _ rm => [rm]

/-- The register fields of an addressing mode 3 offset. -/
def offset3Regs : Offset3 → List RegNum
  | .imm _ => []
  | .reg _ rm => [rm]

/-- The condition an instruction is executed under, if it has a condition field (R165, R166): BKPT and the
unconditional instructions have none; an UNDEFINED word has one unless its bits 31:28 are 0b1111. -/
def condOf : Instr → Option Cond
  | .blx1 _ _ => none
  | .undefCoprocSpace w => if bits w 28 4 = 15 then none else some (Cond.ofBits (bits w 28 4))
  | .cdp2 _ _ _ _ _ _ => none
  | .mcr2 _ _ _ _ _ _ => none
  | .mrc2 _ _ _ _ _ _ => none
  | .ldc2 _ _ _ _ _ => none
  | .stc2 _ _ _ _ _ => none
  | .undefUnconditional w => if bits w 28 4 = 15 then none else some (Cond.ofBits (bits w 28 4))
  | .bkpt _ _ => none
  | .unpredBkpt _ => none
  | .bx c _ => some c
  | .blx2 c _ => some c
  | .unpredBx _ => none
  | .clz c _ _ => some c
  | .unpredClz _ => none
  | .mrs c _ _ => some c
  | .unpredMrs _ => none
  | .msrReg c _ _ _ => some c
  | .unpredMsrReg _ => none
  | .msrImm c _ _ _ _ => some c
  | .unpredMsrImm _ => none
  | .undefControlImm w => if bits w 28 4 = 15 then none else some (Cond.ofBits (bits w 28 4))
  | .mul c _ _ _ _ => some c
  | .unpredMul _ => none
  | .mla c _ _ _ _ _ => some c
  | .undefArith w => if bits w 28 4 = 15 then none else some (Cond.ofBits (bits w 28 4))
  | .umull c _ _ _ _ _ => some c
  | .umlal c _ _ _ _ _ => some c
  | .smull c _ _ _ _ _ => some c
  | .smlal c _ _ _ _ _ => some c
  | .swp c _ _ _ => some c
  | .swpb c _ _ _ => some c
  | .unpredSwp _ => none
  | .undefLoadStore w => if bits w 28 4 = 15 then none else some (Cond.ofBits (bits w 28 4))
  | .strh c _ _ _ _ _ _ => some c
  | .ldrh c _ _ _ _ _ _ => some c
  | .ldrsb c _ _ _ _ _ _ => some c
  | .ldrsh c _ _ _ _ _ _ => some c
  | .undefDouble w => if bits w 28 4 = 15 then none else some (Cond.ofBits (bits w 28 4))
  | .undefControlReg w => if bits w 28 4 = 15 then none else some (Cond.ofBits (bits w 28 4))
  | .and c _ _ _ _ => some c
  | .eor c _ _ _ _ => some c
  | .sub c _ _ _ _ => some c
  | .rsb c _ _ _ _ => some c
  | .add c _ _ _ _ => some c
  | .adc c _ _ _ _ => some c
  | .sbc c _ _ _ _ => some c
  | .rsc c _ _ _ _ => some c
  | .tst c _ _ => some c
  | .unpredTst _ => none
  | .teq c _ _ => some c
  | .unpredTeq _ => none
  | .cmp c _ _ => some c
  | .unpredCmp _ => none
  | .cmn c _ _ => some c
  | .unpredCmn _ => none
  | .orr c _ _ _ _ => some c
  | .mov c _ _ _ => some c
  | .unpredMov _ => none
  | .bic c _ _ _ _ => some c
  | .mvn c _ _ _ => some c
  | .unpredMvn _ => none
  | .undefSpace w => if bits w 28 4 = 15 then none else some (Cond.ofBits (bits w 28 4))
  | .ldrt c _ _ _ _ => some c
  | .ldrbt c _ _ _ _ => some c
  | .strt c _ _ _ _ => some c
  | .strbt c _ _ _ _ => some c
  | .ldr c _ _ _ _ _ => some c
  | .ldrb c _ _ _ _ _ => some c
  | .str c _ _ _ _ _ => some c
  | .strb c _ _ _ _ _ => some c
  | .ldm3 c _ _ _ _ => some c
  | .ldm2 c _ _ _ _ => some c
  | .ldm1 c _ _ _ _ => some c
  | .stm2 c _ _ _ _ => some c
  | .stm1 c _ _ _ _ => some c
  | .b c _ => some c
  | .bl c _ => some c
  | .ldc c _ _ _ _ _ => some c
  | .stc c _ _ _ _ _ => some c
  | .cdp c _ _ _ _ _ _ => some c
  | .mcr c _ _ _ _ _ _ => some c
  | .mrc c _ _ _ _ _ _ => some c
  | .swi c _ => some c

/-- Whether an instruction is executed, where its encoding is no UNPREDICTABLE one (R165, R166): else it acts as a NOP. -/
def executedUnder (i : Instr) (psr : Word) : Bool :=
  match condOf i with
  | none => true
  | some c => conditionPassed c psr

/-- The registers an instruction names, as operand, base, destination or list member (R440), with R14 for BL, the BLX
forms, SWI and BKPT, whose own rules write it (R231 to R233, R471, R472). -/
def namedRegs : Instr → List RegNum
  | .blx1 _ _ => [14]
  | .undefCoprocSpace _ => []
  | .cdp2 _ _ _ _ _ _ => []
  | .mcr2 _ _ rd _ _ _ => [rd]
  | .mrc2 _ _ rd _ _ _ => [rd]
  | .ldc2 _ _ rn _ _ => [rn]
  | .stc2 _ _ rn _ _ => [rn]
  | .undefUnconditional _ => []
  | .bkpt _ _ => [14]
  | .unpredBkpt _ => []
  | .bx _ rm => [rm]
  | .blx2 _ rm => [14, rm]
  | .unpredBx _ => []
  | .clz _ rd rm => [rd, rm]
  | .unpredClz _ => []
  | .mrs _ _ rd => [rd]
  | .unpredMrs _ => []
  | .msrReg _ _ _ rm => [rm]
  | .unpredMsrReg _ => []
  | .msrImm _ _ _ _ _ => []
  | .unpredMsrImm _ => []
  | .undefControlImm _ => []
  | .mul _ _ rd rs rm => [rd, rs, rm]
  | .unpredMul _ => []
  | .mla _ _ rd rn rs rm => [rd, rn, rs, rm]
  | .undefArith _ => []
  | .umull _ _ rdHi rdLo rs rm => [rdHi, rdLo, rs, rm]
  | .umlal _ _ rdHi rdLo rs rm => [rdHi, rdLo, rs, rm]
  | .smull _ _ rdHi rdLo rs rm => [rdHi, rdLo, rs, rm]
  | .smlal _ _ rdHi rdLo rs rm => [rdHi, rdLo, rs, rm]
  | .swp _ rn rd rm => [rn, rd, rm]
  | .swpb _ rn rd rm => [rn, rd, rm]
  | .unpredSwp _ => []
  | .undefLoadStore _ => []
  | .strh _ _ _ _ rn rd off => rn :: rd :: offset3Regs off
  | .ldrh _ _ _ _ rn rd off => rn :: rd :: offset3Regs off
  | .ldrsb _ _ _ _ rn rd off => rn :: rd :: offset3Regs off
  | .ldrsh _ _ _ _ rn rd off => rn :: rd :: offset3Regs off
  | .undefDouble _ => []
  | .undefControlReg _ => []
  | .and _ _ rn rd op => rn :: rd :: operand2Regs op
  | .eor _ _ rn rd op => rn :: rd :: operand2Regs op
  | .sub _ _ rn rd op => rn :: rd :: operand2Regs op
  | .rsb _ _ rn rd op => rn :: rd :: operand2Regs op
  | .add _ _ rn rd op => rn :: rd :: operand2Regs op
  | .adc _ _ rn rd op => rn :: rd :: operand2Regs op
  | .sbc _ _ rn rd op => rn :: rd :: operand2Regs op
  | .rsc _ _ rn rd op => rn :: rd :: operand2Regs op
  | .tst _ rn op => rn :: operand2Regs op
  | .unpredTst _ => []
  | .teq _ rn op => rn :: operand2Regs op
  | .unpredTeq _ => []
  | .cmp _ rn op => rn :: operand2Regs op
  | .unpredCmp _ => []
  | .cmn _ rn op => rn :: operand2Regs op
  | .unpredCmn _ => []
  | .orr _ _ rn rd op => rn :: rd :: operand2Regs op
  | .mov _ _ rd op => rd :: operand2Regs op
  | .unpredMov _ => []
  | .bic _ _ rn rd op => rn :: rd :: operand2Regs op
  | .mvn _ _ rd op => rd :: operand2Regs op
  | .unpredMvn _ => []
  | .undefSpace _ => []
  | .ldrt _ _ rn rd off => rn :: rd :: offset2Regs off
  | .ldrbt _ _ rn rd off => rn :: rd :: offset2Regs off
  | .strt _ _ rn rd off => rn :: rd :: offset2Regs off
  | .strbt _ _ rn rd off => rn :: rd :: offset2Regs off
  | .ldr _ _ _ rn rd off => rn :: rd :: offset2Regs off
  | .ldrb _ _ _ rn rd off => rn :: rd :: offset2Regs off
  | .str _ _ _ rn rd off => rn :: rd :: offset2Regs off
  | .strb _ _ _ rn rd off => rn :: rd :: offset2Regs off
  | .ldm3 _ _ _ rn list => rn :: listed (1#1 ++ list)
  | .ldm2 _ _ _ rn list => rn :: listed (0#1 ++ list)
  | .ldm1 _ _ _ rn list => rn :: listed list
  | .stm2 _ _ _ rn list => rn :: listed list
  | .stm1 _ _ _ rn list => rn :: listed list
  | .b _ _ => []
  | .bl _ _ => [14]
  | .ldc _ _ _ rn _ _ => [rn]
  | .stc _ _ _ rn _ _ => [rn]
  | .cdp _ _ _ _ _ _ _ => []
  | .mcr _ _ _ rd _ _ _ => [rd]
  | .mrc _ _ _ rd _ _ _ => [rd]
  | .swi _ _ => [14]

/-- Whether an instruction reads or writes an SPSR (R440): MRS and MSR with R = 1, LDM (3), S-form data processing with
Rd = R15, and SWI and BKPT, whose own rules write one (R471, R472). -/
def namesSpsr : Instr → Bool
  | .swi _ _ => true
  | .bkpt _ _ => true
  | .mrs _ spsr _ => spsr
  | .msrReg _ spsr _ _ => spsr
  | .msrImm _ spsr _ _ _ => spsr
  | .ldm3 _ _ _ _ _ => true
  | .and _ s _ rd _ => s && rd == 15
  | .eor _ s _ rd _ => s && rd == 15
  | .sub _ s _ rd _ => s && rd == 15
  | .rsb _ s _ rd _ => s && rd == 15
  | .add _ s _ rd _ => s && rd == 15
  | .adc _ s _ rd _ => s && rd == 15
  | .sbc _ s _ rd _ => s && rd == 15
  | .rsc _ s _ rd _ => s && rd == 15
  | .orr _ s _ rd _ => s && rd == 15
  | .mov _ s rd _ => s && rd == 15
  | .bic _ s _ rd _ => s && rd == 15
  | .mvn _ s rd _ => s && rd == 15
  | _ => false

/-- Whether the instruction after an LDM (2) or STM (2) is UNPREDICTABLE there (R440; R61 clause 6, which asks it of a
word that is not refused already). The case is dynamic (U43), so it arises only when the condition passes (R222 (3)):
a word whose condition fails reads and writes nothing, the NOP the page asks for (assumption log 15). -/
def hazardStops (i : Instr) (s : State) : Bool :=
  s.userBankHazard && (encodingFault i).isNone && executedUnder i s.cpsr &&
    ((namedRegs i).any isBanked || namesSpsr i)

/-- The flag cleared after that one instruction (R440). -/
def clearHazard (s : State) : State := { s with userBankHazard := false }

/-- The four bytes of a word stored at the pc in the configured byte order: a program placed from outside. -/
def placeWord (s : State) (w : Word) : State :=
  { s with mem := Memory.writeSized (bigEndian s.platform) .word w s.mem (alignTo .word s.pc).toNat }

end Sys2Proof.Machine
end

