-- ==== Sys2Proof/Machine/Branch.lean ====
section
/-! DEFINITION. The branches B, BL, BLX (1), BLX (2), BX (R230 to R238). -/

namespace Sys2Proof.Machine

/-- `SInt(sext_24(signed_immed_24)) * 4`, with the H bit of BLX (1) as bit 1 (R231, R232). -/
def branchOffset (immed : BitVec 24) (h : Bool) : Int := immed.toInt * 4 + (if h then 2 else 0)

/-- The true target of a branch: the instruction's address plus 8 plus the offset, unbounded (R231). -/
def branchTarget (s : State) (immed : BitVec 24) (h : Bool) : Int := (s.pc.toNat : Int) + 8 + branchOffset immed h

/-- A branch to a fixed target, with `before` done first (the link, the T bit). A target outside the address space is
UNPREDICTABLE (R231, R50). B, BL and BLX (1) do not end the wait of R348. -/
def branchBy (immed : BitVec 24) (h : Bool) (before : State → State) (s : State) : Result :=
  if branchTarget s immed h < 0 ∨ 2 ^ 32 ≤ branchTarget s immed h then .fault .branchWrap
  else .next { before s with pc := BitVec.ofInt 32 (branchTarget s immed h) }

/-- `R[14] <- cur + 4` in the current mode (R231). -/
def writeLink (s : State) : State := s.writeReg 14 (s.pc + 4)

/-- BLX (1) (R232): link, Thumb state, branch; unconditional. -/
def execBlx1 (h : Bool) (immed : BitVec 24) (s : State) : Result :=
  always (.blx1 h immed) (branchBy immed h fun s => { writeLink s with cpsr := setT s.cpsr true }) s

/-- BX (R234). -/
def execBx (cond : Cond) (rm : RegNum) (s : State) : Result :=
  conditional (.bx cond rm) cond (fun s => interwork (s.readReg rm) s) s

/-- BLX (2) (R233): Rm is read before R14 is written (D28). -/
def execBlx2 (cond : Cond) (rm : RegNum) (s : State) : Result :=
  conditional (.blx2 cond rm) cond (fun s => interwork (s.readReg rm) (writeLink s)) s

/-- B (R231). -/
def execB (cond : Cond) (immed : BitVec 24) (s : State) : Result :=
  conditional (.b cond immed) cond (branchBy immed false id) s

/-- BL (R231). -/
def execBl (cond : Cond) (immed : BitVec 24) (s : State) : Result :=
  conditional (.bl cond immed) cond (branchBy immed false writeLink) s

end Sys2Proof.Machine
end

