-- ==== Sys2Proof/Machine/LoadStore.lean ====
section
/-! DEFINITION. The twelve single loads and stores (R360 to R406): the order of R385 once, and each instruction over
it. -/

namespace Sys2Proof.Machine

/-- R385 steps 2 and 3: what stops an access before it is made. Alignment checking raises Data Abort with nothing
changed (R110, D12); an odd halfword address without it is UNPREDICTABLE (R393, R395, R400; U44). -/
inductive AlignmentOutcome
  | proceed
  | abort
  | stop
  deriving DecidableEq, Repr

/-- The alignment rule of an access (R109, R110). -/
def alignmentOf (size : Size) (a : Word) (s : State) : AlignmentOutcome :=
  if aligned size a then .proceed
  else if s.platform.alignCheck then .abort
  else match size with
    | .byte => .proceed
    | .half => .stop
    | .word => .proceed

/-- One load (R385): alignment, the access, then base writeback and `finish` with the loaded value. An abort leaves the
destination as it was and the base as the abort model says (R387). -/
def loadWith (size : Size) (priv : Bool) (rn : RegNum) (ad : Addressing) (finish : Word → State → Result)
    (s : State) : Result :=
  match alignmentOf size ad.address s with
  | .abort => .next (dataAbort s)
  | .stop => .fault .unalignedHalfword
  | .proceed =>
    if s.memAbort ad.address size .load priv then .next (dataAbort (abortBase rn ad.newBase s))
    else
      let r := s.load size ad.address
      finish r.1 (writeBase rn ad.newBase r.2)

/-- One store (R385, R387). An aborted store's location is one the memory system does not let be written: it is
unchanged (R113). -/
def storeWith (size : Size) (priv : Bool) (rn : RegNum) (ad : Addressing) (v : Word) (s : State) : Result :=
  match alignmentOf size ad.address s with
  | .abort => .next (dataAbort s)
  | .stop => .fault .unalignedHalfword
  | .proceed =>
    if s.memAbort ad.address size .store priv then .next (dataAbort (abortBase rn ad.newBase s))
    else advance (writeBase rn ad.newBase (s.store size ad.address v))

/-- The value loaded written to Rd (R385 step 5). -/
def toRegister (rd : RegNum) (v : Word) (s : State) : Result := advance (s.writeReg rd v)

/-- A loaded word rotated right by 8 times bits 1:0 of the address (R388). -/
def rotateLoaded (a v : Word) : Word := ror v (8 * (bits a 0 2).toNat)

/-- `sext_8` (R10, R394). -/
def signExtendByte (v : Word) : Word := (bits v 0 8).signExtend 32

/-- `sext_16` (R10, R395). -/
def signExtendHalf (v : Word) : Word := (bits v 0 16).signExtend 32

/-- LDR with Rd other than R15, and LDRT (R390, R396). -/
def loadWord (priv : Bool) (rn rd : RegNum) (ad : Addressing) (s : State) : Result :=
  loadWith .word priv rn ad (fun v => toRegister rd (rotateLoaded ad.address v)) s

/-- LDR with Rd = R15 (R390): the address must be word-aligned, then the value goes to the PC as BX would. -/
def loadPc (rn : RegNum) (ad : Addressing) (s : State) : Result :=
  if aligned .word ad.address || s.platform.alignCheck then
    loadWith .word (privileged s.cpsr) rn ad interwork s
  else .fault .unalignedPcLoad

/-- LDR (R390). -/
def execLdr (cond : Cond) (idx : Index) (up : Bool) (rn rd : RegNum) (off : Offset2) (s : State) : Result :=
  conditional (.ldr cond idx up rn rd off) cond (fun s =>
    if rd = 15 then loadPc rn (mode2 idx up rn off s) s
    else loadWord (privileged s.cpsr) rn rd (mode2 idx up rn off s) s) s

/-- LDRB (R391). -/
def execLdrb (cond : Cond) (idx : Index) (up : Bool) (rn rd : RegNum) (off : Offset2) (s : State) : Result :=
  conditional (.ldrb cond idx up rn rd off) cond (fun s =>
    loadWith .byte (privileged s.cpsr) rn (mode2 idx up rn off s) (toRegister rd) s) s

/-- LDRBT (R392): the access is presented as a User mode access. -/
def execLdrbt (cond : Cond) (up : Bool) (rn rd : RegNum) (off : Offset2) (s : State) : Result :=
  conditional (.ldrbt cond up rn rd off) cond (fun s =>
    loadWith .byte false rn (mode2 .post up rn off s) (toRegister rd) s) s

/-- LDRH (R393). -/
def execLdrh (cond : Cond) (p u w : Bool) (rn rd : RegNum) (off : Offset3) (s : State) : Result :=
  conditional (.ldrh cond p u w rn rd off) cond (fun s =>
    loadWith .half (privileged s.cpsr) rn (mode3 p u w rn off s) (toRegister rd) s) s

/-- LDRSB (R394). -/
def execLdrsb (cond : Cond) (p u w : Bool) (rn rd : RegNum) (off : Offset3) (s : State) : Result :=
  conditional (.ldrsb cond p u w rn rd off) cond (fun s =>
    loadWith .byte (privileged s.cpsr) rn (mode3 p u w rn off s) (fun v => toRegister rd (signExtendByte v)) s) s

/-- LDRSH (R395). -/
def execLdrsh (cond : Cond) (p u w : Bool) (rn rd : RegNum) (off : Offset3) (s : State) : Result :=
  conditional (.ldrsh cond p u w rn rd off) cond (fun s =>
    loadWith .half (privileged s.cpsr) rn (mode3 p u w rn off s) (fun v => toRegister rd (signExtendHalf v)) s) s

/-- LDRT (R396): the access is presented as a User mode access. -/
def execLdrt (cond : Cond) (up : Bool) (rn rd : RegNum) (off : Offset2) (s : State) : Result :=
  conditional (.ldrt cond up rn rd off) cond (fun s => loadWord false rn rd (mode2 .post up rn off s) s) s

/-- STR (R397). -/
def execStr (cond : Cond) (idx : Index) (up : Bool) (rn rd : RegNum) (off : Offset2) (s : State) : Result :=
  conditional (.str cond idx up rn rd off) cond (fun s =>
    storeWith .word (privileged s.cpsr) rn (mode2 idx up rn off s) (s.storeValue rd) s) s

/-- STRB (R398): the least significant byte. -/
def execStrb (cond : Cond) (idx : Index) (up : Bool) (rn rd : RegNum) (off : Offset2) (s : State) : Result :=
  conditional (.strb cond idx up rn rd off) cond (fun s =>
    storeWith .byte (privileged s.cpsr) rn (mode2 idx up rn off s) (s.readReg rd) s) s

/-- STRBT (R399): the access is presented as a User mode access. -/
def execStrbt (cond : Cond) (up : Bool) (rn rd : RegNum) (off : Offset2) (s : State) : Result :=
  conditional (.strbt cond up rn rd off) cond (fun s =>
    storeWith .byte false rn (mode2 .post up rn off s) (s.readReg rd) s) s

/-- STRH (R400): the least significant halfword. -/
def execStrh (cond : Cond) (p u w : Bool) (rn rd : RegNum) (off : Offset3) (s : State) : Result :=
  conditional (.strh cond p u w rn rd off) cond (fun s =>
    storeWith .half (privileged s.cpsr) rn (mode3 p u w rn off s) (s.readReg rd) s) s

/-- STRT (R401): the access is presented as a User mode access. -/
def execStrt (cond : Cond) (up : Bool) (rn rd : RegNum) (off : Offset2) (s : State) : Result :=
  conditional (.strt cond up rn rd off) cond (fun s =>
    storeWith .word false rn (mode2 .post up rn off s) (s.storeValue rd) s) s

end Sys2Proof.Machine
end

