-- ==== Sys2Proof/Machine/LoadStoreMultiple.lean ====
section
/-! DEFINITION. Sequences of word accesses, shared by LDM, STM, LDC and STC (R103, R113, R433), and the five load and
store multiple instructions (R430 to R441). -/

namespace Sys2Proof.Machine

/-- How a sequence of loads ended: all the words, or an abort, with the accesses before it made. -/
inductive LoadedWords
  | done (words : List Word) (s : State)
  | aborted (s : State)
  deriving DecidableEq, Repr

/-- Word loads at ascending addresses up to the first abort (R433 step 4, R496). -/
def loadWords (priv : Bool) : List Word → State → LoadedWords
  | [], s => .done [] s
  | a :: rest, s =>
    if s.memAbort a .word .load priv then .aborted s
    else match loadWords priv rest (s.load .word a).2 with
      | .done words t => .done ((s.load .word a).1 :: words) t
      | .aborted t => .aborted t

/-- How a sequence of stores ended. -/
inductive StoredWords
  | done (s : State)
  | aborted (s : State)
  deriving DecidableEq, Repr

/-- Word stores at ascending addresses up to the first abort (R433 step 4, R497). -/
def storeWords (priv : Bool) : List (Word × Word) → State → StoredWords
  | [], s => .done s
  | (a, v) :: rest, s =>
    if s.memAbort a .word .store priv then .aborted s
    else storeWords priv rest (s.store .word a v)

/-- One word of normal memory set to four drawn bytes (R113, "a fresh draw per byte"). -/
def drawWordAt (a : Word) (s : State) : State :=
  { s.memWrite .word a
      (Config.freeByte (s.draws + 3) ++ Config.freeByte (s.draws + 2) ++ Config.freeByte (s.draws + 1) ++
        Config.freeByte s.draws) with
    draws := s.draws + 4 }

/-- Memory after an aborted sequence of stores (R113, D23): every location of the sequence whose own store would not
abort holds any value, every other is unchanged. I/O locations hold nothing. -/
def drawStored (priv : Bool) : List Word → State → State
  | [], s => s
  | a :: rest, s =>
    if s.memAbort a .word .store priv || s.isIo .word a then drawStored priv rest s
    else drawStored priv rest (drawWordAt a s)

/-- Registers written in order (R433 step 5), as a mode sees them. -/
def writeRegs (m : BitVec 5) : List (RegNum × Word) → State → State
  | [], s => s
  | (n, v) :: rest, s => writeRegs m rest (s.writeRegIn m n v)

/-- Each register of a list set to a fresh draw (R572 case 5), as a mode sees it. -/
def drawRegs (m : BitVec 5) : List RegNum → State → State
  | [], s => s
  | n :: rest, s => drawRegs m rest (s.draw.2.writeRegIn m n s.draw.1)

/-- Whether an LDM or STM touches I/O as R130 forbids: I/O and normal memory together, or I/O with the PC in the
list (R129). -/
def mixedIo (addrs : List Word) (pcListed : Bool) (s : State) : Bool :=
  addrs.any (s.isIo .word) && (pcListed || !addrs.all (s.isIo .word))

/-- The destination registers of an aborted LDM that lose their values (R439, R572 cases 4 and 5): none where one
register is loaded, else those other than R15 and the base. In LDM (2) a User register is another than the base where
it is another physical register. -/
def lostRegs (m : BitVec 5) (rn : RegNum) (regs : List RegNum) (s : State) : List RegNum :=
  if regs.length ≤ 1 then []
  else regs.filter fun n => n != 15 && physReg m n != physReg (modeBits s.cpsr) rn

/-- The Data Abort of an LDM (R439): the base by the abort model, the other destinations drawn, then entry. -/
def abortLoadMultiple (m : BitVec 5) (rn : RegNum) (newBase : Option Word) (regs : List RegNum) (s : State) : State :=
  dataAbort (abortBase rn newBase (drawRegs m (lostRegs m rn regs s) s))

/-- Steps 2 to 4 of R433 for a load: the checks, the words, then `finish` with the registers and their words. `m` is
the mode whose registers are loaded. -/
def loadMultiple (m : BitVec 5) (mode : Mode4) (w : Bool) (rn : RegNum) (list : BitVec 16)
    (finish : List (RegNum × Word) → State → Result) (s : State) : Result :=
  let base := s.readReg rn
  let regs := listed list
  let start := mode4Start mode base regs.length
  let newBase := if w then some (mode4NewBase mode base regs.length) else none
  let addrs := wordAddresses start regs.length
  if wordsWrap start regs.length then .fault .wordsPastTop
  else if !aligned .word start && s.platform.alignCheck then .next (dataAbort s)
  else if mixedIo addrs (list.getLsbD 15) s then .fault .mixedIo
  else match loadWords (privileged s.cpsr) addrs s with
    | .aborted t => .next (abortLoadMultiple m rn newBase regs t)
    | .done words t => finish (regs.zip words) (writeBase rn newBase t)

/-- R434, R436: the words for R0 to R14 written; where the base was written back and is also loaded it ends with any
value. -/
def commitLoaded (w : Bool) (rn : RegNum) (pairs : List (RegNum × Word)) (s : State) : State :=
  let t := writeRegs (modeBits s.cpsr) (pairs.filter fun p => p.1 != 15) s
  if w && pairs.any (fun p => p.1 == rn) then t.draw.2.writeReg rn t.draw.1 else t

/-- The word loaded for R15, where it is listed. -/
def pcWord (pairs : List (RegNum × Word)) : Option Word := (pairs.find? fun p => p.1 == 15).map Prod.snd

/-- LDM (1) (R434). -/
def execLdm1 (cond : Cond) (mode : Mode4) (w : Bool) (rn : RegNum) (list : BitVec 16) (s : State) : Result :=
  conditional (.ldm1 cond mode w rn list) cond (fun s =>
    loadMultiple (modeBits s.cpsr) mode w rn list (fun pairs t =>
      match pcWord pairs with
      | some value => interwork value (commitLoaded w rn pairs t)
      | none => advance (commitLoaded w rn pairs t)) s) s

/-- LDM (2) (R435): the User mode registers; the next instruction must not name a banked register (R440). -/
def execLdm2 (cond : Cond) (mode : Mode4) (w : Bool) (rn : RegNum) (list : BitVec 15) (s : State) : Result :=
  conditional (.ldm2 cond mode w rn list) cond (fun s =>
    match s.currentExc with
    | none => .fault .userBankMode
    | some _ =>
      loadMultiple userBits mode w rn (0#1 ++ list) (fun pairs t =>
        advance { writeRegs userBits pairs t with userBankHazard := true }) s) s

/-- LDM (3) (R436): the registers, then SPSR to CPSR and the PC in one step; the words are all read first (D31). -/
def execLdm3 (cond : Cond) (mode : Mode4) (w : Bool) (rn : RegNum) (list : BitVec 15) (s : State) : Result :=
  conditional (.ldm3 cond mode w rn list) cond (fun s =>
    match s.currentExc with
    | none => .fault .noSpsr
    | some _ =>
      loadMultiple (modeBits s.cpsr) mode w rn (1#1 ++ list) (fun pairs t =>
        let value := (pcWord pairs).getD 0
        returnFromException (if bit value 1 then some .interworkTarget else none) 0xFFFFFFFC value
          (commitLoaded w rn pairs t)) s) s

/-- The value an STM stores for register n (R437): any value for a base that is written back and is not the lowest
register of the list, else the register, or `cur + PC_STORE_OFFSET` for R15. -/
def storedWord (m : BitVec 5) (w : Bool) (rn : RegNum) (regs : List RegNum) (s : State) (n : RegNum) : Word :=
  if w && n == rn && regs.head? != some n then s.draw.1
  else if n = 15 then s.storedPc
  else s.readRegIn m n

/-- Whether an STM draws a value for its base (R437). -/
def drawsBase (w : Bool) (rn : RegNum) (regs : List RegNum) : Bool :=
  w && regs.contains rn && regs.head? != some rn

/-- R433 for a store, with `m` the mode whose registers are stored; `after` is applied to the state of a completed
transfer. The Data Abort is R439. -/
def storeMultiple (m : BitVec 5) (mode : Mode4) (w : Bool) (rn : RegNum) (list : BitVec 16) (after : State → State)
    (s : State) : Result :=
  let base := s.readReg rn
  let regs := listed list
  let start := mode4Start mode base regs.length
  let newBase := if w then some (mode4NewBase mode base regs.length) else none
  let addrs := wordAddresses start regs.length
  if wordsWrap start regs.length then .fault .wordsPastTop
  else if !aligned .word start && s.platform.alignCheck then .next (dataAbort s)
  else if mixedIo addrs (list.getLsbD 15) s then .fault .mixedIo
  else
    let s1 := if drawsBase w rn regs then s.draw.2 else s
    match storeWords (privileged s.cpsr) (addrs.zip (regs.map (storedWord m w rn regs s))) s1 with
    | .aborted t => .next (dataAbort (abortBase rn newBase (drawStored (privileged s.cpsr) addrs t)))
    | .done t => advance (after (writeBase rn newBase t))

/-- STM (1) (R437). -/
def execStm1 (cond : Cond) (mode : Mode4) (w : Bool) (rn : RegNum) (list : BitVec 16) (s : State) : Result :=
  conditional (.stm1 cond mode w rn list) cond (fun s =>
    storeMultiple (modeBits s.cpsr) mode w rn list id s) s

/-- STM (2) (R438): the User mode registers; the next instruction must not name a banked register (R440). -/
def execStm2 (cond : Cond) (mode : Mode4) (w : Bool) (rn : RegNum) (list : BitVec 16) (s : State) : Result :=
  conditional (.stm2 cond mode w rn list) cond (fun s =>
    match s.currentExc with
    | none => .fault .userBankMode
    | some _ => storeMultiple userBits mode w rn list (fun t => { t with userBankHazard := true }) s) s

end Sys2Proof.Machine
end

