-- ==== Sys2Proof/Machine/Coprocessor.lean ====
section
/-! DEFINITION. The coprocessor interface (R481 to R485) and the ten coprocessor instructions (R486 to R502). The
coprocessor is given the whole word, which is the encoding of the instruction (R485). -/

namespace Sys2Proof.Machine

/-- The row of a coprocessor that accepts a word at a privilege, if one does (R482). -/
def acceptingRule (c : Coproc) (w : Word) (priv : Bool) : Option CoprocRule :=
  c.accepts.find? fun r => (w &&& r.mask == r.bits) && r.privileged.contains priv

/-- The coprocessor with a number (R481). -/
def State.coproc (s : State) (cp : BitVec 4) : Option Coproc := s.coprocs[cp.toNat]

/-- The state with a coprocessor's new internal state (R481). DESIGN CHOICE (assumption log 31): each number has a state
of its own, so an operation under one number changes nothing under another, also where one coprocessor uses several
numbers (R480). -/
def State.setCoproc (s : State) (cp : BitVec 4) (c : Coproc) : State :=
  { s with coprocs := s.coprocs.set cp.toNat (some c) }

/-- Accept or refuse (R482): with no coprocessor that accepts, the Undefined Instruction exception and nothing else;
otherwise the body, with the coprocessor and its transfer count. An operation the host has not supplied is outside the
model (R20 (b); Z9). -/
def withCoproc (w : Word) (cp : BitVec 4) (body : Coproc → Nat → State → Result) (s : State) : Result :=
  match s.coproc cp with
  | none => .next (undefinedException s)
  | some c =>
    match acceptingRule c w (privileged s.cpsr) with
    | none => .next (undefinedException s)
    | some r => if r.supplied then body c r.count s else .refused .coprocessorOperation

/-- CDP and CDP2 (R486). -/
def coprocOperation (w : Word) (cp : BitVec 4) (s : State) : Result :=
  withCoproc w cp (fun c _ s => advance (s.setCoproc cp (Config.cpCdp c w))) s

/-- MCR and MCR2 (R487). -/
def toCoproc (w : Word) (cp : BitVec 4) (rd : RegNum) (s : State) : Result :=
  withCoproc w cp (fun c _ s => advance (s.setCoproc cp (Config.cpMcr c w (s.readReg rd)))) s

/-- MRC and MRC2 (R490): to Rd, or, for R15, bits 31:28 to the flags. -/
def fromCoproc (w : Word) (cp : BitVec 4) (rd : RegNum) (s : State) : Result :=
  withCoproc w cp (fun c _ s =>
    let t := s.setCoproc cp (Config.cpMrc c w)
    if rd = 15 then advance { t with cpsr := flagsFromWord s.cpsr (Config.cpMrcData c w) }
    else advance (t.writeReg rd (Config.cpMrcData c w))) s

/-- The masked addresses of an LDC or STC transfer (R496). -/
def coprocAddresses (start : Word) (n : Nat) : List Word := wordAddresses (alignTo .word start) n

/-- What LDC and STC do before their accesses (R496): the count's contract, the end of the address space, alignment
checking. -/
def coprocTransfer (ad : Addressing) (n : Nat) (body : List Word → State → Result) (s : State) : Result :=
  if n = 0 ∨ 16 < n then .refused .coprocessorContract
  else if wordsWrap ad.address n then .fault .wordsPastTop
  else if !aligned .word ad.address && s.platform.alignCheck then .next (dataAbort s)
  else body (coprocAddresses ad.address n) s

/-- LDC and LDC2 (R496). On an abort the coprocessor's state is a member of `ldc_aborted(s, w)` (R498 (c)). -/
def loadCoproc (w : Word) (mode : Mode5) (rn : RegNum) (cp : BitVec 4) (s : State) : Result :=
  withCoproc w cp (fun c n s =>
    let ad := mode5 mode (s.readReg rn)
    coprocTransfer ad n (fun addrs s =>
      match loadWords (privileged s.cpsr) addrs s with
      | .done words t => advance (writeBase rn ad.newBase (t.setCoproc cp (Config.cpLdc c w words)))
      | .aborted t =>
        .next (dataAbort (abortBase rn ad.newBase
          ({ t with draws := t.draws + 1 }.setCoproc cp (Config.cpLdcAborted c w t.draws))))) s) s

/-- STC and STC2 (R497). On an abort the coprocessor's state is unchanged (R498 (d)). -/
def storeCoproc (w : Word) (mode : Mode5) (rn : RegNum) (cp : BitVec 4) (s : State) : Result :=
  withCoproc w cp (fun c n s =>
    let ad := mode5 mode (s.readReg rn)
    coprocTransfer ad n (fun addrs s =>
      match storeWords (privileged s.cpsr) (addrs.zip ((List.range n).map (Config.cpStcWord c w))) s with
      | .done t => advance (writeBase rn ad.newBase (t.setCoproc cp (Config.cpStc c w)))
      | .aborted t =>
        .next (dataAbort (abortBase rn ad.newBase (drawStored (privileged s.cpsr) addrs t)))) s) s

/-- CDP2 (R499). -/
def execCdp2 (op1 crn crd cp : BitVec 4) (op2 : BitVec 3) (crm : BitVec 4) (s : State) : Result :=
  always (.cdp2 op1 crn crd cp op2 crm) (coprocOperation (encode (.cdp2 op1 crn crd cp op2 crm)) cp) s

/-- MCR2 (R499). -/
def execMcr2 (op1 : BitVec 3) (crn : BitVec 4) (rd : RegNum) (cp : BitVec 4) (op2 : BitVec 3) (crm : BitVec 4)
    (s : State) : Result :=
  always (.mcr2 op1 crn rd cp op2 crm) (toCoproc (encode (.mcr2 op1 crn rd cp op2 crm)) cp rd) s

/-- MRC2 (R499). -/
def execMrc2 (op1 : BitVec 3) (crn : BitVec 4) (rd : RegNum) (cp : BitVec 4) (op2 : BitVec 3) (crm : BitVec 4)
    (s : State) : Result :=
  always (.mrc2 op1 crn rd cp op2 crm) (fromCoproc (encode (.mrc2 op1 crn rd cp op2 crm)) cp rd) s

/-- LDC2 (R499). -/
def execLdc2 (mode : Mode5) (n : Bool) (rn : RegNum) (crd cp : BitVec 4) (s : State) : Result :=
  always (.ldc2 mode n rn crd cp) (loadCoproc (encode (.ldc2 mode n rn crd cp)) mode rn cp) s

/-- STC2 (R499). -/
def execStc2 (mode : Mode5) (n : Bool) (rn : RegNum) (crd cp : BitVec 4) (s : State) : Result :=
  always (.stc2 mode n rn crd cp) (storeCoproc (encode (.stc2 mode n rn crd cp)) mode rn cp) s

/-- LDC (R496). -/
def execLdc (cond : Cond) (mode : Mode5) (n : Bool) (rn : RegNum) (crd cp : BitVec 4) (s : State) : Result :=
  conditional (.ldc cond mode n rn crd cp) cond (loadCoproc (encode (.ldc cond mode n rn crd cp)) mode rn cp) s

/-- STC (R497). -/
def execStc (cond : Cond) (mode : Mode5) (n : Bool) (rn : RegNum) (crd cp : BitVec 4) (s : State) : Result :=
  conditional (.stc cond mode n rn crd cp) cond (storeCoproc (encode (.stc cond mode n rn crd cp)) mode rn cp) s

/-- CDP (R486). -/
def execCdp (cond : Cond) (op1 crn crd cp : BitVec 4) (op2 : BitVec 3) (crm : BitVec 4) (s : State) : Result :=
  conditional (.cdp cond op1 crn crd cp op2 crm) cond
    (coprocOperation (encode (.cdp cond op1 crn crd cp op2 crm)) cp) s

/-- MCR (R487). -/
def execMcr (cond : Cond) (op1 : BitVec 3) (crn : BitVec 4) (rd : RegNum) (cp : BitVec 4) (op2 : BitVec 3)
    (crm : BitVec 4) (s : State) : Result :=
  conditional (.mcr cond op1 crn rd cp op2 crm) cond
    (toCoproc (encode (.mcr cond op1 crn rd cp op2 crm)) cp rd) s

/-- MRC (R490). -/
def execMrc (cond : Cond) (op1 : BitVec 3) (crn : BitVec 4) (rd : RegNum) (cp : BitVec 4) (op2 : BitVec 3)
    (crm : BitVec 4) (s : State) : Result :=
  conditional (.mrc cond op1 crn rd cp op2 crm) cond
    (fromCoproc (encode (.mrc cond op1 crn rd cp op2 crm)) cp rd) s

end Sys2Proof.Machine
end

