-- ==== Sys2Proof/Machine/DataProcessing.lean ====
section
/-! DEFINITION. The sixteen data-processing instructions (R250 to R290): a result, its flags, and the three ways a
result is written (R264, R265, R266). -/

namespace Sys2Proof.Machine

/-- The destination of a data-processing instruction (R264 to R266): R15 with S is the exception return, R15 without S
a branch, any other register is written, with the flags where S is set. -/
def writeResult (setFlags : Bool) (rd : RegNum) (result newCpsr : Word) (s : State) : Result :=
  if rd = 15 then
    if setFlags then
      returnFromException (if bits result 0 2 = 0 then none else some .misalignedPc) 0xFFFFFFFF result s
    else if bits result 0 2 = 0 then .next (s.jump result)
    else .fault .misalignedPc
  else advance { s.writeReg rd result with cpsr := if setFlags then newCpsr else s.cpsr }

/-- The flags of a comparison written, nothing else (R278 to R281). -/
def writeFlags (newCpsr : Word) (s : State) : Result := advance { s with cpsr := newCpsr }

/-- The logical class with a destination (R264): `f` of Rn and the shifter operand. -/
def logical (f : Word → Word → Word) (setFlags : Bool) (rn rd : RegNum) (op : Operand2) (s : State) : Result :=
  let so := shifterOperand op s
  let result := f (s.readReg rn) so.1
  writeResult setFlags rd result (logicalFlags s.cpsr result so.2) s

/-- MOV and MVN (R283, R285): `f` of the shifter operand alone. -/
def move (f : Word → Word) (setFlags : Bool) (rd : RegNum) (op : Operand2) (s : State) : Result :=
  let so := shifterOperand op s
  let result := f so.1
  writeResult setFlags rd result (logicalFlags s.cpsr result so.2) s

/-- `a + b + c` to the destination (R274, R275). -/
def addTo (setFlags : Bool) (rd : RegNum) (a b : Word) (c : Bool) (s : State) : Result :=
  writeResult setFlags rd (a + b + carryWord c) (addFlags s.cpsr a b c) s

/-- `a - b - c` to the destination (R272, R273, R276, R277). -/
def subTo (setFlags : Bool) (rd : RegNum) (a b : Word) (c : Bool) (s : State) : Result :=
  writeResult setFlags rd (a - b - carryWord c) (subFlags s.cpsr a b c) s

/-- AND (R270). -/
def execAnd (cond : Cond) (s : Bool) (rn rd : RegNum) (op : Operand2) (st : State) : Result :=
  conditional (.and cond s rn rd op) cond (logical (fun a b => a &&& b) s rn rd op) st

/-- EOR (R271). -/
def execEor (cond : Cond) (s : Bool) (rn rd : RegNum) (op : Operand2) (st : State) : Result :=
  conditional (.eor cond s rn rd op) cond (logical (fun a b => a ^^^ b) s rn rd op) st

/-- SUB (R272). -/
def execSub (cond : Cond) (s : Bool) (rn rd : RegNum) (op : Operand2) (st : State) : Result :=
  conditional (.sub cond s rn rd op) cond (fun st => subTo s rd (st.readReg rn) (shifterOperand op st).1 false st) st

/-- RSB (R273). -/
def execRsb (cond : Cond) (s : Bool) (rn rd : RegNum) (op : Operand2) (st : State) : Result :=
  conditional (.rsb cond s rn rd op) cond (fun st => subTo s rd (shifterOperand op st).1 (st.readReg rn) false st) st

/-- ADD (R274). -/
def execAdd (cond : Cond) (s : Bool) (rn rd : RegNum) (op : Operand2) (st : State) : Result :=
  conditional (.add cond s rn rd op) cond (fun st => addTo s rd (st.readReg rn) (shifterOperand op st).1 false st) st

/-- ADC (R275). -/
def execAdc (cond : Cond) (s : Bool) (rn rd : RegNum) (op : Operand2) (st : State) : Result :=
  conditional (.adc cond s rn rd op) cond (fun st => addTo s rd (st.readReg rn) (shifterOperand op st).1 (flagC st.cpsr) st) st

/-- SBC (R276). -/
def execSbc (cond : Cond) (s : Bool) (rn rd : RegNum) (op : Operand2) (st : State) : Result :=
  conditional (.sbc cond s rn rd op) cond (fun st => subTo s rd (st.readReg rn) (shifterOperand op st).1 (!flagC st.cpsr) st) st

/-- RSC (R277). -/
def execRsc (cond : Cond) (s : Bool) (rn rd : RegNum) (op : Operand2) (st : State) : Result :=
  conditional (.rsc cond s rn rd op) cond (fun st => subTo s rd (shifterOperand op st).1 (st.readReg rn) (!flagC st.cpsr) st) st

/-- TST (R278). -/
def execTst (cond : Cond) (rn : RegNum) (op : Operand2) (s : State) : Result :=
  conditional (.tst cond rn op) cond (fun st =>
    writeFlags (logicalFlags st.cpsr (st.readReg rn &&& (shifterOperand op st).1) (shifterOperand op st).2) st) s

/-- TEQ (R279). -/
def execTeq (cond : Cond) (rn : RegNum) (op : Operand2) (s : State) : Result :=
  conditional (.teq cond rn op) cond (fun st =>
    writeFlags (logicalFlags st.cpsr (st.readReg rn ^^^ (shifterOperand op st).1) (shifterOperand op st).2) st) s

/-- CMP (R280). -/
def execCmp (cond : Cond) (rn : RegNum) (op : Operand2) (s : State) : Result :=
  conditional (.cmp cond rn op) cond (fun st =>
    writeFlags (subFlags st.cpsr (st.readReg rn) (shifterOperand op st).1 false) st) s

/-- CMN (R281). -/
def execCmn (cond : Cond) (rn : RegNum) (op : Operand2) (s : State) : Result :=
  conditional (.cmn cond rn op) cond (fun st =>
    writeFlags (addFlags st.cpsr (st.readReg rn) (shifterOperand op st).1 false) st) s

/-- ORR (R282). -/
def execOrr (cond : Cond) (s : Bool) (rn rd : RegNum) (op : Operand2) (st : State) : Result :=
  conditional (.orr cond s rn rd op) cond (logical (fun a b => a ||| b) s rn rd op) st

/-- MOV (R283). -/
def execMov (cond : Cond) (s : Bool) (rd : RegNum) (op : Operand2) (st : State) : Result :=
  conditional (.mov cond s rd op) cond (move (fun b => b) s rd op) st

/-- BIC (R284). -/
def execBic (cond : Cond) (s : Bool) (rn rd : RegNum) (op : Operand2) (st : State) : Result :=
  conditional (.bic cond s rn rd op) cond (logical (fun a b => a &&& ~~~b) s rn rd op) st

/-- MVN (R285). -/
def execMvn (cond : Cond) (s : Bool) (rd : RegNum) (op : Operand2) (st : State) : Result :=
  conditional (.mvn cond s rd op) cond (move (fun b => ~~~b) s rd op) st

end Sys2Proof.Machine
end

