-- ==== Sys2Proof/Machine/ExceptionGen.lean ====
section
/-! DEFINITION. SWI and BKPT (R470 to R472), and the meanings of the rows that are no instruction: UNDEFINED words take
the Undefined Instruction exception (R218 to R226, R568), UNPREDICTABLE words stop (R221, R222 (1), R472). -/

namespace Sys2Proof.Machine

/-- SWI (R471): the Software Interrupt exception, link `cur + 4`; the immediate is ignored. -/
def execSwi (cond : Cond) (immed : BitVec 24) (s : State) : Result :=
  conditional (.swi cond immed) cond (fun s => .next (takeException .swi (s.pc + 4) s)) s

/-- BKPT (R472): Prefetch Abort entry with link `cur + 4`; no debug hardware overrides it (D22). -/
def execBkpt (immedHi : BitVec 12) (immedLo : BitVec 4) (s : State) : Result :=
  always (.bkpt immedHi immedLo) (fun s => .next (prefetchAbort s)) s

/-- Whether an UNDEFINED word traps (R222 (2)): its condition passes; in the unconditional space it always does. -/
def undefinedTraps (w : Word) (s : State) : Bool :=
  bits w 28 4 == 15 || conditionPassed (Cond.ofBits (bits w 28 4)) s.cpsr

/-- An UNDEFINED word (R222 (2), R568): the exception, or a NOP where the condition fails. -/
def undefinedWord (w : Word) (s : State) : Result :=
  if undefinedTraps w s then .next (undefinedException s) else advance s

/-- The coprocessor instruction extension space (R225): trapped directly (D25). -/
def execUndefCoprocSpace (w : Word) (s : State) : Result := undefinedWord w s

/-- The unallocated unconditional space (R226). -/
def execUndefUnconditional (w : Word) (s : State) : Result := undefinedWord w s

/-- The control extension space, immediate half (R223). -/
def execUndefControlImm (w : Word) (s : State) : Result := undefinedWord w s

/-- The arithmetic extension space (R219). -/
def execUndefArith (w : Word) (s : State) : Result := undefinedWord w s

/-- The load/store extension space with bits 6:5 = 00 (R224). -/
def execUndefLoadStore (w : Word) (s : State) : Result := undefinedWord w s

/-- The LDRD and STRD encodings of E variants (R224). -/
def execUndefDouble (w : Word) (s : State) : Result := undefinedWord w s

/-- The control extension space, register half (R223). -/
def execUndefControlReg (w : Word) (s : State) : Result := undefinedWord w s

/-- The undefined instruction space (R218). -/
def execUndefSpace (w : Word) (s : State) : Result := undefinedWord w s

/-- An UNPREDICTABLE word (R222 (1)): refused whether or not its condition passes. -/
def unpredictableWord (i : Instr) (why : EncodingFault) : Result :=
  .fault (.unpredictable ((encodingFault i).getD why))

/-- BKPT with a condition other than AL (R472). -/
def execUnpredBkpt (w : Word) (_ : State) : Result := unpredictableWord (.unpredBkpt w) .bkptCondition

/-- BX or BLX (2) decode bits with an SBO bit clear (R221). -/
def execUnpredBx (w : Word) (_ : State) : Result := unpredictableWord (.unpredBx w) .fixedBits

/-- CLZ decode bits with an SBO bit clear (R221). -/
def execUnpredClz (w : Word) (_ : State) : Result := unpredictableWord (.unpredClz w) .fixedBits

/-- MRS decode bits with SBO or SBZ violated (R221, R342). -/
def execUnpredMrs (w : Word) (_ : State) : Result := unpredictableWord (.unpredMrs w) .fixedBits

/-- MSR register decode bits with SBO or SBZ violated (R221, R345). -/
def execUnpredMsrReg (w : Word) (_ : State) : Result := unpredictableWord (.unpredMsrReg w) .fixedBits

/-- MSR immediate decode bits with SBO violated (R221, R345). -/
def execUnpredMsrImm (w : Word) (_ : State) : Result := unpredictableWord (.unpredMsrImm w) .fixedBits

/-- MUL decode bits with SBZ violated (R221, R322). -/
def execUnpredMul (w : Word) (_ : State) : Result := unpredictableWord (.unpredMul w) .fixedBits

/-- SWP or SWPB decode bits with SBZ violated (R221, R462). -/
def execUnpredSwp (w : Word) (_ : State) : Result := unpredictableWord (.unpredSwp w) .fixedBits

/-- TST decode bits with SBZ violated (R267). -/
def execUnpredTst (w : Word) (_ : State) : Result := unpredictableWord (.unpredTst w) .fixedBits

/-- TEQ decode bits with SBZ violated (R267). -/
def execUnpredTeq (w : Word) (_ : State) : Result := unpredictableWord (.unpredTeq w) .fixedBits

/-- CMP decode bits with SBZ violated (R267). -/
def execUnpredCmp (w : Word) (_ : State) : Result := unpredictableWord (.unpredCmp w) .fixedBits

/-- CMN decode bits with SBZ violated (R267). -/
def execUnpredCmn (w : Word) (_ : State) : Result := unpredictableWord (.unpredCmn w) .fixedBits

/-- MOV decode bits with SBZ violated (R267). -/
def execUnpredMov (w : Word) (_ : State) : Result := unpredictableWord (.unpredMov w) .fixedBits

/-- MVN decode bits with SBZ violated (R267). -/
def execUnpredMvn (w : Word) (_ : State) : Result := unpredictableWord (.unpredMvn w) .fixedBits

end Sys2Proof.Machine
end

