-- ==== Sys2Proof/Machine/Multiply.lean ====
section
/-! DEFINITION. The six multiplies (R320 to R331). Early termination has no effect on any result (R323). -/

namespace Sys2Proof.Machine

/-- A 32-bit product written, with N and Z where S is set (R324, R325, R326). -/
def writeProduct (setFlags : Bool) (rd : RegNum) (result : Word) (s : State) : Result :=
  advance { s.writeReg rd result with cpsr := if setFlags then mulFlags s.cpsr result else s.cpsr }

/-- A 64-bit product written to RdHi and RdLo, with N and Z where S is set (R324, R327 to R330). -/
def writeLongProduct (setFlags : Bool) (rdHi rdLo : RegNum) (result : BitVec 64) (s : State) : Result :=
  let hi : Word := result.extractLsb' 32 32
  let lo : Word := result.extractLsb' 0 32
  advance { (s.writeReg rdHi hi).writeReg rdLo lo with
    cpsr := if setFlags then mulLongFlags s.cpsr hi lo else s.cpsr }

/-- `UInt(a) * UInt(b)` as a 64-bit value (R327, R328). -/
def unsignedProduct (a b : Word) : BitVec 64 := BitVec.ofNat 64 (a.toNat * b.toNat)

/-- `SInt(a) * SInt(b)` as a 64-bit two's complement value (R329, R330). -/
def signedProduct (a b : Word) : BitVec 64 := BitVec.ofInt 64 (a.toInt * b.toInt)

/-- The 64-bit value held in RdHi and RdLo before the instruction (R328, R330). -/
def accumulator (rdHi rdLo : RegNum) (s : State) : BitVec 64 := s.readReg rdHi ++ s.readReg rdLo

/-- MUL (R325). -/
def execMul (cond : Cond) (s : Bool) (rd rs rm : RegNum) (st : State) : Result :=
  conditional (.mul cond s rd rs rm) cond (fun st => writeProduct s rd (st.readReg rm * st.readReg rs) st) st

/-- MLA (R326). -/
def execMla (cond : Cond) (s : Bool) (rd rn rs rm : RegNum) (st : State) : Result :=
  conditional (.mla cond s rd rn rs rm) cond
    (fun st => writeProduct s rd (st.readReg rm * st.readReg rs + st.readReg rn) st) st

/-- UMULL (R327). -/
def execUmull (cond : Cond) (s : Bool) (rdHi rdLo rs rm : RegNum) (st : State) : Result :=
  conditional (.umull cond s rdHi rdLo rs rm) cond
    (fun st => writeLongProduct s rdHi rdLo (unsignedProduct (st.readReg rm) (st.readReg rs)) st) st

/-- UMLAL (R328). -/
def execUmlal (cond : Cond) (s : Bool) (rdHi rdLo rs rm : RegNum) (st : State) : Result :=
  conditional (.umlal cond s rdHi rdLo rs rm) cond
    (fun st => writeLongProduct s rdHi rdLo
      (unsignedProduct (st.readReg rm) (st.readReg rs) + accumulator rdHi rdLo st) st) st

/-- SMULL (R329). -/
def execSmull (cond : Cond) (s : Bool) (rdHi rdLo rs rm : RegNum) (st : State) : Result :=
  conditional (.smull cond s rdHi rdLo rs rm) cond
    (fun st => writeLongProduct s rdHi rdLo (signedProduct (st.readReg rm) (st.readReg rs)) st) st

/-- SMLAL (R330). -/
def execSmlal (cond : Cond) (s : Bool) (rdHi rdLo rs rm : RegNum) (st : State) : Result :=
  conditional (.smlal cond s rdHi rdLo rs rm) cond
    (fun st => writeLongProduct s rdHi rdLo
      (signedProduct (st.readReg rm) (st.readReg rs) + accumulator rdHi rdLo st) st) st

end Sys2Proof.Machine
end

