-- ==== Sys2Proof/Machine/Semaphore.lean ====
section
/-! DEFINITION. SWP and SWPB (R460 to R465): a load and a store of one location as one instruction. -/

namespace Sys2Proof.Machine

/-- The exchange (R463, R464): the load, then the store, then Rd. An abort on either leaves Rd as it was; an abort on
the load leaves memory as it was, and a location whose store aborts is unchanged (R113). -/
def exchange (size : Size) (rn rd rm : RegNum) (result : Word → Word → Word) (s : State) : Result :=
  let a := s.readReg rn
  match alignmentOf size a s with
  | .abort => .next (dataAbort s)
  | .stop => .fault .unalignedHalfword
  | .proceed =>
    if s.memAbort a size .load (privileged s.cpsr) then .next (dataAbort s)
    else
      let r := s.load size a
      if s.memAbort a size .store (privileged s.cpsr) then .next (dataAbort r.2)
      else advance ((r.2.store size a (s.readReg rm)).writeReg rd (result a r.1))

/-- SWP (R463): the loaded word is rotated, the stored word is not. -/
def execSwp (cond : Cond) (rn rd rm : RegNum) (s : State) : Result :=
  conditional (.swp cond rn rd rm) cond (exchange .word rn rd rm rotateLoaded) s

/-- SWPB (R464): the least significant byte of Rm, the loaded byte zero-extended. -/
def execSwpb (cond : Cond) (rn rd rm : RegNum) (s : State) : Result :=
  conditional (.swpb cond rn rd rm) cond (exchange .byte rn rd rm fun _ v => v) s

end Sys2Proof.Machine
end

