-- ==== Sys2Proof/Machine/Status.lean ====
section
/-! DEFINITION. CLZ, MRS and MSR (R340 to R349). -/

namespace Sys2Proof.Machine

/-- The number of zero bits above the most significant 1 of the low `n` bits of a word (R340). -/
def leadingZeros (x : Word) : Nat → Nat
  | 0 => 0
  | n + 1 => if bit x n then 0 else leadingZeros x n + 1

/-- CLZ (R340). -/
def execClz (cond : Cond) (rd rm : RegNum) (s : State) : Result :=
  conditional (.clz cond rd rm) cond
    (fun s => advance (s.writeReg rd (BitVec.ofNat 32 (leadingZeros (s.readReg rm) 32)))) s

/-- MRS (R342). The SPSR in User or System mode is UNPREDICTABLE (R51). -/
def execMrs (cond : Cond) (spsr : Bool) (rd : RegNum) (s : State) : Result :=
  conditional (.mrs cond spsr rd) cond (fun s =>
    if spsr then
      match s.currentExc with
      | none => .fault .noSpsr
      | some e => advance (s.writeReg rd (s.spsr.get e))
    else advance (s.writeReg rd s.cpsr)) s

/-- The fields of `field_mask` copied from an operand into a PSR, byte by byte (R345); `low` says whether the three
bytes below the flags byte may be written. -/
def mergeFields (mask : BitVec 4) (low : Bool) (old operand : Word) : Word :=
  (if mask.getLsbD 3 then bits operand 24 8 else bits old 24 8) ++
  (if mask.getLsbD 2 && low then bits operand 16 8 else bits old 16 8) ++
  (if mask.getLsbD 1 && low then bits operand 8 8 else bits old 8 8) ++
  (if mask.getLsbD 0 && low then bits operand 0 8 else bits old 0 8)

/-- A write of the CPSR by MSR (R345 to R348): the checks on the new value; leaving a privileged mode for User mode
starts the wait of R348. -/
def writeCpsr (new : Word) (s : State) : Result :=
  if reservedBits new ≠ 0 then .fault .reservedPsrBits
  else if !legalMode (modeBits new) then .fault .illegalMode
  else if flagT new != flagT s.cpsr then .fault .msrChangesT
  else advance { s with
    cpsr := new
    privDropPending := s.privDropPending || (privileged s.cpsr && !privileged new) }

/-- MSR with its operand (R345): the CPSR, where User mode writes only the flags byte, or the SPSR of the current
mode. -/
def moveToStatus (spsr : Bool) (mask : BitVec 4) (operand : Word) (s : State) : Result :=
  if spsr then
    match s.currentExc with
    | none => .fault .noSpsr
    | some e => advance { s with spsr := s.spsr.set e (mergeFields mask true (s.spsr.get e) operand) }
  else writeCpsr (mergeFields mask (privileged s.cpsr) s.cpsr operand) s

/-- MSR, register operand (R345); Rm = R15 reads the address plus 8. -/
def execMsrReg (cond : Cond) (spsr : Bool) (mask : BitVec 4) (rm : RegNum) (s : State) : Result :=
  conditional (.msrReg cond spsr mask rm) cond (fun s => moveToStatus spsr mask (s.readReg rm) s) s

/-- MSR, immediate operand (R345): the immediate of R251, no carry-out used. -/
def execMsrImm (cond : Cond) (spsr : Bool) (mask rotate : BitVec 4) (immed : BitVec 8) (s : State) : Result :=
  conditional (.msrImm cond spsr mask rotate immed) cond
    (fun s => moveToStatus spsr mask (immediateOperand rotate immed false).1 s) s

end Sys2Proof.Machine
end

