-- ==== Sys2Proof/Machine/Dispatch.lean ====
section
/-! DEFINITION. One arm per instruction of Sys2Proof/Syntax.lean: the direct call of its meaning. -/

namespace Sys2Proof.Machine

/-- The meaning of an instruction, by its constructor. -/
def exec (i : Instr) (s : State) : Host.Outcome State Fault Refusal :=
  match i with
  | .blx1 h immed => Sys2Proof.Machine.execBlx1 h immed s
  | .undefCoprocSpace w => Sys2Proof.Machine.execUndefCoprocSpace w s
  | .cdp2 op1 crn crd cp op2 crm => Sys2Proof.Machine.execCdp2 op1 crn crd cp op2 crm s
  | .mcr2 op1 crn rd cp op2 crm => Sys2Proof.Machine.execMcr2 op1 crn rd cp op2 crm s
  | .mrc2 op1 crn rd cp op2 crm => Sys2Proof.Machine.execMrc2 op1 crn rd cp op2 crm s
  | .ldc2 mode n rn crd cp => Sys2Proof.Machine.execLdc2 mode n rn crd cp s
  | .stc2 mode n rn crd cp => Sys2Proof.Machine.execStc2 mode n rn crd cp s
  | .undefUnconditional w => Sys2Proof.Machine.execUndefUnconditional w s
  | .bkpt immedHi immedLo => Sys2Proof.Machine.execBkpt immedHi immedLo s
  | .unpredBkpt w => Sys2Proof.Machine.execUnpredBkpt w s
  | .bx cond rm => Sys2Proof.Machine.execBx cond rm s
  | .blx2 cond rm => Sys2Proof.Machine.execBlx2 cond rm s
  | .unpredBx w => Sys2Proof.Machine.execUnpredBx w s
  | .clz cond rd rm => Sys2Proof.Machine.execClz cond rd rm s
  | .unpredClz w => Sys2Proof.Machine.execUnpredClz w s
  | .mrs cond spsr rd => Sys2Proof.Machine.execMrs cond spsr rd s
  | .unpredMrs w => Sys2Proof.Machine.execUnpredMrs w s
  | .msrReg cond spsr mask rm => Sys2Proof.Machine.execMsrReg cond spsr mask rm s
  | .unpredMsrReg w => Sys2Proof.Machine.execUnpredMsrReg w s
  | .msrImm cond spsr mask rotate immed => Sys2Proof.Machine.execMsrImm cond spsr mask rotate immed s
  | .unpredMsrImm w => Sys2Proof.Machine.execUnpredMsrImm w s
  | .undefControlImm w => Sys2Proof.Machine.execUndefControlImm w s
  | .mul cond setFlags rd rs rm => Sys2Proof.Machine.execMul cond setFlags rd rs rm s
  | .unpredMul w => Sys2Proof.Machine.execUnpredMul w s
  | .mla cond setFlags rd rn rs rm => Sys2Proof.Machine.execMla cond setFlags rd rn rs rm s
  | .undefArith w => Sys2Proof.Machine.execUndefArith w s
  | .umull cond setFlags rdHi rdLo rs rm => Sys2Proof.Machine.execUmull cond setFlags rdHi rdLo rs rm s
  | .umlal cond setFlags rdHi rdLo rs rm => Sys2Proof.Machine.execUmlal cond setFlags rdHi rdLo rs rm s
  | .smull cond setFlags rdHi rdLo rs rm => Sys2Proof.Machine.execSmull cond setFlags rdHi rdLo rs rm s
  | .smlal cond setFlags rdHi rdLo rs rm => Sys2Proof.Machine.execSmlal cond setFlags rdHi rdLo rs rm s
  | .swp cond rn rd rm => Sys2Proof.Machine.execSwp cond rn rd rm s
  | .swpb cond rn rd rm => Sys2Proof.Machine.execSwpb cond rn rd rm s
  | .unpredSwp w => Sys2Proof.Machine.execUnpredSwp w s
  | .undefLoadStore w => Sys2Proof.Machine.execUndefLoadStore w s
  | .strh cond p u w rn rd off => Sys2Proof.Machine.execStrh cond p u w rn rd off s
  | .ldrh cond p u w rn rd off => Sys2Proof.Machine.execLdrh cond p u w rn rd off s
  | .ldrsb cond p u w rn rd off => Sys2Proof.Machine.execLdrsb cond p u w rn rd off s
  | .ldrsh cond p u w rn rd off => Sys2Proof.Machine.execLdrsh cond p u w rn rd off s
  | .undefDouble w => Sys2Proof.Machine.execUndefDouble w s
  | .undefControlReg w => Sys2Proof.Machine.execUndefControlReg w s
  | .and cond setFlags rn rd op => Sys2Proof.Machine.execAnd cond setFlags rn rd op s
  | .eor cond setFlags rn rd op => Sys2Proof.Machine.execEor cond setFlags rn rd op s
  | .sub cond setFlags rn rd op => Sys2Proof.Machine.execSub cond setFlags rn rd op s
  | .rsb cond setFlags rn rd op => Sys2Proof.Machine.execRsb cond setFlags rn rd op s
  | .add cond setFlags rn rd op => Sys2Proof.Machine.execAdd cond setFlags rn rd op s
  | .adc cond setFlags rn rd op => Sys2Proof.Machine.execAdc cond setFlags rn rd op s
  | .sbc cond setFlags rn rd op => Sys2Proof.Machine.execSbc cond setFlags rn rd op s
  | .rsc cond setFlags rn rd op => Sys2Proof.Machine.execRsc cond setFlags rn rd op s
  | .tst cond rn op => Sys2Proof.Machine.execTst cond rn op s
  | .unpredTst w => Sys2Proof.Machine.execUnpredTst w s
  | .teq cond rn op => Sys2Proof.Machine.execTeq cond rn op s
  | .unpredTeq w => Sys2Proof.Machine.execUnpredTeq w s
  | .cmp cond rn op => Sys2Proof.Machine.execCmp cond rn op s
  | .unpredCmp w => Sys2Proof.Machine.execUnpredCmp w s
  | .cmn cond rn op => Sys2Proof.Machine.execCmn cond rn op s
  | .unpredCmn w => Sys2Proof.Machine.execUnpredCmn w s
  | .orr cond setFlags rn rd op => Sys2Proof.Machine.execOrr cond setFlags rn rd op s
  | .mov cond setFlags rd op => Sys2Proof.Machine.execMov cond setFlags rd op s
  | .unpredMov w => Sys2Proof.Machine.execUnpredMov w s
  | .bic cond setFlags rn rd op => Sys2Proof.Machine.execBic cond setFlags rn rd op s
  | .mvn cond setFlags rd op => Sys2Proof.Machine.execMvn cond setFlags rd op s
  | .unpredMvn w => Sys2Proof.Machine.execUnpredMvn w s
  | .undefSpace w => Sys2Proof.Machine.execUndefSpace w s
  | .ldrt cond up rn rd off => Sys2Proof.Machine.execLdrt cond up rn rd off s
  | .ldrbt cond up rn rd off => Sys2Proof.Machine.execLdrbt cond up rn rd off s
  | .strt cond up rn rd off => Sys2Proof.Machine.execStrt cond up rn rd off s
  | .strbt cond up rn rd off => Sys2Proof.Machine.execStrbt cond up rn rd off s
  | .ldr cond idx up rn rd off => Sys2Proof.Machine.execLdr cond idx up rn rd off s
  | .ldrb cond idx up rn rd off => Sys2Proof.Machine.execLdrb cond idx up rn rd off s
  | .str cond idx up rn rd off => Sys2Proof.Machine.execStr cond idx up rn rd off s
  | .strb cond idx up rn rd off => Sys2Proof.Machine.execStrb cond idx up rn rd off s
  | .ldm3 cond mode w rn list => Sys2Proof.Machine.execLdm3 cond mode w rn list s
  | .ldm2 cond mode w rn list => Sys2Proof.Machine.execLdm2 cond mode w rn list s
  | .ldm1 cond mode w rn list => Sys2Proof.Machine.execLdm1 cond mode w rn list s
  | .stm2 cond mode w rn list => Sys2Proof.Machine.execStm2 cond mode w rn list s
  | .stm1 cond mode w rn list => Sys2Proof.Machine.execStm1 cond mode w rn list s
  | .b cond immed => Sys2Proof.Machine.execB cond immed s
  | .bl cond immed => Sys2Proof.Machine.execBl cond immed s
  | .ldc cond mode n rn crd cp => Sys2Proof.Machine.execLdc cond mode n rn crd cp s
  | .stc cond mode n rn crd cp => Sys2Proof.Machine.execStc cond mode n rn crd cp s
  | .cdp cond op1 crn crd cp op2 crm => Sys2Proof.Machine.execCdp cond op1 crn crd cp op2 crm s
  | .mcr cond op1 crn rd cp op2 crm => Sys2Proof.Machine.execMcr cond op1 crn rd cp op2 crm s
  | .mrc cond op1 crn rd cp op2 crm => Sys2Proof.Machine.execMrc cond op1 crn rd cp op2 crm s
  | .swi cond immed => Sys2Proof.Machine.execSwi cond immed s

end Sys2Proof.Machine
end

