-- ==== Sys2Proof/Machine/Step.lean ====
section
/-! DEFINITION. One step of the processor (R61): the boundary, the fetch, the decoder, the rule of R440, the meaning. -/

namespace Sys2Proof.Machine

/-- An instruction run after its fetch (R61 clauses 6 to 9). -/
def runInstr (i : Instr) (s : State) : Host.Outcome State Fault Refusal :=
  if hazardStops i s then .fault .bankedAfterUserBank else exec i (clearHazard s)

/-- The fetch, the decoder and the instruction (R61 clauses 3 to 9). -/
def fetchAndRun (s : State) : Host.Outcome State Fault Refusal :=
  match fetch s with
  | .ended r => r
  | .word w => runInstr (decodeWord w) s

/-- One step (R61). -/
def step (s : State) : Host.Outcome State Fault Refusal :=
  match boundary s with
  | .taken t => .next t
  | .proceed t => fetchAndRun t

/-- `s` with an instruction, its bits numbered as the opcode table numbers them and the bits from `nbits` up zero,
stored at the pc in the configured byte order, where `step` fetches next. -/
def State.withFetchWord (s : State) (nbits w : Nat) : State := placeWord s (BitVec.ofNat 32 (w % 2 ^ nbits))

end Sys2Proof.Machine
end

