-- ==== Sys2Proof/Machine/Run.lean ====
section
/-! DEFINITION. A run and its ends (R20): steps from a state until the model refuses or the host's stop condition holds
at an instruction boundary. -/

namespace Sys2Proof.Machine

/-- The ways a run ends (R20, D16). -/
inductive RunEnd
  | unpredictable (why : Fault)    -- (a): an instruction or event that a rule marks UNPREDICTABLE
  | unsupported (why : Refusal)    -- (b): what the spec excludes
  | stopped (s : State)            -- (c): the host's stop condition holds at this boundary
  deriving DecidableEq, Repr

/-- A run after some number of steps: at its end, or at a boundary from which it goes on. -/
inductive RunStatus
  | ended (e : RunEnd)
  | running (s : State)
  deriving DecidableEq, Repr

/-- Whether the host's stop condition holds at the boundary reached after `done` steps (R20 (c), R21): the pc is the
designated halt address, or the step bound is reached. -/
def stopHolds (done : Nat) (s : State) : Bool :=
  s.platform.stop.haltAddress == some s.pc ||
    (match s.platform.stop.stepBound with
     | none => false
     | some bound => decide (bound ≤ done))

/-- At most `n` more steps of a run that has done `done` (R20). A run that never ends is running for every `n`. -/
def runFrom (done : Nat) : Nat → State → RunStatus
  | 0, s => if stopHolds done s then .ended (.stopped s) else .running s
  | n + 1, s =>
    if stopHolds done s then .ended (.stopped s)
    else match step s with
      | .next t => runFrom (done + 1) n t
      | .fault why => .ended (.unpredictable why)
      | .refused why => .ended (.unsupported why)

end Sys2Proof.Machine
end

