-- ==== Sys2Proof/Safety.lean ====
section
/-! DEFINITION. What claims speak of: the invariant every step keeps (R633, R57, R49, R100), when an instruction
executes, what each kind of instruction computes, and the predicates that frames are written in. -/

namespace Sys2Proof.Machine

/-- A strictly rising list of addresses inside the address space, all above a bound. -/
def addrsFrom : Nat → List Nat → Bool
  | _, [] => true
  | lo, a :: rest => decide (lo ≤ a) && decide (a < 2 ^ 32) && addrsFrom (a + 1) rest

/-- The invariant of R633: a legal mode (R42), CPSR bits 27:8 zero (R57), an aligned pc (R49, R111: bits 1:0 zero in
ARM state, bit 0 zero in Thumb state); and the canonical forms of memory and of the set `W`. -/
structure State.Inv (s : State) : Prop where
  memory : Memory.wf s.mem = true
  written : addrsFrom 0 s.written = true
  mode : legalMode (modeBits s.cpsr) = true
  reserved : reservedBits s.cpsr = 0
  aligned : bits s.pc 0 1 = 0
  armAligned : flagT s.cpsr = false → bits s.pc 0 2 = 0

/-! ## When an instruction executes -/

/-- The word is not UNPREDICTABLE and the condition, where there is one, passes (R222). -/
structure Runs (i : Instr) (s : State) : Prop where
  wellFormed : i.wellFormed = true
  condition : ∀ c, condOf i = some c → conditionPassed c s.cpsr = true

/-- As `Runs`, and the instruction is not the last word of the address space, from which sequential execution is
UNPREDICTABLE (R50). -/
structure Executes (i : Instr) (s : State) : Prop extends Runs i s where
  notLast : s.pc ≠ 0xFFFFFFFC

/-- `exec` answers a next state, of which something holds. -/
def Completes (i : Instr) (s : State) (P : State → Prop) : Prop := ∃ t, exec i s = .next t ∧ P t

/-! ## Frames -/

/-- N, Z, C and V of a status register, in this order (R51). -/
def nzcv (psr : Word) : Bool × Bool × Bool × Bool := (flagN psr, flagZ psr, flagC psr, flagV psr)

/-- Every physical register that no name of the list denotes in mode `m` holds what it held. -/
def RegsKept (m : BitVec 5) (dest : List RegNum) (s t : State) : Prop :=
  ∀ r : PhysReg, (∀ n ∈ dest, physReg m n ≠ some r) → t.phys r = s.phys r

/-- Nothing changes but the registers named (as the current mode names them), N, Z, C, V and the pc. All of memory is
unchanged. -/
structure RegisterFrame (dest : List RegNum) (s t : State) : Prop where
  registers : RegsKept (modeBits s.cpsr) dest s t
  control : bits t.cpsr 0 28 = bits s.cpsr 0 28
  rest : t = { s with regs := t.regs, pc := t.pc, cpsr := t.cpsr }

/-- An instruction that writes one register and perhaps the flags: the register's value, the flags, the next
instruction, the frame. -/
def RegisterOutcome (rd : RegNum) (value : Word) (newFlags : Bool × Bool × Bool × Bool) (s t : State) : Prop :=
  t.readReg rd = value ∧ nzcv t.cpsr = newFlags ∧ t.pc = s.pc + 4 ∧ RegisterFrame [rd] s t

/-- An instruction that writes the flags only. -/
def FlagsOutcome (newFlags : Bool × Bool × Bool × Bool) (s t : State) : Prop :=
  nzcv t.cpsr = newFlags ∧ t.pc = s.pc + 4 ∧ RegisterFrame [] s t

/-- Nothing changes but the registers named in mode `m`, the pc, what was delivered to devices, and the count of draws:
the frame of a load. All of memory is unchanged. -/
structure LoadFrame (m : BitVec 5) (dest : List RegNum) (s t : State) : Prop where
  registers : RegsKept m dest s t
  rest : t = { s with regs := t.regs, pc := t.pc, ioLog := t.ioLog, draws := t.draws }

/-- Nothing changes but the registers named, the pc, the bytes `lo .. lo + len - 1` of memory, the set `W`, what was
delivered to devices, and the count of draws: the frame of a store. -/
structure StoreFrame (dest : List RegNum) (lo len : Nat) (s t : State) : Prop where
  registers : RegsKept (modeBits s.cpsr) dest s t
  bytes : ∀ x : Nat, x < lo ∨ lo + len ≤ x → Memory.read t.mem x = Memory.read s.mem x
  entered : ∀ x : Nat, (x ∈ s.written → x ∈ t.written) ∧ (x ∈ t.written → x ∈ s.written ∨ (lo ≤ x ∧ x < lo + len))
  rest : t = { s with
    regs := t.regs, pc := t.pc, mem := t.mem, written := t.written, ioLog := t.ioLog, draws := t.draws }

/-- The base register of an instruction that writes it back, or no register. -/
def baseWritten (rn : RegNum) (newBase : Option Word) : List RegNum := if newBase.isSome then [rn] else []

/-! ## What an instruction computes -/

/-- S, Rd and the result of a data-processing instruction that has a destination (R270 to R277, R282 to R285). -/
def dpResult (i : Instr) (s : State) : Option (Bool × RegNum × Word) :=
  match i with
  | .and _ f rn rd op => some (f, rd, s.readReg rn &&& (shifterOperand op s).1)
  | .eor _ f rn rd op => some (f, rd, s.readReg rn ^^^ (shifterOperand op s).1)
  | .sub _ f rn rd op => some (f, rd, s.readReg rn - (shifterOperand op s).1)
  | .rsb _ f rn rd op => some (f, rd, (shifterOperand op s).1 - s.readReg rn)
  | .add _ f rn rd op => some (f, rd, s.readReg rn + (shifterOperand op s).1)
  | .adc _ f rn rd op => some (f, rd, s.readReg rn + (shifterOperand op s).1 + carryWord (flagC s.cpsr))
  | .sbc _ f rn rd op => some (f, rd, s.readReg rn - (shifterOperand op s).1 - carryWord (!flagC s.cpsr))
  | .rsc _ f rn rd op => some (f, rd, (shifterOperand op s).1 - s.readReg rn - carryWord (!flagC s.cpsr))
  | .orr _ f rn rd op => some (f, rd, s.readReg rn ||| (shifterOperand op s).1)
  | .mov _ f rd op => some (f, rd, (shifterOperand op s).1)
  | .bic _ f rn rd op => some (f, rd, s.readReg rn &&& ~~~(shifterOperand op s).1)
  | .mvn _ f rd op => some (f, rd, ~~~(shifterOperand op s).1)
  | _ => none

/-- A single load or store of a byte, halfword or word: its width, the privilege its access is presented with, its
base and data registers, its address and base writeback. -/
structure Access where
  size : Size
  priv : Bool
  rn : RegNum
  rd : RegNum
  ad : Addressing
  deriving DecidableEq, Repr

/-- The access of a single load instruction, and its value as a function of what is read (R390 to R396). -/
def loadOf (i : Instr) (s : State) : Option (Access × (Word → Word)) :=
  match i with
  | .ldr _ idx up rn rd off =>
    let ad := mode2 idx up rn off s
    some (⟨.word, privileged s.cpsr, rn, rd, ad⟩, rotateLoaded ad.address)
  | .ldrt _ up rn rd off =>
    let ad := mode2 .post up rn off s
    some (⟨.word, false, rn, rd, ad⟩, rotateLoaded ad.address)
  | .ldrb _ idx up rn rd off => some (⟨.byte, privileged s.cpsr, rn, rd, mode2 idx up rn off s⟩, id)
  | .ldrbt _ up rn rd off => some (⟨.byte, false, rn, rd, mode2 .post up rn off s⟩, id)
  | .ldrh _ p u w rn rd off => some (⟨.half, privileged s.cpsr, rn, rd, mode3 p u w rn off s⟩, id)
  | .ldrsb _ p u w rn rd off => some (⟨.byte, privileged s.cpsr, rn, rd, mode3 p u w rn off s⟩, signExtendByte)
  | .ldrsh _ p u w rn rd off => some (⟨.half, privileged s.cpsr, rn, rd, mode3 p u w rn off s⟩, signExtendHalf)
  | _ => none

/-- The access of a single store instruction and the value it stores (R386, R397 to R401). -/
def storeOf (i : Instr) (s : State) : Option (Access × Word) :=
  match i with
  | .str _ idx up rn rd off => some (⟨.word, privileged s.cpsr, rn, rd, mode2 idx up rn off s⟩, s.storeValue rd)
  | .strt _ up rn rd off => some (⟨.word, false, rn, rd, mode2 .post up rn off s⟩, s.storeValue rd)
  | .strb _ idx up rn rd off => some (⟨.byte, privileged s.cpsr, rn, rd, mode2 idx up rn off s⟩, s.readReg rd)
  | .strbt _ up rn rd off => some (⟨.byte, false, rn, rd, mode2 .post up rn off s⟩, s.readReg rd)
  | .strh _ p u w rn rd off => some (⟨.half, privileged s.cpsr, rn, rd, mode3 p u w rn off s⟩, s.readReg rd)
  | _ => none

/-- What an LDM, STM, LDC or STC asks of its `n` words from `start`, and of the memory system, to transfer all of them
(R433): no passage through 0xFFFFFFFC, no alignment exception, no abort. -/
structure Transfers (kind : AccessKind) (start : Word) (n : Nat) (s : State) : Prop where
  inside : wordsWrap start n = false
  aligned : aligned .word start = true ∨ s.platform.alignCheck = false
  served : ∀ a ∈ wordAddresses start n, s.memAbort a .word kind (privileged s.cpsr) = false

/-- The word accesses of an LDM, STM, LDC or STC: their kind, the first address as calculated, every address in
ascending order, whether R130 restricts them (LDM and STM), and whether the register list has the PC. -/
structure Sequence where
  kind : AccessKind
  first : Word
  addresses : List Word
  multiple : Bool
  pcListed : Bool
  deriving DecidableEq, Repr

/-- The accesses of an LDM or STM (R431, R433). -/
def multipleSequence (kind : AccessKind) (mode : Mode4) (rn : RegNum) (list : BitVec 16) (s : State) : Sequence :=
  let n := (listed list).length
  let start := mode4Start mode (s.readReg rn) n
  ⟨kind, start, wordAddresses start n, true, list.getLsbD 15⟩

/-- The accesses of an LDC or STC that the coprocessor accepts, with an operation the host supplies and a count it may
ask for (R484, R492 to R497). -/
def coprocSequence (kind : AccessKind) (i : Instr) (mode : Mode5) (rn : RegNum) (cp : BitVec 4) (s : State) :
    Option Sequence :=
  match (s.coproc cp).bind fun k => acceptingRule k (encode i) (privileged s.cpsr) with
  | none => none
  | some r =>
    if r.supplied = true ∧ 1 ≤ r.count ∧ r.count ≤ 16 then
      let start := (mode5 mode (s.readReg rn)).address
      some ⟨kind, start, wordAddresses (alignTo .word start) r.count, false, false⟩
    else none

/-- The word accesses of an instruction of the multiple and coprocessor families, in a state in which it makes any: LDM
(2), LDM (3) and STM (2) in an exception mode (R435, R436, R438), LDC and STC where the coprocessor takes part. -/
def sequenceOf (i : Instr) (s : State) : Option Sequence :=
  match i with
  | .ldm1 _ mode _ rn list => some (multipleSequence .load mode rn list s)
  | .ldm2 _ mode _ rn list => s.currentExc.map fun _ => multipleSequence .load mode rn (0#1 ++ list) s
  | .ldm3 _ mode _ rn list => s.currentExc.map fun _ => multipleSequence .load mode rn (1#1 ++ list) s
  | .stm1 _ mode _ rn list => some (multipleSequence .store mode rn list s)
  | .stm2 _ mode _ rn list => s.currentExc.map fun _ => multipleSequence .store mode rn list s
  | .ldc _ mode _ rn _ cp => coprocSequence .load i mode rn cp s
  | .ldc2 mode _ rn _ cp => coprocSequence .load i mode rn cp s
  | .stc _ mode _ rn _ cp => coprocSequence .store i mode rn cp s
  | .stc2 mode _ rn _ cp => coprocSequence .store i mode rn cp s
  | _ => none

/-- What a device is told of a word load: its masked address and its width (R126). -/
def wordLoadEvent (a : Word) : IoEvent := ⟨alignTo .word a, .word, none⟩

/-- What a device is told of a word store. -/
def wordStoreEvent (a v : Word) : IoEvent := ⟨alignTo .word a, .word, some v⟩

/-- The addresses of a sequence below its first abort: the accesses that are made (R433 step 4, R498). -/
def beforeAbort (kind : AccessKind) (priv : Bool) (addrs : List Word) (s : State) : List Word :=
  addrs.takeWhile fun a => !s.memAbort a .word kind priv

/-- What devices are told of word loads at addresses, each device word once and in their order (R126, R128). -/
def deliveredLoads (addrs : List Word) (s : State) : List IoEvent := (addrs.filter (s.isIo .word)).map wordLoadEvent

/-- What devices are told of word stores. -/
def deliveredStores (addrs values : List Word) (s : State) : List IoEvent :=
  ((addrs.zip values).filter fun p => s.isIo .word p.1).map fun p => wordStoreEvent p.1 p.2

/-- The words that loads at addresses answer, each by its own address: the word of normal memory, or the device's free
value after the deliveries before it (R116). -/
def wordsAnswered (addrs : List Word) (s : State) : List Word :=
  addrs.mapIdx fun j a =>
    if s.isIo .word a then ioValue (s.ioLog ++ deliveredLoads (addrs.take j) s) (alignTo .word a) .word
    else s.memRead .word a

/-- A byte of a word of normal memory whose own store does not abort (R113). -/
def Storable (priv : Bool) (addrs : List Word) (s : State) (x : Nat) : Prop :=
  ∃ a ∈ addrs, s.memAbort a .word .store priv = false ∧ s.isIo .word a = false ∧
    (alignTo .word a).toNat ≤ x ∧ x < (alignTo .word a).toNat + 4

/-- Where a Data Abort leaves the machine (R571): Abort mode, the link, the saved CPSR, the vector; every other SPSR as
it was. -/
structure DataAborted (s t : State) : Prop where
  link : t.phys (.lr .abt) = s.pc + 8
  saved : t.spsr = { s.spsr with abt := s.cpsr }
  status : t.cpsr = entryCpsr .dataAbort s.cpsr
  target : t.pc = vector s.platform 0x10

end Sys2Proof.Machine
end

