-- ==== Sys2Proof/Certificates/Slice0/Obligations.lean ====
section
/-! DEFINITION. The statements for the provers. Each docstring names the rules of the spec it formalises; a clause that
rests on a choice of the model names its assumption log entry. -/

open Sys2Proof Sys2Proof.Machine

/-! ## Encoding -/

/-- Encoding what the decoder reads from a word gives the word back: no bit is dropped (R160 to R200). -/
def Obligations.EncodeOfDecode : Prop := ∀ w : Word, encode (decodeWord w) = w

/-- The decoder reads every well-formed instruction back from its word and from its four bytes (R160 to R228). -/
def Obligations.DecodeOfEncode : Prop :=
  ∀ i : Instr, i.wellFormed = true →
    decodeWord (encode i) = i ∧ decode (bytesOfWord (encode i)) = .ok i

/-- Words of several families, as the spec writes them, decode to the instructions it names. -/
def Obligations.DecodeSamples : Prop :=
  decodeWord 0xE0904002 = .add .al true 0 4 (.shiftImm 0 .lsl 2) ∧
  decodeWord 0xE0140192 = .mul .al true 4 1 2 ∧
  decodeWord 0xE5667001 = .strb .al .pre false 6 7 (.imm 1) ∧
  decodeWord 0xE1D830D3 = .ldrsb .al true true false 8 3 (.imm 3) ∧
  decodeWord 0xE12FFF1E = .bx .al 14 ∧
  decodeWord 0xEF000000 = .swi .al 0

/-- A word decodes to an UNDEFINED row exactly when it lies in that row's space (R218, R219, R223 to R226). -/
def Obligations.UndefinedSpaces : Prop :=
  ∀ w : Word,
    (decodeWord w = .undefSpace w ↔ inUndefinedSpace w = true) ∧
    (decodeWord w = .undefArith w ↔ inArithSpace w = true) ∧
    (decodeWord w = .undefLoadStore w ↔ inLoadStoreSpace w = true) ∧
    (decodeWord w = .undefDouble w ↔ inDoubleSpace w = true) ∧
    (decodeWord w = .undefControlReg w ↔ inControlRegSpace w = true) ∧
    (decodeWord w = .undefControlImm w ↔ inControlImmSpace w = true) ∧
    (decodeWord w = .undefCoprocSpace w ↔ inCoprocSpace w = true) ∧
    (decodeWord w = .undefUnconditional w ↔ inUnconditionalSpace w = true)

/-! ## The whole machine -/

/-- Every step keeps the invariant (R42, R49, R57, R100, R633). -/
def Obligations.StepKeepsInv : Prop := ∀ s t : State, s.Inv → step s = .next t → t.Inv

/-- The state after reset meets the invariant. -/
def Obligations.ResetMeetsInv : Prop := State.reset.Inv

/-- What the spec assigns after reset (R62, R631): Supervisor mode, ARM state, both interrupts disabled, the reserved
bits zero, the pc at the Reset vector, the model's hidden state clear. -/
def Obligations.ResetAssigns : Prop :=
  modeBits State.reset.cpsr = 0b10011 ∧ flagT State.reset.cpsr = false ∧ flagF State.reset.cpsr = true ∧
  flagI State.reset.cpsr = true ∧ reservedBits State.reset.cpsr = 0 ∧
  State.reset.pc = vector State.reset.platform 0 ∧ State.reset.pc = 0 ∧
  State.reset.privDropPending = false ∧ State.reset.userBankHazard = false ∧ State.reset.written = []

/-- No step changes the parameters of the implementation and the platform that R8 names, nor the host's stop condition
(R21). That they are constant for a run is the model's choice: log entries 3, 4, 10 and 33, after D3 to D6 of the spec,
which are its own choices; R108 and D8 would let a host vary the byte order and the aborts. -/
def Obligations.PlatformConstant : Prop := ∀ s t : State, step s = .next t → t.platform = s.platform

/-- In User mode an instruction either takes an exception (the CPSR, the pc and the saved status are those of an entry)
or leaves the mode, the interrupt masks, every SPSR and every register that User mode does not see as they are (R590,
R55, R345). -/
def Obligations.UserModeConfined : Prop :=
  ∀ (i : Instr) (s t : State), modeBits s.cpsr = userBits → exec i s = .next t →
    (∃ e : ExceptionKind, t.cpsr = entryCpsr e s.cpsr ∧ t.pc = vector s.platform e.offset ∧
      t.spsr = s.spsr.set e.mode s.cpsr) ∨
    (modeBits t.cpsr = userBits ∧ flagI t.cpsr = flagI s.cpsr ∧ flagF t.cpsr = flagF s.cpsr ∧ t.spsr = s.spsr ∧
      ∀ r : PhysReg, (∀ n : RegNum, physReg userBits n ≠ some r) → t.phys r = s.phys r)

/-- A step whose boundary takes no entry and whose fetch stops on nothing runs the instruction that the four bytes at
the pc decode to, in the configured byte order (R61, R107, R117). The state it runs in is the one after the boundary,
with the flag of R440 cleared; an instruction that R440 forbids there stops instead. -/
def Obligations.StepRunsDecoded : Prop :=
  ∀ (s : State) (i : Instr),
    (currentInputs s).reset = false → s.resetHeld = false →
    ((currentInputs s).fiq = true → flagF s.cpsr = true) → ((currentInputs s).irq = true → flagI s.cpsr = true) →
    flagT s.cpsr = false → isStale (takeInputs s) = false →
    ((takeInputs s).privDropPending = true → permissionDiffers s = false) → s.isIo .word s.pc = false →
    s.memAbort s.pc .word .fetch (privileged s.cpsr) = false →
    (let a := (alignTo .word s.pc).toNat
     let bytes := [Memory.read s.mem a, Memory.read s.mem (a + 1), Memory.read s.mem (a + 2), Memory.read s.mem (a + 3)]
     decode (if bigEndian s.platform then bytes.reverse else bytes) = .ok i) →
    (hazardStops i s = false → step s = exec i { takeInputs s with userBankHazard := false }) ∧
    (hazardStops i s = true → step s = .fault .bankedAfterUserBank)

/-- An instruction whose condition fails acts as a NOP (R165): the pc advances and nothing else changes; from the last
word of the address space that is no defined advance (R50). The fifteen codes test the flags as Table 3-1 says (R164). -/
def Obligations.Conditions : Prop :=
  (∀ (i : Instr) (c : Cond) (s : State), i.wellFormed = true → condOf i = some c →
     conditionPassed c s.cpsr = false → s.pc ≠ 0xFFFFFFFC → exec i s = .next { s with pc := s.pc + 4 }) ∧
  (∀ (code : BitVec 4) (psr : Word), code ≠ 0b1111 →
     conditionPassed (Cond.ofBits code) psr =
       match code.toNat with
       | 0 => decide (flagZ psr = true)
       | 1 => decide (flagZ psr = false)
       | 2 => decide (flagC psr = true)
       | 3 => decide (flagC psr = false)
       | 4 => decide (flagN psr = true)
       | 5 => decide (flagN psr = false)
       | 6 => decide (flagV psr = true)
       | 7 => decide (flagV psr = false)
       | 8 => decide (flagC psr = true ∧ flagZ psr = false)
       | 9 => decide (flagC psr = false ∨ flagZ psr = true)
       | 10 => decide (flagN psr = flagV psr)
       | 11 => decide (flagN psr ≠ flagV psr)
       | 12 => decide (flagZ psr = false ∧ flagN psr = flagV psr)
       | 13 => decide (flagZ psr = true ∨ flagN psr ≠ flagV psr)
       | _ => true)

/-- An instruction whose encoding is UNPREDICTABLE stops, whether or not its condition passes (R222 (1)); the fourteen rows
that are UNPREDICTABLE whatever their operands stop in every state (R221, R267, R472). The names of the stops are the
model's. -/
def Obligations.UnpredictableStops : Prop :=
  (∀ (i : Instr) (why : EncodingFault) (s : State), i.unpredictable = some why → exec i s = .fault (.unpredictable why)) ∧
  (∀ (w : Word) (s : State),
     exec (.unpredBkpt w) s = .fault (.unpredictable .bkptCondition) ∧
     exec (.unpredBx w) s = .fault (.unpredictable .fixedBits) ∧
     exec (.unpredClz w) s = .fault (.unpredictable .fixedBits) ∧
     exec (.unpredMrs w) s = .fault (.unpredictable .fixedBits) ∧
     exec (.unpredMsrReg w) s = .fault (.unpredictable .fixedBits) ∧
     exec (.unpredMsrImm w) s = .fault (.unpredictable .fixedBits) ∧
     exec (.unpredMul w) s = .fault (.unpredictable .fixedBits) ∧
     exec (.unpredSwp w) s = .fault (.unpredictable .fixedBits) ∧
     exec (.unpredTst w) s = .fault (.unpredictable .fixedBits) ∧
     exec (.unpredTeq w) s = .fault (.unpredictable .fixedBits) ∧
     exec (.unpredCmp w) s = .fault (.unpredictable .fixedBits) ∧
     exec (.unpredCmn w) s = .fault (.unpredictable .fixedBits) ∧
     exec (.unpredMov w) s = .fault (.unpredictable .fixedBits) ∧
     exec (.unpredMvn w) s = .fault (.unpredictable .fixedBits))

/-! ## The boundary and the fetch -/

/-- What the fetch refuses or aborts, in ARM state, at a boundary that takes no entry: a byte stored since the last IMB
(R121), a permission that a drop to User mode changed (R348), an I/O region (R124), an abort (R570). That a fetch from an
I/O region is refused also where it would abort is the model's choice: the spec gives the two no order (log entry 32). -/
def Obligations.FetchStops : Prop :=
  ∀ s : State, (currentInputs s).reset = false → s.resetHeld = false → (currentInputs s).fiq = false →
    (currentInputs s).irq = false → flagT s.cpsr = false →
    let u := takeInputs s
    (isStale u = true → step s = .fault .staleInstruction) ∧
    (isStale u = false → u.privDropPending = true → permissionDiffers u = true → step s = .fault .stalePermission) ∧
    (isStale u = false → (u.privDropPending && permissionDiffers u) = false → u.isIo .word u.pc = true →
      step s = .fault .fetchFromIo) ∧
    (isStale u = false → (u.privDropPending && permissionDiffers u) = false → u.isIo .word u.pc = false →
      u.memAbort u.pc .word .fetch (privileged u.cpsr) = true →
      step s = .next (takeException .prefetchAbort (s.pc + 4) u))

/-- After LDM (2) or STM (2) an instruction that is executed and reads or writes one of R8 to R14 or an SPSR stops (R440);
one whose condition fails, or that names none of them, runs, and the flag is cleared after any one instruction. Which
registers an instruction reads or writes (R14 for BL, BLX, SWI and BKPT, none for an UNDEFINED word), and that the stop
asks for a passed condition, are the model's reading: log entry 15. -/
def Obligations.HazardStops : Prop :=
  ∀ (i : Instr) (s : State),
    let named := (namedRegs i).any isBanked = true ∨ namesSpsr i = true
    let executed := ∀ c, condOf i = some c → conditionPassed c s.cpsr = true
    (s.userBankHazard = true → i.unpredictable = none → executed → named →
      runInstr i s = .fault .bankedAfterUserBank) ∧
    (s.userBankHazard = false → runInstr i s = exec i s) ∧
    (s.userBankHazard = true → (i.unpredictable ≠ none ∨ ¬executed ∨ ¬named) →
      runInstr i s = exec i { s with userBankHazard := false })

/-- With T = 1 a T variant ends the run at the next instruction, and a non-T variant takes the Undefined Instruction
exception, with T in SPSR_und (R55, R236). The link of that entry is a free value (log entry 14). -/
def Obligations.ThumbState : Prop :=
  ∀ s : State, (currentInputs s).reset = false → s.resetHeld = false → (currentInputs s).fiq = false →
    (currentInputs s).irq = false → flagT s.cpsr = true →
    (s.platform.thumbVariant = .t → step s = .refused .thumbState) ∧
    (s.platform.thumbVariant = .nonT → ∃ t, step s = .next t ∧ t.pc = vector s.platform 4 ∧
      t.cpsr = entryCpsr .undefined s.cpsr ∧ t.spsr = { s.spsr with und := s.cpsr } ∧ flagT t.cpsr = false ∧
      flagT t.spsr.und = true)

/-- FIQ and IRQ at a boundary (R575, R576, R578, R579): FIQ first, each only where its mask bit is clear, the link the
address of the next instruction plus 4; a masked input has no effect on a step (R577). -/
def Obligations.Interrupts : Prop :=
  (∀ s : State, (currentInputs s).reset = false → s.resetHeld = false →
     ((currentInputs s).fiq = true → flagF s.cpsr = false →
       step s = .next (takeException .fiq (s.pc + 4) (takeInputs s))) ∧
     ((currentInputs s).irq = true → flagI s.cpsr = false →
       ((currentInputs s).fiq = false ∨ flagF s.cpsr = true) →
       step s = .next (takeException .irq (s.pc + 4) (takeInputs s)))) ∧
  (∀ (s : State) (x : Inputs) (rest : List Inputs),
     (flagF s.cpsr = true →
       step { s with inputs := { x with fiq := true } :: rest } =
         step { s with inputs := { x with fiq := false } :: rest }) ∧
     (flagI s.cpsr = true →
       step { s with inputs := { x with irq := true } :: rest } =
         step { s with inputs := { x with irq := false } :: rest }))

/-- Reset (R566, R578): while the input is asserted the processor is stopped, whatever else is asserted; when it is
de-asserted the machine enters Supervisor mode in ARM state with both interrupts disabled at the Reset vector. That a
step with the input asserted only notes it is log entry 6. That memory is as it was (R630, R634) and the rest that no rule
assigns is drawn is the spec's own choice D17, log entry 16. -/
def Obligations.ResetTaken : Prop :=
  ∀ s : State,
    ((currentInputs s).reset = true → step s = .next { takeInputs s with resetHeld := true }) ∧
    ((currentInputs s).reset = false → s.resetHeld = true →
      ∃ t, step s = .next t ∧ modeBits t.cpsr = 0b10011 ∧ flagT t.cpsr = false ∧ flagF t.cpsr = true ∧
        flagI t.cpsr = true ∧ reservedBits t.cpsr = 0 ∧ t.pc = vector s.platform 0 ∧ t.mem = s.mem ∧
        t.written = [] ∧ t.privDropPending = false ∧ t.userBankHazard = false ∧ t.resetHeld = false)

/-! ## Exceptions -/

/-- The mode and the vector of each exception, normal and high (R560, R563). -/
def Obligations.VectorTable : Prop :=
  ∀ p : Platform,
    (let high := p.highVectorsSupported && p.hivecs
     vector p ExceptionKind.reset.offset = (if high then 0xFFFF0000 else 0x00) ∧
     vector p ExceptionKind.undefined.offset = (if high then 0xFFFF0004 else 0x04) ∧
     vector p ExceptionKind.swi.offset = (if high then 0xFFFF0008 else 0x08) ∧
     vector p ExceptionKind.prefetchAbort.offset = (if high then 0xFFFF000C else 0x0C) ∧
     vector p ExceptionKind.dataAbort.offset = (if high then 0xFFFF0010 else 0x10) ∧
     vector p ExceptionKind.irq.offset = (if high then 0xFFFF0018 else 0x18) ∧
     vector p ExceptionKind.fiq.offset = (if high then 0xFFFF001C else 0x1C)) ∧
    ExceptionKind.reset.mode.bits = 0b10011 ∧ ExceptionKind.undefined.mode.bits = 0b11011 ∧
    ExceptionKind.swi.mode.bits = 0b10011 ∧ ExceptionKind.prefetchAbort.mode.bits = 0b10111 ∧
    ExceptionKind.dataAbort.mode.bits = 0b10111 ∧ ExceptionKind.irq.mode.bits = 0b10010 ∧
    ExceptionKind.fiq.mode.bits = 0b10001

/-- Generic exception entry (R562): R14 and SPSR of the exception's mode, the four control fields of the CPSR, the pc;
bits 31:8 of the CPSR, every other register and SPSR, and memory are unchanged. -/
def Obligations.ExceptionEntry : Prop :=
  ∀ (e : ExceptionKind) (link : Word) (s : State),
    let t := takeException e link s
    t.phys (.lr e.mode.bank) = link ∧
    (∀ r : PhysReg, r ≠ .lr e.mode.bank → t.phys r = s.phys r) ∧
    t.spsr.get e.mode = s.cpsr ∧
    (∀ m : ExcMode, m ≠ e.mode → t.spsr.get m = s.spsr.get m) ∧
    modeBits t.cpsr = e.mode.bits ∧
    flagT t.cpsr = false ∧
    flagF t.cpsr = (if e = .reset ∨ e = .fiq then true else flagF s.cpsr) ∧
    flagI t.cpsr = true ∧
    bits t.cpsr 8 24 = bits s.cpsr 8 24 ∧
    t.pc = vector s.platform e.offset ∧
    t = { s with
      regs := t.regs, spsr := t.spsr, cpsr := t.cpsr, pc := t.pc,
      privDropPending := t.privDropPending, userBankHazard := t.userBankHazard }

/-- SWI takes the Software Interrupt exception and BKPT enters as a Prefetch Abort, each with the address of the next
instruction as the link (R471, R472, R569, R570). What entry does is `ExceptionEntry`. -/
def Obligations.SwiAndBkpt : Prop :=
  (∀ (c : Cond) (immed : BitVec 24) (s : State), Runs (.swi c immed) s →
    exec (.swi c immed) s = .next (takeException .swi (s.pc + 4) s)) ∧
  (∀ (hi : BitVec 12) (lo : BitVec 4) (s : State),
    exec (.bkpt hi lo) s = .next (takeException .prefetchAbort (s.pc + 4) s))

/-- A word of each of the eight UNDEFINED rows takes the Undefined Instruction exception, the link the next
instruction, when its condition passes; in the unconditional space it always does (R222 (2), R568). -/
def Obligations.UndefinedWordsTrap : Prop :=
  ∀ (w : Word) (s : State) (i : Instr),
    (i = .undefCoprocSpace w ∨ i = .undefUnconditional w ∨ i = .undefControlImm w ∨ i = .undefArith w ∨
      i = .undefLoadStore w ∨ i = .undefDouble w ∨ i = .undefControlReg w ∨ i = .undefSpace w) →
    Runs i s → exec i s = .next (takeException .undefined (s.pc + 4) s)

/-- The twelve data-processing instructions with Rd = R15. With S (R265): SPSR to CPSR and the result to the pc in one step;
UNPREDICTABLE without an SPSR, for an illegal SPSR, and for an unaligned return to ARM state. Without S (R266): a
branch to the result, which must be word-aligned (R49). No other register, SPSR or byte of memory changes. -/
def Obligations.ResultToPc : Prop :=
  (∀ (i : Instr) (s : State) (result : Word), Runs i s → dpResult i s = some (true, 15, result) →
     (s.currentExc = none → exec i s = .fault .noSpsr) ∧
     (∀ e : ExcMode, s.currentExc = some e →
       let new := s.spsr.get e
       (reservedBits new ≠ 0 → exec i s = .fault .reservedPsrBits) ∧
       (reservedBits new = 0 → legalMode (modeBits new) = false → exec i s = .fault .illegalMode) ∧
       (reservedBits new = 0 → legalMode (modeBits new) = true →
         (flagT new = true →
           exec i s = .next { s with cpsr := new, pc := result &&& 0xFFFFFFFE, privDropPending := false }) ∧
         (flagT new = false → bits result 0 2 = 0 →
           exec i s = .next { s with cpsr := new, pc := result, privDropPending := false }) ∧
         (flagT new = false → bits result 0 2 ≠ 0 → exec i s = .fault .misalignedPc)))) ∧
  (∀ (i : Instr) (s : State) (result : Word), Runs i s → dpResult i s = some (false, 15, result) →
     (bits result 0 2 = 0 → exec i s = .next { s with pc := result, privDropPending := false }) ∧
     (bits result 0 2 ≠ 0 → exec i s = .fault .misalignedPc))

/-! ## Data processing -/

/-- AND, EOR, ORR, BIC, MOV, MVN with Rd other than R15 (R264, R270, R271, R282 to R285): the result, N and Z from it,
C from the shifter, V unaffected; without S no flag; nothing else changes. -/
def Obligations.LogicalResults : Prop :=
  ∀ (c : Cond) (f : Bool) (rn rd : RegNum) (op : Operand2) (s : State), rd ≠ 15 →
    let a := s.readReg rn
    let so := shifterOperand op s
    let outcome := fun (i : Instr) (v : Word) => Executes i s → Completes i s
      (RegisterOutcome rd v (if f then (decide (v.toInt < 0), decide (v = 0), so.2, flagV s.cpsr) else nzcv s.cpsr) s)
    outcome (.and c f rn rd op) (a &&& so.1) ∧ outcome (.eor c f rn rd op) (a ^^^ so.1) ∧
    outcome (.orr c f rn rd op) (a ||| so.1) ∧ outcome (.bic c f rn rd op) (a &&& ~~~so.1) ∧
    outcome (.mov c f rd op) so.1 ∧ outcome (.mvn c f rd op) (~~~so.1)

/-- ADD and ADC with Rd other than R15 (R264, R274, R275): the sum modulo 2^32; C is a carry out of the exact unsigned
sum, V that the exact signed sum does not fit; without S no flag; nothing else changes. -/
def Obligations.AdditionResults : Prop :=
  ∀ (c : Cond) (f : Bool) (rn rd : RegNum) (op : Operand2) (s : State), rd ≠ 15 →
    let a := s.readReg rn
    let b := (shifterOperand op s).1
    let outcome := fun (i : Instr) (carry : Bool) => Executes i s → Completes i s fun t =>
      let v := BitVec.ofNat 32 (a.toNat + b.toNat + carry.toNat)
      RegisterOutcome rd v
        (if f then
          (decide (v.toInt < 0), decide (v = 0), decide (2 ^ 32 ≤ a.toNat + b.toNat + carry.toNat),
            decide (v.toInt ≠ a.toInt + b.toInt + (carry.toNat : Int)))
        else nzcv s.cpsr) s t
    outcome (.add c f rn rd op) false ∧ outcome (.adc c f rn rd op) (flagC s.cpsr)

/-- SUB, SBC, RSB, RSC with Rd other than R15 (R264, R272, R273, R276, R277): the difference modulo 2^32, less 1 more
where SBC and RSC find C clear; C is NOT borrow of the exact unsigned difference, V that the exact signed difference
does not fit; without S no flag; nothing else changes. -/
def Obligations.SubtractionResults : Prop :=
  ∀ (c : Cond) (f : Bool) (rn rd : RegNum) (op : Operand2) (s : State), rd ≠ 15 →
    let n := s.readReg rn
    let so := (shifterOperand op s).1
    let outcome := fun (i : Instr) (a b : Word) (borrow : Bool) => Executes i s → Completes i s fun t =>
      let v := BitVec.ofInt 32 ((a.toNat : Int) - b.toNat - borrow.toNat)
      RegisterOutcome rd v
        (if f then
          (decide (v.toInt < 0), decide (v = 0), decide (b.toNat + borrow.toNat ≤ a.toNat),
            decide (v.toInt ≠ a.toInt - b.toInt - (borrow.toNat : Int)))
        else nzcv s.cpsr) s t
    outcome (.sub c f rn rd op) n so false ∧ outcome (.rsb c f rn rd op) so n false ∧
    outcome (.sbc c f rn rd op) n so (!flagC s.cpsr) ∧ outcome (.rsc c f rn rd op) so n (!flagC s.cpsr)

/-- TST, TEQ, CMP, CMN (R264, R278 to R281): the flags of the AND, the exclusive OR, the difference and the sum, and
nothing else. -/
def Obligations.ComparisonFlags : Prop :=
  ∀ (c : Cond) (rn : RegNum) (op : Operand2) (s : State),
    let a := s.readReg rn
    let so := shifterOperand op s
    let b := so.1
    let sum := BitVec.ofNat 32 (a.toNat + b.toNat)
    (Executes (.tst c rn op) s → Completes (.tst c rn op) s
      (FlagsOutcome (decide ((a &&& b).toInt < 0), decide (a &&& b = 0), so.2, flagV s.cpsr) s)) ∧
    (Executes (.teq c rn op) s → Completes (.teq c rn op) s
      (FlagsOutcome (decide ((a ^^^ b).toInt < 0), decide (a = b), so.2, flagV s.cpsr) s)) ∧
    (Executes (.cmp c rn op) s → Completes (.cmp c rn op) s
      (FlagsOutcome (decide ((a - b).toInt < 0), decide (a = b), decide (b.toNat ≤ a.toNat),
        decide ((a - b).toInt ≠ a.toInt - b.toInt)) s)) ∧
    (Executes (.cmn c rn op) s → Completes (.cmn c rn op) s
      (FlagsOutcome (decide (sum.toInt < 0), decide (sum = 0), decide (2 ^ 32 ≤ a.toNat + b.toNat),
        decide (sum.toInt ≠ a.toInt + b.toInt)) s))

/-- The immediate shifter operand (R251): bit k of the value is bit k + 2 * rotate of the zero-extended immediate, modulo
32; the carry-out is C where the rotation is 0, else bit 31. A register shifted by an immediate (R252, R253, R255, R257,
R259, R261), as arithmetic on the register's value x (R15 reads the address plus 8): LSL multiplies, LSR and ASR divide
downwards, ROR turns the bits, ROR #0 is RRX; LSR #0 and ASR #0 shift by 32. -/
def Obligations.ImmediateShifterOperands : Prop :=
  (∀ (rotate : BitVec 4) (immed : BitVec 8) (s : State),
     let so := shifterOperand (.imm rotate immed) s
     (∀ k < 32, bit so.1 k = bit (immed.setWidth 32) ((k + 2 * rotate.toNat) % 32)) ∧
     so.2 = if rotate = 0 then flagC s.cpsr else bit so.1 31) ∧
  (∀ (amount : BitVec 5) (rm : RegNum) (s : State),
     let x := s.readReg rm
     let c := flagC s.cpsr
     let n := amount.toNat
     let value := fun sh => (shifterOperand (.shiftImm amount sh rm) s).1
     let carry := fun sh => (shifterOperand (.shiftImm amount sh rm) s).2
     let right := if n = 0 then 32 else n
     (value .lsl).toNat = x.toNat * 2 ^ n % 2 ^ 32 ∧ carry .lsl = (if n = 0 then c else bit x (32 - n)) ∧
     (value .lsr).toNat = x.toNat / 2 ^ right ∧ carry .lsr = bit x (right - 1) ∧
     (value .asr).toInt = x.toInt / 2 ^ right ∧ carry .asr = bit x (right - 1) ∧
     (n ≠ 0 → (∀ k < 32, bit (value .ror) k = bit x ((k + n) % 32)) ∧ carry .ror = bit x (n - 1)) ∧
     (n = 0 → (value .ror).toNat = x.toNat / 2 + (if c then 2 ^ 31 else 0) ∧ carry .ror = bit x 0))

/-- A register shifted by the low byte of another (R254, R256, R258, R260), as arithmetic: the same shifts for amounts
0 to 255, with the carry-out of each range. -/
def Obligations.RegisterShifts : Prop :=
  ∀ (rs rm : RegNum) (s : State),
    let x := s.readReg rm
    let c := flagC s.cpsr
    let n := (bits (s.readReg rs) 0 8).toNat
    let value := fun sh => (shifterOperand (.shiftReg rs sh rm) s).1
    let carry := fun sh => (shifterOperand (.shiftReg rs sh rm) s).2
    (n = 0 → ∀ sh, value sh = x ∧ carry sh = c) ∧
    (n ≠ 0 →
      (value .lsl).toNat = x.toNat * 2 ^ n % 2 ^ 32 ∧
      carry .lsl = (if n ≤ 32 then bit x (32 - n) else false) ∧
      (value .lsr).toNat = x.toNat / 2 ^ n ∧ carry .lsr = (if n ≤ 32 then bit x (n - 1) else false) ∧
      (value .asr).toInt = x.toInt / 2 ^ n ∧ carry .asr = (if n ≤ 32 then bit x (n - 1) else bit x 31) ∧
      (∀ k < 32, bit (value .ror) k = bit x ((k + n) % 32)) ∧ carry .ror = bit x ((n + 31) % 32))

/-! ## Multiplies -/

/-- MUL and MLA (R324 to R326): the product, or the product plus Rn, modulo 2^32; with S, N and Z of the result, C and
V unchanged; without S no flag; nothing else changes. -/
def Obligations.ShortMultiplies : Prop :=
  ∀ (c : Cond) (f : Bool) (rd rn rs rm : RegNum) (s : State),
    let outcome := fun (i : Instr) (exact : Nat) => Executes i s → Completes i s fun t =>
      let v := BitVec.ofNat 32 exact
      RegisterOutcome rd v
        (if f then (decide (v.toInt < 0), decide (v = 0), flagC s.cpsr, flagV s.cpsr) else nzcv s.cpsr) s t
    let product := (s.readReg rm).toNat * (s.readReg rs).toNat
    outcome (.mul c f rd rs rm) product ∧ outcome (.mla c f rd rn rs rm) (product + (s.readReg rn).toNat)

/-- UMULL, UMLAL, SMULL, SMLAL (R324, R327 to R330): RdHi and RdLo together hold the exact 64-bit product of the
unsigned or signed values, to which the accumulating forms add, modulo 2^64, what RdHi and RdLo held; with S, N and Z
of the 64-bit result, C and V unchanged; without S no flag; nothing else changes. -/
def Obligations.LongMultiplies : Prop :=
  ∀ (c : Cond) (f : Bool) (hi lo rs rm : RegNum) (s : State),
    let outcome := fun (i : Instr) (exact : Int) => Executes i s → Completes i s fun t =>
      let v : BitVec 64 := BitVec.ofInt 64 exact
      t.readReg hi ++ t.readReg lo = v ∧ t.pc = s.pc + 4 ∧ RegisterFrame [hi, lo] s t ∧
      nzcv t.cpsr =
        if f then (decide (v.toInt < 0), decide (v = 0), flagC s.cpsr, flagV s.cpsr) else nzcv s.cpsr
    let a := s.readReg rm
    let b := s.readReg rs
    let old := (s.readReg hi).toNat * 2 ^ 32 + (s.readReg lo).toNat
    outcome (.umull c f hi lo rs rm) (a.toNat * b.toNat : Nat) ∧
    outcome (.umlal c f hi lo rs rm) (a.toNat * b.toNat + old : Nat) ∧
    outcome (.smull c f hi lo rs rm) (a.toInt * b.toInt) ∧
    outcome (.smlal c f hi lo rs rm) (a.toInt * b.toInt + old)

/-! ## CLZ, MRS, MSR -/

/-- CLZ (R340): the number of zero bits above the highest one bit, 32 for zero; no flag, nothing else changes. R15 as
Rd or Rm stops. -/
def Obligations.CountLeadingZeros : Prop :=
  ∀ (c : Cond) (rd rm : RegNum) (s : State),
    (rd = 15 ∨ rm = 15 → exec (.clz c rd rm) s = .fault (.unpredictable .pcOperand)) ∧
    (Executes (.clz c rd rm) s → Completes (.clz c rd rm) s fun t =>
      ∃ n : Nat, RegisterOutcome rd (BitVec.ofNat 32 n) (nzcv s.cpsr) s t ∧
        (s.readReg rm = 0 → n = 32) ∧
        (s.readReg rm ≠ 0 → n < 32 ∧ bit (s.readReg rm) (31 - n) = true ∧
          ∀ k, 31 - n < k → bit (s.readReg rm) k = false))

/-- MRS (R342): the CPSR, or the SPSR of the current mode, to Rd; no flag, nothing else changes. The SPSR in User and
System mode stops. -/
def Obligations.MoveFromStatus : Prop :=
  ∀ (c : Cond) (rd : RegNum) (s : State),
    (Executes (.mrs c false rd) s →
      Completes (.mrs c false rd) s (RegisterOutcome rd s.cpsr (nzcv s.cpsr) s)) ∧
    (∀ e, Executes (.mrs c true rd) s → s.currentExc = some e →
      Completes (.mrs c true rd) s (RegisterOutcome rd (s.spsr.get e) (nzcv s.cpsr) s)) ∧
    (Runs (.mrs c true rd) s → s.currentExc = none → exec (.mrs c true rd) s = .fault .noSpsr)

/-- MSR to the CPSR, from a register or an immediate (R345 to R348). The byte merge: bit k of the new value is the operand's
where the mask bit of its byte is set and, for the three low bytes of the CPSR, the mode is privileged; else it is the
old bit. The merged value is written, and leaving a privileged mode for User mode starts the wait of R348; a reserved
bit, an illegal mode and a change of T stop. In User mode everything but the flags byte stays. Nothing else changes. -/
def Obligations.MoveToCpsr : Prop :=
  (∀ (mask : BitVec 4) (low : Bool) (old operand : Word) (k : Nat), k < 32 →
     bit (mergeFields mask low old operand) k =
       if mask.getLsbD (k / 8) = true ∧ (24 ≤ k ∨ low = true) then bit operand k else bit old k) ∧
  (∀ (i : Instr) (c : Cond) (mask : BitVec 4) (operand : Word) (s : State),
     ((∃ rm, i = .msrReg c false mask rm ∧ operand = s.readReg rm) ∨
       (∃ rotate immed, i = .msrImm c false mask rotate immed ∧
         operand = (shifterOperand (.imm rotate immed) s).1)) →
     Executes i s →
     let new := mergeFields mask (privileged s.cpsr) s.cpsr operand
     (reservedBits new ≠ 0 → exec i s = .fault .reservedPsrBits) ∧
     (reservedBits new = 0 → legalMode (modeBits new) = false → exec i s = .fault .illegalMode) ∧
     (reservedBits new = 0 → legalMode (modeBits new) = true → flagT new ≠ flagT s.cpsr →
       exec i s = .fault .msrChangesT) ∧
     (reservedBits new = 0 → legalMode (modeBits new) = true → flagT new = flagT s.cpsr →
       exec i s = .next { s with
         cpsr := new, pc := s.pc + 4,
         privDropPending := s.privDropPending || (privileged s.cpsr && !privileged new) }) ∧
     (privileged s.cpsr = false → bits new 0 24 = bits s.cpsr 0 24))

/-- MSR to the SPSR of the current mode, from a register or an immediate (R345): the merged value; nothing else
changes. In User and System mode it stops. -/
def Obligations.MoveToSpsr : Prop :=
  ∀ (i : Instr) (c : Cond) (mask : BitVec 4) (operand : Word) (s : State),
    ((∃ rm, i = .msrReg c true mask rm ∧ operand = s.readReg rm) ∨
      (∃ rotate immed, i = .msrImm c true mask rotate immed ∧
        operand = (shifterOperand (.imm rotate immed) s).1)) →
    Executes i s →
    (s.currentExc = none → exec i s = .fault .noSpsr) ∧
    (∀ e, s.currentExc = some e →
      exec i s = .next { s with
        spsr := s.spsr.set e (mergeFields mask true (s.spsr.get e) operand), pc := s.pc + 4 })

/-! ## Branches -/

/-- B, BL and BLX (1) (R231, R232): the target is the address plus 8 plus four times the signed immediate, plus 2 for
the H bit; BL and BLX (1) link the next instruction's address in R14; BLX (1) sets T and nothing else in the CPSR. A
target outside the address space stops. -/
def Obligations.Branches : Prop :=
  ∀ (c : Cond) (h : Bool) (immed : BitVec 24) (s : State),
    let target := (s.pc.toNat : Int) + 8 + 4 * immed.toInt
    let targetH := target + (if h then 2 else 0)
    (Runs (.b c immed) s →
      (0 ≤ target ∧ target < 2 ^ 32 → exec (.b c immed) s = .next { s with pc := BitVec.ofInt 32 target }) ∧
      (target < 0 ∨ 2 ^ 32 ≤ target → exec (.b c immed) s = .fault .branchWrap)) ∧
    (Runs (.bl c immed) s →
      (0 ≤ target ∧ target < 2 ^ 32 →
        exec (.bl c immed) s = .next { s.writeReg 14 (s.pc + 4) with pc := BitVec.ofInt 32 target }) ∧
      (target < 0 ∨ 2 ^ 32 ≤ target → exec (.bl c immed) s = .fault .branchWrap)) ∧
    (0 ≤ targetH ∧ targetH < 2 ^ 32 → Completes (.blx1 h immed) s fun t =>
      t = { s.writeReg 14 (s.pc + 4) with pc := BitVec.ofInt 32 targetH, cpsr := t.cpsr } ∧ flagT t.cpsr = true ∧
      ∀ k, k ≠ 5 → bit t.cpsr k = bit s.cpsr k) ∧
    (targetH < 0 ∨ 2 ^ 32 ≤ targetH → exec (.blx1 h immed) s = .fault .branchWrap)

/-- BX and BLX (2) (R233, R234): T is bit 0 of Rm, the pc is Rm with bit 0 cleared, no other CPSR bit changes; BLX (2)
reads Rm and then links the next instruction's address in R14; bits 1:0 = 10 stop. Nothing else changes. -/
def Obligations.BranchExchange : Prop :=
  ∀ (c : Cond) (rm : RegNum) (s : State),
    let target := s.readReg rm
    (Runs (.bx c rm) s →
      (bits target 0 2 ≠ 0b10 → Completes (.bx c rm) s fun t =>
        t = { s with pc := target &&& 0xFFFFFFFE, cpsr := t.cpsr, privDropPending := false } ∧
        ∀ k, bit t.cpsr k = if k = 5 then bit target 0 else bit s.cpsr k) ∧
      (bits target 0 2 = 0b10 → exec (.bx c rm) s = .fault .interworkTarget)) ∧
    (Runs (.blx2 c rm) s →
      (bits target 0 2 ≠ 0b10 → Completes (.blx2 c rm) s fun t =>
        t = { s.writeReg 14 (s.pc + 4) with
              pc := target &&& 0xFFFFFFFE, cpsr := t.cpsr, privDropPending := false } ∧
        ∀ k, bit t.cpsr k = if k = 5 then bit target 0 else bit s.cpsr k) ∧
      (bits target 0 2 = 0b10 → exec (.blx2 c rm) s = .fault .interworkTarget))

/-! ## Single loads and stores -/

/-- Addressing modes 2 and 3 (R364 to R372, R377 to R382): the address and the new base of the offset, pre-indexed and
post-indexed forms, with the three kinds of offset; R15 as base or offset register reads the address plus 8. Addressing
mode 5 (R492 to R495): the first address and the new base of its four forms. -/
def Obligations.AddressingModes : Prop :=
  (∀ (up : Bool) (rn : RegNum) (s : State),
     let base := s.readReg rn
     let moved := fun (o : Word) => if up then base + o else base - o
     let forms := fun (o : Word) (offset pre post : Addressing) =>
       offset = ⟨moved o, none⟩ ∧ pre = ⟨moved o, some (moved o)⟩ ∧ post = ⟨base, some (moved o)⟩
     (∀ o : BitVec 12, forms (o.setWidth 32)
       (mode2 .offset up rn (.imm o) s) (mode2 .pre up rn (.imm o) s) (mode2 .post up rn (.imm o) s)) ∧
     (∀ amount sh rm, forms (shifterOperand (.shiftImm amount sh rm) s).1
       (mode2 .offset up rn (.reg amount sh rm) s) (mode2 .pre up rn (.reg amount sh rm) s)
       (mode2 .post up rn (.reg amount sh rm) s)) ∧
     (∀ o : BitVec 8, forms (o.setWidth 32)
       (mode3 true up false rn (.imm o) s) (mode3 true up true rn (.imm o) s) (mode3 false up false rn (.imm o) s)) ∧
     (∀ rm, forms (s.readReg rm)
       (mode3 true up false rn (.reg 0 rm) s) (mode3 true up true rn (.reg 0 rm) s)
       (mode3 false up false rn (.reg 0 rm) s))) ∧
  (∀ (up : Bool) (words : BitVec 8) (base : Word),
     let moved := if up then base + BitVec.ofNat 32 (4 * words.toNat) else base - BitVec.ofNat 32 (4 * words.toNat)
     mode5 (.offset up words) base = ⟨moved, none⟩ ∧ mode5 (.pre up words) base = ⟨moved, some moved⟩ ∧
     mode5 (.post up words) base = ⟨base, some moved⟩ ∧ mode5 (.unindexed words) base = ⟨base, none⟩)

/-- LDR, LDRB, LDRBT, LDRH, LDRSB, LDRSH, LDRT with Rd other than R15 (R385, R388, R390 to R396): where alignment lets
the access proceed and it is not aborted, Rd is the value read (extended, or rotated for an unaligned word), the base
is written back where the form says so, and nothing else changes, memory included. A device receives the load once, at the
masked address (R126, R128; log entry 21), and what it answers is a free value (log entry 8). -/
def Obligations.SingleLoads : Prop :=
  ∀ (i : Instr) (s : State) (x : Access) (value : Word → Word), loadOf i s = some (x, value) → x.rd ≠ 15 →
    Executes i s → alignmentOf x.size x.ad.address s = .proceed →
    s.memAbort x.ad.address x.size .load x.priv = false →
    Completes i s fun t =>
      (s.isIo x.size x.ad.address = false →
        t.readReg x.rd = value (s.memRead x.size x.ad.address) ∧ t.ioLog = s.ioLog) ∧
      (s.isIo x.size x.ad.address = true →
        t.readReg x.rd = value (ioValue s.ioLog (alignTo x.size x.ad.address) x.size) ∧
        t.ioLog = s.ioLog ++ [⟨alignTo x.size x.ad.address, x.size, none⟩]) ∧
      (∀ v, x.ad.newBase = some v → t.readReg x.rn = v) ∧
      t.pc = s.pc + 4 ∧ t.draws = s.draws ∧
      LoadFrame (modeBits s.cpsr) (x.rd :: baseWritten x.rn x.ad.newBase) s t

/-- The rotation of an unaligned word load (R388): bit k of the value is bit k + 8 * address[1:0] of the word read,
modulo 32; the two sign extensions (R394, R395) keep the signed value of the byte or halfword. -/
def Obligations.LoadedValues : Prop :=
  ∀ (a v : Word),
    (∀ k < 32, bit (rotateLoaded a v) k = bit v ((k + 8 * (a.toNat % 4)) % 32)) ∧
    (signExtendByte v).toInt = (BitVec.ofNat 8 v.toNat).toInt ∧
    (signExtendHalf v).toInt = (BitVec.ofNat 16 v.toNat).toInt

/-- LDR with Rd = R15 (R390): at a word-aligned address the word read goes to the pc as BX would, the base is written
back; bits 1:0 = 10 stop; an unaligned address stops, or raises Data Abort under alignment checking. -/
def Obligations.LoadToPc : Prop :=
  ∀ (c : Cond) (idx : Index) (up : Bool) (rn : RegNum) (off : Offset2) (s : State),
    let i := Instr.ldr c idx up rn 15 off
    let ad := mode2 idx up rn off s
    let v := (s.load .word ad.address).1
    Runs i s →
    (aligned .word ad.address = true → s.memAbort ad.address .word .load (privileged s.cpsr) = false →
      (bits v 0 2 ≠ 0b10 → Completes i s fun t =>
        t.pc = v &&& 0xFFFFFFFE ∧ (∀ k, bit t.cpsr k = if k = 5 then bit v 0 else bit s.cpsr k) ∧
        (∀ b, ad.newBase = some b → t.readReg rn = b) ∧
        RegsKept (modeBits s.cpsr) (baseWritten rn ad.newBase) s t ∧
        t = { s with
          regs := t.regs, pc := t.pc, cpsr := t.cpsr, ioLog := (s.load .word ad.address).2.ioLog,
          privDropPending := false }) ∧
      (bits v 0 2 = 0b10 → exec i s = .fault .interworkTarget)) ∧
    (aligned .word ad.address = false → s.platform.alignCheck = false → exec i s = .fault .unalignedPcLoad) ∧
    (aligned .word ad.address = false → s.platform.alignCheck = true →
      exec i s = .next (takeException .dataAbort (s.pc + 8) s))

/-- STR, STRB, STRBT, STRH, STRT (R385, R386, R397 to R401): where alignment lets the access proceed and it is not
aborted, the bytes at the access's aligned address hold the value under the byte order, every other byte of memory is
as it was, the base is written back where the form says so, and nothing else changes. The bytes enter the set W of
R121. A store to a device is delivered once, at the masked address (R126, R128; log entry 21), and changes no memory and
not the set W (log entry 23). -/
def Obligations.SingleStores : Prop :=
  ∀ (i : Instr) (s : State) (x : Access) (v : Word), storeOf i s = some (x, v) →
    Executes i s → alignmentOf x.size x.ad.address s = .proceed →
    s.memAbort x.ad.address x.size .store x.priv = false →
    Completes i s fun t =>
      let a := alignTo x.size x.ad.address
      (s.isIo x.size x.ad.address = false → t.ioLog = s.ioLog ∧ (Memory.wf s.mem = true →
        ∀ k < sizeBytes x.size, Memory.read t.mem (a.toNat + k) = storedByte (bigEndian s.platform) x.size v k) ∧
        (∀ b : Nat, b ∈ t.written ↔ b ∈ s.written ∨ (a.toNat ≤ b ∧ b < a.toNat + sizeBytes x.size))) ∧
      (s.isIo x.size x.ad.address = true → t.mem = s.mem ∧ t.written = s.written ∧
        t.ioLog = s.ioLog ++ [⟨a, x.size, some (narrow x.size v)⟩]) ∧
      (∀ b, x.ad.newBase = some b → t.readReg x.rn = b) ∧
      t.pc = s.pc + 4 ∧ t.draws = s.draws ∧
      StoreFrame (baseWritten x.rn x.ad.newBase) a.toNat (sizeBytes x.size) s t

/-- A single load or store that the memory system aborts (R387, R571 to R573): Data Abort entry; every register but R14_abt
and a base written back as it was; the base is the new one only where the form writes it back and the abort model is
Base Updated. Everything else but the two flags that an entry clears (R348, R440) is as it was: memory, the set W (log
entry 23), what devices received, the coprocessors, the draws, the platform. -/
def Obligations.SingleAborts : Prop :=
  ∀ (i : Instr) (s : State) (x : Access) (kind : AccessKind),
    ((∃ f, loadOf i s = some (x, f) ∧ kind = .load) ∨ (∃ v, storeOf i s = some (x, v) ∧ kind = .store)) →
    Runs i s → alignmentOf x.size x.ad.address s = .proceed →
    (kind = .load → x.rd = 15 → aligned x.size x.ad.address = true) →
    s.memAbort x.ad.address x.size kind x.priv = true →
    Completes i s fun t =>
      DataAborted s t ∧
      t = { s with
        regs := t.regs, pc := t.pc, cpsr := t.cpsr, spsr := t.spsr,
        privDropPending := false, userBankHazard := false } ∧
      (∀ r : PhysReg, r ≠ .lr .abt → physReg (modeBits s.cpsr) x.rn ≠ some r → t.phys r = s.phys r) ∧
      (∀ r : PhysReg, r ≠ .lr .abt → physReg (modeBits s.cpsr) x.rn = some r →
        t.phys r =
          if s.platform.abortModel = .baseUpdated then x.ad.newBase.getD (s.phys r) else s.phys r)

/-- Unaligned accesses (R109, R110, R393, R395, R400): under alignment checking a single word or halfword access, an LDM,
STM, LDC, STC or SWP raises Data Abort with nothing else changed; without it an odd halfword address of a single access
stops and a word or byte access proceeds. That the alignment exception is a Data Abort, and its place after the check of
R103, is log entry 17. -/
def Obligations.Alignment : Prop :=
  (∀ (i : Instr) (s : State) (x : Access),
    ((∃ f, loadOf i s = some (x, f)) ∨ (∃ v, storeOf i s = some (x, v))) → Runs i s →
    (aligned x.size x.ad.address = true ∨ x.size = .byte → alignmentOf x.size x.ad.address s = .proceed) ∧
    (aligned x.size x.ad.address = false → s.platform.alignCheck = true →
      exec i s = .next (takeException .dataAbort (s.pc + 8) s)) ∧
    (aligned x.size x.ad.address = false → s.platform.alignCheck = false → x.size = .half →
      exec i s = .fault .unalignedHalfword) ∧
    (aligned x.size x.ad.address = false → s.platform.alignCheck = false → x.size = .word →
      alignmentOf x.size x.ad.address s = .proceed)) ∧
  (∀ (i : Instr) (s : State) (q : Sequence), Runs i s → sequenceOf i s = some q →
    wordsWrap q.first q.addresses.length = false → aligned .word q.first = false → s.platform.alignCheck = true →
      exec i s = .next (takeException .dataAbort (s.pc + 8) s)) ∧
  (∀ (c : Cond) (rn rd rm : RegNum) (s : State), Runs (.swp c rn rd rm) s →
    aligned .word (s.readReg rn) = false → s.platform.alignCheck = true →
      exec (.swp c rn rd rm) s = .next (takeException .dataAbort (s.pc + 8) s))

/-! ## Load and store multiple -/

/-- Addressing mode 4 (R430, R431): the listed registers are those of the set bits, ascending; the start address and
the new base of the four modes, for n registers. -/
def Obligations.MultipleAddresses : Prop :=
  (∀ (list : BitVec 16) (n : RegNum), n ∈ listed list ↔ list.getLsbD n.toNat = true) ∧
  (∀ (list : BitVec 16), (listed list).Pairwise fun a b => a.toNat < b.toNat) ∧
  (∀ (base : Word) (n : Nat), n ≤ 16 →
    let up := base + BitVec.ofNat 32 (4 * n)
    let down := base - BitVec.ofNat 32 (4 * n)
    mode4Start .ia base n = base ∧ mode4Start .ib base n = base + 4 ∧
    mode4Start .da base n = down + 4 ∧ mode4Start .db base n = down ∧
    mode4NewBase .ia base n = up ∧ mode4NewBase .ib base n = up ∧
    mode4NewBase .da base n = down ∧ mode4NewBase .db base n = down ∧
    wordAddresses base n = (List.range n).map fun k => base + BitVec.ofNat 32 (4 * k))

/-- LDM (1) without the PC, and LDM (2), on normal memory (R433 to R435, R440): the k-th listed register (of the current
mode, or of User mode) is the k-th word; LDM (1) writes the base back where W is set, and a base that is also loaded
then holds any value; LDM (2) starts the restriction of R440. Nothing else changes, memory included. -/
def Obligations.LoadMultiple : Prop :=
  ∀ (c : Cond) (mode : Mode4) (w : Bool) (rn : RegNum) (list : BitVec 15) (s : State),
    let regs := listed (0#1 ++ list)
    let n := regs.length
    let start := mode4Start mode (s.readReg rn) n
    let word := fun k => s.memRead .word (start + BitVec.ofNat 32 (4 * k))
    Transfers .load start n s → (∀ a ∈ wordAddresses start n, s.isIo .word a = false) →
    (Executes (.ldm1 c mode w rn (0#1 ++ list)) s → Completes (.ldm1 c mode w rn (0#1 ++ list)) s fun t =>
      (∀ k r, regs[k]? = some r → ¬(w = true ∧ r = rn) → t.readReg r = word k) ∧
      (w = true → rn ∉ regs → t.readReg rn = mode4NewBase mode (s.readReg rn) n) ∧
      t.pc = s.pc + 4 ∧ t.ioLog = s.ioLog ∧
      LoadFrame (modeBits s.cpsr) (if w then rn :: regs else regs) s t) ∧
    (Executes (.ldm2 c mode w rn list) s → s.currentExc ≠ none → Completes (.ldm2 c mode w rn list) s fun t =>
      (∀ k r, regs[k]? = some r → t.readUserReg r = word k) ∧
      t.pc = s.pc + 4 ∧ t.ioLog = s.ioLog ∧ t.userBankHazard = true ∧
      LoadFrame userBits regs s { t with userBankHazard := s.userBankHazard })

/-- LDM (1) with the PC, and LDM (3), on normal memory (R434, R436): the listed registers of the mode before the
instruction are loaded; LDM (1) takes T from bit 0 of the last word and branches to it; LDM (3) copies the SPSR to the
CPSR and branches to the last word, masked for the new state; an SPSR that is no legal CPSR stops, as does a last word
that is no ARM or Thumb address. Nothing else changes, memory included. -/
def Obligations.LoadMultipleToPc : Prop :=
  ∀ (c : Cond) (mode : Mode4) (w : Bool) (rn : RegNum) (list : BitVec 15) (s : State),
    let regs := listed (1#1 ++ list)
    let n := regs.length
    let start := mode4Start mode (s.readReg rn) n
    let word := fun k => s.memRead .word (start + BitVec.ofNat 32 (4 * k))
    let last := word (n - 1)
    let m := modeBits s.cpsr
    let loaded := fun (t : State) =>
      (∀ k r, regs[k]? = some r → r ≠ 15 → ¬(w = true ∧ r = rn) → t.readRegIn m r = word k) ∧
      (w = true → rn ∉ regs → t.readRegIn m rn = mode4NewBase mode (s.readReg rn) n) ∧
      RegsKept m (if w then rn :: regs else regs) s t ∧
      t = { s with regs := t.regs, pc := t.pc, cpsr := t.cpsr, draws := t.draws, privDropPending := false }
    Transfers .load start n s → (∀ a ∈ wordAddresses start n, s.isIo .word a = false) →
    (Runs (.ldm1 c mode w rn (1#1 ++ list)) s →
      (bits last 0 2 ≠ 0b10 → Completes (.ldm1 c mode w rn (1#1 ++ list)) s fun t =>
        loaded t ∧ t.pc = last &&& 0xFFFFFFFE ∧ ∀ k, bit t.cpsr k = if k = 5 then bit last 0 else bit s.cpsr k) ∧
      (bits last 0 2 = 0b10 → exec (.ldm1 c mode w rn (1#1 ++ list)) s = .fault .interworkTarget)) ∧
    (∀ e, Runs (.ldm3 c mode w rn list) s → s.currentExc = some e →
      let new := s.spsr.get e
      (reservedBits new ≠ 0 → exec (.ldm3 c mode w rn list) s = .fault .reservedPsrBits) ∧
      (reservedBits new = 0 → legalMode (modeBits new) = false →
        exec (.ldm3 c mode w rn list) s = .fault .illegalMode) ∧
      (reservedBits new = 0 → legalMode (modeBits new) = true →
        (flagT new = true → Completes (.ldm3 c mode w rn list) s fun t =>
          loaded t ∧ t.cpsr = new ∧ t.pc = last &&& 0xFFFFFFFE) ∧
        (flagT new = false → bit last 1 = false → Completes (.ldm3 c mode w rn list) s fun t =>
          loaded t ∧ t.cpsr = new ∧ t.pc = last &&& 0xFFFFFFFC) ∧
        (flagT new = false → bit last 1 = true → exec (.ldm3 c mode w rn list) s = .fault .interworkTarget)))

/-- STM (1) and STM (2) on normal memory (R433, R437, R438, R440): the k-th word at the aligned start address holds the
k-th listed register (of the current mode, or of User mode; R15 as R48 says), any value for a written-back base that is
not the lowest; every other byte is as it was; the bytes stored, and no others, enter the set W (R121); STM (1) writes
the base back where W is set; STM (2) starts the restriction of R440. Nothing else changes. -/
def Obligations.StoreMultiple : Prop :=
  ∀ (c : Cond) (mode : Mode4) (w : Bool) (rn : RegNum) (list : BitVec 16) (s : State),
    let regs := listed list
    let n := regs.length
    let start := mode4Start mode (s.readReg rn) n
    let first := (alignTo .word start).toNat
    let stored := fun (m : BitVec 5) (t : State) => Memory.wf s.mem = true →
      ∀ k r, regs[k]? = some r → ¬(w = true ∧ r = rn ∧ 0 < k) →
        t.memRead .word (start + BitVec.ofNat 32 (4 * k)) = if r = 15 then s.storedPc else s.readRegIn m r
    let entered := fun (t : State) => ∀ b : Nat, b ∈ t.written ↔ b ∈ s.written ∨ (first ≤ b ∧ b < first + 4 * n)
    Transfers .store start n s → (∀ a ∈ wordAddresses start n, s.isIo .word a = false) →
    (Executes (.stm1 c mode w rn list) s → Completes (.stm1 c mode w rn list) s fun t =>
      stored (modeBits s.cpsr) t ∧ entered t ∧ t.pc = s.pc + 4 ∧ t.ioLog = s.ioLog ∧
      (w = true → t.readReg rn = mode4NewBase mode (s.readReg rn) n) ∧
      StoreFrame (if w then [rn] else []) first (4 * n) s t) ∧
    (Executes (.stm2 c mode w rn list) s → s.currentExc ≠ none → Completes (.stm2 c mode w rn list) s fun t =>
      stored userBits t ∧ entered t ∧ t.pc = s.pc + 4 ∧ t.ioLog = s.ioLog ∧ t.userBankHazard = true ∧
      StoreFrame [] first (4 * n) s { t with userBankHazard := s.userBankHazard })

/-- A load or store multiple with an aborting word, on normal memory, or wholly on devices without the PC (R439, R571 to
R573, R113): Data Abort entry; the base is written only where W is set and the abort model is Base Updated. An LDM changes
no memory and no register outside its list, read in the bank that its form loads (the current mode's for LDM (1) and (3),
User mode's for LDM (2)), and none at all where it loads one. An STM changes no register, no byte outside its words, none
of a device and no word whose own store would abort; its other words hold any value, those below the abort too (log entry
11), and their bytes enter the set W (log entry 23). Devices have received the words below the first abort, once each in
ascending order at the masked address (log entry 21), and no other; an STM's words are the registers', any value for a
written-back base that is not the lowest. Nothing else changes. -/
def Obligations.MultipleAborts : Prop :=
  ∀ (i : Instr) (kind : AccessKind) (bank : BitVec 5) (c : Cond) (mode : Mode4) (w : Bool) (rn : RegNum)
    (list : BitVec 16) (s : State),
    ((kind = .load ∧ bank = modeBits s.cpsr ∧ i = .ldm1 c mode w rn list) ∨
      (kind = .load ∧ bank = userBits ∧ s.currentExc ≠ none ∧
        ∃ l : BitVec 15, i = .ldm2 c mode w rn l ∧ list = 0#1 ++ l) ∨
      (kind = .load ∧ bank = modeBits s.cpsr ∧ s.currentExc ≠ none ∧
        ∃ l : BitVec 15, i = .ldm3 c mode w rn l ∧ list = 1#1 ++ l) ∨
      (kind = .store ∧ bank = modeBits s.cpsr ∧ i = .stm1 c mode w rn list) ∨
      (kind = .store ∧ bank = userBits ∧ s.currentExc ≠ none ∧ i = .stm2 c mode w rn list)) →
    Runs i s →
    let priv := privileged s.cpsr
    let n := (listed list).length
    let start := mode4Start mode (s.readReg rn) n
    let addrs := wordAddresses start n
    let made := beforeAbort kind priv addrs s
    wordsWrap start n = false → (aligned .word start = true ∨ s.platform.alignCheck = false) →
    ((∀ a ∈ addrs, s.isIo .word a = false) ∨
      ((∀ a ∈ addrs, s.isIo .word a = true) ∧ list.getLsbD 15 = false)) →
    (∃ a ∈ addrs, s.memAbort a .word kind priv = true) →
    Completes i s fun t =>
      DataAborted s t ∧
      (∀ r : PhysReg, r ≠ .lr .abt → physReg (modeBits s.cpsr) rn = some r →
        t.phys r = if w = true ∧ s.platform.abortModel = .baseUpdated then mode4NewBase mode (s.readReg rn) n
          else s.phys r) ∧
      (kind = .load → t.mem = s.mem ∧ t.written = s.written ∧ t.ioLog = s.ioLog ++ deliveredLoads made s ∧
        ∀ r : PhysReg, r ≠ .lr .abt → physReg (modeBits s.cpsr) rn ≠ some r →
          (n = 1 ∨ ∀ q ∈ listed list, physReg bank q ≠ some r) → t.phys r = s.phys r) ∧
      (kind = .store →
        (∀ r : PhysReg, r ≠ .lr .abt → physReg (modeBits s.cpsr) rn ≠ some r → t.phys r = s.phys r) ∧
        (∀ x : Nat, ¬Storable priv addrs s x → Memory.read t.mem x = Memory.read s.mem x) ∧
        (∀ x : Nat, x ∈ t.written ↔ x ∈ s.written ∨ Storable priv addrs s x) ∧
        ∃ values : List Word, values.length = n ∧ t.ioLog = s.ioLog ++ deliveredStores made values s ∧
          ∀ j r, (listed list)[j]? = some r → ¬(w = true ∧ r = rn ∧ 0 < j) →
            values[j]? = some (if r = 15 then s.storedPc else s.readRegIn bank r)) ∧
      t = { s with
        regs := t.regs, pc := t.pc, cpsr := t.cpsr, spsr := t.spsr, mem := t.mem, written := t.written,
        ioLog := t.ioLog, draws := t.draws, privDropPending := false, userBankHazard := false }

/-- The stops of load and store multiple and of LDC and STC: LDM (2), LDM (3) and STM (2) in User and System mode (R435,
R436, R438); the passage of the words of any LDM, STM, LDC or STC from 0xFFFFFFFC to 0 (R103, R433, R496); and an LDM or
STM that touches both I/O and normal memory (R130), or I/O with the PC in its list (R129). Three things in this last stop
are the model's choice: that I/O is decided on the masked address, and on all the words, those past an aborting word
included (log entry 21), and that the alignment exception comes before it (log entry 17). The names of the stops are the
model's. -/
def Obligations.MultipleStops : Prop :=
  (∀ (c : Cond) (mode : Mode4) (w : Bool) (rn : RegNum) (l : BitVec 15) (list : BitVec 16) (s : State),
    s.currentExc = none →
      (Runs (.ldm2 c mode w rn l) s → exec (.ldm2 c mode w rn l) s = .fault .userBankMode) ∧
      (Runs (.ldm3 c mode w rn l) s → exec (.ldm3 c mode w rn l) s = .fault .noSpsr) ∧
      (Runs (.stm2 c mode w rn list) s → exec (.stm2 c mode w rn list) s = .fault .userBankMode)) ∧
  (∀ (i : Instr) (s : State) (q : Sequence), Runs i s → sequenceOf i s = some q →
    (wordsWrap q.first q.addresses.length = true → exec i s = .fault .wordsPastTop) ∧
    (wordsWrap q.first q.addresses.length = false → (aligned .word q.first = true ∨ s.platform.alignCheck = false) →
      q.multiple = true → (∃ a ∈ q.addresses, s.isIo .word a = true) →
      (q.pcListed = true ∨ ∃ a ∈ q.addresses, s.isIo .word a = false) → exec i s = .fault .mixedIo))

/-! ## Semaphores -/

/-- SWP and SWPB (R460, R461, R463, R464): Rd is the old word, rotated for an unaligned address, or the old byte; the
aligned word is Rm, not rotated, or the byte is Rm's low byte, and its bytes enter the set W (R121); every other byte of
memory and every other register is as it was. A device receives the load and then the store, adjacent and each once, at
the masked address (R126; log entry 21); what it answers is a free value (log entry 8), from which Rd is computed; that
its store enters nothing in the set W is the model's reading (log entry 23). -/
def Obligations.Swaps : Prop :=
  ∀ (c : Cond) (rn rd rm : RegNum) (s : State) (size : Size) (i : Instr),
    ((i = .swp c rn rd rm ∧ size = .word) ∨ (i = .swpb c rn rd rm ∧ size = .byte)) →
    let a := s.readReg rn
    let lo := (alignTo size a).toNat
    Executes i s → alignmentOf size a s = .proceed →
    s.memAbort a size .load (privileged s.cpsr) = false → s.memAbort a size .store (privileged s.cpsr) = false →
    Completes i s fun t =>
      (s.isIo size a = false →
        (size = .word → t.readReg rd = rotateLoaded a (s.memRead .word a)) ∧
        (size = .byte → t.readReg rd = 0#24 ++ Memory.read s.mem a.toNat) ∧
        (Memory.wf s.mem = true → t.memRead size a = narrow size (s.readReg rm)) ∧ t.ioLog = s.ioLog ∧
        (∀ b : Nat, b ∈ t.written ↔ b ∈ s.written ∨ (lo ≤ b ∧ b < lo + sizeBytes size))) ∧
      (s.isIo size a = true →
        (size = .word → t.readReg rd = rotateLoaded a (ioValue s.ioLog (alignTo .word a) .word)) ∧
        (size = .byte → t.readReg rd = ioValue s.ioLog a .byte) ∧
        t.mem = s.mem ∧ t.written = s.written ∧ t.ioLog = s.ioLog ++
          [⟨alignTo size a, size, none⟩, ⟨alignTo size a, size, some (narrow size (s.readReg rm))⟩]) ∧
      t.pc = s.pc + 4 ∧ t.draws = s.draws ∧
      StoreFrame [rd] lo (sizeBytes size) s t

/-- A SWP or SWPB that aborts (R463, R464, R571): Data Abort entry, and no register but R14_abt changed. Everything else but
the two flags that an entry clears (R348, R440) is as it was: memory, the set W, the coprocessors, the draws. A device
whose load was made before the store aborted has received that load (log entry 21). That nothing is stored after an
aborted load is log entry 18, that an aborted store enters nothing in W log entry 23. -/
def Obligations.SwapAborts : Prop :=
  ∀ (c : Cond) (rn rd rm : RegNum) (s : State) (size : Size) (i : Instr),
    ((i = .swp c rn rd rm ∧ size = .word) ∨ (i = .swpb c rn rd rm ∧ size = .byte)) →
    let a := s.readReg rn
    Runs i s → alignmentOf size a s = .proceed →
    (s.memAbort a size .load (privileged s.cpsr) = true ∨ s.memAbort a size .store (privileged s.cpsr) = true) →
    Completes i s fun t =>
      DataAborted s t ∧ (∀ r : PhysReg, r ≠ .lr .abt → t.phys r = s.phys r) ∧
      t.ioLog = (if s.memAbort a size .load (privileged s.cpsr) = false ∧ s.isIo size a = true
        then s.ioLog ++ [⟨alignTo size a, size, none⟩] else s.ioLog) ∧
      t = { s with
        regs := t.regs, pc := t.pc, cpsr := t.cpsr, spsr := t.spsr, ioLog := t.ioLog,
        privDropPending := false, userBankHazard := false }

/-! ## Coprocessors -/

/-- The coprocessor instructions that are not performed, for all ten: one that no coprocessor accepts takes the Undefined
Instruction exception and does nothing else (R482, R568); one that is accepted, and whose operation the host has not
supplied, ends the run (R20); and an LDC or STC whose coprocessor asks for a count outside 1 to 16 ends it too (R484). The
names of the two refusals are the model's, their form is log entry 9. -/
def Obligations.CoprocessorAbsent : Prop :=
  (∀ (i : Instr) (cp : BitVec 4) (s : State),
    ((∃ c op1 crn crd op2 crm, i = .cdp c op1 crn crd cp op2 crm) ∨
      (∃ op1 crn crd op2 crm, i = .cdp2 op1 crn crd cp op2 crm) ∨
      (∃ c op1 crn rd op2 crm, i = .mcr c op1 crn rd cp op2 crm) ∨
      (∃ op1 crn rd op2 crm, i = .mcr2 op1 crn rd cp op2 crm) ∨
      (∃ c op1 crn rd op2 crm, i = .mrc c op1 crn rd cp op2 crm) ∨
      (∃ op1 crn rd op2 crm, i = .mrc2 op1 crn rd cp op2 crm) ∨
      (∃ c mode n rn crd, i = .ldc c mode n rn crd cp) ∨ (∃ mode n rn crd, i = .ldc2 mode n rn crd cp) ∨
      (∃ c mode n rn crd, i = .stc c mode n rn crd cp) ∨ (∃ mode n rn crd, i = .stc2 mode n rn crd cp)) →
    Runs i s →
    ((∀ k, s.coproc cp = some k → acceptingRule k (encode i) (privileged s.cpsr) = none) →
      exec i s = .next (takeException .undefined (s.pc + 4) s)) ∧
    (∀ k r, s.coproc cp = some k → acceptingRule k (encode i) (privileged s.cpsr) = some r → r.supplied = false →
      exec i s = .refused .coprocessorOperation)) ∧
  (∀ (c : Cond) (mode : Mode5) (n : Bool) (rn : RegNum) (crd cp : BitVec 4) (s : State) (i : Instr) (k : Coproc)
    (r : CoprocRule),
    (i = .ldc c mode n rn crd cp ∨ i = .ldc2 mode n rn crd cp ∨ i = .stc c mode n rn crd cp ∨
      i = .stc2 mode n rn crd cp) → Runs i s →
    s.coproc cp = some k → acceptingRule k (encode i) (privileged s.cpsr) = some r → r.supplied = true →
    (r.count = 0 ∨ 16 < r.count) → exec i s = .refused .coprocessorContract)

/-- Instructions accepted by coprocessor cp, their operation supplied (R482). CDP, CDP2, MCR and MCR2 (R486, R487, R499):
the coprocessor's operation on the whole word, and for MCR on Rd; no register, flag or byte of memory changes. MRC and MRC2
(R490, R499): the data to Rd, or, for R15, bits 31:28 of the data to N, Z, C, V and no register written; the coprocessor's
new state; nothing else changes, memory included. That every other coprocessor number keeps its state is the model's
choice, unsafe (log entry 31): R480 lets one coprocessor use several numbers. -/
def Obligations.CoprocessorMoves : Prop :=
  (∀ (c : Cond) (op1 crn crd cp : BitVec 4) (op3 : BitVec 3) (rd : RegNum) (op2 : BitVec 3) (crm : BitVec 4) (s : State)
     (k : Coproc) (r : CoprocRule), s.coproc cp = some k → r.supplied = true →
     let outcome := fun (i : Instr) (new : Coproc) =>
       Executes i s → acceptingRule k (encode i) (privileged s.cpsr) = some r →
         exec i s = .next { s with coprocs := s.coprocs.set cp.toNat (some new), pc := s.pc + 4 }
     let cdp := Instr.cdp c op1 crn crd cp op2 crm
     let cdp2 := Instr.cdp2 op1 crn crd cp op2 crm
     let mcr := Instr.mcr c op3 crn rd cp op2 crm
     let mcr2 := Instr.mcr2 op3 crn rd cp op2 crm
     outcome cdp (Config.cpCdp k (encode cdp)) ∧ outcome cdp2 (Config.cpCdp k (encode cdp2)) ∧
     outcome mcr (Config.cpMcr k (encode mcr) (s.readReg rd)) ∧
     outcome mcr2 (Config.cpMcr k (encode mcr2) (s.readReg rd))) ∧
  (∀ (c : Cond) (op1 : BitVec 3) (crn cp : BitVec 4) (rd : RegNum) (op2 : BitVec 3) (crm : BitVec 4) (s : State)
     (i : Instr) (k : Coproc) (r : CoprocRule),
     (i = .mrc c op1 crn rd cp op2 crm ∨ i = .mrc2 op1 crn rd cp op2 crm) → Executes i s →
     s.coproc cp = some k → acceptingRule k (encode i) (privileged s.cpsr) = some r → r.supplied = true →
     let data := Config.cpMrcData k (encode i)
     Completes i s fun t =>
       t.coprocs = s.coprocs.set cp.toNat (some (Config.cpMrc k (encode i))) ∧
       (rd ≠ 15 → RegisterOutcome rd data (nzcv s.cpsr) s { t with coprocs := s.coprocs }) ∧
       (rd = 15 → FlagsOutcome (bit data 31, bit data 30, bit data 29, bit data 28) s { t with coprocs := s.coprocs }))

/-- LDC and LDC2 accepted by coprocessor cp (R484, R492 to R496, R499): the coprocessor receives the words at the masked
addresses, as many as it asks for, each by its own address from normal memory or from a device; the base is written back
where the form says so; nothing else changes, memory included. The device words are delivered once each, in ascending
order of address (R126, R128); what a device answers is a free value (log entry 8). That I/O and normal words may be mixed
here, and that the masked address decides, is log entry 21. That every other coprocessor number keeps its state is the
model's choice, unsafe (log entry 31). -/
def Obligations.CoprocessorLoads : Prop :=
  ∀ (c : Cond) (mode : Mode5) (n : Bool) (rn : RegNum) (crd cp : BitVec 4) (s : State) (i : Instr) (k : Coproc)
    (r : CoprocRule),
    (i = .ldc c mode n rn crd cp ∨ i = .ldc2 mode n rn crd cp) → Executes i s →
    s.coproc cp = some k → acceptingRule k (encode i) (privileged s.cpsr) = some r → r.supplied = true →
    1 ≤ r.count → r.count ≤ 16 →
    let ad := mode5 mode (s.readReg rn)
    let addrs := wordAddresses (alignTo .word ad.address) r.count
    wordsWrap ad.address r.count = false → (aligned .word ad.address = true ∨ s.platform.alignCheck = false) →
    (∀ a ∈ addrs, s.memAbort a .word .load (privileged s.cpsr) = false) →
    Completes i s fun t =>
      t.coprocs = s.coprocs.set cp.toNat (some (Config.cpLdc k (encode i) (wordsAnswered addrs s))) ∧
      t.ioLog = s.ioLog ++ deliveredLoads addrs s ∧
      (∀ b, ad.newBase = some b → t.readReg rn = b) ∧ t.pc = s.pc + 4 ∧ t.draws = s.draws ∧
      LoadFrame (modeBits s.cpsr) (baseWritten rn ad.newBase) s { t with coprocs := s.coprocs }

/-- STC and STC2 accepted by coprocessor cp (R484, R492 to R495, R497, R499): the words of the coprocessor at the masked
addresses, as many as it asks for, each by its own address to normal memory or to a device; every byte outside the normal
words is as it was; the bytes of the normal words, and no others, enter the set W (R121); the base is written back where
the form says so; nothing else changes. The device words are delivered once each, in ascending order of address (R126,
R128). That I/O and normal words may be mixed here, and that the masked address decides, is log entry 21; that a store to
a device enters nothing in W is log entry 23. That every other coprocessor number keeps its state is the model's choice,
unsafe (log entry 31). -/
def Obligations.CoprocessorStores : Prop :=
  ∀ (c : Cond) (mode : Mode5) (n : Bool) (rn : RegNum) (crd cp : BitVec 4) (s : State) (i : Instr) (k : Coproc)
    (r : CoprocRule),
    (i = .stc c mode n rn crd cp ∨ i = .stc2 mode n rn crd cp) → Executes i s →
    s.coproc cp = some k → acceptingRule k (encode i) (privileged s.cpsr) = some r → r.supplied = true →
    1 ≤ r.count → r.count ≤ 16 →
    let ad := mode5 mode (s.readReg rn)
    let addrs := wordAddresses (alignTo .word ad.address) r.count
    let values := (List.range r.count).map (Config.cpStcWord k (encode i))
    let stored := Storable (privileged s.cpsr) addrs s
    wordsWrap ad.address r.count = false → (aligned .word ad.address = true ∨ s.platform.alignCheck = false) →
    (∀ a ∈ addrs, s.memAbort a .word .store (privileged s.cpsr) = false) →
    Completes i s fun t =>
      t.coprocs = s.coprocs.set cp.toNat (some (Config.cpStc k (encode i))) ∧
      (Memory.wf s.mem = true → ∀ j a, addrs[j]? = some a → s.isIo .word a = false →
        t.memRead .word a = Config.cpStcWord k (encode i) j) ∧
      (∀ x : Nat, ¬stored x → Memory.read t.mem x = Memory.read s.mem x) ∧
      (∀ x : Nat, x ∈ t.written ↔ x ∈ s.written ∨ stored x) ∧
      t.ioLog = s.ioLog ++ deliveredStores addrs values s ∧
      (∀ b, ad.newBase = some b → t.readReg rn = b) ∧ t.pc = s.pc + 4 ∧ t.draws = s.draws ∧
      StoreFrame (baseWritten rn ad.newBase) (alignTo .word ad.address).toNat (4 * r.count) s
        { t with coprocs := s.coprocs }

/-- An aborted LDC or STC, its words in normal memory, on devices or mixed (R498): Data Abort entry; the base is written
only where the form writes it back and the abort model is Base Updated. An LDC changes no memory and nothing in the set W,
and leaves the coprocessor any state that its abort may leave. An STC leaves the coprocessor as it was, which is the
spec's own choice D24 (R498 (d)), and changes no byte outside its words, none of a device and no word whose own store
would abort (R113); its other words are drawn (log entry 11) and their bytes enter W (log entry 23). Devices have received
the words below the first abort, once each, and no other. The count of draws, the model's own field, counts one draw for
the coprocessor's state and four for each word. Everything else but the two flags that an entry clears (R348,
R440) is as it was. The masked address and the mixture are log entry 21; that every other coprocessor number keeps its
state is the model's choice, unsafe (log entry 31). -/
def Obligations.CoprocessorAborts : Prop :=
  ∀ (c : Cond) (mode : Mode5) (n : Bool) (rn : RegNum) (crd cp : BitVec 4) (s : State) (i : Instr) (k : Coproc)
    (r : CoprocRule) (kind : AccessKind),
    ((kind = .load ∧ (i = .ldc c mode n rn crd cp ∨ i = .ldc2 mode n rn crd cp)) ∨
      (kind = .store ∧ (i = .stc c mode n rn crd cp ∨ i = .stc2 mode n rn crd cp))) → Runs i s →
    s.coproc cp = some k → acceptingRule k (encode i) (privileged s.cpsr) = some r → r.supplied = true →
    1 ≤ r.count → r.count ≤ 16 →
    let priv := privileged s.cpsr
    let ad := mode5 mode (s.readReg rn)
    let addrs := wordAddresses (alignTo .word ad.address) r.count
    let made := beforeAbort kind priv addrs s
    let values := (List.range r.count).map (Config.cpStcWord k (encode i))
    wordsWrap ad.address r.count = false → (aligned .word ad.address = true ∨ s.platform.alignCheck = false) →
    (∃ a ∈ addrs, s.memAbort a .word kind priv = true) →
    Completes i s fun t =>
      DataAborted s t ∧
      (∀ q : PhysReg, q ≠ .lr .abt → physReg (modeBits s.cpsr) rn ≠ some q → t.phys q = s.phys q) ∧
      (∀ q : PhysReg, q ≠ .lr .abt → physReg (modeBits s.cpsr) rn = some q →
        t.phys q = if s.platform.abortModel = .baseUpdated then ad.newBase.getD (s.phys q) else s.phys q) ∧
      (kind = .load → t.mem = s.mem ∧ t.written = s.written ∧ t.ioLog = s.ioLog ++ deliveredLoads made s ∧
        t.coprocs = s.coprocs.set cp.toNat (some (Config.cpLdcAborted k (encode i) s.draws)) ∧
        t.draws = s.draws + 1) ∧
      (kind = .store → t.coprocs = s.coprocs ∧ t.ioLog = s.ioLog ++ deliveredStores made values s ∧
        (∀ x : Nat, ¬Storable priv addrs s x → Memory.read t.mem x = Memory.read s.mem x) ∧
        (∀ x : Nat, x ∈ t.written ↔ x ∈ s.written ∨ Storable priv addrs s x) ∧
        t.draws = s.draws + 4 * addrs.countP fun a => !s.memAbort a .word .store priv && !s.isIo .word a) ∧
      t = { s with
        regs := t.regs, pc := t.pc, cpsr := t.cpsr, spsr := t.spsr, mem := t.mem, written := t.written,
        ioLog := t.ioLog, coprocs := t.coprocs, draws := t.draws, privDropPending := false, userBankHazard := false }

/-! ## Registers and memory -/

/-- What each mode sees (R43 to R45): R0 to R7 everywhere, R8 to R12 in the FIQ or the User copy, R13 and R14 of
the mode, of User mode in System mode; R15 is none of them; and the SPSR of each exception mode, none in User and System mode. A register read back is the value written, and every other
physical register keeps its value (R11, R41); R15 reads the address plus 8 (R47), and the common write writes nothing
there (R49 gives each instruction its own rule; log entry 29). -/
def Obligations.Registers : Prop :=
  (∀ m : BitVec 5, legalMode m = true →
     let bank : Bank :=
       if m = 0b10001 then .fiq else if m = 0b10010 then .irq else if m = 0b10011 then .svc
       else if m = 0b10111 then .abt else if m = 0b11011 then .und else .usr
     excMode m = (match bank with
       | .usr => none
       | .fiq => some .fiq
       | .irq => some .irq
       | .svc => some .svc
       | .abt => some .abt
       | .und => some .und) ∧
     (∀ k : Fin 8, physReg m (BitVec.ofNat 4 k.val) = some (.low k)) ∧
     (∀ k : Fin 5, physReg m (BitVec.ofNat 4 (8 + k.val)) = some (.mid (m == 0b10001) k)) ∧
     physReg m 13 = some (.sp bank) ∧ physReg m 14 = some (.lr bank) ∧ physReg m 15 = none) ∧
  (∀ (s : State) (m : BitVec 5) (n : RegNum) (v : Word),
     (n ≠ 15 → (s.writeRegIn m n v).readRegIn m n = v) ∧
     (∀ r : PhysReg, physReg m n ≠ some r → (s.writeRegIn m n v).phys r = s.phys r) ∧
     s.readRegIn m 15 = s.pc + 8 ∧ s.writeRegIn m 15 v = s ∧
     s.writeRegIn m n v = { s with regs := (s.writeRegIn m n v).regs })

/-- Normal memory in each byte order (R105, R106): the bytes that form a word and a halfword, which byte a byte access
reads; a load after a store at the same address returns the value stored; a store changes no byte outside its own and
keeps the canonical form, which is the model's own (R100 gives the bytes). Addresses are masked to the access's width: R12,
R109, and D11, the spec's own choice. -/
def Obligations.MemoryAccess : Prop :=
  ∀ (s : State) (size : Size) (a v : Word), Memory.wf s.mem = true →
    (s.memWrite size a v).memRead size a = narrow size v ∧
    Memory.wf (s.memWrite size a v).mem = true ∧
    (∀ x : Nat, x < (alignTo size a).toNat ∨ (alignTo size a).toNat + sizeBytes size ≤ x →
      Memory.read (s.memWrite size a v).mem x = Memory.read s.mem x) ∧
    (let first := (alignTo .word a).toNat
     let byte := fun k => (Memory.read s.mem (first + k)).toNat
     (s.memRead .word a).toNat =
      if bigEndian s.platform then byte 0 * 2 ^ 24 + byte 1 * 2 ^ 16 + byte 2 * 2 ^ 8 + byte 3
      else byte 3 * 2 ^ 24 + byte 2 * 2 ^ 16 + byte 1 * 2 ^ 8 + byte 0) ∧
    (let first := (alignTo .half a).toNat
     let byte := fun k => (Memory.read s.mem (first + k)).toNat
     (s.memRead .half a).toNat =
      if bigEndian s.platform then byte 0 * 2 ^ 8 + byte 1 else byte 1 * 2 ^ 8 + byte 0) ∧
    (s.memRead .byte a).toNat = (Memory.read s.mem a.toNat).toNat

/-- Word sequences to devices: LDM (1) and (2) and STM (1) and (2) without the PC, LDC, LDC2, STC, STC2, all of whose words
are I/O. Each word is delivered once, in ascending order of address (R126, R128 to R130, R496, R497), at its masked
address (log entry 21); the words loaded are what the device answers after the accesses before them (a free value, log
entry 8), the words stored are the registers' or the coprocessor's. Registers, base and frame are as on normal memory, and
no byte of memory changes; that the stores enter nothing in the set W is log entry 23. Where a word aborts, the words
below it have been delivered, it and those above it have not (R439, R498); the registers, base and frame of an aborted one
are in MultipleAborts and CoprocessorAborts. That an LDC or STC leaves every other coprocessor number its state is the
model's choice, unsafe (log entry 31). -/
def Obligations.DeviceSequences : Prop :=
  (∀ (c : Cond) (mode : Mode4) (w : Bool) (rn : RegNum) (l : BitVec 15) (s : State),
    let regs := listed (0#1 ++ l)
    let n := regs.length
    let start := mode4Start mode (s.readReg rn) n
    let events := (wordAddresses start n).map wordLoadEvent
    let word := fun k =>
      ioValue (s.ioLog ++ events.take k) (alignTo .word (start + BitVec.ofNat 32 (4 * k))) .word
    let stored := fun (m : BitVec 5) (t : State) => ∃ values : List Word, values.length = n ∧
      (∀ k r, regs[k]? = some r → ¬(w = true ∧ r = rn ∧ 0 < k) → values[k]? = some (s.readRegIn m r)) ∧
      t.ioLog = s.ioLog ++ (wordAddresses start n).zipWith wordStoreEvent values ∧ t.mem = s.mem
    (∀ a ∈ wordAddresses start n, s.isIo .word a = true) →
    (Transfers .load start n s →
      (Executes (.ldm1 c mode w rn (0#1 ++ l)) s → Completes (.ldm1 c mode w rn (0#1 ++ l)) s fun t =>
        t.ioLog = s.ioLog ++ events ∧
        (∀ k r, regs[k]? = some r → ¬(w = true ∧ r = rn) → t.readReg r = word k) ∧
        (w = true → rn ∉ regs → t.readReg rn = mode4NewBase mode (s.readReg rn) n) ∧
        t.pc = s.pc + 4 ∧ LoadFrame (modeBits s.cpsr) (if w then rn :: regs else regs) s t) ∧
      (Executes (.ldm2 c mode w rn l) s → s.currentExc ≠ none → Completes (.ldm2 c mode w rn l) s fun t =>
        t.ioLog = s.ioLog ++ events ∧ (∀ k r, regs[k]? = some r → t.readUserReg r = word k) ∧
        t.pc = s.pc + 4 ∧ t.userBankHazard = true ∧
        LoadFrame userBits regs s { t with userBankHazard := s.userBankHazard })) ∧
    (Transfers .store start n s →
      (Executes (.stm1 c mode w rn (0#1 ++ l)) s → Completes (.stm1 c mode w rn (0#1 ++ l)) s fun t =>
        stored (modeBits s.cpsr) t ∧ (w = true → t.readReg rn = mode4NewBase mode (s.readReg rn) n) ∧
        t.pc = s.pc + 4 ∧ StoreFrame (if w then [rn] else []) 0 0 s t) ∧
      (Executes (.stm2 c mode w rn (0#1 ++ l)) s → s.currentExc ≠ none →
        Completes (.stm2 c mode w rn (0#1 ++ l)) s fun t =>
          stored userBits t ∧ t.pc = s.pc + 4 ∧ t.userBankHazard = true ∧
          StoreFrame [] 0 0 s { t with userBankHazard := s.userBankHazard }))) ∧
  (∀ (c : Cond) (mode : Mode5) (n : Bool) (rn : RegNum) (crd cp : BitVec 4) (s : State) (i : Instr) (k : Coproc)
    (r : CoprocRule) (kind : AccessKind),
    ((kind = .load ∧ (i = .ldc c mode n rn crd cp ∨ i = .ldc2 mode n rn crd cp)) ∨
      (kind = .store ∧ (i = .stc c mode n rn crd cp ∨ i = .stc2 mode n rn crd cp))) → Executes i s →
    s.coproc cp = some k → acceptingRule k (encode i) (privileged s.cpsr) = some r → r.supplied = true →
    1 ≤ r.count → r.count ≤ 16 →
    let ad := mode5 mode (s.readReg rn)
    let addrs := wordAddresses (alignTo .word ad.address) r.count
    let loads := addrs.map wordLoadEvent
    let answers := addrs.mapIdx fun j a => ioValue (s.ioLog ++ loads.take j) a .word
    let words := (List.range r.count).map (Config.cpStcWord k (encode i))
    wordsWrap ad.address r.count = false → (aligned .word ad.address = true ∨ s.platform.alignCheck = false) →
    (∀ a ∈ addrs, s.memAbort a .word kind (privileged s.cpsr) = false ∧ s.isIo .word a = true) →
    Completes i s fun t =>
      (kind = .load → t.ioLog = s.ioLog ++ loads ∧
        t.coprocs = s.coprocs.set cp.toNat (some (Config.cpLdc k (encode i) answers))) ∧
      (kind = .store → t.ioLog = s.ioLog ++ addrs.zipWith wordStoreEvent words ∧
        t.coprocs = s.coprocs.set cp.toNat (some (Config.cpStc k (encode i)))) ∧
      (∀ b, ad.newBase = some b → t.readReg rn = b) ∧ t.pc = s.pc + 4 ∧ t.draws = s.draws ∧
      LoadFrame (modeBits s.cpsr) (baseWritten rn ad.newBase) s { t with coprocs := s.coprocs }) ∧
  (∀ (i : Instr) (s : State) (q : Sequence) (k : Nat), Runs i s → sequenceOf i s = some q → q.pcListed = false →
    wordsWrap q.first q.addresses.length = false → (aligned .word q.first = true ∨ s.platform.alignCheck = false) →
    (∀ a ∈ q.addresses, s.isIo .word a = true) →
    (∃ a, q.addresses[k]? = some a ∧ s.memAbort a .word q.kind (privileged s.cpsr) = true) →
    (∀ a ∈ q.addresses.take k, s.memAbort a .word q.kind (privileged s.cpsr) = false) →
    Completes i s fun t =>
      DataAborted s t ∧ t.mem = s.mem ∧ t.written = s.written ∧
      ∃ delivered : List IoEvent, t.ioLog = s.ioLog ++ delivered ∧
        delivered.map IoEvent.address = (q.addresses.take k).map (alignTo .word) ∧
        ∀ e ∈ delivered, e.size = .word ∧ (e.stored.isNone = true ↔ q.kind = .load))

/-! ## Runs -/

/-- The ends of a run (R20, R21). It is stopped exactly at a boundary at which the host's stop condition holds (the pc is
the halt address, or the bound of steps is reached), with no further step; a step that the model refuses as UNPREDICTABLE
or as excluded ends it; an end is final; a run that has not ended goes on from where it is, and below its bound. With no
stop condition it is the host's run of the same length. The two forms of the condition are log entry 33. -/
def Obligations.RunEnds : Prop :=
  (∀ (done : Nat) (s : State), stopHolds done s = true ↔
    s.platform.stop.haltAddress = some s.pc ∨ ∃ bound, s.platform.stop.stepBound = some bound ∧ bound ≤ done) ∧
  (∀ (done n : Nat) (s : State),
    (stopHolds done s = true → runFrom done n s = .ended (.stopped s)) ∧
    (∀ e, runFrom done n s = .ended e → ∀ m, runFrom done (n + m) s = .ended e) ∧
    (∀ t, runFrom done n s = .running t → ∀ m, runFrom done (n + m) s = runFrom (done + n) m t) ∧
    (∀ t bound, s.platform.stop.stepBound = some bound → runFrom done n s = .running t → done + n < bound) ∧
    (∀ t, runFrom done n s = .ended (.stopped t) → ∃ k ≤ n, stopHolds (done + k) t = true ∧ (k = 0 → t = s) ∧
      ∀ j < k, ∃ u v, runFrom done j s = .running u ∧ step u = .next v ∧ (j + 1 = k → v = t)) ∧
    (∀ why, runFrom done n s = .ended (.unpredictable why) →
      ∃ k < n, ∃ u, runFrom done k s = .running u ∧ step u = .fault why) ∧
    (∀ why, runFrom done n s = .ended (.unsupported why) →
      ∃ k < n, ∃ u, runFrom done k s = .running u ∧ step u = .refused why) ∧
    (s.platform.stop.haltAddress = none → s.platform.stop.stepBound = none → ∀ t,
      (runFrom done n s = .running t ↔ Host.Core.run Sys2Proof.core n s = .next t)))
end

