-- ==== Sys2Proof/Laws/State.lean ====
section
/-! SUPPORT. One lemma per field per named update of the state, so that no proof unfolds a record update. -/

namespace Sys2Proof.Machine

/-! ## A physical register written -/

@[simp] theorem setPhys_regs (s : State) (r : PhysReg) (v : Word) :
    (s.setPhys r v).regs = s.regs.set r.index.val v := rfl

@[simp] theorem setPhys_pc (s : State) (r : PhysReg) (v : Word) :
    (s.setPhys r v).pc = s.pc := rfl

@[simp] theorem setPhys_cpsr (s : State) (r : PhysReg) (v : Word) :
    (s.setPhys r v).cpsr = s.cpsr := rfl

@[simp] theorem setPhys_spsr (s : State) (r : PhysReg) (v : Word) :
    (s.setPhys r v).spsr = s.spsr := rfl

@[simp] theorem setPhys_mem (s : State) (r : PhysReg) (v : Word) :
    (s.setPhys r v).mem = s.mem := rfl

@[simp] theorem setPhys_written (s : State) (r : PhysReg) (v : Word) :
    (s.setPhys r v).written = s.written := rfl

@[simp] theorem setPhys_privDropPending (s : State) (r : PhysReg) (v : Word) :
    (s.setPhys r v).privDropPending = s.privDropPending := rfl

@[simp] theorem setPhys_userBankHazard (s : State) (r : PhysReg) (v : Word) :
    (s.setPhys r v).userBankHazard = s.userBankHazard := rfl

@[simp] theorem setPhys_resetHeld (s : State) (r : PhysReg) (v : Word) :
    (s.setPhys r v).resetHeld = s.resetHeld := rfl

@[simp] theorem setPhys_inputs (s : State) (r : PhysReg) (v : Word) :
    (s.setPhys r v).inputs = s.inputs := rfl

@[simp] theorem setPhys_draws (s : State) (r : PhysReg) (v : Word) :
    (s.setPhys r v).draws = s.draws := rfl

@[simp] theorem setPhys_ioLog (s : State) (r : PhysReg) (v : Word) :
    (s.setPhys r v).ioLog = s.ioLog := rfl

@[simp] theorem setPhys_coprocs (s : State) (r : PhysReg) (v : Word) :
    (s.setPhys r v).coprocs = s.coprocs := rfl

@[simp] theorem setPhys_platform (s : State) (r : PhysReg) (v : Word) :
    (s.setPhys r v).platform = s.platform := rfl

/-! ## A register written by name -/

@[simp] theorem writeRegIn_pc (s : State) (m : BitVec 5) (n : RegNum) (v : Word) :
    (s.writeRegIn m n v).pc = s.pc := by
  unfold State.writeRegIn; split <;> rfl

@[simp] theorem writeRegIn_cpsr (s : State) (m : BitVec 5) (n : RegNum) (v : Word) :
    (s.writeRegIn m n v).cpsr = s.cpsr := by
  unfold State.writeRegIn; split <;> rfl

@[simp] theorem writeRegIn_spsr (s : State) (m : BitVec 5) (n : RegNum) (v : Word) :
    (s.writeRegIn m n v).spsr = s.spsr := by
  unfold State.writeRegIn; split <;> rfl

@[simp] theorem writeRegIn_mem (s : State) (m : BitVec 5) (n : RegNum) (v : Word) :
    (s.writeRegIn m n v).mem = s.mem := by
  unfold State.writeRegIn; split <;> rfl

@[simp] theorem writeRegIn_written (s : State) (m : BitVec 5) (n : RegNum) (v : Word) :
    (s.writeRegIn m n v).written = s.written := by
  unfold State.writeRegIn; split <;> rfl

@[simp] theorem writeRegIn_privDropPending (s : State) (m : BitVec 5) (n : RegNum) (v : Word) :
    (s.writeRegIn m n v).privDropPending = s.privDropPending := by
  unfold State.writeRegIn; split <;> rfl

@[simp] theorem writeRegIn_userBankHazard (s : State) (m : BitVec 5) (n : RegNum) (v : Word) :
    (s.writeRegIn m n v).userBankHazard = s.userBankHazard := by
  unfold State.writeRegIn; split <;> rfl

@[simp] theorem writeRegIn_resetHeld (s : State) (m : BitVec 5) (n : RegNum) (v : Word) :
    (s.writeRegIn m n v).resetHeld = s.resetHeld := by
  unfold State.writeRegIn; split <;> rfl

@[simp] theorem writeRegIn_inputs (s : State) (m : BitVec 5) (n : RegNum) (v : Word) :
    (s.writeRegIn m n v).inputs = s.inputs := by
  unfold State.writeRegIn; split <;> rfl

@[simp] theorem writeRegIn_draws (s : State) (m : BitVec 5) (n : RegNum) (v : Word) :
    (s.writeRegIn m n v).draws = s.draws := by
  unfold State.writeRegIn; split <;> rfl

@[simp] theorem writeRegIn_ioLog (s : State) (m : BitVec 5) (n : RegNum) (v : Word) :
    (s.writeRegIn m n v).ioLog = s.ioLog := by
  unfold State.writeRegIn; split <;> rfl

@[simp] theorem writeRegIn_coprocs (s : State) (m : BitVec 5) (n : RegNum) (v : Word) :
    (s.writeRegIn m n v).coprocs = s.coprocs := by
  unfold State.writeRegIn; split <;> rfl

@[simp] theorem writeRegIn_platform (s : State) (m : BitVec 5) (n : RegNum) (v : Word) :
    (s.writeRegIn m n v).platform = s.platform := by
  unfold State.writeRegIn; split <;> rfl

@[simp] theorem writeReg_pc (s : State) (n : RegNum) (v : Word) :
    (s.writeReg n v).pc = s.pc := writeRegIn_pc s _ n v

@[simp] theorem writeReg_cpsr (s : State) (n : RegNum) (v : Word) :
    (s.writeReg n v).cpsr = s.cpsr := writeRegIn_cpsr s _ n v

@[simp] theorem writeReg_spsr (s : State) (n : RegNum) (v : Word) :
    (s.writeReg n v).spsr = s.spsr := writeRegIn_spsr s _ n v

@[simp] theorem writeReg_mem (s : State) (n : RegNum) (v : Word) :
    (s.writeReg n v).mem = s.mem := writeRegIn_mem s _ n v

@[simp] theorem writeReg_written (s : State) (n : RegNum) (v : Word) :
    (s.writeReg n v).written = s.written := writeRegIn_written s _ n v

@[simp] theorem writeReg_privDropPending (s : State) (n : RegNum) (v : Word) :
    (s.writeReg n v).privDropPending = s.privDropPending := writeRegIn_privDropPending s _ n v

@[simp] theorem writeReg_userBankHazard (s : State) (n : RegNum) (v : Word) :
    (s.writeReg n v).userBankHazard = s.userBankHazard := writeRegIn_userBankHazard s _ n v

@[simp] theorem writeReg_resetHeld (s : State) (n : RegNum) (v : Word) :
    (s.writeReg n v).resetHeld = s.resetHeld := writeRegIn_resetHeld s _ n v

@[simp] theorem writeReg_inputs (s : State) (n : RegNum) (v : Word) :
    (s.writeReg n v).inputs = s.inputs := writeRegIn_inputs s _ n v

@[simp] theorem writeReg_draws (s : State) (n : RegNum) (v : Word) :
    (s.writeReg n v).draws = s.draws := writeRegIn_draws s _ n v

@[simp] theorem writeReg_ioLog (s : State) (n : RegNum) (v : Word) :
    (s.writeReg n v).ioLog = s.ioLog := writeRegIn_ioLog s _ n v

@[simp] theorem writeReg_coprocs (s : State) (n : RegNum) (v : Word) :
    (s.writeReg n v).coprocs = s.coprocs := writeRegIn_coprocs s _ n v

@[simp] theorem writeReg_platform (s : State) (n : RegNum) (v : Word) :
    (s.writeReg n v).platform = s.platform := writeRegIn_platform s _ n v

/-! ## The base written back -/

@[simp] theorem writeBase_pc (s : State) (n : RegNum) (v : Option Word) :
    (writeBase n v s).pc = s.pc := by
  cases v <;> simp [writeBase]

@[simp] theorem writeBase_cpsr (s : State) (n : RegNum) (v : Option Word) :
    (writeBase n v s).cpsr = s.cpsr := by
  cases v <;> simp [writeBase]

@[simp] theorem writeBase_spsr (s : State) (n : RegNum) (v : Option Word) :
    (writeBase n v s).spsr = s.spsr := by
  cases v <;> simp [writeBase]

@[simp] theorem writeBase_mem (s : State) (n : RegNum) (v : Option Word) :
    (writeBase n v s).mem = s.mem := by
  cases v <;> simp [writeBase]

@[simp] theorem writeBase_written (s : State) (n : RegNum) (v : Option Word) :
    (writeBase n v s).written = s.written := by
  cases v <;> simp [writeBase]

@[simp] theorem writeBase_privDropPending (s : State) (n : RegNum) (v : Option Word) :
    (writeBase n v s).privDropPending = s.privDropPending := by
  cases v <;> simp [writeBase]

@[simp] theorem writeBase_userBankHazard (s : State) (n : RegNum) (v : Option Word) :
    (writeBase n v s).userBankHazard = s.userBankHazard := by
  cases v <;> simp [writeBase]

@[simp] theorem writeBase_resetHeld (s : State) (n : RegNum) (v : Option Word) :
    (writeBase n v s).resetHeld = s.resetHeld := by
  cases v <;> simp [writeBase]

@[simp] theorem writeBase_inputs (s : State) (n : RegNum) (v : Option Word) :
    (writeBase n v s).inputs = s.inputs := by
  cases v <;> simp [writeBase]

@[simp] theorem writeBase_draws (s : State) (n : RegNum) (v : Option Word) :
    (writeBase n v s).draws = s.draws := by
  cases v <;> simp [writeBase]

@[simp] theorem writeBase_ioLog (s : State) (n : RegNum) (v : Option Word) :
    (writeBase n v s).ioLog = s.ioLog := by
  cases v <;> simp [writeBase]

@[simp] theorem writeBase_coprocs (s : State) (n : RegNum) (v : Option Word) :
    (writeBase n v s).coprocs = s.coprocs := by
  cases v <;> simp [writeBase]

@[simp] theorem writeBase_platform (s : State) (n : RegNum) (v : Option Word) :
    (writeBase n v s).platform = s.platform := by
  cases v <;> simp [writeBase]

@[simp] theorem abortBase_pc (s : State) (n : RegNum) (v : Option Word) :
    (abortBase n v s).pc = s.pc := by
  unfold abortBase; split <;> simp

@[simp] theorem abortBase_cpsr (s : State) (n : RegNum) (v : Option Word) :
    (abortBase n v s).cpsr = s.cpsr := by
  unfold abortBase; split <;> simp

@[simp] theorem abortBase_spsr (s : State) (n : RegNum) (v : Option Word) :
    (abortBase n v s).spsr = s.spsr := by
  unfold abortBase; split <;> simp

@[simp] theorem abortBase_mem (s : State) (n : RegNum) (v : Option Word) :
    (abortBase n v s).mem = s.mem := by
  unfold abortBase; split <;> simp

@[simp] theorem abortBase_written (s : State) (n : RegNum) (v : Option Word) :
    (abortBase n v s).written = s.written := by
  unfold abortBase; split <;> simp

@[simp] theorem abortBase_privDropPending (s : State) (n : RegNum) (v : Option Word) :
    (abortBase n v s).privDropPending = s.privDropPending := by
  unfold abortBase; split <;> simp

@[simp] theorem abortBase_userBankHazard (s : State) (n : RegNum) (v : Option Word) :
    (abortBase n v s).userBankHazard = s.userBankHazard := by
  unfold abortBase; split <;> simp

@[simp] theorem abortBase_resetHeld (s : State) (n : RegNum) (v : Option Word) :
    (abortBase n v s).resetHeld = s.resetHeld := by
  unfold abortBase; split <;> simp

@[simp] theorem abortBase_inputs (s : State) (n : RegNum) (v : Option Word) :
    (abortBase n v s).inputs = s.inputs := by
  unfold abortBase; split <;> simp

@[simp] theorem abortBase_draws (s : State) (n : RegNum) (v : Option Word) :
    (abortBase n v s).draws = s.draws := by
  unfold abortBase; split <;> simp

@[simp] theorem abortBase_ioLog (s : State) (n : RegNum) (v : Option Word) :
    (abortBase n v s).ioLog = s.ioLog := by
  unfold abortBase; split <;> simp

@[simp] theorem abortBase_coprocs (s : State) (n : RegNum) (v : Option Word) :
    (abortBase n v s).coprocs = s.coprocs := by
  unfold abortBase; split <;> simp

@[simp] theorem abortBase_platform (s : State) (n : RegNum) (v : Option Word) :
    (abortBase n v s).platform = s.platform := by
  unfold abortBase; split <;> simp

/-! ## The program counter written -/

@[simp] theorem jump_regs (s : State) (a : Word) :
    (s.jump a).regs = s.regs := rfl

@[simp] theorem jump_pc (s : State) (a : Word) :
    (s.jump a).pc = a := rfl

@[simp] theorem jump_cpsr (s : State) (a : Word) :
    (s.jump a).cpsr = s.cpsr := rfl

@[simp] theorem jump_spsr (s : State) (a : Word) :
    (s.jump a).spsr = s.spsr := rfl

@[simp] theorem jump_mem (s : State) (a : Word) :
    (s.jump a).mem = s.mem := rfl

@[simp] theorem jump_written (s : State) (a : Word) :
    (s.jump a).written = s.written := rfl

@[simp] theorem jump_privDropPending (s : State) (a : Word) :
    (s.jump a).privDropPending = false := rfl

@[simp] theorem jump_userBankHazard (s : State) (a : Word) :
    (s.jump a).userBankHazard = s.userBankHazard := rfl

@[simp] theorem jump_resetHeld (s : State) (a : Word) :
    (s.jump a).resetHeld = s.resetHeld := rfl

@[simp] theorem jump_inputs (s : State) (a : Word) :
    (s.jump a).inputs = s.inputs := rfl

@[simp] theorem jump_draws (s : State) (a : Word) :
    (s.jump a).draws = s.draws := rfl

@[simp] theorem jump_ioLog (s : State) (a : Word) :
    (s.jump a).ioLog = s.ioLog := rfl

@[simp] theorem jump_coprocs (s : State) (a : Word) :
    (s.jump a).coprocs = s.coprocs := rfl

@[simp] theorem jump_platform (s : State) (a : Word) :
    (s.jump a).platform = s.platform := rfl

/-! ## Memory written -/

@[simp] theorem memWrite_regs (s : State) (size : Size) (a v : Word) :
    (s.memWrite size a v).regs = s.regs := rfl

@[simp] theorem memWrite_pc (s : State) (size : Size) (a v : Word) :
    (s.memWrite size a v).pc = s.pc := rfl

@[simp] theorem memWrite_cpsr (s : State) (size : Size) (a v : Word) :
    (s.memWrite size a v).cpsr = s.cpsr := rfl

@[simp] theorem memWrite_spsr (s : State) (size : Size) (a v : Word) :
    (s.memWrite size a v).spsr = s.spsr := rfl

@[simp] theorem memWrite_mem (s : State) (size : Size) (a v : Word) :
    (s.memWrite size a v).mem = Memory.writeSized (bigEndian s.platform) size v s.mem (alignTo size a).toNat := rfl

@[simp] theorem memWrite_written (s : State) (size : Size) (a v : Word) :
    (s.memWrite size a v).written = (List.range (sizeBytes size)).foldl (fun w k => insertAddr ((alignTo size a).toNat + k) w) s.written := rfl

@[simp] theorem memWrite_privDropPending (s : State) (size : Size) (a v : Word) :
    (s.memWrite size a v).privDropPending = s.privDropPending := rfl

@[simp] theorem memWrite_userBankHazard (s : State) (size : Size) (a v : Word) :
    (s.memWrite size a v).userBankHazard = s.userBankHazard := rfl

@[simp] theorem memWrite_resetHeld (s : State) (size : Size) (a v : Word) :
    (s.memWrite size a v).resetHeld = s.resetHeld := rfl

@[simp] theorem memWrite_inputs (s : State) (size : Size) (a v : Word) :
    (s.memWrite size a v).inputs = s.inputs := rfl

@[simp] theorem memWrite_draws (s : State) (size : Size) (a v : Word) :
    (s.memWrite size a v).draws = s.draws := rfl

@[simp] theorem memWrite_ioLog (s : State) (size : Size) (a v : Word) :
    (s.memWrite size a v).ioLog = s.ioLog := rfl

@[simp] theorem memWrite_coprocs (s : State) (size : Size) (a v : Word) :
    (s.memWrite size a v).coprocs = s.coprocs := rfl

@[simp] theorem memWrite_platform (s : State) (size : Size) (a v : Word) :
    (s.memWrite size a v).platform = s.platform := rfl

@[simp] theorem store_regs (s : State) (size : Size) (a v : Word) :
    (s.store size a v).regs = s.regs := by
  unfold State.store; split <;> rfl

@[simp] theorem store_pc (s : State) (size : Size) (a v : Word) :
    (s.store size a v).pc = s.pc := by
  unfold State.store; split <;> rfl

@[simp] theorem store_cpsr (s : State) (size : Size) (a v : Word) :
    (s.store size a v).cpsr = s.cpsr := by
  unfold State.store; split <;> rfl

@[simp] theorem store_spsr (s : State) (size : Size) (a v : Word) :
    (s.store size a v).spsr = s.spsr := by
  unfold State.store; split <;> rfl

@[simp] theorem store_privDropPending (s : State) (size : Size) (a v : Word) :
    (s.store size a v).privDropPending = s.privDropPending := by
  unfold State.store; split <;> rfl

@[simp] theorem store_userBankHazard (s : State) (size : Size) (a v : Word) :
    (s.store size a v).userBankHazard = s.userBankHazard := by
  unfold State.store; split <;> rfl

@[simp] theorem store_resetHeld (s : State) (size : Size) (a v : Word) :
    (s.store size a v).resetHeld = s.resetHeld := by
  unfold State.store; split <;> rfl

@[simp] theorem store_inputs (s : State) (size : Size) (a v : Word) :
    (s.store size a v).inputs = s.inputs := by
  unfold State.store; split <;> rfl

@[simp] theorem store_draws (s : State) (size : Size) (a v : Word) :
    (s.store size a v).draws = s.draws := by
  unfold State.store; split <;> rfl

@[simp] theorem store_coprocs (s : State) (size : Size) (a v : Word) :
    (s.store size a v).coprocs = s.coprocs := by
  unfold State.store; split <;> rfl

@[simp] theorem store_platform (s : State) (size : Size) (a v : Word) :
    (s.store size a v).platform = s.platform := by
  unfold State.store; split <;> rfl

@[simp] theorem load_regs (s : State) (size : Size) (a : Word) :
    ((s.load size a).2).regs = s.regs := by
  unfold State.load; split <;> rfl

@[simp] theorem load_pc (s : State) (size : Size) (a : Word) :
    ((s.load size a).2).pc = s.pc := by
  unfold State.load; split <;> rfl

@[simp] theorem load_cpsr (s : State) (size : Size) (a : Word) :
    ((s.load size a).2).cpsr = s.cpsr := by
  unfold State.load; split <;> rfl

@[simp] theorem load_spsr (s : State) (size : Size) (a : Word) :
    ((s.load size a).2).spsr = s.spsr := by
  unfold State.load; split <;> rfl

@[simp] theorem load_mem (s : State) (size : Size) (a : Word) :
    ((s.load size a).2).mem = s.mem := by
  unfold State.load; split <;> rfl

@[simp] theorem load_written (s : State) (size : Size) (a : Word) :
    ((s.load size a).2).written = s.written := by
  unfold State.load; split <;> rfl

@[simp] theorem load_privDropPending (s : State) (size : Size) (a : Word) :
    ((s.load size a).2).privDropPending = s.privDropPending := by
  unfold State.load; split <;> rfl

@[simp] theorem load_userBankHazard (s : State) (size : Size) (a : Word) :
    ((s.load size a).2).userBankHazard = s.userBankHazard := by
  unfold State.load; split <;> rfl

@[simp] theorem load_resetHeld (s : State) (size : Size) (a : Word) :
    ((s.load size a).2).resetHeld = s.resetHeld := by
  unfold State.load; split <;> rfl

@[simp] theorem load_inputs (s : State) (size : Size) (a : Word) :
    ((s.load size a).2).inputs = s.inputs := by
  unfold State.load; split <;> rfl

@[simp] theorem load_draws (s : State) (size : Size) (a : Word) :
    ((s.load size a).2).draws = s.draws := by
  unfold State.load; split <;> rfl

@[simp] theorem load_coprocs (s : State) (size : Size) (a : Word) :
    ((s.load size a).2).coprocs = s.coprocs := by
  unfold State.load; split <;> rfl

@[simp] theorem load_platform (s : State) (size : Size) (a : Word) :
    ((s.load size a).2).platform = s.platform := by
  unfold State.load; split <;> rfl

/-! ## A free value drawn -/

@[simp] theorem draw_regs (s : State) :
    (s.draw.2).regs = s.regs := rfl

@[simp] theorem draw_pc (s : State) :
    (s.draw.2).pc = s.pc := rfl

@[simp] theorem draw_cpsr (s : State) :
    (s.draw.2).cpsr = s.cpsr := rfl

@[simp] theorem draw_spsr (s : State) :
    (s.draw.2).spsr = s.spsr := rfl

@[simp] theorem draw_mem (s : State) :
    (s.draw.2).mem = s.mem := rfl

@[simp] theorem draw_written (s : State) :
    (s.draw.2).written = s.written := rfl

@[simp] theorem draw_privDropPending (s : State) :
    (s.draw.2).privDropPending = s.privDropPending := rfl

@[simp] theorem draw_userBankHazard (s : State) :
    (s.draw.2).userBankHazard = s.userBankHazard := rfl

@[simp] theorem draw_resetHeld (s : State) :
    (s.draw.2).resetHeld = s.resetHeld := rfl

@[simp] theorem draw_inputs (s : State) :
    (s.draw.2).inputs = s.inputs := rfl

@[simp] theorem draw_draws (s : State) :
    (s.draw.2).draws = s.draws + 1 := rfl

@[simp] theorem draw_ioLog (s : State) :
    (s.draw.2).ioLog = s.ioLog := rfl

@[simp] theorem draw_coprocs (s : State) :
    (s.draw.2).coprocs = s.coprocs := rfl

@[simp] theorem draw_platform (s : State) :
    (s.draw.2).platform = s.platform := rfl

/-! ## A coprocessor's state replaced -/

@[simp] theorem setCoproc_regs (s : State) (cp : BitVec 4) (c : Coproc) :
    (s.setCoproc cp c).regs = s.regs := rfl

@[simp] theorem setCoproc_pc (s : State) (cp : BitVec 4) (c : Coproc) :
    (s.setCoproc cp c).pc = s.pc := rfl

@[simp] theorem setCoproc_cpsr (s : State) (cp : BitVec 4) (c : Coproc) :
    (s.setCoproc cp c).cpsr = s.cpsr := rfl

@[simp] theorem setCoproc_spsr (s : State) (cp : BitVec 4) (c : Coproc) :
    (s.setCoproc cp c).spsr = s.spsr := rfl

@[simp] theorem setCoproc_mem (s : State) (cp : BitVec 4) (c : Coproc) :
    (s.setCoproc cp c).mem = s.mem := rfl

@[simp] theorem setCoproc_written (s : State) (cp : BitVec 4) (c : Coproc) :
    (s.setCoproc cp c).written = s.written := rfl

@[simp] theorem setCoproc_privDropPending (s : State) (cp : BitVec 4) (c : Coproc) :
    (s.setCoproc cp c).privDropPending = s.privDropPending := rfl

@[simp] theorem setCoproc_userBankHazard (s : State) (cp : BitVec 4) (c : Coproc) :
    (s.setCoproc cp c).userBankHazard = s.userBankHazard := rfl

@[simp] theorem setCoproc_resetHeld (s : State) (cp : BitVec 4) (c : Coproc) :
    (s.setCoproc cp c).resetHeld = s.resetHeld := rfl

@[simp] theorem setCoproc_inputs (s : State) (cp : BitVec 4) (c : Coproc) :
    (s.setCoproc cp c).inputs = s.inputs := rfl

@[simp] theorem setCoproc_draws (s : State) (cp : BitVec 4) (c : Coproc) :
    (s.setCoproc cp c).draws = s.draws := rfl

@[simp] theorem setCoproc_ioLog (s : State) (cp : BitVec 4) (c : Coproc) :
    (s.setCoproc cp c).ioLog = s.ioLog := rfl

@[simp] theorem setCoproc_coprocs (s : State) (cp : BitVec 4) (c : Coproc) :
    (s.setCoproc cp c).coprocs = s.coprocs.set cp.toNat (some c) := rfl

@[simp] theorem setCoproc_platform (s : State) (cp : BitVec 4) (c : Coproc) :
    (s.setCoproc cp c).platform = s.platform := rfl

/-! ## An exception taken -/

@[simp] theorem takeException_regs (s : State) (e : ExceptionKind) (link : Word) :
    (takeException e link s).regs = (s.setPhys (.lr e.mode.bank) link).regs := rfl

@[simp] theorem takeException_pc (s : State) (e : ExceptionKind) (link : Word) :
    (takeException e link s).pc = vector s.platform e.offset := rfl

@[simp] theorem takeException_cpsr (s : State) (e : ExceptionKind) (link : Word) :
    (takeException e link s).cpsr = entryCpsr e s.cpsr := rfl

@[simp] theorem takeException_spsr (s : State) (e : ExceptionKind) (link : Word) :
    (takeException e link s).spsr = s.spsr.set e.mode s.cpsr := rfl

@[simp] theorem takeException_mem (s : State) (e : ExceptionKind) (link : Word) :
    (takeException e link s).mem = s.mem := rfl

@[simp] theorem takeException_written (s : State) (e : ExceptionKind) (link : Word) :
    (takeException e link s).written = s.written := rfl

@[simp] theorem takeException_privDropPending (s : State) (e : ExceptionKind) (link : Word) :
    (takeException e link s).privDropPending = false := rfl

@[simp] theorem takeException_userBankHazard (s : State) (e : ExceptionKind) (link : Word) :
    (takeException e link s).userBankHazard = false := rfl

@[simp] theorem takeException_resetHeld (s : State) (e : ExceptionKind) (link : Word) :
    (takeException e link s).resetHeld = s.resetHeld := rfl

@[simp] theorem takeException_inputs (s : State) (e : ExceptionKind) (link : Word) :
    (takeException e link s).inputs = s.inputs := rfl

@[simp] theorem takeException_draws (s : State) (e : ExceptionKind) (link : Word) :
    (takeException e link s).draws = s.draws := rfl

@[simp] theorem takeException_ioLog (s : State) (e : ExceptionKind) (link : Word) :
    (takeException e link s).ioLog = s.ioLog := rfl

@[simp] theorem takeException_coprocs (s : State) (e : ExceptionKind) (link : Word) :
    (takeException e link s).coprocs = s.coprocs := rfl

@[simp] theorem takeException_platform (s : State) (e : ExceptionKind) (link : Word) :
    (takeException e link s).platform = s.platform := rfl

/-! ## The hazard flag cleared -/

@[simp] theorem clearHazard_regs (s : State) :
    (clearHazard s).regs = s.regs := rfl

@[simp] theorem clearHazard_pc (s : State) :
    (clearHazard s).pc = s.pc := rfl

@[simp] theorem clearHazard_cpsr (s : State) :
    (clearHazard s).cpsr = s.cpsr := rfl

@[simp] theorem clearHazard_spsr (s : State) :
    (clearHazard s).spsr = s.spsr := rfl

@[simp] theorem clearHazard_mem (s : State) :
    (clearHazard s).mem = s.mem := rfl

@[simp] theorem clearHazard_written (s : State) :
    (clearHazard s).written = s.written := rfl

@[simp] theorem clearHazard_privDropPending (s : State) :
    (clearHazard s).privDropPending = s.privDropPending := rfl

@[simp] theorem clearHazard_userBankHazard (s : State) :
    (clearHazard s).userBankHazard = false := rfl

@[simp] theorem clearHazard_resetHeld (s : State) :
    (clearHazard s).resetHeld = s.resetHeld := rfl

@[simp] theorem clearHazard_inputs (s : State) :
    (clearHazard s).inputs = s.inputs := rfl

@[simp] theorem clearHazard_draws (s : State) :
    (clearHazard s).draws = s.draws := rfl

@[simp] theorem clearHazard_ioLog (s : State) :
    (clearHazard s).ioLog = s.ioLog := rfl

@[simp] theorem clearHazard_coprocs (s : State) :
    (clearHazard s).coprocs = s.coprocs := rfl

@[simp] theorem clearHazard_platform (s : State) :
    (clearHazard s).platform = s.platform := rfl

/-! ## The inputs of a boundary taken -/

@[simp] theorem takeInputs_regs (s : State) :
    (takeInputs s).regs = s.regs := by
  unfold takeInputs; split <;> simp_all

@[simp] theorem takeInputs_pc (s : State) :
    (takeInputs s).pc = s.pc := by
  unfold takeInputs; split <;> simp_all

@[simp] theorem takeInputs_cpsr (s : State) :
    (takeInputs s).cpsr = s.cpsr := by
  unfold takeInputs; split <;> simp_all

@[simp] theorem takeInputs_spsr (s : State) :
    (takeInputs s).spsr = s.spsr := by
  unfold takeInputs; split <;> simp_all

@[simp] theorem takeInputs_mem (s : State) :
    (takeInputs s).mem = s.mem := by
  unfold takeInputs; split <;> simp_all

@[simp] theorem takeInputs_written (s : State) :
    (takeInputs s).written = if (currentInputs s).imb then [] else s.written := by
  unfold takeInputs; split <;> simp_all

@[simp] theorem takeInputs_privDropPending (s : State) :
    (takeInputs s).privDropPending = if (currentInputs s).imb then false else s.privDropPending := by
  unfold takeInputs; split <;> simp_all

@[simp] theorem takeInputs_userBankHazard (s : State) :
    (takeInputs s).userBankHazard = s.userBankHazard := by
  unfold takeInputs; split <;> simp_all

@[simp] theorem takeInputs_resetHeld (s : State) :
    (takeInputs s).resetHeld = s.resetHeld := by
  unfold takeInputs; split <;> simp_all

@[simp] theorem takeInputs_inputs (s : State) :
    (takeInputs s).inputs = s.inputs.tail := by
  unfold takeInputs; split <;> simp_all

@[simp] theorem takeInputs_draws (s : State) :
    (takeInputs s).draws = s.draws := by
  unfold takeInputs; split <;> simp_all

@[simp] theorem takeInputs_ioLog (s : State) :
    (takeInputs s).ioLog = s.ioLog := by
  unfold takeInputs; split <;> simp_all

@[simp] theorem takeInputs_coprocs (s : State) :
    (takeInputs s).coprocs = s.coprocs := by
  unfold takeInputs; split <;> simp_all

@[simp] theorem takeInputs_platform (s : State) :
    (takeInputs s).platform = s.platform := by
  unfold takeInputs; split <;> simp_all

/-! ## Physical registers -/

theorem PhysReg.index_inj {a b : PhysReg} (h : a.index = b.index) : a = b := by
  have hb : ∀ x y : Bank, x.index.val = y.index.val → x = y := fun x y e => by
    cases x <;> cases y <;> first | rfl | exact absurd e (by decide)
  have hv := congrArg Fin.val h
  rcases a with n | ⟨_ | _, n⟩ | x | x <;> rcases b with k | ⟨_ | _, k⟩ | y | y <;>
    simp only [PhysReg.index] at hv <;>
    first
      | omega
      | (congr 1; omega)
      | (rw [hb x y (by omega)])

/-- A physical register after one is written. -/
theorem phys_setPhys (s : State) (r q : PhysReg) (v : Word) :
    (s.setPhys r v).phys q = if q = r then v else s.phys q := by
  unfold State.phys State.setPhys
  by_cases h : q = r
  · subst h; simp
  · have : r.index.val ≠ q.index.val := fun e => h (PhysReg.index_inj (Fin.ext e.symm))
    simp [this, h]

@[simp] theorem phys_setPhys_same (s : State) (r : PhysReg) (v : Word) : (s.setPhys r v).phys r = v := by
  simp [phys_setPhys]

end Sys2Proof.Machine
end

