-- ==== Sys2Proof/Laws/Flags.lean ====
section
/-! SUPPORT. The status register read field by field after each of its updates. -/

namespace Sys2Proof.Machine

/-! ## N, Z, C and V written -/

/-- Every bit of a PSR after N, Z, C, V are replaced. -/
theorem bit_setNZCV (p : Word) (n z c v : Bool) (k : Nat) :
    bit (setNZCV p n z c v) k =
      if k < 28 then bit p k
      else if k = 28 then v else if k = 29 then c else if k = 30 then z else if k = 31 then n else false := by
  refine (BitVec.getLsbD_append (x := BitVec.ofBool n ++ BitVec.ofBool z ++ BitVec.ofBool c ++ BitVec.ofBool v)
    (y := bits p 0 28) (i := k)).trans ?_
  by_cases h : k < 28
  · simp [h, bits, bit]
  · obtain ⟨j, rfl⟩ : ∃ j, k = 28 + j := ⟨k - 28, by omega⟩
    rcases j with _ | _ | _ | _ | j <;> simp only [BitVec.getLsbD_append]
    · simp
    · simp
    · simp
    · simp
    · simp [show 28 + (j + 1 + 1 + 1 + 1) ≠ 29 by omega, show 28 + (j + 1 + 1 + 1 + 1) ≠ 30 by omega,
        show 28 + (j + 1 + 1 + 1 + 1) ≠ 31 by omega]

@[simp] theorem flagN_setNZCV (p : Word) (n z c v : Bool) : flagN (setNZCV p n z c v) = n := by
  simp [flagN, bit_setNZCV]

@[simp] theorem flagZ_setNZCV (p : Word) (n z c v : Bool) : flagZ (setNZCV p n z c v) = z := by
  simp [flagZ, bit_setNZCV]

@[simp] theorem flagC_setNZCV (p : Word) (n z c v : Bool) : flagC (setNZCV p n z c v) = c := by
  simp [flagC, bit_setNZCV]

@[simp] theorem flagV_setNZCV (p : Word) (n z c v : Bool) : flagV (setNZCV p n z c v) = v := by
  simp [flagV, bit_setNZCV]

theorem bits_ext {p q : Word} (lo len : Nat) (h : ∀ k, lo ≤ k → k < lo + len → bit p k = bit q k) :
    bits p lo len = bits q lo len := by
  ext i hi
  simpa [bits, bit, BitVec.getElem_extractLsb'] using h (lo + i) (by omega) (by omega)

/-- The other 28 bits are as they were (R264). -/
@[simp] theorem bits_setNZCV (p : Word) (n z c v : Bool) : bits (setNZCV p n z c v) 0 28 = bits p 0 28 :=
  bits_ext 0 28 fun k _ hk => by simp [bit_setNZCV, show k < 28 by omega]

/-- What the low 28 bits give: T, I, F, the mode and the reserved bits. -/
theorem bits_of_low {p q : Word} (h : bits p 0 28 = bits q 0 28) (lo len : Nat) (hl : lo + len ≤ 28) :
    bits p lo len = bits q lo len := by
  ext i hi
  have := congrArg (fun x => x.getLsbD (lo + i)) h
  simp only [bits, BitVec.getLsbD_extractLsb', Nat.zero_add, show lo + i < 28 by omega, decide_true,
    Bool.true_and] at this
  simp [bits, BitVec.getElem_extractLsb', this]

theorem bit_of_low {p q : Word} (h : bits p 0 28 = bits q 0 28) (k : Nat) (hk : k < 28) : bit p k = bit q k := by
  have := congrArg (fun x => x.getLsbD k) h
  simpa [bits, bit, BitVec.getLsbD_extractLsb', hk] using this

theorem modeBits_of_low {p q : Word} (h : bits p 0 28 = bits q 0 28) : modeBits p = modeBits q :=
  bits_of_low h 0 5 (by omega)

theorem reservedBits_of_low {p q : Word} (h : bits p 0 28 = bits q 0 28) : reservedBits p = reservedBits q :=
  bits_of_low h 8 20 (by omega)

theorem flagT_of_low {p q : Word} (h : bits p 0 28 = bits q 0 28) : flagT p = flagT q := bit_of_low h 5 (by omega)

@[simp] theorem modeBits_setNZCV (p : Word) (n z c v : Bool) : modeBits (setNZCV p n z c v) = modeBits p :=
  modeBits_of_low (bits_setNZCV p n z c v)

/-! ## T written -/

@[simp] theorem bit_setT (p : Word) (t : Bool) (k : Nat) : bit (setT p t) k = if k = 5 then t else bit p k := by
  refine (BitVec.getLsbD_append (x := bits p 6 26 ++ BitVec.ofBool t) (y := bits p 0 5) (i := k)).trans ?_
  by_cases h : k < 5
  · simp [h, bits, bit, show k ≠ 5 by omega]
  · obtain ⟨j, rfl⟩ : ∃ j, k = 5 + j := ⟨k - 5, by omega⟩
    rcases j with _ | j
    · simp only [BitVec.getLsbD_append]; simp
    · simp only [h, if_false, BitVec.getLsbD_append, bits, bit, BitVec.getLsbD_extractLsb',
        show ¬ 5 + (j + 1) - 5 < 1 by omega, show 5 + (j + 1) - 5 - 1 = j by omega,
        show 6 + j = 5 + (j + 1) by omega, show 5 + (j + 1) ≠ 5 by omega]
      by_cases hj : j < 26
      · simp [hj]
      · simp [hj, BitVec.getLsbD_of_ge p (5 + (j + 1)) (by omega)]

@[simp] theorem modeBits_setT (p : Word) (t : Bool) : modeBits (setT p t) = modeBits p :=
  bits_ext 0 5 fun k _ hk => by simp [show k ≠ 5 by omega]

@[simp] theorem reservedBits_setT (p : Word) (t : Bool) : reservedBits (setT p t) = reservedBits p :=
  bits_ext 8 20 fun k hk _ => by simp [show k ≠ 5 by omega]

@[simp] theorem flagT_setT (p : Word) (t : Bool) : flagT (setT p t) = t := by simp [flagT]

/-! ## Exception entry -/

/-- Every bit of the CPSR after an entry. -/
theorem bit_entryCpsr (e : ExceptionKind) (p : Word) (k : Nat) :
    bit (entryCpsr e p) k =
      if k < 5 then e.mode.bits.getLsbD k
      else if k = 5 then false else if k = 6 then e.setsF || flagF p else if k = 7 then true else bit p k := by
  refine (BitVec.getLsbD_append (x := bits p 8 24 ++ 1#1 ++ BitVec.ofBool (e.setsF || flagF p) ++ 0#1)
    (y := e.mode.bits) (i := k)).trans ?_
  by_cases h : k < 5
  · simp [h]
  · obtain ⟨j, rfl⟩ : ∃ j, k = 5 + j := ⟨k - 5, by omega⟩
    rcases j with _ | _ | _ | j
    · simp only [BitVec.getLsbD_append]; simp
    · simp only [BitVec.getLsbD_append]; simp
    · simp only [BitVec.getLsbD_append]; simp
    · simp only [h, if_false, BitVec.getLsbD_append, bits, bit, BitVec.getLsbD_extractLsb',
        show ¬ 5 + (j + 1 + 1 + 1) - 5 < 1 by omega, show 5 + (j + 1 + 1 + 1) - 5 - 1 - 1 - 1 = j by omega,
        show ¬ 5 + (j + 1 + 1 + 1) - 5 - 1 < 1 by omega, show ¬ 5 + (j + 1 + 1 + 1) - 5 - 1 - 1 < 1 by omega,
        show 8 + j = 5 + (j + 1 + 1 + 1) by omega, show 5 + (j + 1 + 1 + 1) ≠ 5 by omega,
        show 5 + (j + 1 + 1 + 1) ≠ 6 by omega, show 5 + (j + 1 + 1 + 1) ≠ 7 by omega]
      by_cases hj : j < 24
      · simp [hj]
      · simp [hj, BitVec.getLsbD_of_ge p (5 + (j + 1 + 1 + 1)) (by omega)]

@[simp] theorem modeBits_entryCpsr (e : ExceptionKind) (p : Word) : modeBits (entryCpsr e p) = e.mode.bits := by
  ext i hi
  have := bit_entryCpsr e p i
  simpa [modeBits, bits, bit, BitVec.getElem_extractLsb', hi] using this

@[simp] theorem flagT_entryCpsr (e : ExceptionKind) (p : Word) : flagT (entryCpsr e p) = false := by
  simp [flagT, bit_entryCpsr]

@[simp] theorem flagF_entryCpsr (e : ExceptionKind) (p : Word) : flagF (entryCpsr e p) = (e.setsF || flagF p) := by
  simp [flagF, bit_entryCpsr]

@[simp] theorem flagI_entryCpsr (e : ExceptionKind) (p : Word) : flagI (entryCpsr e p) = true := by
  simp [flagI, bit_entryCpsr]

/-- Entry keeps bits 31:8 (R562). -/
@[simp] theorem bits_entryCpsr (e : ExceptionKind) (p : Word) : bits (entryCpsr e p) 8 24 = bits p 8 24 :=
  bits_ext 8 24 fun k hk _ => by
    simp [bit_entryCpsr, show ¬ k < 5 by omega, show k ≠ 5 by omega, show k ≠ 6 by omega, show k ≠ 7 by omega]

@[simp] theorem reservedBits_entryCpsr (e : ExceptionKind) (p : Word) :
    reservedBits (entryCpsr e p) = reservedBits p :=
  bits_ext 8 20 fun k hk _ => by
    simp [bit_entryCpsr, show ¬ k < 5 by omega, show k ≠ 5 by omega, show k ≠ 6 by omega, show k ≠ 7 by omega]

/-! ## The value of a word and its bits -/

theorem bit_31_eq (v : Word) : bit v 31 = decide (v.toInt < 0) := by
  simp [bit, ← BitVec.msb_eq_toInt, BitVec.msb_eq_getLsbD_last]

@[simp] theorem nzcv_setNZCV (p : Word) (n z c v : Bool) : nzcv (setNZCV p n z c v) = (n, z, c, v) := by simp [nzcv]

end Sys2Proof.Machine
end

