-- ==== Sys2Proof/Laws/Memory.lean ====
section
/-! SUPPORT. Memory as a list in canonical form: every operation keeps the form, and a byte read after a write is the
byte written, or the byte that was there. -/

namespace Sys2Proof.Machine

/-! ## The canonical form -/

theorem Memory.above_write {lo a : Nat} {b : Byte} {m : List Host.Cell} (h : Memory.above lo m = true) (ha : lo < a) :
    Memory.above lo (Memory.write m a b) = true := by
  induction m with
  | nil => simp only [Memory.write]; split <;> simp [Memory.above, ha]
  | cons cell rest ih =>
    obtain ⟨k, c⟩ := cell
    have hc : Memory.above lo ((k, c) :: rest) = true := h
    simp only [Memory.above, List.all_cons, Bool.and_eq_true, decide_eq_true_eq] at h
    have step : ∀ (x : Nat) (y : Byte) (l : List Host.Cell), lo < x → Memory.above lo l = true →
        Memory.above lo ((x, y) :: l) = true := fun x y l hx hl => by
      simp only [Memory.above, List.all_cons, Bool.and_eq_true, decide_eq_true_eq]; exact ⟨hx, hl⟩
    simp only [Memory.write]
    split
    · split
      · exact hc
      · exact step _ _ _ ha hc
    · split
      · split
        · exact h.2
        · exact step _ _ _ ha h.2
      · exact step _ _ _ h.1 (ih h.2)

/-- A byte written inside the address space keeps the canonical form. -/
theorem Memory.wf_write {m : List Host.Cell} (a : Nat) (b : Byte) (h : Memory.wf m = true) (ha : a < 2 ^ 32) :
    Memory.wf (Memory.write m a b) = true := by
  induction m with
  | nil => simp only [Memory.write]; split <;> simp_all [Memory.wf, Memory.above]
  | cons cell rest ih =>
    obtain ⟨k, c⟩ := cell
    simp only [Memory.wf, Bool.and_eq_true, decide_eq_true_eq] at h
    obtain ⟨⟨⟨hab, hc⟩, hk⟩, hr⟩ := h
    have rise : ∀ x, x ≤ k → Memory.above x rest = true := fun x hx => by
      simp only [Memory.above, List.all_eq_true, decide_eq_true_eq] at hab ⊢
      intro cell hcell; have := hab cell hcell; omega
    simp only [Memory.write]
    split
    · split
      · simp_all [Memory.wf]
      · have hr' := rise a (by omega)
        simp only [Memory.wf, Memory.above, List.all_cons, Bool.and_eq_true, decide_eq_true_eq, bne_iff_ne]
        simp only [Memory.above] at hr' hab
        exact ⟨⟨⟨⟨by assumption, hr'⟩, by assumption⟩, ha⟩, ⟨⟨hab, by simpa using hc⟩, hk⟩, hr⟩
    · split
      · subst a
        split
        · exact hr
        · simp_all [Memory.wf]
      · have := Memory.above_write (b := b) hab (show k < a by omega)
        simp_all [Memory.wf]

theorem Memory.wf_foldl {big : Bool} {size : Size} {v : Word} {a : Nat} (l : List Nat) {m : List Host.Cell}
    (h : Memory.wf m = true) (hl : ∀ k ∈ l, a + k < 2 ^ 32) :
    Memory.wf (l.foldl (fun m k => Memory.write m (a + k) (storedByte big size v k)) m) = true := by
  induction l generalizing m with
  | nil => exact h
  | cons k rest ih =>
    exact ih (Memory.wf_write _ _ h (hl k (by simp))) fun j hj => hl j (by simp [hj])

theorem alignTo_end (size : Size) (a : Word) : (alignTo size a).toNat + sizeBytes size ≤ 2 ^ 32 := by
  have h := a.isLt
  cases size <;> simp only [alignTo, sizeBytes]
  · omega
  · have : (a &&& 0xFFFFFFFE).toNat ≤ 0xFFFFFFFE := Nat.and_le_right
    omega
  · have : (a &&& 0xFFFFFFFC).toNat ≤ 0xFFFFFFFC := Nat.and_le_right
    omega

/-- A store to normal memory keeps the canonical form. -/
theorem Memory.wf_writeSized (big : Bool) (size : Size) (v a : Word) {m : List Host.Cell} (h : Memory.wf m = true) :
    Memory.wf (Memory.writeSized big size v m (alignTo size a).toNat) = true := by
  refine Memory.wf_foldl _ h fun k hk => ?_
  have := alignTo_end size a
  simp only [List.mem_range] at hk
  omega

theorem memWrite_keeps_wf (s : State) (size : Size) (a v : Word) (h : Memory.wf s.mem = true) :
    Memory.wf (s.memWrite size a v).mem = true := Memory.wf_writeSized _ _ _ _ h

theorem store_keeps_wf (s : State) (size : Size) (a v : Word) (h : Memory.wf s.mem = true) :
    Memory.wf (s.store size a v).mem = true := by
  unfold State.store; split
  · exact h
  · exact memWrite_keeps_wf _ _ _ _ h

theorem reset_memory_wf : Memory.wf State.reset.mem = true := rfl

/-! ## Read after write -/

theorem Memory.read_eq_unlisted {m : List Host.Cell} {lo a : Nat} (h : Memory.above lo m = true) (ha : a ≤ lo) :
    Memory.read m a = Memory.unlisted := by
  induction m with
  | nil => rfl
  | cons cell rest ih =>
    obtain ⟨k, c⟩ := cell
    simp only [Memory.above, List.all_cons, Bool.and_eq_true, decide_eq_true_eq] at h ih
    have : k ≠ a := by omega
    simp [Memory.read, this, ih h.2]

/-- A byte read after a byte is written, in canonical memory. -/
theorem Memory.read_write {m : List Host.Cell} (a x : Nat) (b : Byte) (h : Memory.wf m = true) :
    Memory.read (Memory.write m a b) x = if x = a then b else Memory.read m x := by
  induction m with
  | nil =>
    simp only [Memory.write]
    split
    · next hb => subst hb; simp [Memory.read]
    · by_cases hx : x = a
      · subst hx; simp [Memory.read]
      · have hx' : a ≠ x := fun e => hx e.symm
        simp [Memory.read, hx, hx']
  | cons cell rest ih =>
    obtain ⟨k, c⟩ := cell
    simp only [Memory.wf, Bool.and_eq_true, decide_eq_true_eq] at h
    obtain ⟨⟨⟨hab, hc⟩, hk⟩, hr⟩ := h
    simp only [Memory.write]
    by_cases hlt : a < k
    · rw [if_pos hlt]
      by_cases hb : b = Memory.unlisted
      · rw [if_pos hb]
        by_cases hx : x = a
        · subst hx
          have hx' : k ≠ x := by omega
          rw [if_pos rfl, hb]
          simp [Memory.read, hx', Memory.read_eq_unlisted hab (show x ≤ k by omega)]
        · rw [if_neg hx]
      · rw [if_neg hb]
        by_cases hx : x = a
        · subst hx; simp [Memory.read]
        · have hx' : a ≠ x := fun e => hx e.symm
          simp [Memory.read, hx, hx']
    · rw [if_neg hlt]
      by_cases hak : a = k
      · subst hak
        rw [if_pos rfl]
        by_cases hb : b = Memory.unlisted
        · rw [if_pos hb]
          by_cases hx : x = a
          · subst hx; rw [if_pos rfl, hb, Memory.read_eq_unlisted hab (Nat.le_refl _)]
          · have hx' : a ≠ x := fun e => hx e.symm
            rw [if_neg hx]; simp [Memory.read, hx']
        · rw [if_neg hb]
          by_cases hx : x = a
          · subst hx; simp [Memory.read]
          · have hx' : a ≠ x := fun e => hx e.symm
            rw [if_neg hx]; simp [Memory.read, hx']
      · rw [if_neg hak]
        simp only [Memory.read, ih hr]
        by_cases hx : k = x
        · have : ¬ x = a := by omega
          simp [hx, this]
        · simp [hx]

/-- The same byte: what was written. -/
theorem Memory.read_write_same {m : List Host.Cell} (a : Nat) (b : Byte) (h : Memory.wf m = true) :
    Memory.read (Memory.write m a b) a = b := by simp [Memory.read_write a a b h]

/-- Another byte: what was there. No canonical form is needed for it. -/
theorem Memory.read_write_other (m : List Host.Cell) (a x : Nat) (b : Byte) (hx : x ≠ a) :
    Memory.read (Memory.write m a b) x = Memory.read m x := by
  have hx' : a ≠ x := fun e => hx e.symm
  induction m with
  | nil => simp only [Memory.write]; split <;> simp [Memory.read, hx']
  | cons cell rest ih =>
    obtain ⟨k, c⟩ := cell
    simp only [Memory.write]
    split
    · split
      · rfl
      · simp [Memory.read, hx']
    · split
      · next hak =>
        subst hak
        split <;> simp [Memory.read, hx']
      · simp only [Memory.read, ih]

/-- A sized write leaves every byte outside its bytes as it was. -/
theorem Memory.read_writeSized_other (big : Bool) (size : Size) (v : Word) (m : List Host.Cell) (a x : Nat)
    (hx : x < a ∨ a + sizeBytes size ≤ x) : Memory.read (Memory.writeSized big size v m a) x = Memory.read m x := by
  have go : ∀ (l : List Nat) (m : List Host.Cell), (∀ k ∈ l, a + k ≠ x) →
      Memory.read (l.foldl (fun m k => Memory.write m (a + k) (storedByte big size v k)) m) x = Memory.read m x := by
    intro l
    induction l with
    | nil => intro m _; rfl
    | cons k rest ih =>
      intro m hl
      rw [List.foldl_cons, ih _ fun j hj => hl j (by simp [hj]),
        Memory.read_write_other _ _ _ _ fun e => hl k (by simp) e.symm]
  refine go _ m fun k hk => ?_
  simp only [List.mem_range] at hk
  omega

/-! ## The set `W` -/

theorem addrsFrom_weaken {lo lo' : Nat} (hl : lo' ≤ lo) : ∀ {l : List Nat}, addrsFrom lo l = true → addrsFrom lo' l = true
  | [], _ => rfl
  | a :: rest, h => by
    simp only [addrsFrom, Bool.and_eq_true, decide_eq_true_eq] at h ⊢
    exact ⟨⟨by omega, h.1.2⟩, h.2⟩

/-- An address entered in `W` keeps its form. -/
theorem addrsFrom_insertAddr {a : Nat} (ha : a < 2 ^ 32) : ∀ {l : List Nat} {lo : Nat}, addrsFrom lo l = true → lo ≤ a →
    addrsFrom lo (insertAddr a l) = true
  | [], lo, _, hl => by
    simp only [insertAddr, addrsFrom, Bool.and_eq_true, decide_eq_true_eq]
    exact ⟨⟨hl, ha⟩, trivial⟩
  | k :: rest, lo, h, hl => by
    simp only [addrsFrom, Bool.and_eq_true, decide_eq_true_eq] at h
    simp only [insertAddr]
    split
    · simp only [addrsFrom, Bool.and_eq_true, decide_eq_true_eq]
      exact ⟨⟨hl, ha⟩, ⟨by omega, h.1.2⟩, h.2⟩
    · split
      · simp only [addrsFrom, Bool.and_eq_true, decide_eq_true_eq]
        exact ⟨⟨by omega, by omega⟩, h.2⟩
      · have := addrsFrom_insertAddr ha h.2 (show k + 1 ≤ a by omega)
        simp only [addrsFrom, Bool.and_eq_true, decide_eq_true_eq]
        exact ⟨⟨by omega, h.1.2⟩, this⟩

theorem mem_insertAddr (a x : Nat) : ∀ l : List Nat, x ∈ insertAddr a l ↔ x = a ∨ x ∈ l
  | [] => by simp [insertAddr]
  | k :: rest => by
    simp only [insertAddr]
    split
    · simp
    · split
      · next h => subst h; simp
      · simp only [List.mem_cons, mem_insertAddr a x rest]; tauto

theorem addrsFrom_foldl {a : Nat} (l : List Nat) {w : List Nat} (h : addrsFrom 0 w = true)
    (hl : ∀ k ∈ l, a + k < 2 ^ 32) : addrsFrom 0 (l.foldl (fun w k => insertAddr (a + k) w) w) = true := by
  induction l generalizing w with
  | nil => exact h
  | cons k rest ih =>
    exact ih (addrsFrom_insertAddr (hl k (by simp)) h (Nat.zero_le _)) fun j hj => hl j (by simp [hj])

/-- A store to normal memory keeps the form of `W`. -/
theorem memWrite_keeps_written (s : State) (size : Size) (a v : Word) (h : addrsFrom 0 s.written = true) :
    addrsFrom 0 (s.memWrite size a v).written = true := by
  refine addrsFrom_foldl _ h fun k hk => ?_
  have := alignTo_end size a
  simp only [List.mem_range] at hk
  omega

theorem store_keeps_written (s : State) (size : Size) (a v : Word) (h : addrsFrom 0 s.written = true) :
    addrsFrom 0 (s.store size a v).written = true := by
  unfold State.store; split
  · exact h
  · exact memWrite_keeps_written _ _ _ _ h

end Sys2Proof.Machine
end

