-- ==== Sys2Proof/Laws/Ops.lean ====
section
/-! SUPPORT. For each shared operation, everything it can do when it answers a next state: what later proofs cite
instead of unfolding it. -/

namespace Sys2Proof.Machine

/-! ## Registers by name -/

/-- Names 0 to 14 denote a physical register in every mode; name 15 denotes none. -/
theorem physReg_eq_none (m : BitVec 5) (n : RegNum) : physReg m n = none ↔ n = 15 := by
  unfold physReg
  have h15 : n = 15 ↔ n.toNat = 15 := ⟨fun h => by subst h; rfl, fun h => BitVec.eq_of_toNat_eq h⟩
  have h14 : n = 14 ↔ n.toNat = 14 := ⟨fun h => by subst h; rfl, fun h => BitVec.eq_of_toNat_eq h⟩
  have h13 : n = 13 ↔ n.toNat = 13 := ⟨fun h => by subst h; rfl, fun h => BitVec.eq_of_toNat_eq h⟩
  have := n.isLt
  split <;> [skip; split <;> [skip; split <;> [skip; split]]] <;> simp_all <;> omega

theorem physReg_isSome {m : BitVec 5} {n : RegNum} (h : n ≠ 15) : ∃ r, physReg m n = some r :=
  Option.ne_none_iff_exists'.mp fun e => h ((physReg_eq_none m n).mp e)

/-- A register read by the name it was written under. -/
theorem readRegIn_writeRegIn_same (s : State) (m : BitVec 5) (n : RegNum) (v : Word) (h : n ≠ 15) :
    (s.writeRegIn m n v).readRegIn m n = v := by
  obtain ⟨r, hr⟩ := physReg_isSome (m := m) h
  simp [State.readRegIn, State.writeRegIn, hr]

/-- A physical register after a register is written by name. -/
theorem phys_writeRegIn (s : State) (m : BitVec 5) (n : RegNum) (v : Word) (q : PhysReg) :
    (s.writeRegIn m n v).phys q = if physReg m n = some q then v else s.phys q := by
  unfold State.writeRegIn
  cases h : physReg m n with
  | none => simp
  | some r => simp [phys_setPhys, eq_comm]

theorem writeRegIn_fifteen (s : State) (m : BitVec 5) (v : Word) : s.writeRegIn m 15 v = s := by
  unfold State.writeRegIn; rw [(physReg_eq_none m 15).mpr rfl]

theorem readRegIn_fifteen (s : State) (m : BitVec 5) : s.readRegIn m 15 = s.pc + 8 := by
  unfold State.readRegIn; rw [(physReg_eq_none m 15).mpr rfl]

/-! ## The program counter -/

/-- All that `advance` can do. -/
theorem advance_next {s t : State} : advance s = .next t ↔ s.pc ≠ 0xFFFFFFFC ∧ t = { s with pc := s.pc + 4 } := by
  unfold advance; split <;> simp_all [eq_comm]

theorem advance_of_ne {s : State} (h : s.pc ≠ 0xFFFFFFFC) : advance s = .next { s with pc := s.pc + 4 } :=
  advance_next.mpr ⟨h, rfl⟩

theorem advance_not_refused {s : State} {r : Refusal} : advance s ≠ .refused r := by
  unfold advance; split <;> simp

/-- All that `interwork` can do. -/
theorem interwork_next {a : Word} {s t : State} :
    interwork a s = .next t ↔
      bits a 0 2 ≠ 0b10 ∧ t = { s with cpsr := setT s.cpsr (bit a 0) }.jump (a &&& 0xFFFFFFFE) := by
  unfold interwork; split <;> simp_all [eq_comm]

/-! ## Exceptions -/

/-- All that `checkedSpsr` can answer. -/
theorem checkedSpsr_next {s : State} {w : Word} :
    checkedSpsr s = .next w ↔
      ∃ e, s.currentExc = some e ∧ w = s.spsr.get e ∧ reservedBits w = 0 ∧ legalMode (modeBits w) = true := by
  unfold checkedSpsr
  cases s.currentExc with
  | none => simp
  | some e =>
    simp only [Option.some.injEq]
    split
    · next h =>
      simp only [reduceCtorEq, false_iff, not_exists, not_and]
      rintro _ rfl rfl hz; exact absurd hz h
    · split
      · next h =>
        simp only [reduceCtorEq, false_iff, not_exists, not_and]
        rintro _ rfl rfl _ hl; simp [hl] at h
      · next h h' =>
        simp only [Host.Outcome.next.injEq]
        constructor
        · rintro rfl; exact ⟨e, rfl, rfl, by simpa using h, by simpa using h'⟩
        · rintro ⟨_, rfl, rfl, _⟩; rfl

/-- All that an exception return can do. -/
theorem returnFromException_next {bad : Option Fault} {mask v : Word} {s t : State} :
    returnFromException bad mask v s = .next t ↔
      ∃ new, checkedSpsr s = .next new ∧
        ((flagT new = true ∧ t = { s with cpsr := new }.jump (v &&& 0xFFFFFFFE)) ∨
          (flagT new = false ∧ bad = none ∧ t = { s with cpsr := new }.jump (v &&& mask))) := by
  unfold returnFromException
  cases checkedSpsr s with
  | fault f => simp
  | refused r => simp
  | next new =>
    simp only [Host.Outcome.next.injEq, exists_eq_left']
    cases hT : flagT new <;> cases bad <;> simp [eq_comm]

/-! ## The frame of an instruction -/

/-- All that an unconditional instruction can do: its body, unless its encoding is UNPREDICTABLE. -/
theorem always_next {i : Instr} {body : State → Result} {s t : State} :
    always i body s = .next t ↔ i.unpredictable = none ∧ body s = .next t := by
  unfold always encodingFault; cases i.unpredictable <;> simp

/-- All that a conditional instruction can do: a NOP, or its body, unless its encoding is UNPREDICTABLE. -/
theorem conditional_next {i : Instr} {c : Cond} {body : State → Result} {s t : State} :
    conditional i c body s = .next t ↔
      i.unpredictable = none ∧
        ((conditionPassed c s.cpsr = true ∧ body s = .next t) ∨
          (conditionPassed c s.cpsr = false ∧ advance s = .next t)) := by
  unfold conditional encodingFault
  cases i.unpredictable <;> simp
  cases conditionPassed c s.cpsr <;> simp

theorem conditional_passed {i : Instr} {c : Cond} {body : State → Result} {s : State} (hi : i.unpredictable = none)
    (hc : conditionPassed c s.cpsr = true) : conditional i c body s = body s := by
  simp [conditional, encodingFault, hi, hc]

theorem conditional_failed {i : Instr} {c : Cond} {body : State → Result} {s : State} (hi : i.unpredictable = none)
    (hc : conditionPassed c s.cpsr = false) : conditional i c body s = advance s := by
  simp [conditional, encodingFault, hi, hc]

theorem always_runs {i : Instr} {body : State → Result} {s : State} (hi : i.unpredictable = none) :
    always i body s = body s := by
  simp [always, encodingFault, hi]

/-! ## Data processing and branches -/

/-- All that the write of a data-processing result can do. -/
theorem writeResult_next {setFlags : Bool} {rd : RegNum} {v psr : Word} {s t : State} :
    writeResult setFlags rd v psr s = .next t ↔
      (rd = 15 ∧ setFlags = true ∧
        returnFromException (if bits v 0 2 = 0 then none else some .misalignedPc) 0xFFFFFFFF v s = .next t) ∨
      (rd = 15 ∧ setFlags = false ∧ bits v 0 2 = 0 ∧ t = s.jump v) ∨
      (rd ≠ 15 ∧ s.pc ≠ 0xFFFFFFFC ∧
        t = { s.writeReg rd v with cpsr := if setFlags then psr else s.cpsr, pc := s.pc + 4 }) := by
  unfold writeResult
  by_cases hrd : rd = 15
  · rw [if_pos hrd]
    cases setFlags
    · by_cases hb : bits v 0 2 = 0
      · simp only [hrd, hb, if_true, Bool.false_eq_true, if_false, Host.Outcome.next.injEq]; tauto
      · simp only [hrd, hb, Bool.false_eq_true, if_false]; tauto
    · simp only [hrd, if_true]; tauto
  · rw [if_neg hrd, advance_next]
    simp only [hrd, false_and, false_or, not_false_eq_true, true_and, ne_eq, writeReg_pc]

/-- All that a branch can do. -/
theorem branchBy_next {immed : BitVec 24} {h : Bool} {before : State → State} {s t : State} :
    branchBy immed h before s = .next t ↔
      0 ≤ branchTarget s immed h ∧ branchTarget s immed h < 2 ^ 32 ∧
        t = { before s with pc := BitVec.ofInt 32 (branchTarget s immed h) } := by
  unfold branchBy
  split
  · next hh => simp; omega
  · next hh => simp only [Host.Outcome.next.injEq]; constructor
               · rintro rfl; exact ⟨by omega, by omega, rfl⟩
               · rintro ⟨-, -, rfl⟩; rfl

/-! ## Loads and stores -/

/-- All that a single load can do: a Data Abort from alignment or from the memory system, or the load and `finish`. -/
theorem loadWith_next {size : Size} {priv : Bool} {rn : RegNum} {ad : Addressing} {finish : Word → State → Result}
    {s t : State} :
    loadWith size priv rn ad finish s = .next t ↔
      (alignmentOf size ad.address s = .abort ∧ t = dataAbort s) ∨
      (alignmentOf size ad.address s = .proceed ∧ s.memAbort ad.address size .load priv = true ∧
        t = dataAbort (abortBase rn ad.newBase s)) ∨
      (alignmentOf size ad.address s = .proceed ∧ s.memAbort ad.address size .load priv = false ∧
        finish (s.load size ad.address).1 (writeBase rn ad.newBase (s.load size ad.address).2) = .next t) := by
  unfold loadWith
  cases alignmentOf size ad.address s <;> cases s.memAbort ad.address size .load priv <;> simp [eq_comm]

/-- All that a single store can do. -/
theorem storeWith_next {size : Size} {priv : Bool} {rn : RegNum} {ad : Addressing} {v : Word} {s t : State} :
    storeWith size priv rn ad v s = .next t ↔
      (alignmentOf size ad.address s = .abort ∧ t = dataAbort s) ∨
      (alignmentOf size ad.address s = .proceed ∧ s.memAbort ad.address size .store priv = true ∧
        t = dataAbort (abortBase rn ad.newBase s)) ∨
      (alignmentOf size ad.address s = .proceed ∧ s.memAbort ad.address size .store priv = false ∧
        advance (writeBase rn ad.newBase (s.store size ad.address v)) = .next t) := by
  unfold storeWith
  cases alignmentOf size ad.address s <;> cases s.memAbort ad.address size .store priv <;> simp [eq_comm]

/-- All that SWP and SWPB can do. -/
theorem exchange_next {size : Size} {rn rd rm : RegNum} {result : Word → Word → Word} {s t : State} :
    exchange size rn rd rm result s = .next t ↔
      (alignmentOf size (s.readReg rn) s = .abort ∧ t = dataAbort s) ∨
      (alignmentOf size (s.readReg rn) s = .proceed ∧
        s.memAbort (s.readReg rn) size .load (privileged s.cpsr) = true ∧ t = dataAbort s) ∨
      (alignmentOf size (s.readReg rn) s = .proceed ∧
        s.memAbort (s.readReg rn) size .load (privileged s.cpsr) = false ∧
        s.memAbort (s.readReg rn) size .store (privileged s.cpsr) = true ∧
        t = dataAbort (s.load size (s.readReg rn)).2) ∨
      (alignmentOf size (s.readReg rn) s = .proceed ∧
        s.memAbort (s.readReg rn) size .load (privileged s.cpsr) = false ∧
        s.memAbort (s.readReg rn) size .store (privileged s.cpsr) = false ∧
        advance (((s.load size (s.readReg rn)).2.store size (s.readReg rn) (s.readReg rm)).writeReg rd
          (result (s.readReg rn) (s.load size (s.readReg rn)).1)) = .next t) := by
  unfold exchange
  dsimp only
  cases alignmentOf size (s.readReg rn) s <;> cases s.memAbort (s.readReg rn) size .load (privileged s.cpsr) <;>
    cases s.memAbort (s.readReg rn) size .store (privileged s.cpsr) <;>
    simp only [Host.Outcome.next.injEq, reduceCtorEq, Bool.false_eq_true, if_true, if_false, true_and, false_and,
      false_or, or_false] <;> first | rfl | exact eq_comm

/-- All that an LDM can do: a Data Abort from alignment, a Data Abort from a word, or the words and `finish`. -/
theorem loadMultiple_next {m : BitVec 5} {mode : Mode4} {w : Bool} {rn : RegNum} {list : BitVec 16}
    {finish : List (RegNum × Word) → State → Result} {s t : State} :
    loadMultiple m mode w rn list finish s = .next t →
      t = dataAbort s ∨
      (∃ u nb, loadWords (privileged s.cpsr)
          (wordAddresses (mode4Start mode (s.readReg rn) (listed list).length) (listed list).length) s = .aborted u ∧
        t = abortLoadMultiple m rn nb (listed list) u) ∨
      (∃ words u nb, loadWords (privileged s.cpsr)
          (wordAddresses (mode4Start mode (s.readReg rn) (listed list).length) (listed list).length) s
            = .done words u ∧
        finish ((listed list).zip words) (writeBase rn nb u) = .next t) := by
  intro h
  unfold loadMultiple at h
  dsimp only at h
  split at h
  · cases h
  · split at h
    · cases h; exact .inl rfl
    · split at h
      · cases h
      · split at h
        · next hw => cases h; exact .inr (.inl ⟨_, _, hw, rfl⟩)
        · next hw => exact .inr (.inr ⟨_, _, _, hw, h⟩)

/-- All that an STM can do: a Data Abort from alignment, a Data Abort from a word, or the words stored. -/
theorem storeMultiple_next {m : BitVec 5} {mode : Mode4} {w : Bool} {rn : RegNum} {list : BitVec 16}
    {after : State → State} {s t : State} :
    storeMultiple m mode w rn list after s = .next t →
      t = dataAbort s ∨
      (∃ pairs u nb addrs, storeWords (privileged s.cpsr) pairs
          (if drawsBase w rn (listed list) then s.draw.2 else s) = .aborted u ∧
        t = dataAbort (abortBase rn nb (drawStored (privileged s.cpsr) addrs u))) ∨
      (∃ pairs u nb, storeWords (privileged s.cpsr) pairs
          (if drawsBase w rn (listed list) then s.draw.2 else s) = .done u ∧
        advance (after (writeBase rn nb u)) = .next t) := by
  intro h
  unfold storeMultiple at h
  dsimp only at h
  split at h
  · cases h
  · split at h
    · cases h; exact .inl rfl
    · split at h
      · cases h
      · split at h
        · next hw => cases h; exact .inr (.inl ⟨_, _, _, _, hw, rfl⟩)
        · next hw => exact .inr (.inr ⟨_, _, _, hw, h⟩)

/-- Loads change nothing but the log of device accesses, up to the abort included. -/
theorem loadWords_state {priv : Bool} : ∀ {addrs : List Word} {s t : State} {words : List Word},
    (loadWords priv addrs s = .done words t ∨ loadWords priv addrs s = .aborted t) →
      t = { s with ioLog := t.ioLog }
  | [], s, t, words, h => by
    simp only [loadWords, LoadedWords.done.injEq, reduceCtorEq, or_false] at h
    rw [← h.2]
  | a :: rest, s, t, words, h => by
    simp only [loadWords] at h
    split at h
    · simp only [reduceCtorEq, LoadedWords.aborted.injEq, false_or] at h; rw [← h]
    · have hs : (s.load .word a).2 = { s with ioLog := (s.load .word a).2.ioLog } := by
        unfold State.load; split <;> rfl
      split at h
      · next w' t' hw =>
        simp only [LoadedWords.done.injEq, reduceCtorEq, or_false] at h
        have := loadWords_state (.inl hw)
        rw [← h.2, this, hs]
      · next t' hw =>
        simp only [reduceCtorEq, LoadedWords.aborted.injEq, false_or] at h
        have := loadWords_state (words := []) (.inr hw)
        rw [← h, this, hs]

/-- A completed sequence of loads answers one word per address. -/
theorem loadWords_length {priv : Bool} : ∀ {addrs : List Word} {s t : State} {words : List Word},
    loadWords priv addrs s = .done words t → words.length = addrs.length
  | [], s, t, words, h => by
    simp only [loadWords, LoadedWords.done.injEq] at h
    rw [← h.1]
  | a :: rest, s, t, words, h => by
    simp only [loadWords] at h
    split at h
    · cases h
    · split at h
      · next hw => cases h; simp [loadWords_length hw]
      · cases h

/-- Stores change nothing but memory, the set `W` and the log of device accesses. -/
theorem storeWords_state {priv : Bool} : ∀ {pairs : List (Word × Word)} {s t : State},
    (storeWords priv pairs s = .done t ∨ storeWords priv pairs s = .aborted t) →
      t = { s with mem := t.mem, written := t.written, ioLog := t.ioLog }
  | [], s, t, h => by
    simp only [storeWords, StoredWords.done.injEq, reduceCtorEq, or_false] at h
    rw [← h]
  | (a, v) :: rest, s, t, h => by
    simp only [storeWords] at h
    split at h
    · simp only [reduceCtorEq, StoredWords.aborted.injEq, false_or] at h; rw [← h]
    · have hs : s.store .word a v =
          { s with mem := (s.store .word a v).mem, written := (s.store .word a v).written,
                   ioLog := (s.store .word a v).ioLog } := by
        unfold State.store; split <;> rfl
      have := storeWords_state h
      rw [this, hs]

/-- Stores keep the canonical forms of memory and of `W`. -/
theorem storeWords_forms {priv : Bool} : ∀ {pairs : List (Word × Word)} {s t : State},
    (storeWords priv pairs s = .done t ∨ storeWords priv pairs s = .aborted t) →
      Memory.wf s.mem = true → addrsFrom 0 s.written = true → Memory.wf t.mem = true ∧ addrsFrom 0 t.written = true
  | [], s, t, h, hm, hw => by
    simp only [storeWords, StoredWords.done.injEq, reduceCtorEq, or_false] at h
    rw [← h]; exact ⟨hm, hw⟩
  | (a, v) :: rest, s, t, h, hm, hw => by
    simp only [storeWords] at h
    split at h
    · simp only [reduceCtorEq, StoredWords.aborted.injEq, false_or] at h; rw [← h]; exact ⟨hm, hw⟩
    · exact storeWords_forms h (store_keeps_wf _ _ _ _ hm) (store_keeps_written _ _ _ _ hw)

/-- What an aborted sequence of stores draws changes nothing but memory, `W` and the draw counter. -/
theorem drawStored_state (priv : Bool) : ∀ (addrs : List Word) (s : State),
    drawStored priv addrs s =
      { s with mem := (drawStored priv addrs s).mem, written := (drawStored priv addrs s).written,
               draws := (drawStored priv addrs s).draws }
  | [], _ => rfl
  | a :: rest, s => by
    simp only [drawStored]
    split
    · exact drawStored_state priv rest s
    · rw [drawStored_state priv rest (drawWordAt a s)]; rfl

theorem drawWordAt_forms (a : Word) (s : State) (hm : Memory.wf s.mem = true) (hw : addrsFrom 0 s.written = true) :
    Memory.wf (drawWordAt a s).mem = true ∧ addrsFrom 0 (drawWordAt a s).written = true := by
  unfold drawWordAt
  generalize Config.freeByte (s.draws + 3) ++ Config.freeByte (s.draws + 2) ++ Config.freeByte (s.draws + 1) ++
    Config.freeByte s.draws = v
  exact ⟨memWrite_keeps_wf s .word a v hm, memWrite_keeps_written s .word a v hw⟩

theorem drawStored_forms (priv : Bool) : ∀ (addrs : List Word) (s : State),
    Memory.wf s.mem = true → addrsFrom 0 s.written = true →
      Memory.wf (drawStored priv addrs s).mem = true ∧ addrsFrom 0 (drawStored priv addrs s).written = true
  | [], _, hm, hw => ⟨hm, hw⟩
  | a :: rest, s, hm, hw => by
    simp only [drawStored]
    split
    · exact drawStored_forms priv rest s hm hw
    · have := drawWordAt_forms a s hm hw
      exact drawStored_forms priv rest _ this.1 this.2

/-- Registers written one after the other change nothing but registers. -/
theorem writeRegs_state (m : BitVec 5) : ∀ (pairs : List (RegNum × Word)) (s : State),
    writeRegs m pairs s = { s with regs := (writeRegs m pairs s).regs }
  | [], _ => rfl
  | (n, v) :: rest, s => by
    have hs : s.writeRegIn m n v = { s with regs := (s.writeRegIn m n v).regs } := by
      unfold State.writeRegIn; split <;> rfl
    simp only [writeRegs]
    rw [writeRegs_state m rest (s.writeRegIn m n v)]
    rw [hs]

/-- Registers drawn change nothing but registers and the draw counter. -/
theorem drawRegs_state (m : BitVec 5) : ∀ (regs : List RegNum) (s : State),
    drawRegs m regs s = { s with regs := (drawRegs m regs s).regs, draws := (drawRegs m regs s).draws }
  | [], _ => rfl
  | n :: rest, s => by
    have hs : s.draw.2.writeRegIn m n s.draw.1 =
        { s with regs := (s.draw.2.writeRegIn m n s.draw.1).regs, draws := s.draws + 1 } := by
      unfold State.writeRegIn; split <;> rfl
    simp only [drawRegs]
    rw [drawRegs_state m rest (s.draw.2.writeRegIn m n s.draw.1)]
    rw [hs]

/-! ## Coprocessors -/

/-- All that a coprocessor instruction can do: the Undefined Instruction exception, or the body with an accepting
row whose operation the host supplies. -/
theorem withCoproc_next {w : Word} {cp : BitVec 4} {body : Coproc → Nat → State → Result} {s t : State} :
    withCoproc w cp body s = .next t ↔
      ((∀ c, s.coproc cp = some c → acceptingRule c w (privileged s.cpsr) = none) ∧ t = undefinedException s) ∨
      (∃ c r, s.coproc cp = some c ∧ acceptingRule c w (privileged s.cpsr) = some r ∧ r.supplied = true ∧
        body c r.count s = .next t) := by
  unfold withCoproc
  constructor
  · intro h
    split at h
    · next hc => cases h; exact .inl ⟨fun c e => by simp [hc] at e, rfl⟩
    · next c hc =>
      split at h
      · next hr => cases h; exact .inl ⟨fun d e => by rw [hc] at e; cases e; exact hr, rfl⟩
      · next r hr =>
        split at h
        · next hs => exact .inr ⟨c, r, hc, hr, hs, h⟩
        · cases h
  · rintro (⟨hn, rfl⟩ | ⟨c, r, hc, hr, hs, h⟩)
    · cases hc : s.coproc cp with
      | none => rfl
      | some c => simp only [hn c hc]
    · simp only [hc, hr, hs, if_true, h]

/-- All that an LDC or STC does before its accesses. -/
theorem coprocTransfer_next {ad : Addressing} {n : Nat} {body : List Word → State → Result} {s t : State} :
    coprocTransfer ad n body s = .next t →
      t = dataAbort s ∨ body (coprocAddresses ad.address n) s = .next t := by
  intro h
  unfold coprocTransfer at h
  split at h
  · cases h
  · split at h
    · cases h
    · split at h
      · cases h; exact .inl rfl
      · exact .inr h

/-! ## The boundary and the fetch -/

/-- All that a boundary can do. -/
theorem boundary_cases (s : State) :
    (∃ t, boundary s = .taken t ∧
      (t = { takeInputs s with resetHeld := true } ∨ t = resetEntry (takeInputs s) ∨
        t = fiqEntry (takeInputs s) ∨ t = irqEntry (takeInputs s))) ∨
    (boundary s = .proceed (takeInputs s) ∧ (currentInputs s).reset = false ∧ s.resetHeld = false) := by
  unfold boundary
  dsimp only
  split
  · exact .inl ⟨_, rfl, .inl rfl⟩
  · next h1 =>
    split
    · exact .inl ⟨_, rfl, .inr (.inl rfl)⟩
    · next h2 =>
      split
      · exact .inl ⟨_, rfl, .inr (.inr (.inl rfl))⟩
      · split
        · exact .inl ⟨_, rfl, .inr (.inr (.inr rfl))⟩
        · refine .inr ⟨rfl, by simpa using h1, ?_⟩
          simpa using h2

/-- All that a fetch can answer: a word only in ARM state, from normal memory, without an abort. -/
theorem fetch_word {s : State} {w : Word} :
    fetch s = .word w → w = fetchWord s ∧ flagT s.cpsr = false ∧ isStale s = false ∧ s.isIo .word s.pc = false ∧
      s.memAbort s.pc .word .fetch (privileged s.cpsr) = false := by
  intro h
  unfold fetch at h
  split at h
  · cases h
  · next h1 =>
    split at h
    · cases h
    · next h2 =>
      split at h
      · cases h
      · split at h
        · cases h
        · next h4 =>
          split at h
          · cases h
          · next h5 =>
            cases h
            exact ⟨rfl, by simpa using h1, by simpa using h2, by simpa using h4, by simpa using h5⟩

/-! ## The instruction after LDM (2) or STM (2) -/

/-- An instruction is executed where its condition, if it has one, passes. -/
theorem executedUnder_iff {i : Instr} {psr : Word} :
    executedUnder i psr = true ↔ ∀ c, condOf i = some c → conditionPassed c psr = true := by
  unfold executedUnder
  cases condOf i <;> simp

/-- All that `hazardStops` asks. -/
theorem hazardStops_iff {i : Instr} {s : State} :
    hazardStops i s = true ↔
      s.userBankHazard = true ∧ i.unpredictable = none ∧ executedUnder i s.cpsr = true ∧
        ((namedRegs i).any isBanked = true ∨ namesSpsr i = true) := by
  unfold hazardStops encodingFault
  simp only [Bool.and_eq_true, Bool.or_eq_true, Option.isNone_iff_eq_none, and_assoc]

/-- Without the hazard an instruction is its meaning. -/
theorem runInstr_of_clear {i : Instr} {s : State} (h : hazardStops i s = false) :
    runInstr i s = exec i (clearHazard s) := by
  unfold runInstr
  rw [if_neg (by simp [h])]

/-- A next state of a fetched instruction is one of its meaning, with the flag cleared first. -/
theorem runInstr_next {i : Instr} {s t : State} (h : runInstr i s = .next t) : exec i (clearHazard s) = .next t := by
  unfold runInstr at h
  split at h
  · cases h
  · exact h

/-! ## Sequences of word accesses to devices -/

/-- A load from a device delivers it and answers its free value. -/
theorem load_of_isIo {s : State} {a : Word} (h : s.isIo .word a = true) :
    s.load .word a = (ioValue s.ioLog (alignTo .word a) .word, { s with ioLog := s.ioLog ++ [wordLoadEvent a] }) := by
  unfold State.load; rw [if_pos h]; rfl

/-- A store to a device delivers it and changes nothing else. -/
theorem store_of_isIo {s : State} {a v : Word} (h : s.isIo .word a = true) :
    s.store .word a v = { s with ioLog := s.ioLog ++ [wordStoreEvent a v] } := by
  unfold State.store; rw [if_pos h]; rfl

/-- Loads from devices only, none aborted: the words answered one after the other, all accesses delivered in order. -/
theorem loadWords_io {priv : Bool} : ∀ {addrs : List Word} {s : State},
    (∀ a ∈ addrs, s.isIo .word a = true) → (∀ a ∈ addrs, s.memAbort a .word .load priv = false) →
      loadWords priv addrs s =
        .done (addrs.mapIdx fun j a => ioValue (s.ioLog ++ (addrs.map wordLoadEvent).take j) (alignTo .word a) .word)
          { s with ioLog := s.ioLog ++ addrs.map wordLoadEvent }
  | [], s, _, _ => by simp [loadWords]
  | a :: rest, s, hio, hab => by
    have ha := hio a (by simp)
    have hrest := loadWords_io (addrs := rest) (s := { s with ioLog := s.ioLog ++ [wordLoadEvent a] })
      (fun b hb => hio b (by simp [hb])) (fun b hb => hab b (by simp [hb]))
    rw [loadWords, if_neg (by simp [hab a (by simp)]), load_of_isIo ha]
    dsimp only at hrest ⊢
    rw [hrest]
    simp [List.mapIdx_cons]

/-- Stores to devices only, none aborted: all delivered in order, nothing else changed. -/
theorem storeWords_io {priv : Bool} : ∀ {pairs : List (Word × Word)} {s : State},
    (∀ p ∈ pairs, s.isIo .word p.1 = true) → (∀ p ∈ pairs, s.memAbort p.1 .word .store priv = false) →
      storeWords priv pairs s =
        .done { s with ioLog := s.ioLog ++ pairs.map fun p => wordStoreEvent p.1 p.2 }
  | [], s, _, _ => by simp [storeWords]
  | (a, v) :: rest, s, hio, hab => by
    have ha := hio (a, v) (by simp)
    have hrest := storeWords_io (pairs := rest) (s := { s with ioLog := s.ioLog ++ [wordStoreEvent a v] })
      (fun b hb => hio b (by simp [hb])) (fun b hb => hab b (by simp [hb]))
    rw [storeWords, if_neg (by simp [hab (a, v) (by simp)]), store_of_isIo ha, hrest]
    simp

/-! ## Sequences of word accesses, each by its own address -/

/-- Whether an access aborts or goes to a device depends on the platform alone. -/
theorem memAbort_congr {s t : State} (h : t.platform = s.platform) : t.memAbort = s.memAbort := by
  funext a size kind priv; simp only [State.memAbort, h]

theorem isIo_congr {s t : State} (h : t.platform = s.platform) : t.isIo = s.isIo := by
  funext size a; simp only [State.isIo, h]

/-- All that a sequence of loads does when no word aborts. -/
theorem loadWords_done {priv : Bool} : ∀ {addrs : List Word} {s : State},
    (∀ a ∈ addrs, s.memAbort a .word .load priv = false) →
      loadWords priv addrs s = .done (wordsAnswered addrs s) { s with ioLog := s.ioLog ++ deliveredLoads addrs s }
  | [], s, _ => by simp [loadWords, wordsAnswered, deliveredLoads]
  | a :: rest, s, h => by
    rw [loadWords, if_neg (by simp [h a (by simp)])]
    cases hio : s.isIo .word a with
    | true =>
      have ih := loadWords_done (addrs := rest) (s := { s with ioLog := s.ioLog ++ [wordLoadEvent a] })
        fun b hb => h b (by simp [hb])
      simp only [load_of_isIo hio, ih, wordsAnswered, deliveredLoads, List.mapIdx_cons, List.take_succ_cons,
        List.filter_cons_of_pos hio, hio, if_true, List.take_zero, List.filter_nil, List.map_nil,
        List.append_nil, List.map_cons, List.append_assoc, List.singleton_append]
      rfl
    | false =>
      have ih := loadWords_done (addrs := rest) (s := s) fun b hb => h b (by simp [hb])
      have hne : ¬s.isIo .word a = true := by simp [hio]
      have hload : s.load .word a = (s.memRead .word a, s) := by unfold State.load; rw [if_neg hne]
      simp only [hload, ih, wordsAnswered, deliveredLoads, List.mapIdx_cons, List.take_succ_cons,
        List.filter_cons_of_neg hne, hio, Bool.false_eq_true, if_false]

/-- All that a sequence of loads does when a word aborts: the words below the first such word are loaded. -/
theorem loadWords_aborted {priv : Bool} : ∀ {addrs : List Word} {s : State},
    (∃ a ∈ addrs, s.memAbort a .word .load priv = true) →
      loadWords priv addrs s = .aborted { s with
        ioLog := s.ioLog ++ deliveredLoads (beforeAbort .load priv addrs s) s }
  | [], s, h => by simp at h
  | a :: rest, s, h => by
    rw [loadWords]
    cases hab : s.memAbort a .word .load priv with
    | true => simp [beforeAbort, deliveredLoads, hab]
    | false =>
      have hrest : ∃ b ∈ rest, s.memAbort b .word .load priv = true := by simpa [hab] using h
      rw [if_neg (by simp)]
      cases hio : s.isIo .word a with
      | true =>
        have ih := loadWords_aborted (addrs := rest) (s := { s with ioLog := s.ioLog ++ [wordLoadEvent a] }) hrest
        simp only [load_of_isIo hio, ih, beforeAbort, deliveredLoads, List.takeWhile_cons, hab, Bool.not_false, if_true,
          List.filter_cons_of_pos hio, List.map_cons, List.append_assoc, List.singleton_append]
        rfl
      | false =>
        have ih := loadWords_aborted (addrs := rest) (s := s) hrest
        have hne : ¬s.isIo .word a = true := by simp [hio]
        have hload : s.load .word a = (s.memRead .word a, s) := by unfold State.load; rw [if_neg hne]
        simp only [hload, ih, beforeAbort, deliveredLoads, List.takeWhile_cons, hab, Bool.not_false, if_true,
          List.filter_cons_of_neg hne]

/-- What one store does to what devices have received. -/
theorem store_ioLog (s : State) (a v : Word) :
    (s.store .word a v).ioLog = if s.isIo .word a then s.ioLog ++ [wordStoreEvent a v] else s.ioLog := by
  unfold State.store; split <;> rfl

/-- A sequence of stores completes exactly when no word aborts, and devices have received the words below the first that
does. -/
theorem storeWords_ends {priv : Bool} : ∀ {addrs values : List Word} {s : State}, addrs.length = values.length →
    ∃ t, t.ioLog = s.ioLog ++ deliveredStores (beforeAbort .store priv addrs s) values s ∧
      storeWords priv (addrs.zip values) s =
        if ∀ a ∈ addrs, s.memAbort a .word .store priv = false then .done t else .aborted t
  | [], values, s, _ => ⟨s, by simp [beforeAbort, deliveredStores], by simp [storeWords]⟩
  | a :: rest, [], s, h => by simp at h
  | a :: rest, v :: values, s, h => by
    rw [List.zip_cons_cons, storeWords]
    cases hab : s.memAbort a .word .store priv with
    | true => exact ⟨s, by simp [beforeAbort, deliveredStores, hab], by simp [hab]⟩
    | false =>
      obtain ⟨t, hlog, ht⟩ := storeWords_ends (priv := priv) (addrs := rest) (values := values)
        (s := s.store .word a v) (by simpa using h)
      have hp := store_platform s .word a v
      refine ⟨t, ?_, ?_⟩
      · rw [hlog, store_ioLog]
        simp only [beforeAbort, deliveredStores, isIo_congr hp, memAbort_congr hp, List.takeWhile_cons, hab,
          Bool.not_false, if_true, List.zip_cons_cons, List.filter_cons]
        cases s.isIo .word a <;> simp
      · simp only [ht, memAbort_congr hp, List.forall_mem_cons, hab, true_and, Bool.false_eq_true, if_false]

/-- A word store to normal memory changes no byte outside the word, and enters its bytes in `W`. -/
theorem memWrite_word_read {s : State} {a v : Word} {x : Nat}
    (h : ¬((alignTo .word a).toNat ≤ x ∧ x < (alignTo .word a).toNat + 4)) :
    Memory.read (s.memWrite .word a v).mem x = Memory.read s.mem x :=
  Memory.read_writeSized_other _ .word _ _ _ _ (by simp only [sizeBytes]; omega)

theorem mem_memWrite_word_written (s : State) (a v : Word) (x : Nat) :
    x ∈ (s.memWrite .word a v).written ↔
      x ∈ s.written ∨ ((alignTo .word a).toNat ≤ x ∧ x < (alignTo .word a).toNat + 4) := by
  simp only [State.memWrite, sizeBytes, List.range_succ, List.range_zero, List.nil_append, List.cons_append,
    List.foldl_cons, List.foldl_nil, mem_insertAddr]
  constructor
  · rintro (h | h | h | h | h) <;> first | exact .inl h | exact .inr (by omega)
  · rintro (h | h)
    · simp [h]
    · have : x = (alignTo .word a).toNat + 3 ∨ x = (alignTo .word a).toNat + 2 ∨ x = (alignTo .word a).toNat + 1 ∨
        x = (alignTo .word a).toNat + 0 := by omega
      rcases this with h | h | h | h <;> simp [h]

/-- The bytes that a sequence of stores changes, and those that enter `W`, are bytes of its storable words. -/
theorem storeWords_bytes {priv : Bool} : ∀ {addrs values : List Word} {s t : State},
    (storeWords priv (addrs.zip values) s = .done t ∨ storeWords priv (addrs.zip values) s = .aborted t) → ∀ x : Nat,
      (¬Storable priv addrs s x → Memory.read t.mem x = Memory.read s.mem x) ∧
      (x ∈ s.written → x ∈ t.written) ∧ (x ∈ t.written → x ∈ s.written ∨ Storable priv addrs s x)
  | [], values, s, t, h, x => by
    simp only [List.zip_nil_left, storeWords, StoredWords.done.injEq, reduceCtorEq, or_false] at h
    subst h; exact ⟨fun _ => rfl, id, .inl⟩
  | a :: rest, [], s, t, h, x => by
    simp only [List.zip_nil_right, storeWords, StoredWords.done.injEq, reduceCtorEq, or_false] at h
    subst h; exact ⟨fun _ => rfl, id, .inl⟩
  | a :: rest, v :: values, s, t, h, x => by
    simp only [List.zip_cons_cons, storeWords] at h
    split at h
    · simp only [reduceCtorEq, StoredWords.aborted.injEq, false_or] at h
      subst h; exact ⟨fun _ => rfl, id, .inl⟩
    · next hab =>
      have hp := store_platform s .word a v
      obtain ⟨hm, hw, hs⟩ := storeWords_bytes h x
      simp only [Storable, isIo_congr hp, memAbort_congr hp] at hm hs
      have hab' : s.memAbort a .word .store priv = false := by simpa using hab
      cases hio : s.isIo .word a with
      | true =>
        rw [store_of_isIo hio] at hm hw hs
        refine ⟨fun hn => hm fun ⟨b, hb, hx⟩ => hn ⟨b, by simp [hb], hx⟩, hw, fun hx => ?_⟩
        exact (hs hx).imp id fun ⟨b, hb, hx⟩ => ⟨b, by simp [hb], hx⟩
      | false =>
        have hst : s.store .word a v = s.memWrite .word a v := by unfold State.store; rw [if_neg (by simp [hio])]
        rw [hst] at hm hw hs
        refine ⟨fun hn => ?_, fun hx => hw ((mem_memWrite_word_written s a v x).mpr (.inl hx)), fun hx => ?_⟩
        · rw [hm fun ⟨b, hb, hx⟩ => hn ⟨b, by simp [hb], hx⟩,
            memWrite_word_read fun hx => hn ⟨a, by simp, hab', hio, hx⟩]
        · rcases hs hx with hx | ⟨b, hb, hx⟩
          · exact ((mem_memWrite_word_written s a v x).mp hx).imp id fun hx => ⟨a, by simp, hab', hio, hx⟩
          · exact .inr ⟨b, by simp [hb], hx⟩

/-- A completed sequence of stores enters every byte of its words of normal memory in `W`. -/
theorem storeWords_entered {priv : Bool} : ∀ {addrs values : List Word} {s t : State}, addrs.length = values.length →
    storeWords priv (addrs.zip values) s = .done t → ∀ x : Nat, Storable priv addrs s x → x ∈ t.written
  | [], values, s, t, _, _, x, hx => by obtain ⟨a, ha, _⟩ := hx; simp at ha
  | a :: rest, [], s, t, hl, _, x, hx => by simp at hl
  | a :: rest, v :: values, s, t, hl, h, x, hx => by
    have hb := (storeWords_bytes (s := s.store .word a v) (t := t) (priv := priv) (addrs := rest) (values := values))
    simp only [List.zip_cons_cons, storeWords] at h
    split at h
    · cases h
    · have hp := store_platform s .word a v
      obtain ⟨b, hb', hab, hio, hx⟩ := hx
      rcases List.mem_cons.mp hb' with rfl | hmem
      · have hst : s.store .word b v = s.memWrite .word b v := by unfold State.store; rw [if_neg (by simp [hio])]
        exact (hb (.inl h) x).2.1 (by rw [hst]; exact (mem_memWrite_word_written s b v x).mpr (.inr hx))
      · refine storeWords_entered (by simpa using hl) h x ⟨b, hmem, ?_, ?_, hx⟩
        · rw [memAbort_congr hp]; exact hab
        · rw [isIo_congr hp]; exact hio

/-- All that the drawing after an aborted sequence of stores does: only bytes of storable words are drawn, all of them
enter `W`, and each word takes four draws. -/
theorem drawStored_bytes (priv : Bool) : ∀ (addrs : List Word) (s : State) (x : Nat),
    (¬Storable priv addrs s x → Memory.read (drawStored priv addrs s).mem x = Memory.read s.mem x) ∧
    (x ∈ (drawStored priv addrs s).written ↔ x ∈ s.written ∨ Storable priv addrs s x)
  | [], s, x => by simp [drawStored, Storable]
  | a :: rest, s, x => by
    simp only [drawStored]
    split
    · next h =>
      obtain ⟨hm, hw⟩ := drawStored_bytes priv rest s x
      have hst : Storable priv (a :: rest) s x ↔ Storable priv rest s x := by
        simp only [Storable, List.exists_mem_cons_iff]
        simp only [Bool.or_eq_true] at h
        rcases h with h | h <;> simp [h]
      rw [hst]; exact ⟨hm, hw⟩
    · next h =>
      obtain ⟨hm, hw⟩ := drawStored_bytes priv rest (drawWordAt a s) x
      have hst : Storable priv (a :: rest) s x ↔
          ((alignTo .word a).toNat ≤ x ∧ x < (alignTo .word a).toNat + 4) ∨ Storable priv rest s x := by
        simp only [Storable, List.exists_mem_cons_iff]
        simp only [Bool.or_eq_true, not_or, Bool.not_eq_true] at h
        simp [h]
      have hrest : Storable priv rest (drawWordAt a s) x ↔ Storable priv rest s x := Iff.rfl
      rw [hrest] at hm hw
      rw [hst, hw]
      unfold drawWordAt at hm ⊢
      generalize Config.freeByte (s.draws + 3) ++ Config.freeByte (s.draws + 2) ++ Config.freeByte (s.draws + 1) ++
        Config.freeByte s.draws = v at hm ⊢
      refine ⟨fun hn => ?_, ?_⟩
      · rw [hm fun hx => hn (.inr hx)]
        exact memWrite_word_read fun hx => hn (.inl hx)
      · change (x ∈ (s.memWrite .word a v).written ∨ _) ↔ _
        rw [mem_memWrite_word_written, or_assoc]

theorem drawStored_draws (priv : Bool) : ∀ (addrs : List Word) (s : State),
    (drawStored priv addrs s).draws =
      s.draws + 4 * addrs.countP fun a => !s.memAbort a .word .store priv && !s.isIo .word a
  | [], s => by simp [drawStored]
  | a :: rest, s => by
    simp only [drawStored]
    split
    · next h => rw [drawStored_draws priv rest s, List.countP_cons_of_neg (by simpa [← Bool.not_eq_true, or_iff_not_imp_left] using h)]
    · next h =>
      rw [drawStored_draws priv rest (drawWordAt a s), List.countP_cons_of_pos (by simpa using h)]
      simp only [memAbort_congr (s := s) (t := drawWordAt a s) rfl, isIo_congr (s := s) (t := drawWordAt a s) rfl]
      simp only [drawWordAt]; omega

end Sys2Proof.Machine
end

