-- ==== Sys2Proof/Tests/Slice0.lean ====
section
/-! SUPPORT. The model's own tests: ill-formed terms, decoded words, single steps, and for every obligation that has
hypotheses a state and operands that meet them. Expected results are those of the vectors of spec/95 and spec/96 (named by
their ids in the comments), or of the examples of the rules named. -/

namespace Sys2Proof.Tests
open Sys2Proof Sys2Proof.Machine

/-! ## Ill-formed instructions, one for each check of WellFormed -/

theorem test_wf_fixedBits : (Instr.ldrh .al true true false 1 0 (.reg 1 2)).unpredictable = some .fixedBits := by decide
theorem test_wf_bkptCondition : (Instr.unpredBkpt 0x01200070).unpredictable = some .bkptCondition := by decide
theorem test_wf_pcOperand : (Instr.mul .al false 15 2 1).unpredictable = some .pcOperand ∧
    (Instr.mov .al false 0 (.shiftReg 2 .lsl 15)).unpredictable = some .pcOperand ∧
    (Instr.mcr .al 1 7 15 14 6 12).unpredictable = some .pcOperand := by decide
theorem test_wf_sameRegister : (Instr.mul .al false 0 1 0).unpredictable = some .sameRegister ∧
    (Instr.umull .al false 0 0 2 1).unpredictable = some .sameRegister ∧
    (Instr.swp .al 1 0 1).unpredictable = some .sameRegister := by decide
theorem test_wf_pcBaseWriteback : (Instr.ldr .al .pre true 15 0 (.imm 4)).unpredictable = some .pcBaseWriteback ∧
    (Instr.ldc .al (.pre true 1) false 15 4 6).unpredictable = some .pcBaseWriteback := by decide
theorem test_wf_pcIndex : (Instr.ldr .al .offset true 1 0 (.reg 0 .lsl 15)).unpredictable = some .pcIndex := by decide
theorem test_wf_indexIsBase : (Instr.ldr .al .pre true 1 0 (.reg 0 .lsl 1)).unpredictable = some .indexIsBase := by decide
theorem test_wf_dataIsBase : (Instr.ldr .al .post true 0 0 (.imm 4)).unpredictable = some .dataIsBase := by decide
theorem test_wf_postIndexedW :
    (Instr.ldrh .al false true true 1 0 (.imm 2)).unpredictable = some .postIndexedW := by decide
theorem test_wf_pcBase : (Instr.ldm1 .al .ia false 15 1).unpredictable = some .pcBase := by decide
theorem test_wf_emptyList : (Instr.ldm1 .al .ia false 0 0).unpredictable = some .emptyList := by decide
theorem test_wf_userBankWriteback : (Instr.ldm2 .al .ia true 0 2).unpredictable = some .userBankWriteback := by decide
theorem test_wf_space : (Instr.undefSpace 0xE7F000F0).wellFormed = true ∧
    (Instr.undefSpace 0xE7F000E0).wellFormed = false := by decide

/-! ## Decoding: a word for every constructor -/

/-- Section 1 of spec/95 and the vectors of 41_data_processing.md. -/
theorem test_decode_dataProcessing :
    decodeWord 0xE20100FF = .and .al false 1 0 (.imm 0 0xFF) ∧
    decodeWord 0xE0300000 = .eor .al true 0 0 (.shiftImm 0 .lsl 0) ∧
    decodeWord 0xE2500001 = .sub .al true 0 0 (.imm 0 1) ∧
    decodeWord 0xE2610000 = .rsb .al false 1 0 (.imm 0 0) ∧
    decodeWord 0xE0904002 = .add .al true 0 4 (.shiftImm 0 .lsl 2) ∧
    decodeWord 0xE0B15003 = .adc .al true 1 5 (.shiftImm 0 .lsl 3) ∧
    decodeWord 0xE0C15003 = .sbc .al false 1 5 (.shiftImm 0 .lsl 3) ∧
    decodeWord 0xE2E13000 = .rsc .al false 1 3 (.imm 0 0) ∧
    decodeWord 0xE3100010 = .tst .al 0 (.imm 0 0x10) ∧
    decodeWord 0xE1310081 = .teq .al 1 (.shiftImm 1 .lsl 1) ∧
    decodeWord 0xE1570008 = .cmp .al 7 (.shiftImm 0 .lsl 8) ∧
    decodeWord 0xE3700001 = .cmn .al 0 (.imm 0 1) ∧
    decodeWord 0xE3800080 = .orr .al false 0 0 (.imm 0 0x80) ∧
    decodeWord 0xE1A0C374 = .mov .al false 12 (.shiftReg 3 .ror 4) ∧
    decodeWord 0xE3C89CFF = .bic .al false 8 9 (.imm 12 0xFF) ∧
    decodeWord 0xE1E00FC1 = .mvn .al false 0 (.shiftImm 31 .asr 1) ∧
    decodeWord 0x13A00001 = .mov .ne false 0 (.imm 0 1) := by decide

theorem test_decode_multiply :
    decodeWord 0xE0140192 = .mul .al true 4 1 2 ∧
    decodeWord 0xE0273998 = .mla .al false 7 3 9 8 ∧
    decodeWord 0xE0886190 = .umull .al false 8 6 1 0 ∧
    decodeWord 0xE0A85190 = .umlal .al false 8 5 1 0 ∧
    decodeWord 0xE0C84392 = .smull .al false 8 4 3 2 ∧
    decodeWord 0xE0F10392 = .smlal .al true 1 0 3 2 := by decide

theorem test_decode_status :
    decodeWord 0xE16F1F12 = .clz .al 1 2 ∧
    decodeWord 0xE10F0000 = .mrs .al false 0 ∧
    decodeWord 0xE14F0000 = .mrs .al true 0 ∧
    decodeWord 0xE121F000 = .msrReg .al false 0b0001 0 ∧
    decodeWord 0xE16FF000 = .msrReg .al true 0b1111 0 ∧
    decodeWord 0xE328F20F = .msrImm .al false 0b1000 2 0x0F := by decide

theorem test_decode_branch :
    decodeWord 0x3A00003E = .b .cc 0x3E ∧
    decodeWord 0xEB00003E = .bl .al 0x3E ∧
    decodeWord 0xFB000010 = .blx1 true 0x10 ∧
    decodeWord 0xE12FFF33 = .blx2 .al 3 ∧
    decodeWord 0xE12FFF1E = .bx .al 14 := by decide

theorem test_decode_load_store :
    decodeWord 0xE5938004 = .ldr .al .offset true 3 8 (.imm 4) ∧
    decodeWord 0xE6910462 = .ldr .al .post true 1 0 (.reg 8 .ror 2) ∧
    decodeWord 0xE5D83003 = .ldrb .al .offset true 8 3 (.imm 3) ∧
    decodeWord 0xE4B10004 = .ldrt .al true 1 0 (.imm 4) ∧
    decodeWord 0xE4F10001 = .ldrbt .al true 1 0 (.imm 1) ∧
    decodeWord 0xE1D380B2 = .ldrh .al true true false 3 8 (.imm 2) ∧
    decodeWord 0xE1DA4CD1 = .ldrsb .al true true false 10 4 (.imm 0xC1) ∧
    decodeWord 0xE1F010F2 = .ldrsh .al true true true 0 1 (.imm 2) ∧
    decodeWord 0xE4852008 = .str .al .post true 5 2 (.imm 8) ∧
    decodeWord 0xE5667001 = .strb .al .pre false 6 7 (.imm 1) ∧
    decodeWord 0xE4210004 = .strt .al false 1 0 (.imm 4) ∧
    decodeWord 0xE4E10001 = .strbt .al true 1 0 (.imm 1) ∧
    decodeWord 0xE107A0B4 = .strh .al true false false 7 10 (.reg 0 4) := by decide

theorem test_decode_multiple_and_swap :
    decodeWord 0xE89001E0 = .ldm1 .al .ia false 0 0x01E0 ∧
    decodeWord 0xE8D06000 = .ldm2 .al .ia false 0 0x6000 ∧
    decodeWord 0xE8FD800F = .ldm3 .al .ia true 13 0x000F ∧
    decodeWord 0xE8210BA4 = .stm1 .al .da true 1 0x0BA4 ∧
    decodeWord 0xE92D5FFF = .stm1 .al .db true 13 0x5FFF ∧
    decodeWord 0xE8C06000 = .stm2 .al .ia false 0 0x6000 ∧
    decodeWord 0xE990000E = .ldm1 .al .ib false 0 0x000E ∧
    decodeWord 0xE109C09A = .swp .al 9 12 10 ∧
    decodeWord 0xE1483094 = .swpb .al 8 3 4 := by decide

theorem test_decode_coprocessor :
    decodeWord 0xEE2AC583 = .cdp .al 2 10 12 5 4 3 ∧
    decodeWord 0xFE2AC583 = .cdp2 2 10 12 5 4 3 ∧
    decodeWord 0xEE277EDC = .mcr .al 1 7 7 14 6 12 ∧
    decodeWord 0xFE277EDC = .mcr2 1 7 7 14 6 12 ∧
    decodeWord 0xEEB04F72 = .mrc .al 5 0 4 15 3 2 ∧
    decodeWord 0xFEB04F72 = .mrc2 5 0 4 15 3 2 ∧
    decodeWord 0xED924601 = .ldc .al (.offset true 1) false 2 4 6 ∧
    decodeWord 0xEC924605 = .ldc .al (.unindexed 5) false 2 4 6 ∧
    decodeWord 0xED513202 = .ldc .al (.offset false 2) true 1 3 2 ∧
    decodeWord 0xFD924601 = .ldc2 (.offset true 1) false 2 4 6 ∧
    decodeWord 0xEDA28801 = .stc .al (.pre true 1) false 2 8 8 ∧
    decodeWord 0xEC229804 = .stc .al (.post false 4) false 2 9 8 ∧
    decodeWord 0xFDA28801 = .stc2 (.pre true 1) false 2 8 8 := by decide

theorem test_decode_exception :
    decodeWord 0xEF123456 = .swi .al 0x123456 ∧ decodeWord 0xE12ABC7D = .bkpt 0xABC 0xD := by decide

/-- C1, C15, C17, C19, C22, C25, C28, C31 and C36 of section 2.13. -/
theorem test_decode_undefined :
    decodeWord 0xE7F000F0 = .undefSpace 0xE7F000F0 ∧
    decodeWord 0xE1000010 = .undefControlReg 0xE1000010 ∧
    decodeWord 0xE1000050 = .undefControlReg 0xE1000050 ∧
    decodeWord 0xE3000000 = .undefControlImm 0xE3000000 ∧
    decodeWord 0xE0400090 = .undefArith 0xE0400090 ∧
    decodeWord 0xE1100090 = .undefLoadStore 0xE1100090 ∧
    decodeWord 0xE1C000D0 = .undefDouble 0xE1C000D0 ∧
    decodeWord 0xEC400000 = .undefCoprocSpace 0xEC400000 ∧
    decodeWord 0xFF000000 = .undefUnconditional 0xFF000000 := by decide

/-- C5, C8, C11, C14 and C21 of section 2.13, and words with a should-be-zero field set (R221, R267, R321, R461). -/
theorem test_decode_unpredictable :
    decodeWord 0x01200070 = .unpredBkpt 0x01200070 ∧
    decodeWord 0xE1200010 = .unpredBx 0xE1200010 ∧
    decodeWord 0xE1600010 = .unpredClz 0xE1600010 ∧
    decodeWord 0xE10F0800 = .unpredMrs 0xE10F0800 ∧
    decodeWord 0xE1210000 = .unpredMsrReg 0xE1210000 ∧
    decodeWord 0xE3200000 = .unpredMsrImm 0xE3200000 ∧
    decodeWord 0xE0001291 = .unpredMul 0xE0001291 ∧
    decodeWord 0xE1020191 = .unpredSwp 0xE1020191 ∧
    decodeWord 0xE3111001 = .unpredTst 0xE3111001 ∧
    decodeWord 0xE1311002 = .unpredTeq 0xE1311002 ∧
    decodeWord 0xE3511000 = .unpredCmp 0xE3511000 ∧
    decodeWord 0xE3711000 = .unpredCmn 0xE3711000 ∧
    decodeWord 0xE1B10001 = .unpredMov 0xE1B10001 ∧
    decodeWord 0xE3F10000 = .unpredMvn 0xE3F10000 := by decide

/-! ## Single instructions -/

/-- The platform of the vectors: little-endian, `PC_STORE_OFFSET` 8, no alignment checking, Base Restored. -/
def plat : Platform where
  thumbVariant := .t
  pcStoreOffset := .eight
  abortModel := .baseRestored
  highVectorsSupported := false
  hivecs := false
  endianSupport := .both
  bigend := false
  alignCheck := false
  abortRules := []
  ioRegions := []
  stop := { haltAddress := none, stepBound := none }

/-- A state at 0x8000 with a CPSR, some registers of its mode, and some words of memory, lowest address first. -/
def start (cpsr : Word) (regs : List (RegNum × Word)) (words : List (Nat × Word)) : State :=
  regs.foldl (fun s p => s.writeReg p.1 p.2)
    { State.reset with
      pc := 0x8000
      cpsr := cpsr
      platform := plat
      mem := words.foldl (fun m p => Memory.writeSized false .word p.2 m p.1) [] }

/-- What holds after the instruction of a word, if it completes. -/
def after (w : Word) (s : State) (p : State → Bool) : Bool :=
  match exec (decodeWord w) s with
  | .next t => p t
  | _ => false

/-- The fault of the instruction of a word. -/
def faultOf (w : Word) (s : State) : Option Fault :=
  match exec (decodeWord w) s with
  | .fault f => some f
  | _ => none

/-- Some registers and the CPSR, as expected. -/
def shows (regs : List (RegNum × Word)) (cpsr : Word) (t : State) : Bool :=
  regs.all (fun p => t.readReg p.1 == p.2) && t.cpsr == cpsr

-- Data processing: D23, D24, D10, D16, D2, D7, D11, D18, D29, D31, D21, D22, D25, D26, D27; S14, S16, S28, S33, S37.
theorem test_and : after 0xE01100A2 (start 0x100000D3 [(1, 0xF0F0F0F0), (2, 0xFFFFFFFF)] [])
    (shows [(0, 0x70F0F0F0)] 0x300000D3) = true := by decide
theorem test_eor : after 0xE0310001 (start 0x300000D3 [(1, 0xDEADBEEF)] []) (shows [(0, 0)] 0x700000D3) = true := by decide
theorem test_sub : after 0xE0510002 (start 0xD3 [(1, 0x80000000), (2, 1)] [])
    (shows [(0, 0x7FFFFFFF)] 0x300000D3) = true := by decide
theorem test_rsb : after 0xE2710000 (start 0xD3 [(1, 0x80000000)] []) (shows [(0, 0x80000000)] 0x900000D3) = true := by decide
theorem test_add : after 0xE0910002 (start 0xD3 [(1, 0xFFFFFFFF), (2, 1)] []) (shows [(0, 0)] 0x600000D3) = true := by decide
theorem test_add_reads_pc : after 0xE081008F (start 0xD3 [(1, 1)] []) (shows [(0, 0x10011)] 0xD3) = true := by decide
theorem test_adc : after 0xE0B00000 (start 0x200000D3 [(0, 0x80000001)] []) (shows [(0, 3)] 0x300000D3) = true := by decide
theorem test_sbc : after 0xE0D10002 (start 0xD3 [(1, 5), (2, 5)] []) (shows [(0, 0xFFFFFFFF)] 0x800000D3) = true := by decide
theorem test_rsc : after 0xE2F10000 (start 0x200000D3 [] []) (shows [(0, 0)] 0x600000D3) = true := by decide
theorem test_tst : after 0xE3110001 (start 0xB00000D3 [(1, 2)] []) (shows [(1, 2)] 0x700000D3) = true := by decide
theorem test_teq : after 0xE1310081 (start 0xD3 [(1, 0xC0000000)] []) (shows [] 0x200000D3) = true := by decide
theorem test_cmp : after 0xE1510002 (start 0xD3 [(1, 0x80000000), (2, 0x7FFFFFFF)] [])
    (shows [] 0x300000D3) = true := by decide
theorem test_cmn : after 0xE1710002 (start 0xD3 [(1, 0x7FFFFFFF), (2, 1)] []) (shows [] 0x900000D3) = true := by decide
theorem test_orr : after 0xE3910102 (start 0xD3 [(1, 1)] []) (shows [(0, 0x80000001)] 0xA00000D3) = true := by decide
theorem test_bic : after 0xE3D100FF (start 0x200000D3 [(1, 0xFF)] []) (shows [(0, 0)] 0x600000D3) = true := by decide
theorem test_mvn : after 0xE3F00000 (start 0xD3 [] []) (shows [(0, 0xFFFFFFFF)] 0x800000D3) = true := by decide
theorem test_mov_rrx : after 0xE1B00061 (start 0x200000D3 [(1, 2)] []) (shows [(0, 0x80000001)] 0x800000D3) = true := by decide
theorem test_mov_lsr_by_low_byte : after 0xE1B00231 (start 0x200000D3 [(1, 0x80000001), (2, 0x120)] [])
    (shows [(0, 0)] 0x600000D3) = true := by decide
/-- X20: `SUBS PC, R14, #4` in IRQ mode. -/
theorem test_sub_returns : after 0xE25EF004
    { start 0x92 [(14, 0x800C)] [] with spsr := { fiq := 0, irq := 0x60000010, svc := 0, abt := 0, und := 0 } }
    (fun t => t.pc == 0x8008 && t.cpsr == 0x60000010) = true := by decide

-- Multiplies: M3, M5, M6, M10, M14, M16.
theorem test_mul : after 0xE0100291 (start 0x200000D3 [(1, 0xFFFFFFFF), (2, 2)] [])
    (shows [(0, 0xFFFFFFFE)] 0xA00000D3) = true := by decide
theorem test_mla : after 0xE0303291 (start 0x100000D3 [(1, 0x40000000), (2, 2)] [])
    (shows [(0, 0x80000000)] 0x900000D3) = true := by decide
theorem test_umull : after 0xE0810392 (start 0xD3 [(2, 0xFFFFFFFF), (3, 0xFFFFFFFF)] [])
    (shows [(0, 1), (1, 0xFFFFFFFE)] 0xD3) = true := by decide
theorem test_umlal : after 0xE0A10392
    (start 0xD3 [(0, 0xFFFFFFFF), (1, 0xFFFFFFFF), (2, 0xFFFFFFFF), (3, 0xFFFFFFFF)] [])
    (shows [(0, 0), (1, 0xFFFFFFFE)] 0xD3) = true := by decide
theorem test_smull : after 0xE0D10392 (start 0xD3 [(2, 0x80000000), (3, 0x7FFFFFFF)] [])
    (shows [(0, 0x80000000), (1, 0xC0000000)] 0x800000D3) = true := by decide
theorem test_smlal : after 0xE0F10392 (start 0xD3 [(1, 0x80000000), (2, 0xFFFFFFFF), (3, 1)] [])
    (shows [(0, 0xFFFFFFFF), (1, 0x7FFFFFFF)] 0xD3) = true := by decide

-- CLZ, MRS, MSR: Q4, Q1, Q7, Q6, Q11, Q14, Q9, Q20.
theorem test_clz : after 0xE16F0F11 (start 0xF00000D3 [(1, 0x00010000)] []) (shows [(0, 15)] 0xF00000D3) = true := by decide
theorem test_clz_zero : after 0xE16F0F11 (start 0xF00000D3 [] []) (shows [(0, 32)] 0xF00000D3) = true := by decide
theorem test_mrs : after 0xE14F0000
    { start 0xD3 [] [] with spsr := { fiq := 1, irq := 2, svc := 0x6000001F, abt := 3, und := 4 } }
    (shows [(0, 0x6000001F)] 0xD3) = true := by decide
theorem test_msrReg : after 0xE121F000 (start 0xD3 [(0, 0xD1)] []) (shows [] 0xD1) = true := by decide
theorem test_msrReg_user : after 0xE129F000 (start 0x10 [(0, 0xF00000D3)] []) (shows [] 0xF0000010) = true := by decide
theorem test_msrImm : after 0xE328F20F (start 0xD3 [] []) (shows [] 0xF00000D3) = true := by decide
theorem test_msrImm_spsr : after 0xE368F20F
    { start 0xD3 [] [] with spsr := { fiq := 0, irq := 0, svc := 0x10, abt := 0, und := 0 } }
    (fun t => t.spsr.svc == 0xF0000010) = true := by decide

-- Branches: B4, B5, B18, B15, B11.
theorem test_b : after 0xEAFFFBFE (start 0xD3 [] []) (fun t => t.pc == 0x7000) = true := by decide
theorem test_bl : after 0xEB0003FE (start 0xD3 [] []) (fun t => t.pc == 0x9000 && t.readReg 14 == 0x8004) = true := by decide
theorem test_blx1 : after 0xFB000010 (start 0xD3 [] [])
    (fun t => t.pc == 0x804A && t.cpsr == 0xF3 && t.readReg 14 == 0x8004) = true := by decide
theorem test_blx2 : after 0xE12FFF3E (start 0xD3 [(14, 0x9000)] [])
    (fun t => t.pc == 0x9000 && t.readReg 14 == 0x8004) = true := by decide
theorem test_bx : after 0xE12FFF11 (start 0xD3 [(1, 0x9001)] []) (fun t => t.pc == 0x9000 && t.cpsr == 0xF3) = true := by decide

/-- The memory of section 2.6: bytes 11 22 33 44 55 66 77 88 from 0x1000, F1 F2 F3 F4 from 0xFFC. -/
def bytes26 : List (Nat × Word) := [(0xFFC, 0xF4F3F2F1), (0x1000, 0x44332211), (0x1004, 0x88776655)]

-- Single loads and stores: L3, L38, L23, L34, L35, L33, L32, L28, L43, L44, L45, L51, L52, L49.
theorem test_ldr : after 0xE5910000 (start 0xD3 [(1, 0x1001)] bytes26) (shows [(0, 0x11443322)] 0xD3) = true := by decide
theorem test_ldr_pc : after 0xE491F004 (start 0xD3 [(1, 0x2000)] [(0x2000, 0x9001)])
    (fun t => t.pc == 0x9000 && shows [(1, 0x2004)] 0xF3 t) = true := by decide
theorem test_ldrb : after 0xE5F10001 (start 0xD3 [(0, 0xFFFFFFFF), (1, 0x1000)] bytes26)
    (shows [(0, 0x22), (1, 0x1001)] 0xD3) = true := by decide
theorem test_ldrt : after 0xE4B10004 (start 0xD3 [(1, 0x1000)] bytes26)
    (shows [(0, 0x44332211), (1, 0x1004)] 0xD3) = true := by decide
theorem test_ldrbt : after 0xE4F10001 (start 0xD3 [(1, 0x1002)] bytes26) (shows [(0, 0x33), (1, 0x1003)] 0xD3) = true := by decide
theorem test_ldrh : after 0xE1B100B2 (start 0xD3 [(1, 0x1000), (2, 6)] bytes26)
    (shows [(0, 0x8877), (1, 0x1006)] 0xD3) = true := by decide
theorem test_ldrsb : after 0xE01100D2 (start 0xD3 [(1, 0x1007), (2, 7)] bytes26)
    (shows [(0, 0xFFFFFF88), (1, 0x1000)] 0xD3) = true := by decide
theorem test_ldrsh : after 0xE1D100F0 (start 0xD3 [(1, 0xFFE)] bytes26) (shows [(0, 0xFFFFF4F3)] 0xD3) = true := by decide
theorem test_str : after 0xE5210004 (start 0xD3 [(0, 0xAABBCCDD), (1, 0x1004)] bytes26)
    (fun t => t.readReg 1 == 0x1000 && t.memRead .word 0x1000 == 0xAABBCCDD && t.memRead .word 0x1004 == 0x88776655)
      = true := by decide
theorem test_str_unaligned : after 0xE5810000 (start 0xD3 [(0, 0xAABBCCDD), (1, 0x1003)] bytes26)
    (fun t => Memory.read t.mem 0x1000 == 0xDD && Memory.read t.mem 0x1003 == 0xAA) = true := by decide
theorem test_strb : after 0xE5C10000 (start 0xD3 [(0, 0xAABBCCDD), (1, 0x1002)] bytes26)
    (fun t => t.memRead .word 0x1000 == 0x44DD2211) = true := by decide
theorem test_strt : after 0xE4210004 (start 0xD3 [(0, 0xAABBCCDD), (1, 0x1004)] bytes26)
    (fun t => t.readReg 1 == 0x1000 && t.memRead .word 0x1004 == 0xAABBCCDD) = true := by decide
theorem test_strbt : after 0xE4E10001 (start 0xD3 [(0, 0xAABBCCDD), (1, 0x1004)] bytes26)
    (fun t => t.readReg 1 == 0x1005 && t.memRead .word 0x1004 == 0x887766DD) = true := by decide
theorem test_strh : after 0xE0C100B2 (start 0xD3 [(0, 0xAABBCCDD), (1, 0x1004)] bytes26)
    (fun t => t.readReg 1 == 0x1006 && t.memRead .word 0x1004 == 0x8877CCDD) = true := by decide

/-- The words 0xA0 to 0xA4 from 0x2000, of section 2.7. -/
def words27 : List (Nat × Word) := [(0x2000, 0xA0), (0x2004, 0xA1), (0x2008, 0xA2), (0x200C, 0xA3), (0x2010, 0xA4)]

-- Load and store multiple: G6, G3, G20, G21, G14, G16, G19.
theorem test_ldm1_db : after 0xE930000E (start 0xD3 [(0, 0x200C)] words27)
    (shows [(0, 0x2000), (1, 0xA0), (2, 0xA1), (3, 0xA2)] 0xD3) = true := by decide
theorem test_ldm1_da : after 0xE810000E (start 0xD3 [(0, 0x2008)] words27)
    (shows [(0, 0x2008), (1, 0xA0), (2, 0xA1), (3, 0xA2)] 0xD3) = true := by decide
theorem test_ldm2 : after 0xE8D02100 (start 0xD1 [(0, 0x2000), (8, 7), (13, 9)] words27)
    (fun t => t.readUserReg 8 == 0xA0 && t.readUserReg 13 == 0xA1 && t.userBankHazard && shows [(8, 7), (13, 9)] 0xD1 t)
      = true := by decide
theorem test_ldm3 : after 0xE8D08002
    { start 0x92 [(0, 0x2000)] [(0x2000, 0x77), (0x2004, 0x9000)] with
      spsr := { fiq := 0, irq := 0x40000010, svc := 0, abt := 0, und := 0 } }
    (fun t => t.pc == 0x9000 && shows [(1, 0x77)] 0x40000010 t) = true := by decide
theorem test_stm1_da : after 0xE8200006 (start 0xD3 [(0, 0x3004), (1, 0x11), (2, 0x22)] [])
    (fun t => t.readReg 0 == 0x2FFC && t.memRead .word 0x3000 == 0x11 && t.memRead .word 0x3004 == 0x22) = true := by decide
theorem test_stm1_base : after 0xE8A00003 (start 0xD3 [(0, 0x3000), (1, 0x11)] [])
    (fun t => t.readReg 0 == 0x3008 && t.memRead .word 0x3000 == 0x3000 && t.memRead .word 0x3004 == 0x11) = true := by decide
theorem test_stm2 : after 0xE8C06000
    (((start 0xD1 [(0, 0x3000), (13, 0xF13), (14, 0xF14)] []).writeUserReg 13 0xD13).writeUserReg 14 0xD14)
    (fun t => t.memRead .word 0x3000 == 0xD13 && t.memRead .word 0x3004 == 0xD14 && t.userBankHazard) = true := by decide

-- Semaphores: W3, W4.
theorem test_swp : after 0xE1020091 (start 0xD3 [(1, 0xAABBCCDD), (2, 0x1001)] bytes26)
    (fun t => t.readReg 0 == 0x11443322 && t.memRead .word 0x1000 == 0xAABBCCDD) = true := by decide
theorem test_swpb : after 0xE1420091 (start 0xD3 [(0, 0xFFFFFFFF), (1, 0xAABBCCDD), (2, 0x1001)] bytes26)
    (fun t => t.readReg 0 == 0x22 && t.memRead .word 0x1000 == 0x4433DD11) = true := by decide

-- Exceptions: E1, E6, E4, X7.
theorem test_swi : after 0xEF123456 (start 0x60000010 [] [])
    (fun t => t.pc == 8 && t.spsr.svc == 0x60000010 && shows [(14, 0x8004)] 0x60000093 t) = true := by decide
theorem test_bkpt : after 0xE12ABC7D (start 0x1F [] [])
    (fun t => t.pc == 0xC && t.spsr.abt == 0x1F && shows [(14, 0x8004)] 0x97 t) = true := by decide
theorem test_undefSpace : after 0xE7F000F0 (start 0x80000010 [] [])
    (fun t => t.pc == 4 && t.spsr.und == 0x80000010 && shows [(14, 0x8004)] 0x8000009B t) = true := by decide
theorem test_ldr_abort : after 0xE5910000
    { start 0x20000010 [(0, 0x11111111), (1, 0xF00000)] [] with
      platform := { plat with abortRules := [⟨0xF00000, 0xF00000, [.word], [.load], [false]⟩] } }
    (fun t => t.pc == 0x10 && t.spsr.abt == 0x20000010 && shows [(0, 0x11111111), (1, 0xF00000), (14, 0x8008)] 0x20000097 t)
      = true := by decide

/-- A state with a coprocessor that accepts every word and moves two words. -/
def withCp (cp : Fin 16) (s : State) : State :=
  { s with coprocs := s.coprocs.set cp.val (some ⟨[⟨0, 0, [true, false], 2, true⟩], []⟩) }

-- Coprocessors: K1, K2, K4, K5, K7, K8 (the data is a free value), K12, K11 as LDC2, K19, K18 with two words.
theorem test_cdp_absent : after 0xEE2AC583 (start 0x10 [] [])
    (fun t => t.pc == 4 && t.spsr.und == 0x10 && shows [(14, 0x8004)] 0x9B t) = true := by decide
theorem test_cdp : after 0xEE2AC583 (withCp 5 (start 0x13 [(7, 9)] []))
    (fun t => t.pc == 0x8004 && shows [(7, 9)] 0x13 t) = true := by decide
theorem test_cdp2 : after 0xFE2AC583 (withCp 5 (start 0x40000013 [] [])) (fun t => t.pc == 0x8004) = true := by decide
theorem test_mcr : after 0xEE277EDC (withCp 14 (start 0x13 [(7, 0xDEADBEEF)] []))
    (fun t => t.pc == 0x8004 && shows [(7, 0xDEADBEEF)] 0x13 t) = true := by decide
theorem test_mcr2 : after 0xFE277EDC (withCp 14 (start 0x13 [] [])) (fun t => t.pc == 0x8004) = true := by decide
theorem test_mrc : after 0xEEB04F72 (withCp 15 (start 0x80000013 [(3, 5)] []))
    (fun t => t.pc == 0x8004 && shows [(3, 5)] 0x80000013 t) = true := by decide
theorem test_mrc2_pc : after 0xFE10F110 (withCp 1 (start 0x80000013 [(3, 5)] []))
    (fun t => t.pc == 0x8004 && t.phys (.low 3) == 5) = true := by decide
theorem test_ldc : after 0xECB24601 (withCp 6 (start 0x13 [(2, 0x1000)] []))
    (fun t => t.pc == 0x8004 && shows [(2, 0x1004)] 0x13 t) = true := by decide
theorem test_ldc2 : after 0xFDB24601 (withCp 6 (start 0x13 [(2, 0x1000)] []))
    (fun t => t.pc == 0x8004 && shows [(2, 0x1004)] 0x13 t) = true := by decide
theorem test_stc : after 0xEC229804 (withCp 8 (start 0x13 [(2, 0x1000)] []))
    (fun t => t.pc == 0x8004 && shows [(2, 0xFF0)] 0x13 t) = true := by decide
theorem test_stc2 : after 0xFDA28801 (withCp 8 (start 0x13 [(2, 0x1000)] []))
    (fun t => t.pc == 0x8004 && shows [(2, 0x1004)] 0x13 t) = true := by decide

/-- The pc after the instruction that follows an LDM (2), or none where it stops as R440 says. -/
def afterUserBank (i : Instr) : Option Word :=
  match runInstr i { start 0xD3 [] [] with userBankHazard := true } with
  | .next t => some t.pc
  | _ => none

/-- R440: a failed condition reads and writes nothing; a passed one, an SWI and a BKPT stop (R471, R472 write R14). -/
theorem test_hazard_condition : [Instr.mov .eq false 13 (.imm 0 0), .mov .al false 13 (.imm 0 0), .mov .al false 7 (.imm 0 0),
    .swi .eq 0, .swi .al 0, .bkpt 0 0].map afterUserBank = [some 0x8004, none, some 0x8004, some 0x8004, none, none] := by
  decide

-- Stops that depend on the state: Q15, Q16, Q17, Q8, D37, B12, L40, B9, L27, K25.
theorem test_stops :
    faultOf 0xE121F000 (start 0xD3 [(0, 0xF3)] []) = some .msrChangesT ∧
    faultOf 0xE121F000 (start 0xD3 [(0, 0xC0)] []) = some .illegalMode ∧
    faultOf 0xE122F000 (start 0xD3 [(0, 0x100)] []) = some .reservedPsrBits ∧
    faultOf 0xE14F0000 (start 0x10 [] []) = some .noSpsr ∧
    faultOf 0xE12FFF11 (start 0xD3 [(1, 0x9002)] []) = some .interworkTarget ∧
    faultOf 0xE591F000 (start 0xD3 [(1, 0x2001)] [(0x2000, 0x9000)]) = some .unalignedPcLoad ∧
    faultOf 0xEA800000 (start 0xD3 [] []) = some .branchWrap ∧
    faultOf 0xE1D100B0 (start 0xD3 [(1, 0x1001)] bytes26) = some .unalignedHalfword ∧
    faultOf 0xED924600 (withCp 6 (start 0x13 [(2, 0xFFFFFFFC)] [])) = some .wordsPastTop := by decide

/-! ## Steps -/

/-- A state at 0x8008 with a CPSR and the inputs of the coming boundary. -/
def atBoundary (cpsr : Word) (i : Inputs) : State := { start cpsr [] [] with pc := 0x8008, inputs := [i] }

/-- What holds after one step, if it has a next state. -/
def afterStep (s : State) (p : State → Bool) : Bool :=
  match step s with
  | .next t => p t
  | _ => false

/-- X1. -/
theorem test_irq : afterStep (atBoundary 0x60000010 ⟨false, true, false, false⟩)
    (fun t => t.pc == 0x18 && t.spsr.irq == 0x60000010 && shows [(14, 0x800C)] 0x60000092 t) = true := by decide
/-- X16. -/
theorem test_fiq_before_irq : afterStep (atBoundary 0x10 ⟨false, true, true, false⟩)
    (fun t => t.pc == 0x1C && t.spsr.fiq == 0x10 && shows [(14, 0x800C)] 0xD1 t) = true := by decide
/-- X8. -/
theorem test_prefetch_abort : afterStep
    { start 0x20000010 [] [] with
      platform := { plat with abortRules := [⟨0x8000, 0x8000, [.word], [.fetch], [false]⟩] } }
    (fun t => t.pc == 0xC && t.spsr.abt == 0x20000010 && shows [(14, 0x8004)] 0x20000097 t) = true := by decide
/-- P11: the word stored to is not executed. -/
theorem test_stale : step { start 0xD3 [] [] with written := [0x8003] } = .fault .staleInstruction := rfl
/-- `withFetchWord` places the word that the next step runs: S1. -/
theorem test_withFetchWord : afterStep ((start 0x200000D3 [] []).withFetchWord 32 0xE3B000FF)
    (shows [(0, 0xFF)] 0x200000D3) = true := by decide

/-! ## Witnesses: a state and operands that meet the hypotheses of each obligation, clause by clause -/

/-- `Runs`, computed. -/
def runsB (s : State) (i : Instr) : Bool :=
  i.wellFormed && match condOf i with
    | none => true
    | some c => conditionPassed c s.cpsr

theorem runs_of {s : State} {i : Instr} (h : runsB s i = true) : Runs i s := by
  simp only [runsB, Bool.and_eq_true] at h
  refine ⟨h.1, fun c hc => ?_⟩
  have h2 := h.2
  rw [hc] at h2
  exact h2

theorem runs_all {s : State} {l : List Instr} (h : l.all (runsB s) = true) : ∀ i ∈ l, Runs i s :=
  fun i hi => runs_of (List.all_eq_true.mp h i hi)

theorem executes_all {s : State} {l : List Instr} (h : l.all (runsB s) = true) (hp : s.pc ≠ 0xFFFFFFFC) :
    ∀ i ∈ l, Executes i s :=
  fun i hi => ⟨runs_all h i hi, hp⟩

theorem next_of_afterStep {s : State} {p : State → Bool} (h : afterStep s p = true) : ∃ t, step s = .next t := by
  unfold afterStep at h
  split at h
  · exact ⟨_, by assumption⟩
  · exact absurd h (by decide)

/-- Supervisor mode at 0x8000 with R1 = 5, R2 = 33 and a word of memory. -/
def s0 : State := start 0xD3 [(1, 5), (2, 33), (4, 0x1000)] [(0x1000, 0x44332211)]

/-- User mode at 0x8000. -/
def s1 : State := start 0x10 [(1, 5), (4, 0x1000)] [(0x1000, 0x44332211)]

/-- IRQ mode at 0x8000 with R14 = 0x800C and a saved status. -/
def sIrq (spsr : Word) (link : Word) : State :=
  { start 0x92 [(0, 0x2000), (14, link)] [(0x2000, 0x77), (0x2004, link)] with
    spsr := { fiq := 0, irq := spsr, svc := 0, abt := 0, und := 0 } }

/-- The device window of the witnesses, 0x4000 to 0x4FFF, beside the platform's other parameters. -/
def withIo (s : State) : State := { s with platform := { s.platform with ioRegions := [⟨0x4000, 0x4FFF⟩] } }

/-- Aborts of every load and store of the bytes `lo .. hi`. -/
def withAborts (lo hi : Nat) (s : State) : State :=
  { s with
    platform := { s.platform with
      abortRules := [⟨lo, hi, [.byte, .half, .word], [.load, .store], [true, false]⟩] } }

def withAlignCheck (s : State) : State := { s with platform := { s.platform with alignCheck := true } }

theorem witness_DecodeOfEncode : (Instr.ldrh .al true true true 0 1 (.imm 0xFF)).wellFormed = true ∧
    (Instr.undefSpace 0xE7F000F0).wellFormed = true ∧ (Instr.bkpt 0xABC 0xD).wellFormed = true := by decide

theorem witness_StepKeepsInv : s0.Inv ∧ ∃ t, step s0 = .next t :=
  ⟨⟨by decide, by decide, by decide, by decide, by decide, by decide⟩,
    next_of_afterStep (p := fun _ => true) (by decide)⟩

theorem witness_PlatformConstant : ∃ t, step s0 = .next t := next_of_afterStep (p := fun _ => true) (by decide)

theorem witness_UserModeConfined : modeBits s1.cpsr = userBits ∧ (∃ t, exec (.swi .al 0) s1 = .next t) ∧
    ∃ t, exec (.msrReg .al false 0b1001 1) s1 = .next t := ⟨by decide, ⟨_, rfl⟩, ⟨_, rfl⟩⟩

/-- A word that names R13, placed at the pc, with and without the flag of R440. -/
def sHazard (b : Bool) : State := { placeWord s0 0xE1A0D001 with userBankHazard := b }

theorem witness_StepRunsDecoded : ∀ b : Bool,
    (currentInputs (sHazard b)).reset = false ∧ (sHazard b).resetHeld = false ∧
    (currentInputs (sHazard b)).fiq = false ∧ (currentInputs (sHazard b)).irq = false ∧
    flagT (sHazard b).cpsr = false ∧ isStale (takeInputs (sHazard b)) = false ∧
    (takeInputs (sHazard b)).privDropPending = false ∧ (sHazard b).isIo .word (sHazard b).pc = false ∧
    (sHazard b).memAbort (sHazard b).pc .word .fetch true = false ∧ decodeWord (fetchWord (sHazard b)) =
      .mov .al false 13 (.shiftImm 0 .lsl 1) ∧
    hazardStops (.mov .al false 13 (.shiftImm 0 .lsl 1)) (sHazard b) = b := by decide

theorem witness_Conditions : (Instr.add .eq true 0 1 (.imm 0 1)).wellFormed = true ∧
    condOf (.add .eq true 0 1 (.imm 0 1)) = some .eq ∧ conditionPassed .eq s0.cpsr = false ∧ s0.pc ≠ 0xFFFFFFFC ∧
    (0b1110#4) ≠ 0b1111 := by decide

theorem witness_UnpredictableStops : (Instr.mul .eq false 15 2 1).unpredictable = some .pcOperand := by decide

/-- Fetches of the word at 0x8000 abort in User mode only. -/
def fetchRules (privs : List Bool) : Platform := { plat with abortRules := [⟨0x8000, 0x8000, [.word], [.fetch], privs⟩] }

theorem witness_FetchStops :
    isStale { s0 with written := [0x8003] } = true ∧
    (permissionDiffers { s0 with privDropPending := true, platform := fetchRules [false] } = true ∧
      isStale { s0 with privDropPending := true, platform := fetchRules [false] } = false) ∧
    ({ s0 with platform := { plat with ioRegions := [⟨0x8000, 0x8000⟩] } } : State).isIo .word s0.pc = true ∧
    ({ s0 with platform := fetchRules [true] } : State).memAbort s0.pc .word .fetch (privileged s0.cpsr) = true ∧
    flagT s0.cpsr = false ∧ currentInputs s0 = ⟨false, false, false, false⟩ := by decide

theorem witness_HazardStops : (sHazard true).userBankHazard = true ∧
    (Instr.mov .al false 13 (.imm 0 0)).unpredictable = none ∧
    (namedRegs (.mov .al false 13 (.imm 0 0))).any isBanked = true ∧ namesSpsr (.mrs .al true 0) = true ∧
    (namedRegs (.mov .al false 7 (.imm 0 0))).any isBanked = false ∧ namesSpsr (.mov .al false 7 (.imm 0 0)) = false ∧
    condOf (.mov .al false 13 (.imm 0 0)) = some .al ∧ conditionPassed .al (sHazard true).cpsr = true ∧
    condOf (.mov .eq false 13 (.imm 0 0)) = some .eq ∧ conditionPassed .eq (sHazard true).cpsr = false ∧
    (namedRegs (.swi .al 0)).any isBanked = true ∧ namesSpsr (.bkpt 0 0) = true ∧
    (Instr.mul .al false 15 2 1).unpredictable ≠ none ∧
    (sHazard false).userBankHazard = false := by decide

theorem witness_ThumbState : flagT (start 0xF3 [] []).cpsr = true ∧ currentInputs (start 0xF3 [] []) = ⟨false, false, false, false⟩ ∧
    (start 0xF3 [] []).platform.thumbVariant = .t ∧
    ({ start 0xF3 [] [] with platform := { plat with thumbVariant := .nonT } } : State).platform.thumbVariant = .nonT := by
  decide

theorem witness_Interrupts :
    currentInputs (atBoundary 0x10 ⟨false, true, true, false⟩) = ⟨false, true, true, false⟩ ∧
    flagF (0x10 : Word) = false ∧ flagI (0x10 : Word) = false ∧
    currentInputs (atBoundary 0x50 ⟨false, true, true, false⟩) = ⟨false, true, true, false⟩ ∧
    flagF (0x50 : Word) = true ∧ flagI (0x50 : Word) = false ∧
    flagF (0xD0 : Word) = true ∧ flagI (0xD0 : Word) = true := by decide

theorem witness_ResetTaken : (currentInputs (atBoundary 0x10 ⟨true, true, true, false⟩)).reset = true ∧
    (currentInputs { s0 with resetHeld := true }).reset = false ∧ ({ s0 with resetHeld := true } : State).resetHeld = true := by
  decide

theorem witness_SwiAndBkpt : ∀ i ∈ [Instr.swi .al 0, .swi .ne 0xFFFFFF], Runs i s1 := runs_all (by decide)

theorem witness_UndefinedWordsTrap : ∀ i ∈ [Instr.undefCoprocSpace 0xEC400000, .undefCoprocSpace 0xFC000000,
    .undefUnconditional 0xF5D0F000, .undefControlImm 0xE3000000, .undefArith 0xE0400090, .undefLoadStore 0xE1100090,
    .undefDouble 0xE1C000D0, .undefControlReg 0xE1000050, .undefSpace 0x17F000F0], Runs i s1 := runs_all (by decide)

/-- Without an SPSR; reserved bits; an illegal mode; T set; an aligned and an unaligned return; and the plain branch. -/
theorem witness_ResultToPc :
    (∀ s ∈ [s1, sIrq 0x110 0x800C, sIrq 0x15 0x800C, sIrq 0x30 0x800D, sIrq 0x10 0x800C, sIrq 0x10 0x800D],
      Runs (.sub .al true 14 15 (.imm 0 4)) s ∧ Runs (.mov .al false 15 (.shiftImm 0 .lsl 14)) s) ∧
    dpResult (.sub .al true 14 15 (.imm 0 4)) (sIrq 0x10 0x800C) = some (true, 15, 0x8008) ∧
    dpResult (.mov .al false 15 (.shiftImm 0 .lsl 14)) (sIrq 0x10 0x800D) = some (false, 15, 0x800D) ∧
    s1.currentExc = none ∧ (sIrq 0x10 0x800C).currentExc = some .irq ∧ reservedBits (0x110 : Word) ≠ 0 ∧
    reservedBits (0x15 : Word) = 0 ∧ legalMode (modeBits 0x15) = false ∧ flagT (0x30 : Word) = true ∧
    legalMode (modeBits 0x30) = true ∧ flagT (0x10 : Word) = false ∧ legalMode (modeBits 0x10) = true := by
  refine ⟨fun s hs => ⟨runs_of ?_, runs_of ?_⟩, by decide⟩ <;>
  · simp only [List.mem_cons, List.not_mem_nil, or_false] at hs
    rcases hs with rfl | rfl | rfl | rfl | rfl | rfl <;> decide

theorem witness_LogicalResults : ∀ i ∈ [Instr.and .al true 1 0 (.imm 4 0xFF), .eor .al false 1 0 (.shiftReg 2 .ror 1),
    .orr .al true 15 14 (.shiftImm 0 .ror 1), .bic .pl true 1 1 (.shiftImm 0 .asr 15), .mov .al true 13 (.imm 0 0),
    .mvn .al false 7 (.shiftImm 31 .lsl 7)], Executes i s0 := executes_all (by decide) (by decide)

theorem witness_AdditionResults : ∀ i ∈ [Instr.add .al true 1 0 (.imm 4 0xFF), .adc .al false 1 1 (.shiftReg 2 .lsl 1)],
    Executes i s0 := executes_all (by decide) (by decide)

theorem witness_SubtractionResults : ∀ i ∈ [Instr.sub .al true 1 0 (.imm 4 0xFF), .rsb .al true 1 0 (.imm 0 0),
    .sbc .al true 1 14 (.shiftImm 0 .lsr 2), .rsc .al false 1 1 (.shiftReg 2 .asr 1)], Executes i s0 :=
  executes_all (by decide) (by decide)

theorem witness_ComparisonFlags : ∀ i ∈ [Instr.tst .al 1 (.imm 4 0xFF), .teq .al 1 (.shiftReg 2 .ror 1),
    .cmp .al 1 (.imm 0 5), .cmn .al 15 (.shiftImm 0 .ror 1)], Executes i s0 := executes_all (by decide) (by decide)

/-- Shift amounts at the ends of the ranges: 0, 1, 31, 32, 33, 255, and 256, which counts as 0. -/
theorem witness_RegisterShifts : ∀ n ∈ [0, 1, 31, 32, 33, 255],
    (bits ((start 0xD3 [(2, BitVec.ofNat 32 n)] []).readReg 2) 0 8).toNat = n := by decide

theorem witness_ImmediateShifterOperands : (0#5).toNat = 0 ∧ (1#5).toNat ≠ 0 ∧ (31#5).toNat = 31 := by decide

theorem witness_ShortMultiplies : ∀ i ∈ [Instr.mul .al true 0 0 1, .mla .al false 1 1 1 2], Executes i s0 :=
  executes_all (by decide) (by decide)

theorem witness_LongMultiplies : ∀ i ∈ [Instr.umull .al true 3 0 2 1, .umlal .al false 3 0 0 1, .smull .al true 3 0 2 1,
    .smlal .al true 3 0 3 1], Executes i s0 := executes_all (by decide) (by decide)

theorem witness_CountLeadingZeros : (∀ i ∈ [Instr.clz .al 0 1, .clz .al 0 3], Executes i s0) ∧ s0.readReg 1 ≠ 0 ∧
    s0.readReg 3 = 0 := ⟨executes_all (by decide) (by decide), by decide⟩

theorem witness_MoveFromStatus : (∀ i ∈ [Instr.mrs .al false 0, .mrs .al true 0], Executes i s0) ∧
    s0.currentExc = some .svc ∧ Runs (.mrs .al true 0) s1 ∧ s1.currentExc = none :=
  ⟨executes_all (by decide) (by decide), by decide, runs_of (by decide), by decide⟩

/-- The merged value has a reserved bit; is no mode; changes T; is written; and User mode. -/
theorem witness_MoveToCpsr : (∀ i ∈ [Instr.msrReg .al false 0b0001 1, .msrImm .al false 0b1111 0 0xD3], Executes i s0) ∧
    Executes (.msrReg .al false 0b1111 1) s1 ∧
    reservedBits (mergeFields 0b0010 true s0.cpsr 0x100) ≠ 0 ∧
    legalMode (modeBits (mergeFields 0b0001 true s0.cpsr 0xC0)) = false ∧
    flagT (mergeFields 0b0001 true s0.cpsr 0xF3) ≠ flagT s0.cpsr ∧
    legalMode (modeBits (mergeFields 0b0001 true s0.cpsr 0x10)) = true ∧
    reservedBits (mergeFields 0b0001 true s0.cpsr 0x10) = 0 ∧ privileged s1.cpsr = false :=
  ⟨executes_all (by decide) (by decide), ⟨runs_of (by decide), by decide⟩, by decide⟩

theorem witness_MoveToSpsr : (∀ i ∈ [Instr.msrReg .al true 0b1111 1, .msrImm .al true 0b1000 2 0xF], Executes i s0) ∧
    s0.currentExc = some .svc ∧ (∀ i ∈ [Instr.msrReg .al true 0b1111 1], Executes i s1) ∧ s1.currentExc = none :=
  ⟨executes_all (by decide) (by decide), by decide, executes_all (by decide) (by decide), by decide⟩

/-- Targets at both ends of the address space: 0, -4, 0xFFFFFFFC and 2^32, from 0x8000 and from 0xFFFFFFF0. -/
theorem witness_Branches : (∀ i ∈ [Instr.b .al 0, .bl .al 0], Runs i s0) ∧
    (0x8000 : Int) + 8 + 4 * (BitVec.ofInt 24 (-0x2002)).toInt = 0 ∧
    (0x8000 : Int) + 8 + 4 * (BitVec.ofInt 24 (-0x2003)).toInt = -4 ∧
    (0xFFFFFFF0 : Int) + 8 + 4 * (1#24).toInt = 0xFFFFFFFC ∧ (0xFFFFFFF0 : Int) + 8 + 4 * (2#24).toInt = 2 ^ 32 :=
  ⟨runs_all (by decide), by decide⟩

theorem witness_BranchExchange : (∀ i ∈ [Instr.bx .al 1, .blx2 .al 1, .bx .al 2, .blx2 .al 2],
      Runs i (start 0xD3 [(1, 0x9001), (2, 0x9002)] [])) ∧
    bits (0x9001 : Word) 0 2 ≠ 0b10 ∧ bits (0x9002 : Word) 0 2 = 0b10 := ⟨runs_all (by decide), by decide⟩

/-- The hypotheses of `SingleLoads` on the access, computed. -/
def loadReady (s : State) (i : Instr) : Bool :=
  match loadOf i s with
  | some (x, _) => x.rd != 15 && decide (alignmentOf x.size x.ad.address s = .proceed) &&
      !s.memAbort x.ad.address x.size .load x.priv
  | none => false

/-- The hypotheses of `SingleStores` on the access, computed. -/
def storeReady (s : State) (i : Instr) : Bool :=
  match storeOf i s with
  | some (x, _) => decide (alignmentOf x.size x.ad.address s = .proceed) && !s.memAbort x.ad.address x.size .store x.priv
  | none => false

/-- All seven loads, from memory and (R4 = 0x4000) from a device. -/
def loads : List Instr := [.ldr .al .post true 4 0 (.reg 0 .ror 1), .ldrt .al true 4 0 (.imm 4), .ldrb .al .pre false 4 0 (.imm 1),
  .ldrbt .al false 4 0 (.imm 1), .ldrh .al true true true 4 0 (.imm 2), .ldrsb .al false true false 4 0 (.reg 0 1),
  .ldrsh .al true true false 4 0 (.imm 4)]

/-- All five stores. -/
def stores : List Instr := [.str .al .offset true 4 15 (.imm 3), .strt .al true 4 15 (.imm 4), .strb .al .pre true 4 0 (.imm 1),
  .strbt .al true 4 0 (.imm 1), .strh .al true true true 4 0 (.imm 2)]

theorem witness_SingleLoads : (∀ i ∈ loads, Executes i s0) ∧ (∀ i ∈ loads, Executes i (withIo (s0.writeReg 4 0x4010))) ∧
    (∀ i ∈ loads, loadReady s0 i = true ∧ loadReady (withIo (s0.writeReg 4 0x4010)) i = true) ∧
    s0.isIo .word 0x1000 = false ∧ (withIo (s0.writeReg 4 0x4010)).isIo .word 0x4010 = true :=
  ⟨executes_all (by decide) (by decide), executes_all (by decide) (by decide), by decide⟩

/-- `LDR R15, [R4]` with the word's bits 1:0 at 01 and at 10; and from an unaligned address without and with checking. -/
theorem witness_LoadToPc :
    ([(0x9001 : Word), 0x9002].all fun v =>
      let s := start 0xD3 [(4, 0x2000)] [(0x2000, v)]
      runsB s (.ldr .al .offset true 4 15 (.imm 0)) && aligned .word (mode2 .offset true 4 (.imm 0) s).address &&
      !s.memAbort 0x2000 .word .load true && (s.load .word 0x2000).1 == v) = true ∧
    bits (0x9001 : Word) 0 2 ≠ 0b10 ∧ bits (0x9002 : Word) 0 2 = 0b10 ∧
    aligned .word (mode2 .offset true 4 (.imm 1) s0).address = false ∧ s0.platform.alignCheck = false ∧
    (withAlignCheck s0).platform.alignCheck = true := by decide

theorem witness_SingleStores : (∀ i ∈ stores, Executes i s0) ∧ (∀ i ∈ stores, Executes i (withIo (s0.writeReg 4 0x4010))) ∧
    (∀ i ∈ stores, storeReady s0 i = true ∧ storeReady (withIo (s0.writeReg 4 0x4010)) i = true) ∧
    Memory.wf s0.mem = true :=
  ⟨executes_all (by decide) (by decide), executes_all (by decide) (by decide), by decide⟩

/-- Every load and store of the lists above aborts where 0xFF0 to 0x1010 does, with its base updated or restored. -/
theorem witness_SingleAborts :
    (∀ i ∈ loads, ∃ x f, loadOf i (withAborts 0xFF0 0x1010 s0) = some (x, f) ∧
      alignmentOf x.size x.ad.address (withAborts 0xFF0 0x1010 s0) = .proceed ∧ x.rd ≠ 15 ∧
      (withAborts 0xFF0 0x1010 s0).memAbort x.ad.address x.size .load x.priv = true) ∧
    (∀ i ∈ stores, ∃ x v, storeOf i (withAborts 0xFF0 0x1010 s0) = some (x, v) ∧
      alignmentOf x.size x.ad.address (withAborts 0xFF0 0x1010 s0) = .proceed ∧
      (withAborts 0xFF0 0x1010 s0).memAbort x.ad.address x.size .store x.priv = true) ∧
    (∀ i ∈ loads ++ stores, Runs i (withAborts 0xFF0 0x1010 s0)) ∧
    ∃ x f, loadOf (.ldr .al .pre true 4 15 (.imm 4)) s0 = some (x, f) ∧ x.rd = 15 ∧ aligned x.size x.ad.address = true := by
  refine ⟨fun i hi => ?_, fun i hi => ?_, runs_all (by decide), _, _, rfl, by decide⟩
  · simp only [loads, List.mem_cons, List.not_mem_nil, or_false] at hi
    rcases hi with rfl | rfl | rfl | rfl | rfl | rfl | rfl <;> exact ⟨_, _, rfl, by decide⟩
  · simp only [stores, List.mem_cons, List.not_mem_nil, or_false] at hi
    rcases hi with rfl | rfl | rfl | rfl | rfl <;> exact ⟨_, _, rfl, by decide⟩

/-- Two words each, at R0, for every form that transfers a sequence of words. -/
def sequences : List Instr := [.ldm1 .al .ia false 0 0x0006, .ldm2 .al .ia false 0 0x0006, .ldm3 .al .ia false 0 0x0002,
  .stm1 .al .ia true 0 0x0006, .stm2 .al .ia false 0 0x0006, .ldc .al (.post true 1) false 0 4 6,
  .ldc2 (.offset true 0) false 0 4 6, .stc .al (.unindexed 5) false 0 4 6, .stc2 (.offset true 0) true 0 4 6]

/-- Supervisor mode with R0 given, coprocessor 6 attached, and the device window of the witnesses. -/
def sSeq (base : Word) : State := withIo (withCp 6 (start 0xD3 [(0, base)] []))

/-- An aligned word, an odd byte, an odd halfword with and without checking, an unaligned word with and without; under
checking an LDM, STM, LDC, STC and SWP at an unaligned address. -/
theorem witness_Alignment :
    (∀ i ∈ [Instr.ldr .al .offset true 4 0 (.imm 0), .ldrb .al .offset true 4 0 (.imm 1), .strh .al true true false 4 0 (.imm 1),
      .str .al .offset true 4 0 (.imm 3)], Runs i s0 ∧ Runs i (withAlignCheck s0)) ∧
    (∃ x v, storeOf (.strh .al true true false 4 0 (.imm 1)) s0 = some (x, v) ∧ x.size = .half ∧
      aligned x.size x.ad.address = false) ∧
    (∃ x v, storeOf (.str .al .offset true 4 0 (.imm 3)) (withAlignCheck s0) = some (x, v) ∧ x.size = .word ∧
      aligned x.size x.ad.address = false) ∧
    (∃ x f, loadOf (.ldr .al .offset true 4 0 (.imm 0)) s0 = some (x, f) ∧ aligned x.size x.ad.address = true) ∧
    (∃ x f, loadOf (.ldrb .al .offset true 4 0 (.imm 1)) s0 = some (x, f) ∧ x.size = .byte) ∧
    s0.platform.alignCheck = false ∧ (withAlignCheck s0).platform.alignCheck = true ∧
    (∀ i ∈ sequences ++ [.swp .al 0 3 1], Runs i (sSeq 0x3001)) ∧
    (sequences.all fun i => match sequenceOf i (withAlignCheck (sSeq 0x3001)) with
      | some q => !wordsWrap q.first q.addresses.length && !aligned .word q.first
      | none => false) = true ∧
    aligned .word ((sSeq 0x3001).readReg 0) = false := by
  refine ⟨fun i hi => ⟨runs_all (s := s0) ?_ i hi, runs_all (s := withAlignCheck s0) ?_ i hi⟩, ⟨_, _, rfl, by decide⟩,
    ⟨_, _, rfl, by decide⟩, ⟨_, _, rfl, by decide⟩, ⟨_, _, rfl, by decide⟩, by decide, by decide, runs_all (by decide),
    by decide, by decide⟩ <;> decide

/-- The words of section 2.7 in Supervisor, IRQ and User mode. -/
def sWords (cpsr : Word) (last : Word) : State :=
  { start cpsr [(0, 0x2000), (4, 0x2000)] [(0x2000, 0xA0), (0x2004, 0xA1), (0x2008, last)] with
    spsr := { fiq := 0, irq := 0x10, svc := 0x40000010, abt := 0, und := 0 } }

theorem transfers_of {k : AccessKind} {a : Word} {n : Nat} {s : State}
    (h : (!wordsWrap a n && (aligned .word a || !s.platform.alignCheck) &&
      (wordAddresses a n).all fun x => !s.memAbort x .word k (privileged s.cpsr)) = true) : Transfers k a n s := by
  simp only [Bool.and_eq_true, Bool.or_eq_true, Bool.not_eq_true', List.all_eq_true] at h
  exact ⟨h.1.1, h.1.2, h.2⟩

/-- Three registers; the base in the list, with and without writeback; sixteen words; an unaligned base. -/
theorem witness_LoadMultiple :
    (∀ i ∈ [Instr.ldm1 .al .ia true 0 0x000E, .ldm1 .al .ia false 0 0x0007, .ldm1 .al .ia true 0 0x0007,
      .ldm2 .al .ia false 0 0x2100], Executes i (sWords 0xD3 0xA2)) ∧
    (sWords 0xD3 0xA2).currentExc ≠ none ∧
    Transfers .load (mode4Start .ia ((sWords 0xD3 0xA2).readReg 0) 3) 3 (sWords 0xD3 0xA2) ∧
    Transfers .load (mode4Start .db 0x2001 1) 1 (sWords 0xD3 0xA2) ∧
    ((wordAddresses 0x2000 16).all fun a => !(sWords 0xD3 0xA2).isIo .word a) = true ∧
    wordsWrap 0xFFFFFFFC 1 = false :=
  ⟨executes_all (by decide) (by decide), by decide, transfers_of (by decide), transfers_of (by decide), by decide⟩

/-- The last word's bits 1:0 at 01, 10 and 00; an SPSR with reserved bits, of no mode, with T set and with T clear. -/
theorem witness_LoadMultipleToPc :
    (∀ i ∈ [Instr.ldm1 .al .ia true 0 0x8006, .ldm3 .al .ia false 0 0x0006], Runs i (sWords 0xD3 0x9001)) ∧
    Transfers .load (mode4Start .ia ((sWords 0xD3 0x9001).readReg 0) 3) 3 (sWords 0xD3 0x9001) ∧
    ((wordAddresses 0x2000 3).all fun a => !(sWords 0xD3 0x9001).isIo .word a) = true ∧
    (sWords 0xD3 0x9001).memRead .word 0x2008 = 0x9001 ∧ bits (0x9001 : Word) 0 2 ≠ 0b10 ∧
    (sWords 0xD3 0x9002).memRead .word 0x2008 = 0x9002 ∧ bits (0x9002 : Word) 0 2 = 0b10 ∧
    bit (0x9001 : Word) 1 = false ∧ bit (0x9002 : Word) 1 = true ∧ (sWords 0xD3 0x9001).currentExc = some .svc ∧
    reservedBits (0x40000010 : Word) = 0 ∧ legalMode (modeBits 0x40000010) = true ∧ flagT (0x40000010 : Word) = false ∧
    flagT (0x30 : Word) = true ∧ reservedBits (0x110 : Word) ≠ 0 ∧ legalMode (modeBits 0x15) = false :=
  ⟨runs_all (by decide), transfers_of (by decide), by decide⟩

theorem witness_StoreMultiple :
    (∀ i ∈ [Instr.stm1 .al .db true 0 0x400E, .stm1 .al .ia true 4 0x8011, .stm2 .al .ib false 0 0xE000],
      Executes i (sWords 0xD3 0xA2)) ∧
    (sWords 0xD3 0xA2).currentExc ≠ none ∧
    Transfers .store (mode4Start .db ((sWords 0xD3 0xA2).readReg 0) 4) 4 (sWords 0xD3 0xA2) ∧
    ((wordAddresses 0x1FF0 4).all fun a => !(sWords 0xD3 0xA2).isIo .word a) = true ∧ Memory.wf (sWords 0xD3 0xA2).mem = true :=
  ⟨executes_all (by decide) (by decide), by decide, transfers_of (by decide), by decide⟩

/-- The second of two words aborts (A8, A10), in normal memory and on devices; R8 to R12 in FIQ mode differ from User's. -/
theorem witness_MultipleAborts :
    (∀ i ∈ [Instr.ldm1 .al .ia true 0 0x0006, .ldm2 .al .ia false 0 0x0006, .ldm3 .al .ia true 0 0x0002,
      .stm1 .al .ia true 0 0x0006, .stm2 .al .ia false 0 0x0006], Runs i (withAborts 0x2004 0x2007 (sWords 0xD3 0xA2))) ∧
    (sWords 0xD3 0xA2).currentExc ≠ none ∧
    wordsWrap (mode4Start .ia ((sWords 0xD3 0xA2).readReg 0) 2) 2 = false ∧ aligned .word 0x2000 = true ∧
    ((wordAddresses 0x2000 2).all fun a => !(withAborts 0x2004 0x2007 (sWords 0xD3 0xA2)).isIo .word a) = true ∧
    (∀ k ∈ [AccessKind.load, .store],
      ((wordAddresses 0x2000 2).any fun a => (withAborts 0x2004 0x2007 (sWords 0xD3 0xA2)).memAbort a .word k true) = true) ∧
    physReg 0b10001 8 ≠ physReg userBits 8 ∧
    (∀ i ∈ [Instr.ldm1 .al .ia false 0 0x0006, .ldm2 .al .ia false 0 0x0006, .stm1 .al .ia true 0 0x0006,
      .stm2 .al .ia false 0 0x0006], Runs i (withAborts 0x4014 0x4017 (sSeq 0x4010))) ∧
    ((wordAddresses 0x4010 2).all ((withAborts 0x4014 0x4017 (sSeq 0x4010)).isIo .word)) = true ∧
    (∀ k ∈ [AccessKind.load, .store], beforeAbort k true (wordAddresses 0x4010 2)
      (withAborts 0x4014 0x4017 (sSeq 0x4010)) = [0x4010]) ∧ (0x0006#16).getLsbD 15 = false :=
  ⟨runs_all (by decide), by decide, by decide, by decide, by decide, by decide, by decide, runs_all (by decide), by decide⟩

/-- User mode; words past 0xFFFFFFFC, for every form; words that leave the device window, and the PC with a device. -/
theorem witness_MultipleStops : (∀ i ∈ [Instr.ldm2 .al .ia false 0 0x0006, .ldm3 .al .ia false 0 0x0006,
      .stm2 .al .ia false 0 0x0006], Runs i (sWords 0x10 0)) ∧ (sWords 0x10 0).currentExc = none ∧
    (∀ i ∈ sequences, Runs i (sSeq 0xFFFFFFFC)) ∧ (∀ i ∈ sequences, Runs i (sSeq 0x4FFC)) ∧
    (sequences.all fun i => (sequenceOf i (sSeq 0xFFFFFFFC)).any fun q => wordsWrap q.first q.addresses.length) = true ∧
    ((sequences.take 5).all fun i => (sequenceOf i (sSeq 0x4FFC)).any fun q =>
      !wordsWrap q.first q.addresses.length && aligned .word q.first && q.multiple &&
      q.addresses.any ((sSeq 0x4FFC).isIo .word) && !q.addresses.all ((sSeq 0x4FFC).isIo .word)) = true ∧
    (sequenceOf (.ldm3 .al .ia false 0 0x0002) (sSeq 0x4000)).any (fun q => q.pcListed &&
      q.addresses.all ((sSeq 0x4000).isIo .word)) = true ∧
    wordsWrap 0xFFFFFFF8 2 = false :=
  ⟨runs_all (by decide), by decide, runs_all (by decide), runs_all (by decide), by decide⟩

theorem witness_Swaps : (∀ i ∈ [Instr.swp .al 4 0 1, .swpb .al 4 1 1], Executes i s0) ∧
    (∀ i ∈ [Instr.swp .al 4 0 1, .swpb .al 4 1 1], Executes i (withIo (s0.writeReg 4 0x4010))) ∧
    (∀ z ∈ [Size.word, .byte], alignmentOf z (s0.readReg 4) s0 = .proceed ∧
      s0.memAbort (s0.readReg 4) z .load true = false ∧ s0.memAbort (s0.readReg 4) z .store true = false ∧
      s0.isIo z (s0.readReg 4) = false ∧ (withIo s0).isIo z 0x4010 = true) ∧ Memory.wf s0.mem = true :=
  ⟨executes_all (by decide) (by decide), executes_all (by decide) (by decide), by decide⟩

/-- A11 and A12: the load aborts; only the store aborts. -/
theorem witness_SwapAborts : (∀ i ∈ [Instr.swp .al 4 0 1, .swpb .al 4 1 1], Runs i (withAborts 0x1000 0x1000 s0)) ∧
    (∀ z ∈ [Size.word, .byte], alignmentOf z 0x1000 (withAborts 0x1000 0x1000 s0) = .proceed ∧
      (withAborts 0x1000 0x1000 s0).memAbort ((withAborts 0x1000 0x1000 s0).readReg 4) z .load true = true) ∧
    ({ s0 with platform := { plat with abortRules := [⟨0x1000, 0x1000, [.word], [.store], [true]⟩] } } : State).memAbort
      0x1000 .word .store true = true := ⟨runs_all (by decide), by decide⟩

/-- The ten coprocessor instructions for coprocessor 6. -/
def coprocInstrs : List Instr := [.cdp .al 2 10 12 6 4 3, .cdp2 2 10 12 6 4 3, .mcr .al 1 7 7 6 6 12, .mcr2 1 7 7 6 6 12,
  .mrc .al 5 0 4 6 3 2, .mrc2 5 0 15 6 3 2, .ldc .al (.pre true 1) false 2 4 6, .ldc2 (.unindexed 5) false 2 4 6,
  .stc .al (.post false 4) true 2 4 6, .stc2 (.offset true 1) false 15 4 6]

/-- The row of a coprocessor without a supplied operation, or with a count it may not ask for. -/
def withRow (count : Nat) (supplied : Bool) (s : State) : State :=
  { s with coprocs := s.coprocs.set 6 (some ⟨[⟨0, 0, [true, false], count, supplied⟩], []⟩) }

theorem witness_CoprocessorAbsent : (∀ i ∈ coprocInstrs, Runs i s0) ∧ s0.coproc 6 = none ∧
    (∀ i ∈ coprocInstrs, Runs i (withRow 2 false s0)) ∧
    (∀ p ∈ [(2, false), (0, true), (17, true)], ∀ i ∈ coprocInstrs,
      ((withRow p.1 p.2 s0).coproc 6).any (fun k =>
        (acceptingRule k (encode i) true).any fun r => r.count == p.1 && r.supplied == p.2) = true) :=
  ⟨runs_all (by decide), by decide, runs_all (by decide), by decide⟩

/-- A state with coprocessor 6, which moves two words, and R2 = 0x1000. -/
def sCp : State := withCp 6 (start 0x13 [(2, 0x1000)] [(0x1000, 0xBBBB0000), (0x1004, 0xAAAA0001)])

theorem witness_CoprocessorMoves : (∀ i ∈ coprocInstrs, Executes i sCp) ∧
    (∀ i ∈ coprocInstrs, ∃ k r, sCp.coproc 6 = some k ∧ acceptingRule k (encode i) (privileged sCp.cpsr) = some r ∧
      r.supplied = true ∧ 1 ≤ r.count ∧ r.count ≤ 16) := by
  refine ⟨executes_all (by decide) (by decide), fun i hi => ⟨_, ⟨0, 0, [true, false], 2, true⟩, rfl, ?_, by decide⟩⟩
  simp only [coprocInstrs, List.mem_cons, List.not_mem_nil, or_false] at hi
  rcases hi with rfl | rfl | rfl | rfl | rfl | rfl | rfl | rfl | rfl | rfl <;> decide

/-- The last word of the device window and the first word of memory above it, for LDC, LDC2, STC and STC2. -/
theorem mixed_words : (∀ i ∈ sequences.drop 5, Executes i (sSeq 0x4FFC)) ∧
    wordsWrap 0x4FFC 2 = false ∧ aligned .word 0x4FFC = true ∧ wordAddresses 0x4FFC 2 = [0x4FFC, 0x5000] ∧
    (wordAddresses 0x4FFC 2).map ((sSeq 0x4FFC).isIo .word) = [true, false] ∧
    (∀ k ∈ [AccessKind.load, .store],
      (wordAddresses 0x4FFC 2).any (fun a => (sSeq 0x4FFC).memAbort a .word k true) = false ∧
      beforeAbort k true (wordAddresses 0x4FFC 2) (withAborts 0x5000 0x5003 (sSeq 0x4FFC)) = [0x4FFC]) ∧
    (∀ i ∈ sequences.drop 5, Runs i (withAborts 0x5000 0x5003 (sSeq 0x4FFC))) :=
  ⟨executes_all (by decide) (by decide), by decide, by decide, by decide, by decide, by decide, runs_all (by decide)⟩

/-- Beside what `witness_CoprocessorMoves` shows of the same instructions, and `mixed_words`. -/
theorem witness_CoprocessorLoads : ∀ m ∈ [Mode5.pre true 1, .unindexed 5, .post false 4, .offset true 1],
    let ad := mode5 m (sCp.readReg 2)
    wordsWrap ad.address 2 = false ∧ aligned .word ad.address = true ∧
    ((wordAddresses (alignTo .word ad.address) 2).all fun a =>
      !sCp.memAbort a .word .load true && !sCp.isIo .word a) = true := by decide

/-- Beside what `witness_CoprocessorMoves` shows of the same instructions, and `mixed_words`. -/
theorem witness_CoprocessorStores : (∀ m ∈ [Mode5.pre true 1, .unindexed 5, .post false 4, .offset true 1],
    let ad := mode5 m (sCp.readReg 2)
    wordsWrap ad.address 2 = false ∧
    ((wordAddresses (alignTo .word ad.address) 2).all fun a =>
      !sCp.memAbort a .word .store true && !sCp.isIo .word a) = true) ∧ sCp.platform.alignCheck = false ∧
    Memory.wf sCp.mem = true := by decide

/-- K22 and K23, the second word aborting; beside `mixed_words`. -/
theorem witness_CoprocessorAborts : (∀ i ∈ coprocInstrs, Runs i (withAborts 0x1008 0x1008 sCp)) ∧
    (withAborts 0x1008 0x1008 sCp).coproc 6 = sCp.coproc 6 ∧
    wordsWrap (mode5 (.pre true 1) (sCp.readReg 2)).address 2 = false ∧
    (∀ k ∈ [AccessKind.load, .store],
      ((wordAddresses (alignTo .word (mode5 (.pre true 1) (sCp.readReg 2)).address) 2).any fun a =>
        (withAborts 0x1008 0x1008 sCp).memAbort a .word k true) = true) := ⟨runs_all (by decide), by decide⟩

theorem witness_Registers : ∀ m ∈ [0b10000#5, 0b10001#5, 0b10010#5, 0b10011#5, 0b10111#5, 0b11011#5, 0b11111#5],
    legalMode m = true := by decide

theorem witness_MemoryAccess : Memory.wf s0.mem = true ∧ s0.mem.length = 4 := by decide

/-- Two words of the window for every form without the PC, none aborted; and with the second aborted. -/
theorem witness_DeviceSequences : (∀ i ∈ sequences, Executes i (sSeq 0x4010)) ∧
    (sSeq 0x4010).currentExc ≠ none ∧ Transfers .load (mode4Start .ia ((sSeq 0x4010).readReg 0) 2) 2 (sSeq 0x4010) ∧
    Transfers .store (mode4Start .ia ((sSeq 0x4010).readReg 0) 2) 2 (sSeq 0x4010) ∧
    ((wordAddresses 0x4010 2).all ((sSeq 0x4010).isIo .word)) = true ∧
    (∀ k ∈ [AccessKind.load, .store], ((wordAddresses 0x4010 2).map fun a =>
      (withAborts 0x4014 0x4014 (sSeq 0x4010)).memAbort a .word k true) = [false, true]) ∧
    (∀ i ∈ sequences, (sequenceOf i (withAborts 0x4014 0x4014 (sSeq 0x4010))).any (fun q =>
      q.addresses == [0x4010, 0x4014]) = true) :=
  ⟨executes_all (by decide) (by decide), by decide, transfers_of (by decide), transfers_of (by decide), by decide⟩

/-- From 0x8000 over unwritten words, each an ANDEQ whose condition fails, with a stop condition. -/
def sRun (stop : StopCondition) : State := { start 0xD3 [] [] with platform := { plat with stop := stop } }

theorem test_run_halt : (match runFrom 0 5 (sRun ⟨some 0x8008, none⟩) with
    | .ended (.stopped t) => t.pc == 0x8008
    | _ => false) = true := by decide
theorem test_run_bound : (match runFrom 0 5 (sRun ⟨none, some 3⟩) with
    | .ended (.stopped t) => t.pc == 0x800C
    | _ => false) = true := by decide
theorem test_run_unpredictable : runFrom 0 5 (placeWord (sRun ⟨none, none⟩) 0x01200070) =
    .ended (.unpredictable (.unpredictable .bkptCondition)) := by decide

theorem witness_RunEnds : stopHolds 0 (sRun ⟨some 0x8000, none⟩) = true ∧ stopHolds 2 (sRun ⟨none, some 3⟩) = false ∧
    (match runFrom 0 2 (sRun ⟨none, some 3⟩) with
     | .running t => t.pc == 0x8008
     | _ => false) = true := by decide

end Sys2Proof.Tests
end

section
/-! Registers by mode and by name: what each legal mode sees, and the register rules in one place (R43 to R47). -/

namespace Sys2Proof.Machine

/-- R42's list of mode numbers. -/
theorem legalMode_iff (m : BitVec 5) :
    legalMode m = true ↔ m = 0b10000 ∨ m = 0b10001 ∨ m = 0b10010 ∨ m = 0b10011 ∨ m = 0b10111 ∨ m = 0b11011 ∨
      m = 0b11111 := by
  revert m; decide

/-- Writing a register by name changes nothing but registers. -/
theorem writeRegIn_state (s : State) (m : BitVec 5) (n : RegNum) (v : Word) :
    s.writeRegIn m n v = { s with regs := (s.writeRegIn m n v).regs } :=
  writeRegs_state m [(n, v)] s

/-- Settles O57: the bank table by the seven legal modes, the register rules from the laws of the named operations. -/
theorem registers : Obligations.Registers := by
  unfold Obligations.Registers
  refine ⟨fun m hm => ?_, fun s m n v => ⟨readRegIn_writeRegIn_same s m n v, fun r hr => ?_, readRegIn_fifteen s m,
    writeRegIn_fifteen s m v, writeRegIn_state s m n v⟩⟩
  · rcases (legalMode_iff m).mp hm with rfl | rfl | rfl | rfl | rfl | rfl | rfl <;> decide
  · rw [phys_writeRegIn, if_neg hr]

end Sys2Proof.Machine
end

section
/-! Coprocessor instructions that are not performed (R482, R484, R20). -/

namespace Sys2Proof.Machine

theorem Runs.unpredictable_eq_none {i : Instr} {s : State} (h : Runs i s) : i.unpredictable = none := by
  have hw := h.wellFormed
  simp only [Instr.wellFormed, Bool.and_eq_true, beq_iff_eq] at hw
  exact hw.1

/-- A conditional instruction that runs is its body. -/
theorem conditional_of_runs {i : Instr} {c : Cond} {body : State → Result} {s : State} (h : Runs i s)
    (hc : condOf i = some c) : conditional i c body s = body s :=
  conditional_passed h.unpredictable_eq_none (h.condition c hc)

/-- An unconditional instruction that runs is its body. -/
theorem always_of_runs {i : Instr} {body : State → Result} {s : State} (h : Runs i s) : always i body s = body s :=
  always_runs h.unpredictable_eq_none

/-- R482: no coprocessor, or none that accepts the word. -/
theorem withCoproc_of_not_accepted {w : Word} {cp : BitVec 4} {body : Coproc → Nat → State → Result} {s : State}
    (h : ∀ k, s.coproc cp = some k → acceptingRule k w (privileged s.cpsr) = none) :
    withCoproc w cp body s = .next (undefinedException s) :=
  withCoproc_next.mpr (.inl ⟨h, rfl⟩)

theorem withCoproc_of_accepted {w : Word} {cp : BitVec 4} {body : Coproc → Nat → State → Result} {s : State}
    {k : Coproc} {r : CoprocRule} (hk : s.coproc cp = some k)
    (hr : acceptingRule k w (privileged s.cpsr) = some r) :
    withCoproc w cp body s = if r.supplied then body k r.count s else .refused .coprocessorOperation := by
  unfold withCoproc; simp only [hk, hr]

/-- R484: a count the contract does not allow. -/
theorem coprocTransfer_of_bad_count {ad : Addressing} {n : Nat} {body : List Word → State → Result} {s : State}
    (h : n = 0 ∨ 16 < n) : coprocTransfer ad n body s = .refused .coprocessorContract := by
  unfold coprocTransfer; rw [if_pos h]

/-! ## What each instruction that runs does -/

section
variable {c : Cond} {op1 crn crd cp : BitVec 4} {op3 : BitVec 3} {op2 : BitVec 3} {crm : BitVec 4} {rn rd : RegNum}
  {mode : Mode5} {n : Bool} {s : State}

theorem exec_cdp (h : Runs (.cdp c op1 crn crd cp op2 crm) s) :
    exec (.cdp c op1 crn crd cp op2 crm) s = coprocOperation (encode (.cdp c op1 crn crd cp op2 crm)) cp s := by
  simp only [exec, execCdp]
  exact conditional_of_runs h rfl

theorem exec_mcr (h : Runs (.mcr c op3 crn rd cp op2 crm) s) :
    exec (.mcr c op3 crn rd cp op2 crm) s = toCoproc (encode (.mcr c op3 crn rd cp op2 crm)) cp rd s := by
  simp only [exec, execMcr]
  exact conditional_of_runs h rfl

theorem exec_mrc (h : Runs (.mrc c op3 crn rd cp op2 crm) s) :
    exec (.mrc c op3 crn rd cp op2 crm) s = fromCoproc (encode (.mrc c op3 crn rd cp op2 crm)) cp rd s := by
  simp only [exec, execMrc]
  exact conditional_of_runs h rfl

theorem exec_ldc (h : Runs (.ldc c mode n rn crd cp) s) :
    exec (.ldc c mode n rn crd cp) s = loadCoproc (encode (.ldc c mode n rn crd cp)) mode rn cp s := by
  simp only [exec, execLdc]
  exact conditional_of_runs h rfl

theorem exec_stc (h : Runs (.stc c mode n rn crd cp) s) :
    exec (.stc c mode n rn crd cp) s = storeCoproc (encode (.stc c mode n rn crd cp)) mode rn cp s := by
  simp only [exec, execStc]
  exact conditional_of_runs h rfl

theorem exec_cdp2 (h : Runs (.cdp2 op1 crn crd cp op2 crm) s) :
    exec (.cdp2 op1 crn crd cp op2 crm) s = coprocOperation (encode (.cdp2 op1 crn crd cp op2 crm)) cp s := by
  simp only [exec, execCdp2]
  exact always_of_runs h

theorem exec_mcr2 (h : Runs (.mcr2 op3 crn rd cp op2 crm) s) :
    exec (.mcr2 op3 crn rd cp op2 crm) s = toCoproc (encode (.mcr2 op3 crn rd cp op2 crm)) cp rd s := by
  simp only [exec, execMcr2]
  exact always_of_runs h

theorem exec_mrc2 (h : Runs (.mrc2 op3 crn rd cp op2 crm) s) :
    exec (.mrc2 op3 crn rd cp op2 crm) s = fromCoproc (encode (.mrc2 op3 crn rd cp op2 crm)) cp rd s := by
  simp only [exec, execMrc2]
  exact always_of_runs h

theorem exec_ldc2 (h : Runs (.ldc2 mode n rn crd cp) s) :
    exec (.ldc2 mode n rn crd cp) s = loadCoproc (encode (.ldc2 mode n rn crd cp)) mode rn cp s := by
  simp only [exec, execLdc2]
  exact always_of_runs h

theorem exec_stc2 (h : Runs (.stc2 mode n rn crd cp) s) :
    exec (.stc2 mode n rn crd cp) s = storeCoproc (encode (.stc2 mode n rn crd cp)) mode rn cp s := by
  simp only [exec, execStc2]
  exact always_of_runs h

end

/-- The ten coprocessor instructions, by the number of the coprocessor they address (R485). -/
def coprocOf : Instr → Option (BitVec 4)
  | .cdp _ _ _ _ cp _ _ => some cp
  | .cdp2 _ _ _ cp _ _ => some cp
  | .mcr _ _ _ _ cp _ _ => some cp
  | .mcr2 _ _ _ cp _ _ => some cp
  | .mrc _ _ _ _ cp _ _ => some cp
  | .mrc2 _ _ _ cp _ _ => some cp
  | .ldc _ _ _ _ _ cp => some cp
  | .ldc2 _ _ _ _ cp => some cp
  | .stc _ _ _ _ _ cp => some cp
  | .stc2 _ _ _ _ cp => some cp
  | _ => none

/-- A coprocessor instruction that runs asks its coprocessor first, with its whole word (R482, R485). -/
theorem exec_eq_withCoproc {i : Instr} {cp : BitVec 4} {s : State} (hi : coprocOf i = some cp) (h : Runs i s) :
    ∃ body, exec i s = withCoproc (encode i) cp body s := by
  cases i <;> cases hi
  case cdp => exact ⟨_, exec_cdp h⟩
  case cdp2 => exact ⟨_, exec_cdp2 h⟩
  case mcr => exact ⟨_, exec_mcr h⟩
  case mcr2 => exact ⟨_, exec_mcr2 h⟩
  case mrc => exact ⟨_, exec_mrc h⟩
  case mrc2 => exact ⟨_, exec_mrc2 h⟩
  case ldc => exact ⟨_, exec_ldc h⟩
  case ldc2 => exact ⟨_, exec_ldc2 h⟩
  case stc => exact ⟨_, exec_stc h⟩
  case stc2 => exact ⟨_, exec_stc2 h⟩

/-- R482: a coprocessor instruction that no coprocessor accepts. -/
theorem exec_of_not_accepted {i : Instr} {cp : BitVec 4} {s : State} (hi : coprocOf i = some cp) (h : Runs i s)
    (hn : ∀ k, s.coproc cp = some k → acceptingRule k (encode i) (privileged s.cpsr) = none) :
    exec i s = .next (undefinedException s) := by
  obtain ⟨body, hbody⟩ := exec_eq_withCoproc hi h
  rw [hbody, withCoproc_of_not_accepted hn]

/-- R20 (b): a coprocessor instruction accepted, its operation not supplied. -/
theorem exec_of_not_supplied {i : Instr} {cp : BitVec 4} {s : State} {k : Coproc} {r : CoprocRule}
    (hi : coprocOf i = some cp) (h : Runs i s) (hk : s.coproc cp = some k)
    (hr : acceptingRule k (encode i) (privileged s.cpsr) = some r) (hs : r.supplied = false) :
    exec i s = .refused .coprocessorOperation := by
  obtain ⟨body, hbody⟩ := exec_eq_withCoproc hi h
  rw [hbody, withCoproc_of_accepted hk hr, hs]
  rfl

section
variable {w : Word} {mode : Mode5} {rn : RegNum} {cp : BitVec 4} {s : State} {k : Coproc} {r : CoprocRule}

theorem loadCoproc_of_bad_count (hk : s.coproc cp = some k) (hr : acceptingRule k w (privileged s.cpsr) = some r)
    (hs : r.supplied = true) (hn : r.count = 0 ∨ 16 < r.count) :
    loadCoproc w mode rn cp s = .refused .coprocessorContract := by
  unfold loadCoproc
  rw [withCoproc_of_accepted hk hr, if_pos hs]
  exact coprocTransfer_of_bad_count hn

theorem storeCoproc_of_bad_count (hk : s.coproc cp = some k) (hr : acceptingRule k w (privileged s.cpsr) = some r)
    (hs : r.supplied = true) (hn : r.count = 0 ∨ 16 < r.count) :
    storeCoproc w mode rn cp s = .refused .coprocessorContract := by
  unfold storeCoproc
  rw [withCoproc_of_accepted hk hr, if_pos hs]
  exact coprocTransfer_of_bad_count hn

end

/-- Settles O52: all ten instructions ask their coprocessor first, and LDC and STC then check its count. -/
theorem coprocessorAbsent : Obligations.CoprocessorAbsent := by
  unfold Obligations.CoprocessorAbsent
  constructor
  · intro i cp s hi h
    have hcp : coprocOf i = some cp := by
      rcases hi with ⟨_, _, _, _, _, _, rfl⟩ | ⟨_, _, _, _, _, rfl⟩ | ⟨_, _, _, _, _, _, rfl⟩ | ⟨_, _, _, _, _, rfl⟩ |
        ⟨_, _, _, _, _, _, rfl⟩ | ⟨_, _, _, _, _, rfl⟩ | ⟨_, _, _, _, _, rfl⟩ | ⟨_, _, _, _, rfl⟩ |
        ⟨_, _, _, _, _, rfl⟩ | ⟨_, _, _, _, rfl⟩ <;> rfl
    exact ⟨exec_of_not_accepted hcp h, fun k r => exec_of_not_supplied hcp h⟩
  · rintro c mode n rn crd cp s i k r (rfl | rfl | rfl | rfl) h hk hr hs hn
    · exact (exec_ldc h).trans (loadCoproc_of_bad_count hk hr hs hn)
    · exact (exec_ldc2 h).trans (loadCoproc_of_bad_count hk hr hs hn)
    · exact (exec_stc h).trans (storeCoproc_of_bad_count hk hr hs hn)
    · exact (exec_stc2 h).trans (storeCoproc_of_bad_count hk hr hs hn)

end Sys2Proof.Machine
end

section
/-! Data processing with a destination: a register written and the flags (R264), and the sums and differences of R15 as
exact numbers. -/

namespace Sys2Proof.Machine

/-! ## A register written and the status register replaced -/

theorem phys_congr {s t : State} (h : t.regs = s.regs) (r : PhysReg) : t.phys r = s.phys r := by
  simp only [State.phys, h]

theorem readRegIn_congr {s t : State} (h : t.regs = s.regs) (m : BitVec 5) {n : RegNum} (hn : n ≠ 15) :
    t.readRegIn m n = s.readRegIn m n := by
  obtain ⟨r, hr⟩ := physReg_isSome (m := m) hn
  simp only [State.readRegIn, hr, phys_congr h]

/-- The outcome of an instruction that writes one register, N, Z, C, V, and goes to the next word. -/
theorem registerOutcome_of_written {s t : State} {rd : RegNum} {v : Word}
    {flags : Bool × Bool × Bool × Bool} (hrd : rd ≠ 15) (hflags : nzcv t.cpsr = flags)
    (hregs : t.regs = (s.writeReg rd v).regs) (hpsr : bits t.cpsr 0 28 = bits s.cpsr 0 28) (hpc : t.pc = s.pc + 4)
    (hrest : t = { s with regs := t.regs, pc := t.pc, cpsr := t.cpsr }) :
    RegisterOutcome rd v flags s t := by
  refine ⟨?_, hflags, hpc, ⟨fun r hr => ?_, hpsr, hrest⟩⟩
  · unfold State.readReg
    rw [modeBits_of_low hpsr, readRegIn_congr hregs _ hrd]
    exact readRegIn_writeRegIn_same s _ rd v hrd
  · rw [phys_congr hregs]
    exact (phys_writeRegIn s _ rd v r).trans (if_neg (hr rd (by simp)))

/-- R264: a data-processing result to a register other than R15, with the flags where S is set. -/
theorem writeResult_completes {i : Instr} {f : Bool} {rd : RegNum} {v psr : Word} {s : State}
    (hi : exec i s = writeResult f rd v psr s) (hrd : rd ≠ 15) (hpc : s.pc ≠ 0xFFFFFFFC)
    (hpsr : bits psr 0 28 = bits s.cpsr 0 28) :
    Completes i s (RegisterOutcome rd v (if f then nzcv psr else nzcv s.cpsr) s) := by
  refine ⟨_, hi.trans (writeResult_next.mpr (.inr (.inr ⟨hrd, hpc, rfl⟩))), ?_⟩
  cases f
  · exact registerOutcome_of_written hrd rfl rfl rfl rfl (by simp)
  · exact registerOutcome_of_written hrd rfl rfl hpsr rfl (by simp)

/-! ## Sums and differences as exact numbers (R15) -/

theorem ofInt_sub {w : Nat} (x y : Int) : BitVec.ofInt w (x - y) = BitVec.ofInt w x - BitVec.ofInt w y := by
  rw [Int.sub_eq_add_neg, BitVec.ofInt_add, BitVec.ofInt_neg, ← BitVec.sub_eq_add_neg]

theorem carryWord_eq_ofNat (c : Bool) : carryWord c = BitVec.ofNat 32 c.toNat := by cases c <;> rfl

theorem sum_eq_ofNat (a b : Word) (c : Bool) :
    a + b + carryWord c = BitVec.ofNat 32 (a.toNat + b.toNat + c.toNat) := by
  rw [carryWord_eq_ofNat, BitVec.ofNat_add, BitVec.ofNat_add, BitVec.ofNat_toNat, BitVec.ofNat_toNat]
  simp

theorem sum_eq_ofInt (a b : Word) (c : Bool) :
    a + b + carryWord c = BitVec.ofInt 32 (a.toInt + b.toInt + (c.toNat : Int)) := by
  rw [carryWord_eq_ofNat, BitVec.ofInt_add, BitVec.ofInt_add, BitVec.ofInt_toInt, BitVec.ofInt_toInt,
    BitVec.ofInt_natCast]

theorem difference_eq_ofInt (a b : Word) (c : Bool) :
    a - b - carryWord c = BitVec.ofInt 32 (a.toInt - b.toInt - (c.toNat : Int)) := by
  rw [carryWord_eq_ofNat, ofInt_sub, ofInt_sub, BitVec.ofInt_toInt, BitVec.ofInt_toInt,
    BitVec.ofInt_natCast]

theorem difference_eq_ofInt_toNat (a b : Word) (c : Bool) :
    a - b - carryWord c = BitVec.ofInt 32 ((a.toNat : Int) - b.toNat - c.toNat) := by
  rw [carryWord_eq_ofNat, ofInt_sub, ofInt_sub, BitVec.ofInt_natCast, BitVec.ofInt_natCast,
    BitVec.ofInt_natCast, BitVec.ofNat_toNat, BitVec.ofNat_toNat]
  simp

/-- A signed result does not fit exactly where 32 bits do not hold it. -/
theorem outsideSigned_eq (x : Int) : outsideSigned x = decide ((BitVec.ofInt 32 x).toInt ≠ x) := by
  rw [outsideSigned, ← Bool.decide_or, BitVec.toInt_ofInt, Int.bmod_def]
  exact decide_eq_decide.mpr (by omega)

/-- N, Z, C and V of a sum (R264). -/
theorem nzcv_addFlags (psr a b : Word) (c : Bool) :
    nzcv (addFlags psr a b c) =
      (decide ((a + b + carryWord c).toInt < 0), decide (a + b + carryWord c = 0),
        decide (2 ^ 32 ≤ a.toNat + b.toNat + c.toNat),
        decide ((a + b + carryWord c).toInt ≠ a.toInt + b.toInt + (c.toNat : Int))) := by
  simp only [addFlags, nzcv_setNZCV, bit_31_eq, beq_eq_decide, overflowFromAdd, outsideSigned_eq, ← sum_eq_ofInt,
    carryFrom]
  congr 3

/-- N, Z, C and V of a difference, C being NOT borrow (R264). -/
theorem nzcv_subFlags (psr a b : Word) (c : Bool) :
    nzcv (subFlags psr a b c) =
      (decide ((a - b - carryWord c).toInt < 0), decide (a - b - carryWord c = 0),
        decide (b.toNat + c.toNat ≤ a.toNat),
        decide ((a - b - carryWord c).toInt ≠ a.toInt - b.toInt - (c.toNat : Int))) := by
  simp only [subFlags, nzcv_setNZCV, bit_31_eq, beq_eq_decide, overflowFromSub, outsideSigned_eq,
    ← difference_eq_ofInt, borrowFrom, ← decide_not, Nat.not_lt]

/-! ## Addition and subtraction -/

section
variable {i : Instr} {f : Bool} {rd : RegNum} {a b : Word} {c : Bool} {s : State}

/-- R274, R275: what an instruction that answers `a + b + c` does. -/
theorem addTo_completes (hi : exec i s = addTo f rd a b c s) (hrd : rd ≠ 15) (hpc : s.pc ≠ 0xFFFFFFFC) :
    let v := BitVec.ofNat 32 (a.toNat + b.toNat + c.toNat)
    Completes i s (RegisterOutcome rd v
      (if f then
        (decide (v.toInt < 0), decide (v = 0), decide (2 ^ 32 ≤ a.toNat + b.toNat + c.toNat),
          decide (v.toInt ≠ a.toInt + b.toInt + (c.toNat : Int)))
      else nzcv s.cpsr) s) := by
  have h := writeResult_completes hi hrd hpc (bits_setNZCV s.cpsr _ _ _ _)
  rwa [nzcv_addFlags, sum_eq_ofNat] at h

/-- R272, R273, R276, R277: what an instruction that answers `a - b - c` does. -/
theorem subTo_completes (hi : exec i s = subTo f rd a b c s) (hrd : rd ≠ 15) (hpc : s.pc ≠ 0xFFFFFFFC) :
    let v := BitVec.ofInt 32 ((a.toNat : Int) - b.toNat - c.toNat)
    Completes i s (RegisterOutcome rd v
      (if f then
        (decide (v.toInt < 0), decide (v = 0), decide (b.toNat + c.toNat ≤ a.toNat),
          decide (v.toInt ≠ a.toInt - b.toInt - (c.toNat : Int)))
      else nzcv s.cpsr) s) := by
  have h := writeResult_completes hi hrd hpc (bits_setNZCV s.cpsr _ _ _ _)
  rwa [nzcv_subFlags, difference_eq_ofInt_toNat] at h

end

section
variable {c : Cond} {f : Bool} {rn rd : RegNum} {op : Operand2} {s : State}

theorem exec_add (h : Runs (.add c f rn rd op) s) :
    exec (.add c f rn rd op) s = addTo f rd (s.readReg rn) (shifterOperand op s).1 false s := by
  simp only [exec, execAdd]
  exact conditional_of_runs h rfl

theorem exec_adc (h : Runs (.adc c f rn rd op) s) :
    exec (.adc c f rn rd op) s = addTo f rd (s.readReg rn) (shifterOperand op s).1 (flagC s.cpsr) s := by
  simp only [exec, execAdc]
  exact conditional_of_runs h rfl

theorem exec_sub (h : Runs (.sub c f rn rd op) s) :
    exec (.sub c f rn rd op) s = subTo f rd (s.readReg rn) (shifterOperand op s).1 false s := by
  simp only [exec, execSub]
  exact conditional_of_runs h rfl

theorem exec_rsb (h : Runs (.rsb c f rn rd op) s) :
    exec (.rsb c f rn rd op) s = subTo f rd (shifterOperand op s).1 (s.readReg rn) false s := by
  simp only [exec, execRsb]
  exact conditional_of_runs h rfl

theorem exec_sbc (h : Runs (.sbc c f rn rd op) s) :
    exec (.sbc c f rn rd op) s = subTo f rd (s.readReg rn) (shifterOperand op s).1 (!flagC s.cpsr) s := by
  simp only [exec, execSbc]
  exact conditional_of_runs h rfl

theorem exec_rsc (h : Runs (.rsc c f rn rd op) s) :
    exec (.rsc c f rn rd op) s = subTo f rd (shifterOperand op s).1 (s.readReg rn) (!flagC s.cpsr) s := by
  simp only [exec, execRsc]
  exact conditional_of_runs h rfl

end

/-- Settles O24: ADD and ADC answer `a + b + c`, whose flags are those of the exact sums. -/
theorem additionResults : Obligations.AdditionResults := by
  unfold Obligations.AdditionResults
  intro c f rn rd op s hrd
  exact ⟨fun h => addTo_completes (exec_add h.toRuns) hrd h.notLast,
    fun h => addTo_completes (exec_adc h.toRuns) hrd h.notLast⟩

/-- Settles O25: the four subtractions answer `a - b - c`, whose flags are those of the exact differences. -/
theorem subtractionResults : Obligations.SubtractionResults := by
  unfold Obligations.SubtractionResults
  intro c f rn rd op s hrd
  exact ⟨fun h => subTo_completes (exec_sub h.toRuns) hrd h.notLast,
    fun h => subTo_completes (exec_rsb h.toRuns) hrd h.notLast,
    fun h => subTo_completes (exec_sbc h.toRuns) hrd h.notLast,
    fun h => subTo_completes (exec_rsc h.toRuns) hrd h.notLast⟩

end Sys2Proof.Machine
end

section
/-! Normal memory as numbers: the byte a sized write leaves at each address, and the value of a sized read (R12, R105,
R106). -/

namespace Sys2Proof.Machine

/-- Concatenation as a sum. -/
theorem toNat_append_eq_add {m n : Nat} (x : BitVec m) (y : BitVec n) :
    (x ++ y).toNat = x.toNat * 2 ^ n + y.toNat := by
  rw [BitVec.toNat_append, ← Nat.shiftLeft_add_eq_or_of_lt y.isLt, Nat.shiftLeft_eq]

theorem toNat_zero_append (m : Nat) {n : Nat} (x : BitVec n) : (0#m ++ x).toNat = x.toNat := by
  rw [toNat_append_eq_add, BitVec.toNat_ofNat, Nat.zero_mod, Nat.zero_mul, Nat.zero_add]

/-- One byte after bytes are written at distinct offsets from an address. -/
theorem Memory.read_foldl {big : Bool} {size : Size} {v : Word} {a k : Nat} (hk : a + k < 2 ^ 32) :
    ∀ (l : List Nat) {m : List Host.Cell}, Memory.wf m = true → (∀ j ∈ l, a + j < 2 ^ 32) →
      Memory.read (l.foldl (fun m j => Memory.write m (a + j) (storedByte big size v j)) m) (a + k) =
        if k ∈ l then storedByte big size v k else Memory.read m (a + k)
  | [], _, _, _ => by simp
  | j :: rest, m, hm, hl => by
    rw [List.foldl_cons, Memory.read_foldl hk rest (Memory.wf_write _ _ hm (hl j (by simp)))
      fun i hi => hl i (by simp [hi]), Memory.read_write _ _ _ hm]
    by_cases hj : k = j
    · subst hj; simp
    · simp [hj]

/-- R106, "MemWrite is the inverse mapping": each byte of a sized write. -/
theorem Memory.read_writeSized {big : Bool} {size : Size} {v : Word} {m : List Host.Cell} {a k : Nat}
    (hm : Memory.wf m = true) (ha : a + sizeBytes size ≤ 2 ^ 32) (hk : k < sizeBytes size) :
    Memory.read (Memory.writeSized big size v m a) (a + k) = storedByte big size v k := by
  unfold Memory.writeSized
  rw [Memory.read_foldl (by omega) _ hm fun j hj => by have := List.mem_range.mp hj; omega,
    if_pos (List.mem_range.mpr hk)]

theorem toNat_storedByte (big : Bool) (size : Size) (v : Word) (k : Nat) :
    (storedByte big size v k).toNat =
      v.toNat / 2 ^ (8 * (if big then sizeBytes size - 1 - k else k)) % 2 ^ 8 := by
  simp only [storedByte, BitVec.extractLsb'_toNat, Nat.shiftRight_eq_div_pow]

/-- R114: the value of the low bytes. -/
theorem toNat_narrow (size : Size) (v : Word) : (narrow size v).toNat = v.toNat % 2 ^ (8 * sizeBytes size) := by
  cases size
  case byte => exact Nat.and_two_pow_sub_one_eq_mod v.toNat 8
  case half => exact Nat.and_two_pow_sub_one_eq_mod v.toNat 16
  case word => exact (Nat.mod_eq_of_lt v.isLt).symm

section
variable (big : Bool) (m : List Host.Cell) (a : Nat)

theorem Memory.toNat_readSized_byte : (Memory.readSized big .byte m a).toNat = (Memory.read m a).toNat :=
  toNat_zero_append 24 (Memory.read m a)

/-- R105, R106: a halfword from its two bytes. -/
theorem Memory.toNat_readSized_half :
    (Memory.readSized big .half m a).toNat =
      if big then (Memory.read m (a + 0)).toNat * 2 ^ 8 + (Memory.read m (a + 1)).toNat
      else (Memory.read m (a + 1)).toNat * 2 ^ 8 + (Memory.read m (a + 0)).toNat := by
  cases big
  all_goals
    simp only [Memory.readSized, toNat_append_eq_add, BitVec.toNat_ofNat, Nat.zero_mod, Nat.zero_mul,
      Nat.zero_add, Nat.add_zero, if_true, if_false, Bool.false_eq_true]

/-- R105, R106: a word from its four bytes. -/
theorem Memory.toNat_readSized_word :
    (Memory.readSized big .word m a).toNat =
      if big then
        (Memory.read m (a + 0)).toNat * 2 ^ 24 + (Memory.read m (a + 1)).toNat * 2 ^ 16 +
          (Memory.read m (a + 2)).toNat * 2 ^ 8 + (Memory.read m (a + 3)).toNat
      else
        (Memory.read m (a + 3)).toNat * 2 ^ 24 + (Memory.read m (a + 2)).toNat * 2 ^ 16 +
          (Memory.read m (a + 1)).toNat * 2 ^ 8 + (Memory.read m (a + 0)).toNat := by
  cases big
  all_goals
    simp only [Memory.readSized, toNat_append_eq_add, Nat.add_zero, if_true, if_false, Bool.false_eq_true]
    omega

end

/-- A sized read after a sized write at the same address is the value cut to the size. -/
theorem Memory.readSized_writeSized {big : Bool} {size : Size} {v : Word} {m : List Host.Cell} {a : Nat}
    (hm : Memory.wf m = true) (ha : a + sizeBytes size ≤ 2 ^ 32) :
    Memory.readSized big size (Memory.writeSized big size v m a) a = narrow size v := by
  have byte : ∀ k < sizeBytes size,
      (Memory.read (Memory.writeSized big size v m a) (a + k)).toNat =
        v.toNat / 2 ^ (8 * (if big then sizeBytes size - 1 - k else k)) % 2 ^ 8 := fun k hk => by
    rw [Memory.read_writeSized hm ha hk, toNat_storedByte]
  have hv := v.isLt
  refine BitVec.eq_of_toNat_eq ?_
  rw [toNat_narrow]
  cases size with
  | byte =>
    have h0 := byte 0 (by decide)
    rw [Memory.toNat_readSized_byte]
    cases big <;> simpa [sizeBytes] using h0
  | half =>
    rw [Memory.toNat_readSized_half, byte 0 (by decide), byte 1 (by decide)]
    cases big
    all_goals
      simp only [sizeBytes, if_true, if_false, Bool.false_eq_true]
      omega
  | word =>
    rw [Memory.toNat_readSized_word, byte 0 (by decide), byte 1 (by decide), byte 2 (by decide), byte 3 (by decide)]
    cases big
    all_goals
      simp only [sizeBytes, if_true, if_false, Bool.false_eq_true]
      omega

/-- R12: a load from normal memory after a store at the same address. -/
theorem memRead_memWrite_same (s : State) (size : Size) (a v : Word) (h : Memory.wf s.mem = true) :
    (s.memWrite size a v).memRead size a = narrow size v :=
  Memory.readSized_writeSized h (alignTo_end size a)

/-- Settles O58: bytes are read back by `Memory.read_writeSized`, and each sized read is the number its bytes form. -/
theorem memoryAccess : Obligations.MemoryAccess := by
  unfold Obligations.MemoryAccess
  intro s size a v h
  refine ⟨memRead_memWrite_same s size a v h, memWrite_keeps_wf s size a v h, fun x hx => ?_, ?_, ?_, ?_⟩
  · exact Memory.read_writeSized_other _ size v s.mem _ x hx
  · exact Memory.toNat_readSized_word _ s.mem _
  · exact Memory.toNat_readSized_half _ s.mem _
  · exact Memory.toNat_readSized_byte _ s.mem _

end Sys2Proof.Machine
end

section
/-! The platform through every operation of the model: one rule per shared operation, then one line per instruction. -/

namespace Sys2Proof.Machine

/-! ## The platform after each state update that has no law of its own yet -/

@[simp] theorem undefinedException_platform (s : State) : (undefinedException s).platform = s.platform := rfl

@[simp] theorem prefetchAbort_platform (s : State) : (prefetchAbort s).platform = s.platform := rfl

@[simp] theorem dataAbort_platform (s : State) : (dataAbort s).platform = s.platform := rfl

@[simp] theorem resetEntry_platform (s : State) : (resetEntry s).platform = s.platform := by
  unfold resetEntry; exact takeException_platform s .reset 0

@[simp] theorem writeLink_platform (s : State) : (writeLink s).platform = s.platform := writeReg_platform s 14 _

@[simp] theorem writeRegs_platform (m : BitVec 5) (pairs : List (RegNum × Word)) (s : State) :
    (writeRegs m pairs s).platform = s.platform := by
  rw [writeRegs_state m pairs s]

@[simp] theorem drawRegs_platform (m : BitVec 5) (regs : List RegNum) (s : State) :
    (drawRegs m regs s).platform = s.platform := by
  rw [drawRegs_state m regs s]

@[simp] theorem drawStored_platform (priv : Bool) (addrs : List Word) (s : State) :
    (drawStored priv addrs s).platform = s.platform := by
  rw [drawStored_state priv addrs s]

@[simp] theorem abortLoadMultiple_platform (m : BitVec 5) (rn : RegNum) (newBase : Option Word) (regs : List RegNum)
    (s : State) : (abortLoadMultiple m rn newBase regs s).platform = s.platform := by
  simp [abortLoadMultiple]

@[simp] theorem commitLoaded_platform (w : Bool) (rn : RegNum) (pairs : List (RegNum × Word)) (s : State) :
    (commitLoaded w rn pairs s).platform = s.platform := by
  unfold commitLoaded; dsimp only; split <;> simp

theorem loadWords_platform {priv : Bool} {addrs words : List Word} {s t : State}
    (h : loadWords priv addrs s = .done words t ∨ loadWords priv addrs s = .aborted t) : t.platform = s.platform := by
  rw [loadWords_state h]

theorem storeWords_platform {priv : Bool} {pairs : List (Word × Word)} {s t : State}
    (h : storeWords priv pairs s = .done t ∨ storeWords priv pairs s = .aborted t) : t.platform = s.platform := by
  rw [storeWords_state h]

/-! ## The rule of each shared operation -/

/-- If an operation answers a next state, its platform is `p`. -/
def KeepsPlatform (p : Platform) (r : Result) : Prop := ∀ t, r = .next t → t.platform = p

section
variable {p : Platform} {s : State}

theorem keepsPlatform_next {t : State} : KeepsPlatform p (.next t) ↔ t.platform = p := by
  simp [KeepsPlatform]

theorem keepsPlatform_fault (f : Fault) : KeepsPlatform p (.fault f) := fun _ h => by cases h

theorem keepsPlatform_refused (r : Refusal) : KeepsPlatform p (.refused r) := fun _ h => by cases h

theorem advance_keepsPlatform (h : s.platform = p) : KeepsPlatform p (advance s) := fun t ht => by
  obtain ⟨-, rfl⟩ := advance_next.mp ht
  exact h

theorem interwork_keepsPlatform (a : Word) (h : s.platform = p) : KeepsPlatform p (interwork a s) := fun t ht => by
  obtain ⟨-, rfl⟩ := interwork_next.mp ht
  exact h

theorem returnFromException_keepsPlatform {bad : Option Fault} {mask v : Word} (h : s.platform = p) :
    KeepsPlatform p (returnFromException bad mask v s) := fun t ht => by
  obtain ⟨new, -, ⟨-, rfl⟩ | ⟨-, -, rfl⟩⟩ := returnFromException_next.mp ht <;> exact h

theorem always_keepsPlatform {i : Instr} {body : State → Result} (h : KeepsPlatform p (body s)) :
    KeepsPlatform p (always i body s) := fun t ht => h t (always_next.mp ht).2

theorem conditional_keepsPlatform {i : Instr} {c : Cond} {body : State → Result} (hs : s.platform = p)
    (h : KeepsPlatform p (body s)) : KeepsPlatform p (conditional i c body s) := fun t ht => by
  obtain ⟨-, ⟨-, hb⟩ | ⟨-, ha⟩⟩ := conditional_next.mp ht
  · exact h t hb
  · exact advance_keepsPlatform hs t ha

theorem writeResult_keepsPlatform {f : Bool} {rd : RegNum} {v psr : Word} (h : s.platform = p) :
    KeepsPlatform p (writeResult f rd v psr s) := fun t ht => by
  obtain ⟨-, -, hr⟩ | ⟨-, -, -, rfl⟩ | ⟨-, -, rfl⟩ := writeResult_next.mp ht
  · exact returnFromException_keepsPlatform h t hr
  · exact h
  · exact (writeReg_platform s rd v).trans h

theorem branchBy_keepsPlatform {immed : BitVec 24} {b : Bool} {before : State → State}
    (h : (before s).platform = p) : KeepsPlatform p (branchBy immed b before s) := fun t ht => by
  obtain ⟨-, -, rfl⟩ := branchBy_next.mp ht
  exact h

theorem loadWith_keepsPlatform {size : Size} {priv : Bool} {rn : RegNum} {ad : Addressing}
    {finish : Word → State → Result} (h : s.platform = p)
    (hf : ∀ v u, u.platform = p → KeepsPlatform p (finish v u)) :
    KeepsPlatform p (loadWith size priv rn ad finish s) := fun t ht => by
  obtain ⟨-, rfl⟩ | ⟨-, -, rfl⟩ | ⟨-, -, hfin⟩ := loadWith_next.mp ht
  · exact h
  · simpa using h
  · exact hf _ _ (by simpa using h) t hfin

theorem toRegister_keepsPlatform (rd : RegNum) (v : Word) (h : s.platform = p) :
    KeepsPlatform p (toRegister rd v s) :=
  advance_keepsPlatform (by simpa using h)

theorem loadPc_keepsPlatform {rn : RegNum} {ad : Addressing} (h : s.platform = p) :
    KeepsPlatform p (loadPc rn ad s) := by
  unfold loadPc
  split
  · exact loadWith_keepsPlatform h fun v _ => interwork_keepsPlatform v
  · exact keepsPlatform_fault _

theorem storeWith_keepsPlatform {size : Size} {priv : Bool} {rn : RegNum} {ad : Addressing} {v : Word}
    (h : s.platform = p) : KeepsPlatform p (storeWith size priv rn ad v s) := fun t ht => by
  obtain ⟨-, rfl⟩ | ⟨-, -, rfl⟩ | ⟨-, -, ha⟩ := storeWith_next.mp ht
  · exact h
  · simpa using h
  · exact advance_keepsPlatform (by simpa using h) t ha

theorem exchange_keepsPlatform {size : Size} {rn rd rm : RegNum} {result : Word → Word → Word}
    (h : s.platform = p) : KeepsPlatform p (exchange size rn rd rm result s) := fun t ht => by
  obtain ⟨-, rfl⟩ | ⟨-, -, rfl⟩ | ⟨-, -, -, rfl⟩ | ⟨-, -, -, ha⟩ := exchange_next.mp ht
  · exact h
  · exact h
  · simpa using h
  · exact advance_keepsPlatform (by simpa using h) t ha

theorem loadMultiple_keepsPlatform {m : BitVec 5} {mode : Mode4} {w : Bool} {rn : RegNum} {list : BitVec 16}
    {finish : List (RegNum × Word) → State → Result} (h : s.platform = p)
    (hf : ∀ pairs u, u.platform = p → KeepsPlatform p (finish pairs u)) :
    KeepsPlatform p (loadMultiple m mode w rn list finish s) := fun t ht => by
  obtain rfl | ⟨u, nb, hu, rfl⟩ | ⟨words, u, nb, hu, hfin⟩ := loadMultiple_next ht
  · exact h
  · simpa using (loadWords_platform (words := []) (.inr hu)).trans h
  · exact hf _ _ (by simpa using (loadWords_platform (.inl hu)).trans h) t hfin

theorem storeMultiple_keepsPlatform {m : BitVec 5} {mode : Mode4} {w : Bool} {rn : RegNum} {list : BitVec 16}
    {after : State → State} (h : s.platform = p) (hafter : ∀ u, (after u).platform = u.platform) :
    KeepsPlatform p (storeMultiple m mode w rn list after s) := fun t ht => by
  have hdraw : (if drawsBase w rn (listed list) then s.draw.2 else s).platform = p := by split <;> simpa using h
  obtain rfl | ⟨pairs, u, nb, addrs, hu, rfl⟩ | ⟨pairs, u, nb, hu, ha⟩ := storeMultiple_next ht
  · exact h
  · simpa using (storeWords_platform (.inr hu)).trans hdraw
  · refine advance_keepsPlatform ?_ t ha
    rw [hafter, writeBase_platform]
    exact (storeWords_platform (.inl hu)).trans hdraw

theorem withCoproc_keepsPlatform {w : Word} {cp : BitVec 4} {body : Coproc → Nat → State → Result}
    (h : s.platform = p) (hb : ∀ c n, KeepsPlatform p (body c n s)) : KeepsPlatform p (withCoproc w cp body s) :=
  fun t ht => by
  obtain ⟨-, rfl⟩ | ⟨c, r, -, -, -, hbody⟩ := withCoproc_next.mp ht
  · exact h
  · exact hb c r.count t hbody

theorem coprocTransfer_keepsPlatform {ad : Addressing} {n : Nat} {body : List Word → State → Result}
    (h : s.platform = p) (hb : KeepsPlatform p (body (coprocAddresses ad.address n) s)) :
    KeepsPlatform p (coprocTransfer ad n body s) := fun t ht => by
  obtain rfl | hbody := coprocTransfer_next ht
  · exact h
  · exact hb t hbody

theorem takeException_keepsPlatform {e : ExceptionKind} {link : Word} (h : s.platform = p) :
    KeepsPlatform p (.next (takeException e link s)) := keepsPlatform_next.mpr h

/-! ## Instructions that share no operation above, and families -/

theorem coprocOperation_keepsPlatform {w : Word} {cp : BitVec 4} (h : s.platform = p) :
    KeepsPlatform p (coprocOperation w cp s) :=
  withCoproc_keepsPlatform h fun _ _ => advance_keepsPlatform h

theorem toCoproc_keepsPlatform {w : Word} {cp : BitVec 4} {rd : RegNum} (h : s.platform = p) :
    KeepsPlatform p (toCoproc w cp rd s) :=
  withCoproc_keepsPlatform h fun _ _ => advance_keepsPlatform h

theorem fromCoproc_keepsPlatform {w : Word} {cp : BitVec 4} {rd : RegNum} (h : s.platform = p) :
    KeepsPlatform p (fromCoproc w cp rd s) :=
  withCoproc_keepsPlatform h fun c _ => by
    split
    · exact advance_keepsPlatform h
    · exact advance_keepsPlatform (by simpa using h)

theorem loadCoproc_keepsPlatform {w : Word} {mode : Mode5} {rn : RegNum} {cp : BitVec 4} (h : s.platform = p) :
    KeepsPlatform p (loadCoproc w mode rn cp s) :=
  withCoproc_keepsPlatform h fun c n => coprocTransfer_keepsPlatform h <| by
    split
    · next hu => exact advance_keepsPlatform (by simpa using (loadWords_platform (.inl hu)).trans h)
    · next hu => exact keepsPlatform_next.mpr (by simpa using (loadWords_platform (words := []) (.inr hu)).trans h)

theorem storeCoproc_keepsPlatform {w : Word} {mode : Mode5} {rn : RegNum} {cp : BitVec 4} (h : s.platform = p) :
    KeepsPlatform p (storeCoproc w mode rn cp s) :=
  withCoproc_keepsPlatform h fun c n => coprocTransfer_keepsPlatform h <| by
    split
    · next hu => exact advance_keepsPlatform (by simpa using (storeWords_platform (.inl hu)).trans h)
    · next hu => exact keepsPlatform_next.mpr (by simpa using (storeWords_platform (.inr hu)).trans h)

theorem undefinedWord_keepsPlatform (w : Word) (h : s.platform = p) : KeepsPlatform p (undefinedWord w s) := by
  unfold undefinedWord
  split
  · exact keepsPlatform_next.mpr h
  · exact advance_keepsPlatform h

theorem writeProduct_keepsPlatform {f : Bool} {rd : RegNum} {v : Word} (h : s.platform = p) :
    KeepsPlatform p (writeProduct f rd v s) :=
  advance_keepsPlatform (by simpa using h)

theorem writeLongProduct_keepsPlatform {f : Bool} {hi lo : RegNum} {v : BitVec 64} (h : s.platform = p) :
    KeepsPlatform p (writeLongProduct f hi lo v s) :=
  advance_keepsPlatform (by simpa using h)

theorem moveToStatus_keepsPlatform {spsr : Bool} {mask : BitVec 4} {v : Word} (h : s.platform = p) :
    KeepsPlatform p (moveToStatus spsr mask v s) := by
  unfold moveToStatus writeCpsr
  split
  · split
    · exact keepsPlatform_fault _
    · exact advance_keepsPlatform h
  · split
    · exact keepsPlatform_fault _
    · split
      · exact keepsPlatform_fault _
      · split
        · exact keepsPlatform_fault _
        · exact advance_keepsPlatform h

theorem mrs_keepsPlatform {c : Cond} {spsr : Bool} {rd : RegNum} (h : s.platform = p) :
    KeepsPlatform p (execMrs c spsr rd s) :=
  conditional_keepsPlatform h <| by
    split
    · split
      · exact keepsPlatform_fault _
      · exact advance_keepsPlatform (by simpa using h)
    · exact advance_keepsPlatform (by simpa using h)

theorem ldr_keepsPlatform {c : Cond} {idx : Index} {up : Bool} {rn rd : RegNum} {off : Offset2} (h : s.platform = p) :
    KeepsPlatform p (execLdr c idx up rn rd off s) :=
  conditional_keepsPlatform h <| by
    split
    · exact loadPc_keepsPlatform h
    · exact loadWith_keepsPlatform h fun _ _ => toRegister_keepsPlatform rd _

theorem ldm1_keepsPlatform {c : Cond} {mode : Mode4} {w : Bool} {rn : RegNum} {list : BitVec 16} (h : s.platform = p) :
    KeepsPlatform p (execLdm1 c mode w rn list s) :=
  conditional_keepsPlatform h <| loadMultiple_keepsPlatform h fun pairs u hu => by
    split
    · exact interwork_keepsPlatform _ (by simpa using hu)
    · exact advance_keepsPlatform (by simpa using hu)

theorem ldm2_keepsPlatform {c : Cond} {mode : Mode4} {w : Bool} {rn : RegNum} {list : BitVec 15} (h : s.platform = p) :
    KeepsPlatform p (execLdm2 c mode w rn list s) :=
  conditional_keepsPlatform h <| by
    split
    · exact keepsPlatform_fault _
    · exact loadMultiple_keepsPlatform h fun pairs u hu => advance_keepsPlatform (by simpa using hu)

theorem ldm3_keepsPlatform {c : Cond} {mode : Mode4} {w : Bool} {rn : RegNum} {list : BitVec 15} (h : s.platform = p) :
    KeepsPlatform p (execLdm3 c mode w rn list s) :=
  conditional_keepsPlatform h <| by
    split
    · exact keepsPlatform_fault _
    · exact loadMultiple_keepsPlatform h fun pairs u hu => returnFromException_keepsPlatform (by simpa using hu)

theorem stm2_keepsPlatform {c : Cond} {mode : Mode4} {w : Bool} {rn : RegNum} {list : BitVec 16} (h : s.platform = p) :
    KeepsPlatform p (execStm2 c mode w rn list s) :=
  conditional_keepsPlatform h <| by
    split
    · exact keepsPlatform_fault _
    · exact storeMultiple_keepsPlatform h fun _ => rfl

end

/-! ## Every instruction, and the step -/

/-- No instruction changes the platform. -/
theorem exec_keepsPlatform (i : Instr) (s : State) : KeepsPlatform s.platform (exec i s) := by
  cases i with
  | and | eor | sub | rsb | add | adc | sbc | rsc | orr | mov | bic | mvn =>
    simp only [exec, execAnd, execEor, execSub, execRsb, execAdd, execAdc, execSbc, execRsc, execOrr, execMov,
      execBic, execMvn]
    exact conditional_keepsPlatform rfl (writeResult_keepsPlatform rfl)
  | tst | teq | cmp | cmn =>
    simp only [exec, execTst, execTeq, execCmp, execCmn]
    exact conditional_keepsPlatform rfl (advance_keepsPlatform rfl)
  | mul | mla =>
    simp only [exec, execMul, execMla]
    exact conditional_keepsPlatform rfl (writeProduct_keepsPlatform rfl)
  | umull | umlal | smull | smlal =>
    simp only [exec, execUmull, execUmlal, execSmull, execSmlal]
    exact conditional_keepsPlatform rfl (writeLongProduct_keepsPlatform rfl)
  | clz =>
    simp only [exec, execClz]
    exact conditional_keepsPlatform rfl (advance_keepsPlatform (writeReg_platform s _ _))
  | mrs => exact mrs_keepsPlatform rfl
  | msrReg | msrImm =>
    simp only [exec, execMsrReg, execMsrImm]
    exact conditional_keepsPlatform rfl (moveToStatus_keepsPlatform rfl)
  | b =>
    simp only [exec, execB]
    exact conditional_keepsPlatform rfl (branchBy_keepsPlatform rfl)
  | bl =>
    simp only [exec, execBl]
    exact conditional_keepsPlatform rfl (branchBy_keepsPlatform (writeLink_platform s))
  | blx1 =>
    simp only [exec, execBlx1]
    exact always_keepsPlatform (branchBy_keepsPlatform (writeLink_platform s))
  | bx =>
    simp only [exec, execBx]
    exact conditional_keepsPlatform rfl (interwork_keepsPlatform _ rfl)
  | blx2 =>
    simp only [exec, execBlx2]
    exact conditional_keepsPlatform rfl (interwork_keepsPlatform _ (writeLink_platform s))
  | ldr => exact ldr_keepsPlatform rfl
  | ldrt | ldrb | ldrbt | ldrh | ldrsb | ldrsh =>
    simp only [exec, execLdrt, execLdrb, execLdrbt, execLdrh, execLdrsb, execLdrsh]
    exact conditional_keepsPlatform rfl (loadWith_keepsPlatform rfl fun _ _ => toRegister_keepsPlatform _ _)
  | str | strt | strb | strbt | strh =>
    simp only [exec, execStr, execStrt, execStrb, execStrbt, execStrh]
    exact conditional_keepsPlatform rfl (storeWith_keepsPlatform rfl)
  | swp | swpb =>
    simp only [exec, execSwp, execSwpb]
    exact conditional_keepsPlatform rfl (exchange_keepsPlatform rfl)
  | ldm1 => exact ldm1_keepsPlatform rfl
  | ldm2 => exact ldm2_keepsPlatform rfl
  | ldm3 => exact ldm3_keepsPlatform rfl
  | stm1 =>
    simp only [exec, execStm1]
    exact conditional_keepsPlatform rfl (storeMultiple_keepsPlatform rfl fun _ => rfl)
  | stm2 => exact stm2_keepsPlatform rfl
  | cdp =>
    simp only [exec, execCdp]
    exact conditional_keepsPlatform rfl (coprocOperation_keepsPlatform rfl)
  | cdp2 =>
    simp only [exec, execCdp2]
    exact always_keepsPlatform (coprocOperation_keepsPlatform rfl)
  | mcr =>
    simp only [exec, execMcr]
    exact conditional_keepsPlatform rfl (toCoproc_keepsPlatform rfl)
  | mcr2 =>
    simp only [exec, execMcr2]
    exact always_keepsPlatform (toCoproc_keepsPlatform rfl)
  | mrc =>
    simp only [exec, execMrc]
    exact conditional_keepsPlatform rfl (fromCoproc_keepsPlatform rfl)
  | mrc2 =>
    simp only [exec, execMrc2]
    exact always_keepsPlatform (fromCoproc_keepsPlatform rfl)
  | ldc =>
    simp only [exec, execLdc]
    exact conditional_keepsPlatform rfl (loadCoproc_keepsPlatform rfl)
  | ldc2 =>
    simp only [exec, execLdc2]
    exact always_keepsPlatform (loadCoproc_keepsPlatform rfl)
  | stc =>
    simp only [exec, execStc]
    exact conditional_keepsPlatform rfl (storeCoproc_keepsPlatform rfl)
  | stc2 =>
    simp only [exec, execStc2]
    exact always_keepsPlatform (storeCoproc_keepsPlatform rfl)
  | swi =>
    simp only [exec, execSwi]
    exact conditional_keepsPlatform rfl (takeException_keepsPlatform rfl)
  | bkpt =>
    simp only [exec, execBkpt]
    exact always_keepsPlatform (takeException_keepsPlatform rfl)
  | undefCoprocSpace w | undefUnconditional w | undefControlImm w | undefArith w | undefLoadStore w | undefDouble w
  | undefControlReg w | undefSpace w => exact undefinedWord_keepsPlatform w rfl
  | unpredBkpt | unpredBx | unpredClz | unpredMrs | unpredMsrReg | unpredMsrImm | unpredMul | unpredSwp | unpredTst
  | unpredTeq | unpredCmp | unpredCmn | unpredMov | unpredMvn => exact keepsPlatform_fault _

theorem runInstr_keepsPlatform (i : Instr) (s : State) : KeepsPlatform s.platform (runInstr i s) := fun t ht =>
  exec_keepsPlatform i (clearHazard s) t (runInstr_next ht)

theorem thumbStep_keepsPlatform (s : State) : KeepsPlatform s.platform (thumbStep s) := by
  unfold thumbStep
  split
  · exact keepsPlatform_refused _
  · exact keepsPlatform_next.mpr (by simp)

/-- A fetch that ends the step keeps the platform. -/
theorem fetch_ended_keepsPlatform {s : State} {r : Result} (h : fetch s = .ended r) : KeepsPlatform s.platform r := by
  unfold fetch at h
  split at h
  · cases h; exact thumbStep_keepsPlatform s
  · split at h
    · cases h; exact keepsPlatform_fault _
    · split at h
      · cases h; exact keepsPlatform_fault _
      · split at h
        · cases h; exact keepsPlatform_fault _
        · split at h
          · cases h; exact keepsPlatform_next.mpr rfl
          · cases h

theorem fetchAndRun_keepsPlatform (s : State) : KeepsPlatform s.platform (fetchAndRun s) := by
  unfold fetchAndRun
  split
  · next h => exact fetch_ended_keepsPlatform h
  · exact runInstr_keepsPlatform _ s

/-- Settles O8: an entry at the boundary keeps the platform, and so does every fetch and every instruction. -/
theorem platformConstant : Obligations.PlatformConstant := by
  unfold Obligations.PlatformConstant
  intro s t h
  unfold step at h
  obtain ⟨u, hu, hcases⟩ | ⟨hu, -, -⟩ := boundary_cases s
  · rw [hu] at h
    cases h
    obtain rfl | rfl | rfl | rfl := hcases
    · exact takeInputs_platform s
    · exact (resetEntry_platform _).trans (takeInputs_platform s)
    · exact takeInputs_platform s
    · exact takeInputs_platform s
  · rw [hu] at h
    exact (fetchAndRun_keepsPlatform (takeInputs s) t h).trans (takeInputs_platform s)

end Sys2Proof.Machine
end

section
/-! A run and its ends (R20, R21): the steps a run has taken as a relation, what `runFrom` answers in terms of it, and
the ends of a run. -/

namespace Sys2Proof.Machine

/-- The two forms of the stop condition (R20 (c)). -/
theorem stopHolds_iff (done : Nat) (s : State) : stopHolds done s = true ↔
    s.platform.stop.haltAddress = some s.pc ∨ ∃ bound, s.platform.stop.stepBound = some bound ∧ bound ≤ done := by
  unfold stopHolds
  cases s.platform.stop.stepBound <;> simp

/-- How a step that answers no next state ends a run (R20 (a), (b)). -/
def refusalEnd : Result → Option RunEnd
  | .next _ => none
  | .fault why => some (.unpredictable why)
  | .refused why => some (.unsupported why)

theorem refusalEnd_unpredictable {r : Result} {why : Fault} (h : refusalEnd r = some (.unpredictable why)) :
    r = .fault why := by
  cases r <;> cases h; rfl

theorem refusalEnd_unsupported {r : Result} {why : Refusal} (h : refusalEnd r = some (.unsupported why)) :
    r = .refused why := by
  cases r <;> cases h; rfl

theorem refusalEnd_ne_stopped (r : Result) (t : State) : refusalEnd r ≠ some (.stopped t) := by
  cases r <;> simp [refusalEnd]

/-- A step answers a next state or ends the run. -/
theorem step_next_or_refusal (s : State) : (∃ t, step s = .next t) ∨ ∃ e, refusalEnd (step s) = some e := by
  cases step s with
  | next t => exact .inl ⟨t, rfl⟩
  | fault why => exact .inr ⟨_, rfl⟩
  | refused why => exact .inr ⟨_, rfl⟩

/-! ## The equations of `runFrom` -/

theorem runFrom_of_stop {done : Nat} {s : State} (n : Nat) (h : stopHolds done s = true) :
    runFrom done n s = .ended (.stopped s) := by
  cases n <;> simp [runFrom, h]

theorem runFrom_zero {done : Nat} {s : State} (h : stopHolds done s = false) : runFrom done 0 s = .running s := by
  simp [runFrom, h]

theorem runFrom_succ_of_next {done : Nat} {s t : State} (n : Nat) (h : stopHolds done s = false)
    (hs : step s = .next t) : runFrom done (n + 1) s = runFrom (done + 1) n t := by
  simp [runFrom, h, hs]

theorem runFrom_succ_of_refusal {done : Nat} {s : State} {e : RunEnd} (n : Nat) (h : stopHolds done s = false)
    (hs : refusalEnd (step s) = some e) : runFrom done (n + 1) s = .ended e := by
  cases hstep : step s <;> rw [hstep] at hs <;> cases hs <;> simp [runFrom, h, hstep]

/-! ## The steps a run has taken -/

/-- A run that has done `done` steps takes `k` more from `s` to `t`; the stop condition holds before none of them. -/
inductive Proceeds : Nat → Nat → State → State → Prop
  | zero (done : Nat) (s : State) : Proceeds done 0 s s
  | succ {done k : Nat} {s t u : State} (go : stopHolds done s = false) (next : step s = .next t)
      (rest : Proceeds (done + 1) k t u) : Proceeds done (k + 1) s u

/-- A run of `k + m` steps that takes `k` is the run of `m` from where they lead. -/
theorem Proceeds.runFrom_add {done k : Nat} {s t : State} (h : Proceeds done k s t) (m : Nat) :
    runFrom done (k + m) s = runFrom (done + k) m t := by
  induction h with
  | zero => rw [Nat.zero_add, Nat.add_zero]
  | @succ done k s t u go next rest ih =>
    rw [Nat.add_right_comm, runFrom_succ_of_next _ go next, ih, Nat.add_assoc, Nat.add_comm 1]

/-- The steps before the last ones, and the step that follows them. -/
theorem Proceeds.step_at {done k : Nat} {s t : State} (h : Proceeds done k s t) : ∀ j < k,
    ∃ u v, Proceeds done j s u ∧ stopHolds (done + j) u = false ∧ step u = .next v ∧ (j + 1 = k → v = t) := by
  induction h with
  | zero => intro j hj; cases hj
  | @succ done k s t u go next rest ih =>
    intro j hj
    cases j with
    | zero =>
      refine ⟨s, t, .zero done s, go, next, fun hk => ?_⟩
      obtain rfl : k = 0 := by omega
      cases rest
      rfl
    | succ j =>
      obtain ⟨x, v, hx, hgo, hnext, hlast⟩ := ih j (by omega)
      refine ⟨x, v, .succ go next hx, ?_, hnext, fun hk => hlast (by omega)⟩
      rwa [show done + 1 + j = done + (j + 1) by omega] at hgo

theorem Proceeds.platform {done k : Nat} {s t : State} (h : Proceeds done k s t) : t.platform = s.platform := by
  induction h with
  | zero => rfl
  | succ _ next _ ih => exact ih.trans (platformConstant _ _ next)

/-- Every run takes some steps, and then the stop condition holds, or a step refuses, or all its steps are taken. -/
theorem exists_proceeds : ∀ (n done : Nat) (s : State), ∃ k u, Proceeds done k s u ∧
    ((k ≤ n ∧ stopHolds (done + k) u = true) ∨
      (k < n ∧ stopHolds (done + k) u = false ∧ ∃ e, refusalEnd (step u) = some e) ∨
      (k = n ∧ stopHolds (done + k) u = false)) := by
  intro n
  induction n with
  | zero =>
    intro done s
    refine ⟨0, s, .zero done s, ?_⟩
    cases stopHolds (done + 0) s <;> simp
  | succ n ih =>
    intro done s
    cases go : stopHolds done s with
    | true => exact ⟨0, s, .zero done s, .inl ⟨Nat.zero_le _, go⟩⟩
    | false =>
      obtain ⟨t, next⟩ | hrefuse := step_next_or_refusal s
      · obtain ⟨k, u, hk, hcases⟩ := ih (done + 1) t
        refine ⟨k + 1, u, .succ go next hk, ?_⟩
        rw [show done + 1 + k = done + (k + 1) by omega] at hcases
        simpa using hcases
      · exact ⟨0, s, .zero done s, .inr (.inl ⟨Nat.succ_pos n, go, hrefuse⟩)⟩

/-! ## What `runFrom` answers -/

theorem runFrom_of_proceeds {done n : Nat} {s t : State} (h : Proceeds done n s t)
    (hgo : stopHolds (done + n) t = false) : runFrom done n s = .running t := by
  have hadd := h.runFrom_add 0
  rwa [Nat.add_zero, runFrom_zero hgo] at hadd

/-- A run is still running exactly when it has taken all its steps and the stop condition does not hold. -/
theorem runFrom_running_iff {done n : Nat} {s t : State} :
    runFrom done n s = .running t ↔ Proceeds done n s t ∧ stopHolds (done + n) t = false := by
  refine ⟨fun h => ?_, fun ⟨h, hgo⟩ => runFrom_of_proceeds h hgo⟩
  obtain ⟨k, u, hk, ⟨hkn, hstop⟩ | ⟨hkn, hgo, e, he⟩ | ⟨rfl, hgo⟩⟩ := exists_proceeds n done s
  · obtain ⟨m, rfl⟩ := Nat.exists_eq_add_of_le hkn
    rw [hk.runFrom_add, runFrom_of_stop m hstop] at h
    cases h
  · obtain ⟨m, rfl⟩ := Nat.exists_eq_add_of_lt hkn
    rw [Nat.add_assoc, hk.runFrom_add, runFrom_succ_of_refusal m hgo he] at h
    cases h
  · rw [runFrom_of_proceeds hk hgo] at h
    cases h
    exact ⟨hk, hgo⟩

/-- All the ways a run ends: the stop condition holds, or a step refuses (R20). -/
theorem runFrom_ended {done n : Nat} {s : State} {e : RunEnd} (h : runFrom done n s = .ended e) :
    ∃ k u, Proceeds done k s u ∧
      ((k ≤ n ∧ stopHolds (done + k) u = true ∧ e = .stopped u) ∨
        (k < n ∧ stopHolds (done + k) u = false ∧ refusalEnd (step u) = some e)) := by
  obtain ⟨k, u, hk, ⟨hkn, hstop⟩ | ⟨hkn, hgo, e', he⟩ | ⟨rfl, hgo⟩⟩ := exists_proceeds n done s
  · obtain ⟨m, rfl⟩ := Nat.exists_eq_add_of_le hkn
    rw [hk.runFrom_add, runFrom_of_stop m hstop] at h
    cases h
    exact ⟨k, u, hk, .inl ⟨hkn, hstop, rfl⟩⟩
  · obtain ⟨m, rfl⟩ := Nat.exists_eq_add_of_lt hkn
    rw [Nat.add_assoc, hk.runFrom_add, runFrom_succ_of_refusal m hgo he] at h
    cases h
    exact ⟨k, u, hk, .inr ⟨hkn, hgo, he⟩⟩
  · rw [runFrom_of_proceeds hk hgo] at h
    cases h

/-- An end is final. -/
theorem runFrom_ended_add {done n : Nat} {s : State} {e : RunEnd} (h : runFrom done n s = .ended e) (m : Nat) :
    runFrom done (n + m) s = .ended e := by
  obtain ⟨k, u, hk, ⟨hkn, hstop, rfl⟩ | ⟨hkn, hgo, he⟩⟩ := runFrom_ended h
  · obtain ⟨d, rfl⟩ := Nat.exists_eq_add_of_le hkn
    rw [Nat.add_assoc, hk.runFrom_add, runFrom_of_stop _ hstop]
  · obtain ⟨d, rfl⟩ := Nat.exists_eq_add_of_lt hkn
    rw [show k + d + 1 + m = k + (d + m + 1) by omega, hk.runFrom_add, runFrom_succ_of_refusal _ hgo he]

/-- A run that goes on is below its bound. -/
theorem runFrom_running_lt_bound {done n bound : Nat} {s t : State}
    (hb : s.platform.stop.stepBound = some bound) (h : runFrom done n s = .running t) : done + n < bound := by
  obtain ⟨hp, hgo⟩ := runFrom_running_iff.mp h
  by_contra hle
  have hstop := (stopHolds_iff (done + n) t).mpr (.inr ⟨bound, by rw [hp.platform, hb], by omega⟩)
  rw [hgo] at hstop
  cases hstop

/-- A stopped run: where the condition holds, and every step that led there (R20 (c)). -/
theorem runFrom_stopped {done n : Nat} {s t : State} (h : runFrom done n s = .ended (.stopped t)) :
    ∃ k ≤ n, stopHolds (done + k) t = true ∧ (k = 0 → t = s) ∧
      ∀ j < k, ∃ u v, runFrom done j s = .running u ∧ step u = .next v ∧ (j + 1 = k → v = t) := by
  obtain ⟨k, u, hk, ⟨hkn, hstop, he⟩ | ⟨-, -, he⟩⟩ := runFrom_ended h
  · cases he
    refine ⟨k, hkn, hstop, fun h0 => ?_, fun j hj => ?_⟩
    · subst h0; cases hk; rfl
    · obtain ⟨u, v, hu, hgo, hnext, hlast⟩ := hk.step_at j hj
      exact ⟨u, v, runFrom_of_proceeds hu hgo, hnext, hlast⟩
  · exact absurd he (refusalEnd_ne_stopped _ t)

/-- A run ended otherwise than by the stop condition: the step that refused (R20 (a), (b)). -/
theorem runFrom_refused {done n : Nat} {s : State} {e : RunEnd} (h : runFrom done n s = .ended e)
    (he : ∀ t, e ≠ .stopped t) : ∃ k < n, ∃ u, runFrom done k s = .running u ∧ refusalEnd (step u) = some e := by
  obtain ⟨k, u, hk, ⟨-, -, hs⟩ | ⟨hkn, hgo, hr⟩⟩ := runFrom_ended h
  · exact absurd hs (he u)
  · exact ⟨k, hkn, u, runFrom_of_proceeds hk hgo, hr⟩

/-! ## The host's run -/

theorem stopHolds_eq_false {done : Nat} {s : State} (ha : s.platform.stop.haltAddress = none)
    (hb : s.platform.stop.stepBound = none) : stopHolds done s = false := by
  simp [stopHolds, ha, hb]

/-- A longer run of a machine of the host's: a step, and the run from there. -/
theorem core_run_succ_iff {M : Host.Core} {n : Nat} {s t : M.State} :
    M.run (n + 1) s = .next t ↔ ∃ u, M.step s = .next u ∧ M.run n u = .next t := by
  rw [Host.Core.run]
  cases M.step s <;> simp

/-- With no stop condition the steps a run takes are those of the host's run. -/
theorem proceeds_iff_core_run : ∀ {n done : Nat} {s t : State},
    s.platform.stop.haltAddress = none → s.platform.stop.stepBound = none →
      (Proceeds done n s t ↔ Host.Core.run Sys2Proof.core n s = .next t) := by
  intro n
  induction n with
  | zero =>
    intro done s t _ _
    constructor
    · rintro ⟨⟩
      rfl
    · rintro ⟨⟩
      exact .zero done s
  | succ n ih =>
    intro done s t ha hb
    have after : ∀ u, step s = .next u →
        (Proceeds (done + 1) n u t ↔ Host.Core.run Sys2Proof.core n u = .next t) := fun u next => by
      have hp := platformConstant s u next
      exact ih (by rw [hp, ha]) (by rw [hp, hb])
    refine Iff.trans ?_ (core_run_succ_iff (M := Sys2Proof.core)).symm
    constructor
    · rintro (_ | ⟨-, next, rest⟩)
      exact ⟨_, next, (after _ next).mp rest⟩
    · rintro ⟨u, next, hrun⟩
      exact .succ (stopHolds_eq_false ha hb) next ((after u next).mpr hrun)

theorem runFrom_running_iff_core_run {done n : Nat} {s t : State} (ha : s.platform.stop.haltAddress = none)
    (hb : s.platform.stop.stepBound = none) :
    runFrom done n s = .running t ↔ Host.Core.run Sys2Proof.core n s = .next t := by
  rw [runFrom_running_iff, ← proceeds_iff_core_run ha hb]
  refine and_iff_left_of_imp fun h => ?_
  have hp := h.platform
  exact stopHolds_eq_false (by rw [hp, ha]) (by rw [hp, hb])

/-- Settles O60: every clause is read off the steps the run has taken and the way it ends. -/
theorem runEnds : Obligations.RunEnds := by
  unfold Obligations.RunEnds
  refine ⟨stopHolds_iff, fun done n s => ⟨runFrom_of_stop n, fun e => runFrom_ended_add, fun t h m => ?_,
    fun t bound => runFrom_running_lt_bound, fun t => runFrom_stopped, fun why h => ?_, fun why h => ?_,
    fun ha hb t => runFrom_running_iff_core_run ha hb⟩⟩
  · exact (runFrom_running_iff.mp h).1.runFrom_add m
  · obtain ⟨k, hk, u, hu, he⟩ := runFrom_refused h (by simp)
    exact ⟨k, hk, u, hu, refusalEnd_unpredictable he⟩
  · obtain ⟨k, hk, u, hu, he⟩ := runFrom_refused h (by simp)
    exact ⟨k, hk, u, hu, refusalEnd_unsupported he⟩

end Sys2Proof.Machine
end

section
/-! Alignment of the pc (R49, R111), and the status registers an instruction may leave behind (R42, R57, R590). -/

namespace Sys2Proof.Machine

/-! ## Aligned addresses -/

/-- Clearing the low bits of a word rounds it down (R12). -/
theorem toNat_and_allOnes_shiftLeft {w : Nat} (a : BitVec w) (k : Nat) :
    (a &&& BitVec.allOnes w <<< k).toNat = a.toNat / 2 ^ k * 2 ^ k := by
  have h : a &&& BitVec.allOnes w <<< k = (a >>> k) <<< k := by
    ext i hi
    by_cases hk : i < k
    · simp [hk]
    · simp [hi, show k ≤ i by omega, show i - k < w by omega, show k + (i - k) = i by omega,
        BitVec.getElem_eq_testBit_toNat]
  rw [h, BitVec.toNat_shiftLeft, BitVec.toNat_ushiftRight, Nat.shiftLeft_eq, Nat.shiftRight_eq_div_pow]
  exact Nat.mod_eq_of_lt (Nat.lt_of_le_of_lt (Nat.div_mul_le_self _ _) a.isLt)

theorem toNat_clear_bit_zero (a : Word) : (a &&& 0xFFFFFFFE).toNat = a.toNat / 2 * 2 :=
  toNat_and_allOnes_shiftLeft a 1

theorem toNat_clear_two_bits (a : Word) : (a &&& 0xFFFFFFFC).toNat = a.toNat / 4 * 4 :=
  toNat_and_allOnes_shiftLeft a 2

theorem bits_zero_one_iff (a : Word) : bits a 0 1 = 0 ↔ a.toNat % 2 = 0 := by
  simp [bits, ← BitVec.toNat_inj, BitVec.extractLsb'_toNat]

theorem bits_zero_two_iff (a : Word) : bits a 0 2 = 0 ↔ a.toNat % 4 = 0 := by
  simp [bits, ← BitVec.toNat_inj, BitVec.extractLsb'_toNat]

/-- R49, R111: an address the pc may hold in the state that T selects. -/
def PcAligned (psr pc : Word) : Prop := bits pc 0 1 = 0 ∧ (flagT psr = false → bits pc 0 2 = 0)

theorem pcAligned_of_word {psr pc : Word} (h : bits pc 0 2 = 0) : PcAligned psr pc := by
  refine ⟨?_, fun _ => h⟩
  rw [bits_zero_two_iff] at h
  rw [bits_zero_one_iff]
  omega

theorem pcAligned_of_thumb {psr pc : Word} (hT : flagT psr = true) (h : pc.toNat % 2 = 0) : PcAligned psr pc :=
  ⟨(bits_zero_one_iff pc).mpr h, fun hF => by simp [hT] at hF⟩

theorem pcAligned_next {psr pc : Word} (h : bits pc 0 2 = 0) : PcAligned psr (pc + 4) := by
  refine pcAligned_of_word ?_
  rw [bits_zero_two_iff] at h ⊢
  have hadd : (pc + 4).toNat = (pc.toNat + 4) % 2 ^ 32 := BitVec.toNat_add pc 4
  omega

/-- The vectors are words (R560, R563). -/
theorem pcAligned_vector (psr : Word) (p : Platform) (e : ExceptionKind) : PcAligned psr (vector p e.offset) := by
  refine pcAligned_of_word ?_
  unfold vector
  split <;> cases e <;> decide

/-- A pc with T from bit 0, as BX writes it (R234). -/
theorem pcAligned_interwork {psr a : Word} (h : bits a 0 2 ≠ 0b10) :
    PcAligned (setT psr (bit a 0)) (a &&& 0xFFFFFFFE) := by
  have hnat : a.toNat % 4 ≠ 2 := fun e => h <| by
    simp [bits, ← BitVec.toNat_inj, BitVec.extractLsb'_toNat, e]
  refine ⟨(bits_zero_one_iff _).mpr (by rw [toNat_clear_bit_zero]; omega), fun hT => ?_⟩
  rw [flagT_setT] at hT
  have heven : a.toNat % 2 = 0 := by
    simpa [bit, BitVec.getLsbD, Nat.testBit_zero] using hT
  rw [bits_zero_two_iff, toNat_clear_bit_zero]
  omega


/-! ## The status register an instruction may leave -/

/-- What every write of the CPSR but an exception entry and an exception return keeps: a legal mode (R42), zero reserved
bits (R57), and, in User mode, the mode and the interrupt masks (R345, R590). -/
structure StatusAllowed (p q : Word) : Prop where
  legal : legalMode (modeBits p) = true → legalMode (modeBits q) = true
  reserved : reservedBits p = 0 → reservedBits q = 0
  confined : modeBits p = userBits → modeBits q = userBits ∧ flagI q = flagI p ∧ flagF q = flagF p

/-- The flags N, Z, C, V may change. -/
theorem statusAllowed_of_low {p q : Word} (h : bits q 0 28 = bits p 0 28) : StatusAllowed p q where
  legal hp := by rwa [modeBits_of_low h]
  reserved hp := by rwa [reservedBits_of_low h]
  confined hp := ⟨by rwa [modeBits_of_low h], bit_of_low h 7 (by omega), bit_of_low h 6 (by omega)⟩

/-- T may change. -/
theorem statusAllowed_setT (p : Word) (t : Bool) : StatusAllowed p (setT p t) where
  legal hp := by rwa [modeBits_setT]
  reserved hp := by rwa [reservedBits_setT]
  confined hp := ⟨by rwa [modeBits_setT], by simp [flagI], by simp [flagF]⟩

/-- R345: without privilege MSR writes the flags byte only. -/
theorem bit_mergeFields_low {mask : BitVec 4} {old operand : Word} {k : Nat} (hk : k < 8) :
    bit (mergeFields mask false old operand) k = bit old k := by
  simp only [mergeFields, Bool.and_false, Bool.false_eq_true, if_false]
  refine (BitVec.getLsbD_append (i := k)).trans ?_
  simp [hk, bits, bit]

theorem privileged_eq_false {psr : Word} (h : modeBits psr = userBits) : privileged psr = false := by
  simp [privileged, h]

/-- MSR to the CPSR with the checks of R345 and R346. -/
theorem statusAllowed_mergeFields {mask : BitVec 4} {p operand : Word}
    (hr : reservedBits (mergeFields mask (privileged p) p operand) = 0)
    (hl : legalMode (modeBits (mergeFields mask (privileged p) p operand)) = true) :
    StatusAllowed p (mergeFields mask (privileged p) p operand) where
  legal _ := hl
  reserved _ := hr
  confined hp := by
    rw [privileged_eq_false hp, ← hp]
    exact ⟨bits_ext 0 5 fun k _ hk => bit_mergeFields_low (by omega), bit_mergeFields_low (by decide),
      bit_mergeFields_low (by decide)⟩

end Sys2Proof.Machine
end

section
/-! The boundary of a step (R61, R566, R578), its fetch, and the fields of the state after Reset entry. -/

namespace Sys2Proof.Machine

/-! ## The state after Reset entry -/

@[simp] theorem resetEntry_mem (s : State) : (resetEntry s).mem = s.mem := by
  unfold resetEntry; exact takeException_mem s .reset 0

@[simp] theorem resetEntry_written (s : State) : (resetEntry s).written = [] := rfl

@[simp] theorem resetEntry_cpsr (s : State) :
    (resetEntry s).cpsr = resetCpsr (Config.freeWord (s.draws + 35)) := rfl

@[simp] theorem resetEntry_pc (s : State) : (resetEntry s).pc = vector s.platform 0 := rfl

@[simp] theorem resetEntry_privDropPending (s : State) : (resetEntry s).privDropPending = false := rfl

@[simp] theorem resetEntry_userBankHazard (s : State) : (resetEntry s).userBankHazard = false := rfl

@[simp] theorem resetEntry_resetHeld (s : State) : (resetEntry s).resetHeld = false := rfl

/-- The CPSR after Reset but for N, Z, C, V (R62, R566). -/
theorem bits_resetCpsr (flags : Word) : bits (resetCpsr flags) 0 28 = bits 0xD3 0 28 :=
  bits_ext 0 28 fun k _ hk => by
    refine (BitVec.getLsbD_append (x := bits flags 28 4 ++ 0#20) (y := 0xD3#8) (i := k)).trans ?_
    have hlow : ∀ j < 28, (if j < 8 then (0xD3#8).getLsbD j else (0#20).getLsbD (j - 8)) = (0xD3#32).getLsbD j := by
      decide
    rw [BitVec.getLsbD_append, bit, if_pos (show k - 8 < 20 by omega)]
    exact hlow k (by omega)

/-! ## How a boundary ends -/

section
variable {s : State}

theorem step_of_taken {t : State} (h : boundary s = .taken t) : step s = .next t := by
  unfold step; rw [h]

theorem step_of_proceed {t : State} (h : boundary s = .proceed t) : step s = fetchAndRun t := by
  unfold step; rw [h]

theorem boundary_of_reset (h : (currentInputs s).reset = true) :
    boundary s = .taken { takeInputs s with resetHeld := true } := by
  simp [boundary, h]

theorem boundary_of_reset_released (h : (currentInputs s).reset = false) (held : s.resetHeld = true) :
    boundary s = .taken (resetEntry (takeInputs s)) := by
  simp [boundary, h, held]

/-- R578, R579: no Reset, and every interrupt asserted is masked. -/
theorem boundary_of_quiet (hr : (currentInputs s).reset = false) (held : s.resetHeld = false)
    (hf : (currentInputs s).fiq = true → flagF s.cpsr = true)
    (hi : (currentInputs s).irq = true → flagI s.cpsr = true) : boundary s = .proceed (takeInputs s) := by
  have fiq : ¬((currentInputs s).fiq && !flagF s.cpsr) = true := by simpa using hf
  have irq : ¬((currentInputs s).irq && !flagI s.cpsr) = true := by simpa using hi
  simp only [boundary, hr, takeInputs_resetHeld, held, takeInputs_cpsr, if_neg fiq, if_neg irq, Bool.false_eq_true,
    if_false]

end

/-- Settles O17: the boundary notes the input, and enters Reset once it is de-asserted. -/
theorem resetTaken : Obligations.ResetTaken := by
  unfold Obligations.ResetTaken
  refine fun s => ⟨fun h => step_of_taken (boundary_of_reset h), fun h held => ?_⟩
  have hlow := bits_resetCpsr (Config.freeWord ((takeInputs s).draws + 35))
  refine ⟨_, step_of_taken (boundary_of_reset_released h held), ?_⟩
  rw [resetEntry_cpsr, modeBits_of_low hlow, reservedBits_of_low hlow, flagT_of_low hlow]
  refine ⟨rfl, rfl, bit_of_low hlow 6 (by decide), bit_of_low hlow 7 (by decide), rfl, ?_, ?_, ?_⟩
  · rw [resetEntry_pc, takeInputs_platform]
  · rw [resetEntry_mem, takeInputs_mem]
  · simp

/-- Settles O7: every field of the state after reset is written out. -/
theorem resetAssigns : Obligations.ResetAssigns := by
  unfold Obligations.ResetAssigns
  exact ⟨by decide, by decide, by decide, by decide, by decide, rfl, rfl, rfl, rfl, rfl⟩

/-! ## The fetch -/

theorem thumbStep_of_t {s : State} (h : s.platform.thumbVariant = .t) : thumbStep s = .refused .thumbState := by
  unfold thumbStep; rw [h]

theorem thumbStep_of_nonT {s : State} (h : s.platform.thumbVariant = .nonT) :
    thumbStep s = .next (takeException .undefined s.draw.1 s.draw.2) := by
  unfold thumbStep; rw [h]

/-- R61 clause 3: in Thumb state nothing is fetched. -/
theorem fetchAndRun_of_thumb {s : State} (h : flagT s.cpsr = true) : fetchAndRun s = thumbStep s := by
  simp [fetchAndRun, fetch, h]

/-- Settles O15: with T = 1 the step is `thumbStep`. -/
theorem thumbState : Obligations.ThumbState := by
  unfold Obligations.ThumbState
  intro s hr held hf hi hT
  have hstep : step s = thumbStep (takeInputs s) := by
    rw [step_of_proceed (boundary_of_quiet hr held (by simp [hf]) (by simp [hi])),
      fetchAndRun_of_thumb (by rwa [takeInputs_cpsr])]
  refine ⟨fun ht => ?_, fun ht => ⟨_, hstep.trans (thumbStep_of_nonT (by rwa [takeInputs_platform])), ?_⟩⟩
  · rw [hstep, thumbStep_of_t (by rwa [takeInputs_platform])]
  · simp [ExceptionKind.offset, ExceptionKind.mode, Spsrs.set, hT]

/-- R61 clauses 3 to 5: the word at the pc, where nothing stops the fetch. -/
theorem fetch_eq_word {s : State} (hT : flagT s.cpsr = false) (hstale : isStale s = false)
    (hperm : s.privDropPending = true → permissionDiffers s = false) (hio : s.isIo .word s.pc = false)
    (hab : s.memAbort s.pc .word .fetch (privileged s.cpsr) = false) : fetch s = .word (fetchWord s) := by
  have perm : ¬(s.privDropPending && permissionDiffers s) = true := by simpa using hperm
  simp only [fetch, hT, hstale, if_neg perm, hio, hab, Bool.false_eq_true, if_false]

theorem fetchAndRun_of_word {s : State} {w : Word} (h : fetch s = .word w) :
    fetchAndRun s = runInstr (decodeWord w) s := by
  unfold fetchAndRun; rw [h]

/-- The word of four bytes is the word the fetch reads in the configured byte order (R105 to R107). -/
theorem decode_fetched_bytes {big : Bool} {m : List Host.Cell} {a : Nat} :
    decode (if big then [Memory.read m a, Memory.read m (a + 1), Memory.read m (a + 2), Memory.read m (a + 3)].reverse
      else [Memory.read m a, Memory.read m (a + 1), Memory.read m (a + 2), Memory.read m (a + 3)]) =
      .ok (decodeWord (Memory.readSized big .word m a)) := by
  cases big <;> rfl

/-- Settles O10: the boundary proceeds, the fetch answers the word at the pc, and R440 alone may stop it. -/
theorem stepRunsDecoded : Obligations.StepRunsDecoded := by
  unfold Obligations.StepRunsDecoded
  intro s i hr held hf hi hT hstale hperm hio hab hdecode
  have hplatform := takeInputs_platform s
  have hword : decodeWord (fetchWord (takeInputs s)) = i := by
    rw [fetchWord, State.memRead, takeInputs_platform, takeInputs_mem, takeInputs_pc]
    exact Except.ok.inj (decode_fetched_bytes.symm.trans hdecode)
  have hpermission : permissionDiffers (takeInputs s) = permissionDiffers s := by
    simp only [permissionDiffers, memAbort_congr hplatform, takeInputs_pc]
  have hstep : step s = runInstr i (takeInputs s) := by
    have hfetch := fetch_eq_word (s := takeInputs s) (by rwa [takeInputs_cpsr]) hstale (by rwa [hpermission])
      (by rwa [isIo_congr hplatform, takeInputs_pc])
      (by rwa [memAbort_congr hplatform, takeInputs_pc, takeInputs_cpsr])
    rw [step_of_proceed (boundary_of_quiet hr held hf hi), fetchAndRun_of_word hfetch, hword]
  have hhazard : hazardStops i (takeInputs s) = hazardStops i s := by
    simp only [hazardStops, takeInputs_userBankHazard, takeInputs_cpsr]
  rw [hstep]
  refine ⟨fun h => runInstr_of_clear (hhazard.trans h), fun h => ?_⟩
  rw [runInstr, if_pos (hhazard.trans h)]

end Sys2Proof.Machine
end

section
/-! What an instruction can do: storage it may touch, the state its work leaves, and how it ends. One rule per shared
operation, then one line per instruction; the invariant (R633) and the confinement of User mode (R590) are read off. -/

namespace Sys2Proof.Machine

/-- What an instruction may do to storage: memory and `W` stay canonical (R100, R121), and no register is written that
neither the current mode nor User mode sees (R43, R435). -/
structure DataEffect (s t : State) : Prop where
  forms : Memory.wf s.mem = true ∧ addrsFrom 0 s.written = true →
    Memory.wf t.mem = true ∧ addrsFrom 0 t.written = true
  registers : ∀ r : PhysReg, (∀ n, physReg (modeBits s.cpsr) n ≠ some r) →
    (∀ n, physReg userBits n ≠ some r) → t.phys r = s.phys r

/-- The work of an instruction before it ends: its storage, with the pc and the status registers as they were. -/
structure WorkEffect (s u : State) : Prop extends DataEffect s u where
  pc : u.pc = s.pc
  cpsr : u.cpsr = s.cpsr
  spsr : u.spsr = s.spsr

theorem DataEffect.congr {s u v : State} (h : DataEffect s u) (hregs : v.regs = u.regs) (hmem : v.mem = u.mem)
    (hwritten : v.written = u.written) : DataEffect s v where
  forms hs := by rw [hmem, hwritten]; exact h.forms hs
  registers r hm hu := by rw [phys_congr hregs]; exact h.registers r hm hu

theorem WorkEffect.refl (s : State) : WorkEffect s s := ⟨⟨id, fun _ _ _ => rfl⟩, rfl, rfl, rfl⟩

/-! ## The work of each shared operation -/

namespace WorkEffect
variable {s u : State}

/-- A change of the hidden state, the device log, the coprocessors or the draw counter. -/
theorem congr (h : WorkEffect s u) {v : State} (hregs : v.regs = u.regs) (hmem : v.mem = u.mem)
    (hwritten : v.written = u.written) (hpc : v.pc = u.pc) (hcpsr : v.cpsr = u.cpsr) (hspsr : v.spsr = u.spsr) :
    WorkEffect s v :=
  ⟨h.toDataEffect.congr hregs hmem hwritten, hpc.trans h.pc, hcpsr.trans h.cpsr, hspsr.trans h.spsr⟩

theorem writeRegIn (h : WorkEffect s u) {m : BitVec 5} (hm : m = modeBits s.cpsr ∨ m = userBits) (n : RegNum)
    (v : Word) : WorkEffect s (u.writeRegIn m n v) where
  forms hs := by simpa using h.forms hs
  registers r hcur huser := by
    have hne : physReg m n ≠ some r := by
      rcases hm with rfl | rfl
      · exact hcur n
      · exact huser n
    rw [phys_writeRegIn, if_neg hne]
    exact h.registers r hcur huser
  pc := by simpa using h.pc
  cpsr := by simpa using h.cpsr
  spsr := by simpa using h.spsr

theorem writeReg (h : WorkEffect s u) (n : RegNum) (v : Word) : WorkEffect s (u.writeReg n v) :=
  h.writeRegIn (.inl (congrArg modeBits h.cpsr)) n v

theorem writeBase (h : WorkEffect s u) (n : RegNum) (v : Option Word) : WorkEffect s (writeBase n v u) := by
  cases v with
  | none => exact h
  | some v => exact h.writeReg n v

theorem abortBase (h : WorkEffect s u) (n : RegNum) (v : Option Word) : WorkEffect s (abortBase n v u) := by
  unfold Machine.abortBase
  split
  · exact h
  · exact h.writeBase n v

theorem writeLink (h : WorkEffect s u) : WorkEffect s (writeLink u) := h.writeReg 14 _

theorem draw (h : WorkEffect s u) : WorkEffect s u.draw.2 := h.congr rfl rfl rfl rfl rfl rfl

theorem load (h : WorkEffect s u) (size : Size) (a : Word) : WorkEffect s (u.load size a).2 := by
  apply h.congr <;> simp

theorem setCoproc (h : WorkEffect s u) (cp : BitVec 4) (c : Coproc) : WorkEffect s (u.setCoproc cp c) :=
  h.congr rfl rfl rfl rfl rfl rfl

theorem store (h : WorkEffect s u) (size : Size) (a v : Word) : WorkEffect s (u.store size a v) where
  forms hs := ⟨store_keeps_wf u size a v (h.forms hs).1, store_keeps_written u size a v (h.forms hs).2⟩
  registers r hm hu := by rw [phys_congr (store_regs u size a v)]; exact h.registers r hm hu
  pc := by simpa using h.pc
  cpsr := by simpa using h.cpsr
  spsr := by simpa using h.spsr

theorem loadWords (h : WorkEffect s u) {priv : Bool} {addrs words : List Word} {v : State}
    (hv : loadWords priv addrs u = .done words v ∨ loadWords priv addrs u = .aborted v) : WorkEffect s v := by
  rw [loadWords_state hv]
  exact h.congr rfl rfl rfl rfl rfl rfl

theorem storeWords (h : WorkEffect s u) {priv : Bool} {pairs : List (Word × Word)} {v : State}
    (hv : storeWords priv pairs u = .done v ∨ storeWords priv pairs u = .aborted v) : WorkEffect s v := by
  have forms := storeWords_forms hv
  rw [storeWords_state hv]
  exact ⟨⟨fun hs => forms (h.forms hs).1 (h.forms hs).2, h.registers⟩, h.pc, h.cpsr, h.spsr⟩

theorem drawStored (h : WorkEffect s u) (priv : Bool) (addrs : List Word) :
    WorkEffect s (drawStored priv addrs u) := by
  have forms := drawStored_forms priv addrs u
  rw [drawStored_state priv addrs u]
  exact ⟨⟨fun hs => forms (h.forms hs).1 (h.forms hs).2, h.registers⟩, h.pc, h.cpsr, h.spsr⟩

theorem writeRegs {m : BitVec 5} (hm : m = modeBits s.cpsr ∨ m = userBits) : ∀ (pairs : List (RegNum × Word))
    {u : State}, WorkEffect s u → WorkEffect s (writeRegs m pairs u)
  | [], _, h => h
  | (n, v) :: rest, _, h => writeRegs hm rest (h.writeRegIn hm n v)

theorem drawRegs {m : BitVec 5} (hm : m = modeBits s.cpsr ∨ m = userBits) : ∀ (regs : List RegNum) {u : State},
    WorkEffect s u → WorkEffect s (drawRegs m regs u)
  | [], _, h => h
  | n :: rest, _, h => drawRegs hm rest (h.draw.writeRegIn hm n _)

theorem commitLoaded (h : WorkEffect s u) (w : Bool) (rn : RegNum) (pairs : List (RegNum × Word)) :
    WorkEffect s (commitLoaded w rn pairs u) := by
  have hregs := writeRegs (.inl (congrArg modeBits h.cpsr)) (pairs.filter fun p => p.1 != 15) h
  unfold Machine.commitLoaded
  dsimp only
  split
  · exact hregs.draw.writeReg rn _
  · exact hregs

end WorkEffect

/-! ## How an instruction ends -/

/-- All that an instruction can do: some work and then an exception; or storage, a status register it may leave, and a
pc aligned for it. -/
inductive InstrEffect (s : State) : State → Prop
  | entry {u : State} (e : ExceptionKind) (link : Word) (work : WorkEffect s u) : InstrEffect s (takeException e link u)
  | resume {t : State} (data : DataEffect s t) (status : StatusAllowed s.cpsr t.cpsr)
      (saved : modeBits s.cpsr = userBits → t.spsr = s.spsr)
      (target : flagT s.cpsr = false → bits s.pc 0 2 = 0 → PcAligned t.cpsr t.pc) : InstrEffect s t

/-- If an operation answers a next state, it is one an instruction may reach from `s`. -/
def Performs (s : State) (r : Result) : Prop := ∀ t, r = .next t → InstrEffect s t

section
variable {s u : State}

theorem performs_fault (f : Fault) : Performs s (.fault f) := fun _ h => by cases h

theorem performs_entry {e : ExceptionKind} {link : Word} (h : WorkEffect s u) :
    Performs s (.next (takeException e link u)) := fun t ht => by
  cases ht
  exact .entry e link h

/-- The next instruction, with the status registers changed as they may be, T as it was. -/
theorem performs_advance_of_status (h : DataEffect s u) (hpc : u.pc = s.pc) (status : StatusAllowed s.cpsr u.cpsr)
    (saved : modeBits s.cpsr = userBits → u.spsr = s.spsr) : Performs s (advance u) := fun t ht => by
  obtain ⟨-, rfl⟩ := advance_next.mp ht
  refine .resume (h.congr rfl rfl rfl) status saved fun _ ha => ?_
  rw [hpc]
  exact pcAligned_next ha

theorem performs_advance (h : WorkEffect s u) : Performs s (advance u) :=
  performs_advance_of_status h.toDataEffect h.pc (statusAllowed_of_low (by rw [h.cpsr])) fun _ => h.spsr

/-- The next instruction, with N, Z, C, V changed. -/
theorem performs_advance_flags (h : WorkEffect s u) {psr : Word} (hpsr : bits psr 0 28 = bits s.cpsr 0 28) :
    Performs s (advance { u with cpsr := psr }) :=
  performs_advance_of_status (h.toDataEffect.congr rfl rfl rfl) h.pc (statusAllowed_of_low hpsr) fun _ => h.spsr

theorem performs_interwork (h : WorkEffect s u) (a : Word) : Performs s (interwork a u) := fun t ht => by
  obtain ⟨ha, rfl⟩ := interwork_next.mp ht
  refine .resume (h.toDataEffect.congr rfl rfl rfl) ?_ (fun _ => h.spsr) fun _ _ => pcAligned_interwork ha
  rw [jump_cpsr, h.cpsr]
  exact statusAllowed_setT _ _

theorem instrEffect_jump (h : WorkEffect s u) {a : Word} (ha : bits a 0 2 = 0) : InstrEffect s (u.jump a) :=
  .resume (h.toDataEffect.congr rfl rfl rfl) (statusAllowed_of_low (by rw [jump_cpsr, h.cpsr])) (fun _ => h.spsr)
    fun _ _ => pcAligned_of_word ha

/-- A mode with an SPSR is not User mode (R51). -/
theorem modeBits_ne_userBits {e : ExcMode} (h : s.currentExc = some e) : modeBits s.cpsr ≠ userBits := fun hm => by
  unfold State.currentExc at h
  rw [hm] at h
  exact absurd h (by cases e <;> decide)

theorem checkedSpsr_status {new : Word} (h : checkedSpsr s = .next new) : StatusAllowed s.cpsr new := by
  obtain ⟨e, he, -, hr, hl⟩ := checkedSpsr_next.mp h
  exact ⟨fun _ => hl, fun _ => hr, fun hu => absurd hu (modeBits_ne_userBits he)⟩

theorem performs_returnFromException (h : WorkEffect s u) {bad : Option Fault} {mask v : Word}
    (hbad : bad = none → bits (v &&& mask) 0 2 = 0) : Performs s (returnFromException bad mask v u) := fun t ht => by
  obtain ⟨new, hnew, hcases⟩ := returnFromException_next.mp ht
  have status : StatusAllowed s.cpsr new := by rw [← h.cpsr]; exact checkedSpsr_status hnew
  obtain ⟨hT, rfl⟩ | ⟨-, hnone, rfl⟩ := hcases
  · refine .resume (h.toDataEffect.congr rfl rfl rfl) status (fun _ => h.spsr) fun _ _ => ?_
    exact pcAligned_of_thumb hT (by rw [jump_pc, toNat_clear_bit_zero]; omega)
  · exact .resume (h.toDataEffect.congr rfl rfl rfl) status (fun _ => h.spsr) fun _ _ => pcAligned_of_word (hbad hnone)

theorem performs_always {i : Instr} {body : State → Result} (h : Performs s (body s)) :
    Performs s (always i body s) := fun t ht => h t (always_next.mp ht).2

theorem performs_conditional {i : Instr} {c : Cond} {body : State → Result} (h : Performs s (body s)) :
    Performs s (conditional i c body s) := fun t ht => by
  obtain ⟨-, ⟨-, hb⟩ | ⟨-, ha⟩⟩ := conditional_next.mp ht
  · exact h t hb
  · exact performs_advance (.refl s) t ha

/-! ## Data processing, multiplies and the status register -/

theorem performs_writeResult {f : Bool} {rd : RegNum} {v psr : Word} (hpsr : bits psr 0 28 = bits s.cpsr 0 28) :
    Performs s (writeResult f rd v psr s) := fun t ht => by
  obtain ⟨-, -, hr⟩ | ⟨-, -, hv, rfl⟩ | ⟨hrd, -, -⟩ := writeResult_next.mp ht
  · refine performs_returnFromException (.refl s) (fun hbad => ?_) t hr
    have hv : bits v 0 2 = 0 := by
      by_contra hne
      rw [if_neg hne] at hbad
      cases hbad
    rwa [show v &&& 0xFFFFFFFF = v from BitVec.and_allOnes]
  · exact instrEffect_jump (.refl s) hv
  · unfold writeResult at ht
    rw [if_neg hrd] at ht
    refine performs_advance_flags ((WorkEffect.refl s).writeReg rd v) ?_ t ht
    split
    · exact hpsr
    · rfl

theorem performs_writeProduct {f : Bool} {rd : RegNum} {v : Word} : Performs s (writeProduct f rd v s) :=
  performs_advance_flags ((WorkEffect.refl s).writeReg rd v) (by split <;> [exact bits_setNZCV ..; rfl])

theorem performs_writeLongProduct {f : Bool} {hi lo : RegNum} {v : BitVec 64} :
    Performs s (writeLongProduct f hi lo v s) :=
  performs_advance_flags (((WorkEffect.refl s).writeReg hi _).writeReg lo _)
    (by split <;> [exact bits_setNZCV ..; rfl])

theorem performs_writeFlags {psr : Word} (hpsr : bits psr 0 28 = bits s.cpsr 0 28) :
    Performs s (writeFlags psr s) :=
  performs_advance_flags (.refl s) hpsr

theorem performs_moveToStatus {spsr : Bool} {mask : BitVec 4} {v : Word} :
    Performs s (moveToStatus spsr mask v s) := by
  have data := (WorkEffect.refl s).toDataEffect
  unfold moveToStatus
  split
  · split
    · exact performs_fault _
    · next he =>
      exact performs_advance_of_status (data.congr rfl rfl rfl) rfl (statusAllowed_of_low rfl) fun hu =>
        absurd hu (modeBits_ne_userBits he)
  · unfold writeCpsr
    split
    · exact performs_fault _
    · next hr =>
      split
      · exact performs_fault _
      · next hl =>
        split
        · exact performs_fault _
        · refine performs_advance_of_status (data.congr rfl rfl rfl) rfl ?_ fun _ => rfl
          exact statusAllowed_mergeFields (by simpa using hr) (by simpa using hl)

theorem performs_mrs {c : Cond} {spsr : Bool} {rd : RegNum} : Performs s (execMrs c spsr rd s) :=
  performs_conditional <| by
    split
    · split
      · exact performs_fault _
      · exact performs_advance ((WorkEffect.refl s).writeReg rd _)
    · exact performs_advance ((WorkEffect.refl s).writeReg rd _)

/-! ## Branches -/

/-- The target of B and BL is a word, that of BLX (1) an even address (R231, R232). -/
theorem toNat_branchTarget_mod {immed : BitVec 24} {h : Bool} (ha : bits s.pc 0 2 = 0) :
    (BitVec.ofInt 32 (branchTarget s immed h)).toNat % 4 = if h then 2 else 0 := by
  rw [bits_zero_two_iff] at ha
  rw [BitVec.toNat_ofInt, branchTarget, branchOffset]
  cases h <;> simp only [if_true, if_false, Bool.false_eq_true] <;> omega

theorem performs_branchBy {immed : BitVec 24} {before : State → State} (h : WorkEffect s (before s)) :
    Performs s (branchBy immed false before s) := fun t ht => by
  obtain ⟨-, -, rfl⟩ := branchBy_next.mp ht
  refine .resume (h.toDataEffect.congr rfl rfl rfl) (statusAllowed_of_low (by rw [h.cpsr])) (fun _ => h.spsr)
    fun _ ha => pcAligned_of_word ((bits_zero_two_iff _).mpr (toNat_branchTarget_mod ha))

theorem performs_blx1 {h : Bool} {immed : BitVec 24} : Performs s (execBlx1 h immed s) :=
  performs_always fun t ht => by
  obtain ⟨-, -, rfl⟩ := branchBy_next.mp ht
  have link := (WorkEffect.refl s).writeLink
  refine .resume (link.toDataEffect.congr rfl rfl rfl) (statusAllowed_setT _ _) (fun _ => link.spsr) fun _ ha => ?_
  refine pcAligned_of_thumb (flagT_setT _ _) ?_
  have hmod := toNat_branchTarget_mod (immed := immed) (h := h) ha
  dsimp only
  split at hmod <;> omega

/-! ## Loads and stores -/

theorem performs_loadWith {size : Size} {priv : Bool} {rn : RegNum} {ad : Addressing}
    {finish : Word → State → Result} (hf : ∀ v u, WorkEffect s u → Performs s (finish v u)) :
    Performs s (loadWith size priv rn ad finish s) := fun t ht => by
  obtain ⟨-, rfl⟩ | ⟨-, -, rfl⟩ | ⟨-, -, hfin⟩ := loadWith_next.mp ht
  · exact .entry _ _ (.refl s)
  · exact .entry _ _ ((WorkEffect.refl s).abortBase rn _)
  · exact hf _ _ (((WorkEffect.refl s).load size _).writeBase rn _) t hfin

theorem performs_toRegister (rd : RegNum) (v : Word) (h : WorkEffect s u) : Performs s (toRegister rd v u) :=
  performs_advance (h.writeReg rd v)

theorem performs_loadPc {rn : RegNum} {ad : Addressing} : Performs s (loadPc rn ad s) := by
  unfold loadPc
  split
  · exact performs_loadWith fun v _ h => performs_interwork h v
  · exact performs_fault _

theorem performs_ldr {c : Cond} {idx : Index} {up : Bool} {rn rd : RegNum} {off : Offset2} :
    Performs s (execLdr c idx up rn rd off s) :=
  performs_conditional <| by
    split
    · exact performs_loadPc
    · exact performs_loadWith fun _ _ => performs_toRegister rd _

theorem performs_storeWith {size : Size} {priv : Bool} {rn : RegNum} {ad : Addressing} {v : Word} :
    Performs s (storeWith size priv rn ad v s) := fun t ht => by
  obtain ⟨-, rfl⟩ | ⟨-, -, rfl⟩ | ⟨-, -, ha⟩ := storeWith_next.mp ht
  · exact .entry _ _ (.refl s)
  · exact .entry _ _ ((WorkEffect.refl s).abortBase rn _)
  · exact performs_advance (((WorkEffect.refl s).store size _ v).writeBase rn _) t ha

theorem performs_exchange {size : Size} {rn rd rm : RegNum} {result : Word → Word → Word} :
    Performs s (exchange size rn rd rm result s) := fun t ht => by
  have load := (WorkEffect.refl s).load size (s.readReg rn)
  obtain ⟨-, rfl⟩ | ⟨-, -, rfl⟩ | ⟨-, -, -, rfl⟩ | ⟨-, -, -, ha⟩ := exchange_next.mp ht
  · exact .entry _ _ (.refl s)
  · exact .entry _ _ (.refl s)
  · exact .entry _ _ load
  · exact performs_advance ((load.store size _ _).writeReg rd _) t ha

/-! ## Load and store multiple -/

theorem performs_loadMultiple {m : BitVec 5} (hm : m = modeBits s.cpsr ∨ m = userBits) {mode : Mode4} {w : Bool}
    {rn : RegNum} {list : BitVec 16} {finish : List (RegNum × Word) → State → Result}
    (hf : ∀ pairs u, WorkEffect s u → Performs s (finish pairs u)) :
    Performs s (loadMultiple m mode w rn list finish s) := fun t ht => by
  obtain rfl | ⟨u, nb, hu, rfl⟩ | ⟨words, u, nb, hu, hfin⟩ := loadMultiple_next ht
  · exact .entry _ _ (.refl s)
  · have load := (WorkEffect.refl s).loadWords (words := []) (.inr hu)
    exact .entry _ _ ((WorkEffect.drawRegs hm _ load).abortBase rn nb)
  · exact hf _ _ (((WorkEffect.refl s).loadWords (.inl hu)).writeBase rn nb) t hfin

theorem performs_ldm1 {c : Cond} {mode : Mode4} {w : Bool} {rn : RegNum} {list : BitVec 16} :
    Performs s (execLdm1 c mode w rn list s) :=
  performs_conditional <| performs_loadMultiple (.inl rfl) fun pairs u hu => by
    split
    · exact performs_interwork (hu.commitLoaded w rn pairs) _
    · exact performs_advance (hu.commitLoaded w rn pairs)

theorem performs_ldm2 {c : Cond} {mode : Mode4} {w : Bool} {rn : RegNum} {list : BitVec 15} :
    Performs s (execLdm2 c mode w rn list s) :=
  performs_conditional <| by
    split
    · exact performs_fault _
    · refine performs_loadMultiple (.inr rfl) fun pairs u hu => ?_
      exact performs_advance ((WorkEffect.writeRegs (.inr rfl) pairs hu).congr rfl rfl rfl rfl rfl rfl)

theorem performs_ldm3 {c : Cond} {mode : Mode4} {w : Bool} {rn : RegNum} {list : BitVec 15} :
    Performs s (execLdm3 c mode w rn list s) :=
  performs_conditional <| by
    split
    · exact performs_fault _
    · refine performs_loadMultiple (.inl rfl) fun pairs u hu => ?_
      refine performs_returnFromException (hu.commitLoaded w rn pairs) fun _ => ?_
      rw [bits_zero_two_iff, toNat_clear_two_bits]
      omega

theorem performs_storeMultiple {m : BitVec 5} {mode : Mode4} {w : Bool} {rn : RegNum} {list : BitVec 16}
    {after : State → State} (hafter : ∀ u, WorkEffect s u → WorkEffect s (after u)) :
    Performs s (storeMultiple m mode w rn list after s) := fun t ht => by
  have drawn : WorkEffect s (if drawsBase w rn (listed list) then s.draw.2 else s) := by
    split
    · exact (WorkEffect.refl s).draw
    · exact .refl s
  obtain rfl | ⟨pairs, u, nb, addrs, hu, rfl⟩ | ⟨pairs, u, nb, hu, ha⟩ := storeMultiple_next ht
  · exact .entry _ _ (.refl s)
  · exact .entry _ _ (((drawn.storeWords (.inr hu)).drawStored _ addrs).abortBase rn nb)
  · exact performs_advance (hafter _ ((drawn.storeWords (.inl hu)).writeBase rn nb)) t ha

theorem performs_stm2 {c : Cond} {mode : Mode4} {w : Bool} {rn : RegNum} {list : BitVec 16} :
    Performs s (execStm2 c mode w rn list s) :=
  performs_conditional <| by
    split
    · exact performs_fault _
    · exact performs_storeMultiple fun u hu => hu.congr rfl rfl rfl rfl rfl rfl

/-! ## Coprocessors -/

theorem performs_withCoproc {w : Word} {cp : BitVec 4} {body : Coproc → Nat → State → Result}
    (hb : ∀ c n, Performs s (body c n s)) : Performs s (withCoproc w cp body s) := fun t ht => by
  obtain ⟨-, rfl⟩ | ⟨c, r, -, -, -, hbody⟩ := withCoproc_next.mp ht
  · exact .entry _ _ (.refl s)
  · exact hb c r.count t hbody

theorem performs_coprocTransfer {ad : Addressing} {n : Nat} {body : List Word → State → Result}
    (hb : Performs s (body (coprocAddresses ad.address n) s)) : Performs s (coprocTransfer ad n body s) :=
  fun t ht => by
  obtain rfl | hbody := coprocTransfer_next ht
  · exact .entry _ _ (.refl s)
  · exact hb t hbody

theorem performs_coprocOperation {w : Word} {cp : BitVec 4} : Performs s (coprocOperation w cp s) :=
  performs_withCoproc fun _ _ => performs_advance ((WorkEffect.refl s).setCoproc cp _)

theorem performs_toCoproc {w : Word} {cp : BitVec 4} {rd : RegNum} : Performs s (toCoproc w cp rd s) :=
  performs_withCoproc fun _ _ => performs_advance ((WorkEffect.refl s).setCoproc cp _)

/-- R490: the flags from bits 31:28 of a word. -/
theorem bits_flagsFromWord (psr data : Word) : bits (flagsFromWord psr data) 0 28 = bits psr 0 28 :=
  bits_ext 0 28 fun k _ hk => by
    refine (BitVec.getLsbD_append (x := bits data 28 4) (y := bits psr 0 28) (i := k)).trans ?_
    simp [show k < 28 by omega, bits, bit]

theorem performs_fromCoproc {w : Word} {cp : BitVec 4} {rd : RegNum} : Performs s (fromCoproc w cp rd s) :=
  performs_withCoproc fun c _ => by
    have work := (WorkEffect.refl s).setCoproc cp (Config.cpMrc c w)
    split
    · exact performs_advance_flags work (bits_flagsFromWord _ _)
    · exact performs_advance (work.writeReg rd _)

theorem performs_loadCoproc {w : Word} {mode : Mode5} {rn : RegNum} {cp : BitVec 4} :
    Performs s (loadCoproc w mode rn cp s) :=
  performs_withCoproc fun c n => performs_coprocTransfer <| by
    split
    · next hu => exact performs_advance ((((WorkEffect.refl s).loadWords (.inl hu)).setCoproc cp _).writeBase rn _)
    · next t hu =>
      have load := (WorkEffect.refl s).loadWords (words := []) (.inr hu)
      have drawn : WorkEffect s { t with draws := t.draws + 1 } := load.congr rfl rfl rfl rfl rfl rfl
      exact performs_entry ((drawn.setCoproc cp _).abortBase rn _)

theorem performs_storeCoproc {w : Word} {mode : Mode5} {rn : RegNum} {cp : BitVec 4} :
    Performs s (storeCoproc w mode rn cp s) :=
  performs_withCoproc fun c n => performs_coprocTransfer <| by
    split
    · next hu => exact performs_advance ((((WorkEffect.refl s).storeWords (.inl hu)).setCoproc cp _).writeBase rn _)
    · next hu => exact performs_entry ((((WorkEffect.refl s).storeWords (.inr hu)).drawStored _ _).abortBase rn _)

theorem performs_undefinedWord (w : Word) : Performs s (undefinedWord w s) := by
  unfold undefinedWord
  split
  · exact performs_entry (.refl s)
  · exact performs_advance (.refl s)

end

/-! ## Every instruction -/

/-- What every instruction can do. -/
theorem exec_performs (i : Instr) (s : State) : Performs s (exec i s) := by
  cases i with
  | and | eor | sub | rsb | add | adc | sbc | rsc | orr | mov | bic | mvn =>
    simp only [exec, execAnd, execEor, execSub, execRsb, execAdd, execAdc, execSbc, execRsc, execOrr, execMov,
      execBic, execMvn]
    exact performs_conditional (performs_writeResult (bits_setNZCV ..))
  | tst | teq | cmp | cmn =>
    simp only [exec, execTst, execTeq, execCmp, execCmn]
    exact performs_conditional (performs_writeFlags (bits_setNZCV ..))
  | mul | mla =>
    simp only [exec, execMul, execMla]
    exact performs_conditional performs_writeProduct
  | umull | umlal | smull | smlal =>
    simp only [exec, execUmull, execUmlal, execSmull, execSmlal]
    exact performs_conditional performs_writeLongProduct
  | clz =>
    simp only [exec, execClz]
    exact performs_conditional (performs_advance ((WorkEffect.refl s).writeReg _ _))
  | mrs => exact performs_mrs
  | msrReg | msrImm =>
    simp only [exec, execMsrReg, execMsrImm]
    exact performs_conditional performs_moveToStatus
  | b =>
    simp only [exec, execB]
    exact performs_conditional (performs_branchBy (.refl s))
  | bl =>
    simp only [exec, execBl]
    exact performs_conditional (performs_branchBy (WorkEffect.refl s).writeLink)
  | blx1 => exact performs_blx1
  | bx =>
    simp only [exec, execBx]
    exact performs_conditional (performs_interwork (.refl s) _)
  | blx2 =>
    simp only [exec, execBlx2]
    exact performs_conditional (performs_interwork (WorkEffect.refl s).writeLink _)
  | ldr => exact performs_ldr
  | ldrt | ldrb | ldrbt | ldrh | ldrsb | ldrsh =>
    simp only [exec, execLdrt, execLdrb, execLdrbt, execLdrh, execLdrsb, execLdrsh]
    exact performs_conditional (performs_loadWith fun _ _ => performs_toRegister _ _)
  | str | strt | strb | strbt | strh =>
    simp only [exec, execStr, execStrt, execStrb, execStrbt, execStrh]
    exact performs_conditional performs_storeWith
  | swp | swpb =>
    simp only [exec, execSwp, execSwpb]
    exact performs_conditional performs_exchange
  | ldm1 => exact performs_ldm1
  | ldm2 => exact performs_ldm2
  | ldm3 => exact performs_ldm3
  | stm1 =>
    simp only [exec, execStm1]
    exact performs_conditional (performs_storeMultiple fun _ => id)
  | stm2 => exact performs_stm2
  | cdp =>
    simp only [exec, execCdp]
    exact performs_conditional performs_coprocOperation
  | cdp2 =>
    simp only [exec, execCdp2]
    exact performs_always performs_coprocOperation
  | mcr =>
    simp only [exec, execMcr]
    exact performs_conditional performs_toCoproc
  | mcr2 =>
    simp only [exec, execMcr2]
    exact performs_always performs_toCoproc
  | mrc =>
    simp only [exec, execMrc]
    exact performs_conditional performs_fromCoproc
  | mrc2 =>
    simp only [exec, execMrc2]
    exact performs_always performs_fromCoproc
  | ldc =>
    simp only [exec, execLdc]
    exact performs_conditional performs_loadCoproc
  | ldc2 =>
    simp only [exec, execLdc2]
    exact performs_always performs_loadCoproc
  | stc =>
    simp only [exec, execStc]
    exact performs_conditional performs_storeCoproc
  | stc2 =>
    simp only [exec, execStc2]
    exact performs_always performs_storeCoproc
  | swi =>
    simp only [exec, execSwi]
    exact performs_conditional (performs_entry (.refl s))
  | bkpt =>
    simp only [exec, execBkpt]
    exact performs_always (performs_entry (.refl s))
  | undefCoprocSpace w | undefUnconditional w | undefControlImm w | undefArith w | undefLoadStore w | undefDouble w
  | undefControlReg w | undefSpace w => exact performs_undefinedWord w
  | unpredBkpt | unpredBx | unpredClz | unpredMrs | unpredMsrReg | unpredMsrImm | unpredMul | unpredSwp | unpredTst
  | unpredTeq | unpredCmp | unpredCmn | unpredMov | unpredMvn => exact performs_fault _

/-! ## User mode -/

/-- Settles O9: an instruction enters an exception with the status as it was, or writes the flags, T and what User mode
sees. -/
theorem userModeConfined : Obligations.UserModeConfined := by
  unfold Obligations.UserModeConfined
  intro i s t hmode h
  have hplatform := exec_keepsPlatform i s t h
  cases exec_performs i s t h with
  | @entry u e link work =>
    rw [takeException_platform] at hplatform
    refine .inl ⟨e, ?_, ?_, ?_⟩
    · rw [takeException_cpsr, work.cpsr]
    · rw [takeException_pc, hplatform]
    · rw [takeException_spsr, work.cpsr, work.spsr]
  | resume data status saved =>
    obtain ⟨hm, hI, hF⟩ := status.confined hmode
    exact .inr ⟨hm, hI, hF, saved hmode, fun r hr => data.registers r (by rwa [hmode]) hr⟩

/-! ## The invariant -/

/-- An exception entry keeps the invariant (R562). -/
theorem takeException_inv {e : ExceptionKind} {link : Word} {s : State}
    (forms : Memory.wf s.mem = true ∧ addrsFrom 0 s.written = true) (hr : reservedBits s.cpsr = 0) :
    (takeException e link s).Inv where
  memory := forms.1
  written := forms.2
  mode := by rw [takeException_cpsr, modeBits_entryCpsr]; cases e <;> rfl
  reserved := by rw [takeException_cpsr, reservedBits_entryCpsr, hr]
  aligned := (pcAligned_vector (takeException e link s).cpsr s.platform e).1
  armAligned := (pcAligned_vector (takeException e link s).cpsr s.platform e).2

/-- In ARM state what an instruction does keeps the invariant. -/
theorem InstrEffect.inv {s t : State} (h : InstrEffect s t) (hs : s.Inv) (hT : flagT s.cpsr = false) : t.Inv := by
  have forms := And.intro hs.memory hs.written
  cases h with
  | entry e link work => exact takeException_inv (work.forms forms) (by rw [work.cpsr]; exact hs.reserved)
  | resume data status saved target =>
    obtain ⟨aligned, armAligned⟩ := target hT (hs.armAligned hT)
    exact ⟨(data.forms forms).1, (data.forms forms).2, status.legal hs.mode, status.reserved hs.reserved, aligned,
      armAligned⟩

/-- A state that differs in hidden state or inputs only. -/
theorem State.Inv.congr {s t : State} (hs : s.Inv) (hmem : t.mem = s.mem) (hwritten : addrsFrom 0 t.written = true)
    (hcpsr : t.cpsr = s.cpsr) (hpc : t.pc = s.pc) : t.Inv where
  memory := by rw [hmem]; exact hs.memory
  written := hwritten
  mode := by rw [hcpsr]; exact hs.mode
  reserved := by rw [hcpsr]; exact hs.reserved
  aligned := by rw [hpc]; exact hs.aligned
  armAligned := by rw [hcpsr, hpc]; exact hs.armAligned

theorem takeInputs_inv {s : State} (hs : s.Inv) : (takeInputs s).Inv := by
  refine hs.congr (takeInputs_mem s) ?_ (takeInputs_cpsr s) (takeInputs_pc s)
  rw [takeInputs_written]
  split
  · rfl
  · exact hs.written

theorem resetEntry_inv {s : State} (hm : Memory.wf s.mem = true) : (resetEntry s).Inv := by
  have hlow := bits_resetCpsr (Config.freeWord (s.draws + 35))
  obtain ⟨aligned, armAligned⟩ := pcAligned_vector (resetEntry s).cpsr s.platform .reset
  constructor
  · rw [resetEntry_mem]; exact hm
  · rw [resetEntry_written]; rfl
  · rw [resetEntry_cpsr, modeBits_of_low hlow]; rfl
  · rw [resetEntry_cpsr, reservedBits_of_low hlow]; rfl
  · rw [resetEntry_pc]; exact aligned
  · rw [resetEntry_pc]; exact armAligned

theorem takeException_keepsInv {s : State} (hs : s.Inv) (e : ExceptionKind) (link : Word) :
    (takeException e link s).Inv :=
  takeException_inv ⟨hs.memory, hs.written⟩ hs.reserved

/-- The boundary of a step keeps the invariant, whatever it ends in. -/
theorem boundary_taken_inv {s t : State} (hs : s.Inv) (h : boundary s = .taken t) : t.Inv := by
  have hnow := takeInputs_inv hs
  obtain ⟨u, hu, hcases⟩ | ⟨hu, -, -⟩ := boundary_cases s
  · rw [hu] at h
    cases h
    obtain rfl | rfl | rfl | rfl := hcases
    · exact hnow.congr rfl hnow.written rfl rfl
    · exact resetEntry_inv hnow.memory
    · exact takeException_keepsInv hnow _ _
    · exact takeException_keepsInv hnow _ _
  · rw [hu] at h
    cases h

/-- All the next states of a step that runs no instruction after its boundary: an entry from Thumb state (R55), or the
Prefetch Abort (R570). -/
theorem fetch_ended_next {s t : State} (h : fetch s = .ended (.next t)) :
    (∃ link, t = takeException .undefined link s.draw.2) ∨ t = prefetchAbort s := by
  unfold fetch thumbStep at h
  split at h
  · split at h
    · cases h
    · cases h
      exact .inl ⟨_, rfl⟩
  · repeat' split at h
    all_goals cases h
    exact .inr rfl

theorem fetchAndRun_inv {s t : State} (hs : s.Inv) (h : fetchAndRun s = .next t) : t.Inv := by
  unfold fetchAndRun at h
  split at h
  · next hf =>
    subst h
    have drawn : s.draw.2.Inv := hs.congr rfl hs.written rfl rfl
    obtain ⟨link, rfl⟩ | rfl := fetch_ended_next hf
    · exact takeException_keepsInv drawn _ _
    · exact takeException_keepsInv hs _ _
  · next w hf =>
    obtain ⟨-, hT, -, -, -⟩ := fetch_word hf
    have hclear : (clearHazard s).Inv := hs.congr rfl hs.written rfl rfl
    exact (exec_performs _ _ t (runInstr_next h)).inv hclear hT

/-- Settles O5: every entry keeps the invariant, and so does every instruction, which runs in ARM state only. -/
theorem stepKeepsInv : Obligations.StepKeepsInv := by
  unfold Obligations.StepKeepsInv
  intro s t hs h
  unfold step at h
  split at h
  · next hb =>
    cases h
    exact boundary_taken_inv hs hb
  · next u hb =>
    obtain ⟨v, hv, -⟩ | ⟨hv, -, -⟩ := boundary_cases s
    · rw [hv] at hb
      cases hb
    · rw [hv] at hb
      cases hb
      exact fetchAndRun_inv (takeInputs_inv hs) h

/-- Settles O6: every field is the one the spec assigns. -/
theorem resetMeetsInv : Obligations.ResetMeetsInv := by
  unfold Obligations.ResetMeetsInv
  exact ⟨reset_memory_wf, rfl, by decide, by decide, by decide, fun _ => by decide⟩

end Sys2Proof.Machine
end

section
/-! Data processing to R15 (R265, R266), B, BL and BLX (1) (R231, R232), and MRS (R342). -/

namespace Sys2Proof.Machine

/-! ## The return from an exception, case by case (R265, R580) -/

section
variable {s : State} {e : ExcMode}

theorem checkedSpsr_of_none (h : s.currentExc = none) : checkedSpsr s = .fault .noSpsr := by
  unfold checkedSpsr; rw [h]

theorem checkedSpsr_of_reserved (he : s.currentExc = some e) (hr : reservedBits (s.spsr.get e) ≠ 0) :
    checkedSpsr s = .fault .reservedPsrBits := by
  simp only [checkedSpsr, he, if_pos hr]

theorem checkedSpsr_of_illegal (he : s.currentExc = some e) (hr : reservedBits (s.spsr.get e) = 0)
    (hl : legalMode (modeBits (s.spsr.get e)) = false) : checkedSpsr s = .fault .illegalMode := by
  simp only [checkedSpsr, he, hr, hl, ne_eq, not_true_eq_false, if_false, Bool.not_false, if_true]

theorem checkedSpsr_of_legal (he : s.currentExc = some e) (hr : reservedBits (s.spsr.get e) = 0)
    (hl : legalMode (modeBits (s.spsr.get e)) = true) : checkedSpsr s = .next (s.spsr.get e) :=
  checkedSpsr_next.mpr ⟨e, he, rfl, hr, hl⟩

variable {bad : Option Fault} {mask v new : Word}

theorem returnFromException_of_fault {f : Fault} (h : checkedSpsr s = .fault f) :
    returnFromException bad mask v s = .fault f := by
  unfold returnFromException; rw [h]

theorem returnFromException_of_thumb (h : checkedSpsr s = .next new) (hT : flagT new = true) :
    returnFromException bad mask v s = .next ({ s with cpsr := new }.jump (v &&& 0xFFFFFFFE)) :=
  returnFromException_next.mpr ⟨new, h, .inl ⟨hT, rfl⟩⟩

theorem returnFromException_of_arm (h : checkedSpsr s = .next new) (hT : flagT new = false) :
    returnFromException none mask v s = .next ({ s with cpsr := new }.jump (v &&& mask)) :=
  returnFromException_next.mpr ⟨new, h, .inr ⟨hT, rfl, rfl⟩⟩

theorem returnFromException_of_bad {f : Fault} (h : checkedSpsr s = .next new) (hT : flagT new = false) :
    returnFromException (some f) mask v s = .fault f := by
  unfold returnFromException; simp only [h, hT, Bool.false_eq_true, if_false]

end

/-! ## Every data-processing instruction with a destination writes its result -/

section
variable {c : Cond} {f : Bool} {rn rd : RegNum} {op : Operand2} {s : State}

theorem exec_and (h : Runs (.and c f rn rd op) s) :
    exec (.and c f rn rd op) s = logical (fun a b => a &&& b) f rn rd op s := by
  simp only [exec, execAnd]
  exact conditional_of_runs h rfl

theorem exec_eor (h : Runs (.eor c f rn rd op) s) :
    exec (.eor c f rn rd op) s = logical (fun a b => a ^^^ b) f rn rd op s := by
  simp only [exec, execEor]
  exact conditional_of_runs h rfl

theorem exec_orr (h : Runs (.orr c f rn rd op) s) :
    exec (.orr c f rn rd op) s = logical (fun a b => a ||| b) f rn rd op s := by
  simp only [exec, execOrr]
  exact conditional_of_runs h rfl

theorem exec_bic (h : Runs (.bic c f rn rd op) s) :
    exec (.bic c f rn rd op) s = logical (fun a b => a &&& ~~~b) f rn rd op s := by
  simp only [exec, execBic]
  exact conditional_of_runs h rfl

theorem exec_mov (h : Runs (.mov c f rd op) s) : exec (.mov c f rd op) s = move (fun b => b) f rd op s := by
  simp only [exec, execMov]
  exact conditional_of_runs h rfl

theorem exec_mvn (h : Runs (.mvn c f rd op) s) : exec (.mvn c f rd op) s = move (fun b => ~~~b) f rd op s := by
  simp only [exec, execMvn]
  exact conditional_of_runs h rfl

theorem addTo_false (a b : Word) :
    addTo f rd a b false s = writeResult f rd (a + b) (addFlags s.cpsr a b false) s := by
  simp [addTo, carryWord]

theorem subTo_false (a b : Word) :
    subTo f rd a b false s = writeResult f rd (a - b) (subFlags s.cpsr a b false) s := by
  simp [subTo, carryWord]

end

/-- The write that ends each of the twelve instructions (R264 to R266). -/
theorem exec_eq_writeResult {i : Instr} {s : State} {f : Bool} {rd : RegNum} {v : Word} (h : Runs i s)
    (hi : dpResult i s = some (f, rd, v)) : ∃ psr, exec i s = writeResult f rd v psr s := by
  cases i <;> cases hi
  case and => exact ⟨_, exec_and h⟩
  case eor => exact ⟨_, exec_eor h⟩
  case sub => exact ⟨_, (exec_sub h).trans (subTo_false _ _)⟩
  case rsb => exact ⟨_, (exec_rsb h).trans (subTo_false _ _)⟩
  case add => exact ⟨_, (exec_add h).trans (addTo_false _ _)⟩
  case adc => exact ⟨_, exec_adc h⟩
  case sbc => exact ⟨_, exec_sbc h⟩
  case rsc => exact ⟨_, exec_rsc h⟩
  case orr => exact ⟨_, exec_orr h⟩
  case mov => exact ⟨_, exec_mov h⟩
  case bic => exact ⟨_, exec_bic h⟩
  case mvn => exact ⟨_, exec_mvn h⟩

/-- R265: with S, R15 is written by the exception return. -/
theorem exec_eq_returnFromException {i : Instr} {s : State} {v : Word} (h : Runs i s)
    (hi : dpResult i s = some (true, 15, v)) :
    exec i s = returnFromException (if bits v 0 2 = 0 then none else some .misalignedPc) 0xFFFFFFFF v s :=
  (exec_eq_writeResult h hi).elim fun _ hpsr => hpsr

/-- R266: without S, R15 is written by a branch to an aligned address. -/
theorem exec_eq_jump {i : Instr} {s : State} {v : Word} (h : Runs i s) (hi : dpResult i s = some (false, 15, v)) :
    exec i s = if bits v 0 2 = 0 then .next (s.jump v) else .fault .misalignedPc :=
  (exec_eq_writeResult h hi).elim fun _ hpsr => hpsr

/-- Settles O22: the write to R15 is the exception return with S, whose checks are those of the SPSR, or a branch. -/
theorem resultToPc : Obligations.ResultToPc := by
  unfold Obligations.ResultToPc
  constructor
  · intro i s v h hi
    rw [exec_eq_returnFromException h hi]
    refine ⟨fun hnone => returnFromException_of_fault (checkedSpsr_of_none hnone), fun e he => ?_⟩
    refine ⟨fun hr => returnFromException_of_fault (checkedSpsr_of_reserved he hr),
      fun hr hl => returnFromException_of_fault (checkedSpsr_of_illegal he hr hl), fun hr hl => ?_⟩
    have hnew := checkedSpsr_of_legal he hr hl
    refine ⟨fun hT => returnFromException_of_thumb hnew hT, fun hT hv => ?_, fun hT hv => ?_⟩
    · rw [if_pos hv, returnFromException_of_arm hnew hT, show v &&& 0xFFFFFFFF = v from BitVec.and_allOnes]
      rfl
    · rw [if_neg hv, returnFromException_of_bad hnew hT]
  · intro i s v h hi
    rw [exec_eq_jump h hi]
    exact ⟨fun hv => if_pos hv, fun hv => if_neg hv⟩

/-! ## Branches -/

section
variable {c : Cond} {h : Bool} {immed : BitVec 24} {s : State}

theorem exec_b (hr : Runs (.b c immed) s) : exec (.b c immed) s = branchBy immed false id s := by
  simp only [exec, execB]
  exact conditional_of_runs hr rfl

theorem exec_bl (hr : Runs (.bl c immed) s) : exec (.bl c immed) s = branchBy immed false writeLink s := by
  simp only [exec, execBl]
  exact conditional_of_runs hr rfl

/-- BLX (1) has no condition and no UNPREDICTABLE encoding. -/
theorem exec_blx1 : exec (.blx1 h immed) s =
    branchBy immed h (fun s => { writeLink s with cpsr := setT s.cpsr true }) s := by
  simp only [exec, execBlx1]
  exact always_runs rfl

/-- R231, R232: the target as an exact number. -/
theorem branchTarget_eq :
    branchTarget s immed h = (s.pc.toNat : Int) + 8 + 4 * immed.toInt + (if h then 2 else 0) := by
  unfold branchTarget branchOffset
  ring

variable {before : State → State}

theorem branchBy_of_inside (hin : 0 ≤ branchTarget s immed h ∧ branchTarget s immed h < 2 ^ 32) :
    branchBy immed h before s = .next { before s with pc := BitVec.ofInt 32 (branchTarget s immed h) } :=
  branchBy_next.mpr ⟨hin.1, hin.2, rfl⟩

theorem branchBy_of_outside (hout : branchTarget s immed h < 0 ∨ 2 ^ 32 ≤ branchTarget s immed h) :
    branchBy immed h before s = .fault .branchWrap :=
  if_pos hout

end

/-- Settles O35: the three branches are `branchBy` with nothing, the link, and the link and T done first. -/
theorem branches : Obligations.Branches := by
  unfold Obligations.Branches
  intro c h immed s target targetH
  have htarget : branchTarget s immed false = target := by rw [branchTarget_eq]; exact Int.add_zero _
  have htargetH : branchTarget s immed h = targetH := branchTarget_eq
  rw [← htarget, ← htargetH]
  refine ⟨fun hr => ?_, fun hr => ?_, fun hin => ?_, fun hout => ?_⟩
  · rw [exec_b hr]
    exact ⟨branchBy_of_inside, branchBy_of_outside⟩
  · rw [exec_bl hr]
    exact ⟨branchBy_of_inside, branchBy_of_outside⟩
  · exact ⟨_, exec_blx1.trans (branchBy_of_inside hin), rfl, flagT_setT _ _, fun k hk => by simp [hk]⟩
  · exact exec_blx1.trans (branchBy_of_outside hout)

/-! ## MRS -/

/-- An instruction that writes one register, no flag, and goes to the next word. -/
theorem writeReg_completes {i : Instr} {rd : RegNum} {v : Word} {s : State} (hi : exec i s = advance (s.writeReg rd v))
    (hrd : rd ≠ 15) (hpc : s.pc ≠ 0xFFFFFFFC) : Completes i s (RegisterOutcome rd v (nzcv s.cpsr) s) :=
  ⟨_, hi.trans (advance_of_ne (by simpa using hpc)),
    registerOutcome_of_written hrd (by simp) rfl (by simp) (by simp) (by simp)⟩

section
variable {c : Cond} {spsr : Bool} {rd : RegNum} {s : State}

/-- R342 (1): R15 is no destination of MRS. -/
theorem mrs_rd_ne_fifteen (h : Runs (.mrs c spsr rd) s) : rd ≠ 15 := by
  rintro rfl
  cases h.unpredictable_eq_none

theorem exec_mrs_cpsr (h : Runs (.mrs c false rd) s) : exec (.mrs c false rd) s = advance (s.writeReg rd s.cpsr) := by
  simp only [exec, execMrs]
  exact conditional_of_runs h rfl

theorem exec_mrs_spsr {e : ExcMode} (h : Runs (.mrs c true rd) s) (he : s.currentExc = some e) :
    exec (.mrs c true rd) s = advance (s.writeReg rd (s.spsr.get e)) := by
  simp only [exec, execMrs]
  rw [conditional_of_runs h rfl]
  simp only [if_true, he]

theorem exec_mrs_spsr_of_none (h : Runs (.mrs c true rd) s) (he : s.currentExc = none) :
    exec (.mrs c true rd) s = .fault .noSpsr := by
  simp only [exec, execMrs]
  rw [conditional_of_runs h rfl]
  simp only [if_true, he]

end

/-- Settles O32: MRS is a register write of the status register read. -/
theorem moveFromStatus : Obligations.MoveFromStatus := by
  unfold Obligations.MoveFromStatus
  intro c rd s
  exact ⟨fun h => writeReg_completes (exec_mrs_cpsr h.toRuns) (mrs_rd_ne_fifteen h.toRuns) h.notLast,
    fun e h he => writeReg_completes (exec_mrs_spsr h.toRuns he) (mrs_rd_ne_fifteen h.toRuns) h.notLast,
    exec_mrs_spsr_of_none⟩

end Sys2Proof.Machine
end

section
/-! STM (1) and STM (2) on normal memory (R433, R437, R438): the words of a transfer lie one after the other, so each
holds what its own store wrote. -/

namespace Sys2Proof.Machine

/-! ## The addresses of a transfer -/

theorem toNat_alignTo_word (a : Word) : (alignTo .word a).toNat = a.toNat / 4 * 4 := toNat_clear_two_bits a

/-- R103: the first and the last word of a transfer lie inside the address space. -/
theorem wordsWrap_eq_false {start : Word} {n : Nat} (h : wordsWrap start n = false) :
    (alignTo .word start).toNat + 4 * (n - 1) ≤ 0xFFFFFFFC := by
  simpa [wordsWrap, alignTo] using h

/-- Each word of a transfer is aligned as the first is. -/
theorem toNat_alignTo_add_fourTimes {start : Word} {k : Nat}
    (h : (alignTo .word start).toNat + 4 * k ≤ 0xFFFFFFFC) :
    (alignTo .word (start + fourTimes k)).toNat = (alignTo .word start).toNat + 4 * k := by
  rw [toNat_alignTo_word] at h
  rw [toNat_alignTo_word, toNat_alignTo_word, fourTimes, BitVec.toNat_add, BitVec.toNat_ofNat]
  omega

theorem length_wordAddresses (start : Word) (n : Nat) : (wordAddresses start n).length = n := by
  simp [wordAddresses]

theorem mem_wordAddresses {start a : Word} {n : Nat} :
    a ∈ wordAddresses start n ↔ ∃ k < n, a = start + fourTimes k := by
  simp [wordAddresses, eq_comm]

theorem getElem?_wordAddresses {start : Word} {n k : Nat} (h : k < n) :
    (wordAddresses start n)[k]? = some (start + fourTimes k) := by
  simp [wordAddresses, h]

/-- A word lies wholly below another. -/
def WordBelow (a b : Word) : Prop := (alignTo .word a).toNat + 4 ≤ (alignTo .word b).toNat

/-- The words of a transfer lie one above the other (R431). -/
theorem pairwise_wordAddresses {start : Word} {n : Nat} (h : wordsWrap start n = false) :
    (wordAddresses start n).Pairwise WordBelow := by
  have hlast := wordsWrap_eq_false h
  unfold wordAddresses
  rw [List.pairwise_map]
  refine List.pairwise_lt_range.imp_of_mem fun {j k} hj hk hjk => ?_
  rw [List.mem_range] at hj hk
  rw [WordBelow, toNat_alignTo_add_fourTimes (by omega), toNat_alignTo_add_fourTimes (by omega)]
  omega

/-- On normal memory without an abort, the bytes of a transfer are those of its words (R113). -/
theorem storable_wordAddresses {priv : Bool} {start : Word} {n : Nat} {s : State} (hwrap : wordsWrap start n = false)
    (hio : ∀ a ∈ wordAddresses start n, s.isIo .word a = false)
    (hab : ∀ a ∈ wordAddresses start n, s.memAbort a .word .store priv = false) (x : Nat) :
    Storable priv (wordAddresses start n) s x ↔
      (alignTo .word start).toNat ≤ x ∧ x < (alignTo .word start).toNat + 4 * n := by
  have hlast := wordsWrap_eq_false hwrap
  constructor
  · rintro ⟨a, ha, -, -, hlo, hhi⟩
    obtain ⟨k, hk, rfl⟩ := mem_wordAddresses.mp ha
    rw [toNat_alignTo_add_fourTimes (by omega)] at hlo hhi
    omega
  · rintro ⟨hlo, hhi⟩
    obtain ⟨k, hk⟩ : ∃ k, k = (x - (alignTo .word start).toNat) / 4 := ⟨_, rfl⟩
    have ha : start + fourTimes k ∈ wordAddresses start n := mem_wordAddresses.mpr ⟨k, by omega, rfl⟩
    refine ⟨_, ha, hab _ ha, hio _ ha, ?_⟩
    rw [toNat_alignTo_add_fourTimes (by omega)]
    omega

/-! ## A sequence of stores to normal memory -/

theorem Memory.readSized_word_congr {big : Bool} {m m' : List Host.Cell} {a : Nat}
    (h : ∀ x, a ≤ x → x < a + 4 → Memory.read m' x = Memory.read m x) :
    Memory.readSized big .word m' a = Memory.readSized big .word m a := by
  cases big <;>
    simp only [Memory.readSized, h a (by omega) (by omega), h (a + 1) (by omega) (by omega),
      h (a + 2) (by omega) (by omega), h (a + 3) (by omega) (by omega)]

theorem memRead_congr {s t : State} (hm : t.mem = s.mem) (hp : t.platform = s.platform) : t.memRead = s.memRead := by
  funext size a
  simp only [State.memRead, hm, hp]

theorem store_of_not_io {s : State} {a v : Word} (h : s.isIo .word a = false) :
    s.store .word a v = s.memWrite .word a v := by
  unfold State.store; rw [if_neg (by simp [h])]

/-- Stores to normal memory, none aborted, complete and change memory and `W` only. -/
theorem storeWords_normal {priv : Bool} : ∀ {pairs : List (Word × Word)} {s : State},
    (∀ p ∈ pairs, s.isIo .word p.1 = false) → (∀ p ∈ pairs, s.memAbort p.1 .word .store priv = false) →
      ∃ u, storeWords priv pairs s = .done u ∧ u = { s with mem := u.mem, written := u.written }
  | [], s, _, _ => ⟨s, rfl, rfl⟩
  | (a, v) :: rest, s, hio, hab => by
    rw [storeWords, if_neg (by simp [hab (a, v) (by simp)]), store_of_not_io (hio (a, v) (by simp))]
    exact storeWords_normal (s := s.memWrite .word a v) (fun p hp => hio p (by simp [hp]))
      fun p hp => hab p (by simp [hp])

/-- Each word of a completed sequence of stores to words one above the other holds what was stored there. -/
theorem storeWords_memRead {priv : Bool} : ∀ {addrs values : List Word} {s t : State},
    storeWords priv (addrs.zip values) s = .done t → Memory.wf s.mem = true →
      (∀ a ∈ addrs, s.isIo .word a = false) → addrs.Pairwise WordBelow →
        ∀ (k : Nat) (a v : Word), addrs[k]? = some a → values[k]? = some v → t.memRead .word a = v
  | [], _, _, _, _, _, _, _, k, a, v, ha, _ => by simp at ha
  | _ :: _, [], _, _, _, _, _, _, k, a, v, _, hv => by simp at hv
  | b :: rest, u :: values, s, t, h, hwf, hio, hbelow, k, a, v, ha, hv => by
    rw [List.pairwise_cons] at hbelow
    rw [List.zip_cons_cons, storeWords, store_of_not_io (hio b (by simp))] at h
    split at h
    · cases h
    cases k with
    | succ k =>
      exact storeWords_memRead h (memWrite_keeps_wf s .word b u hwf) (fun c hc => hio c (by simp [hc])) hbelow.2 k a v
        (by simpa using ha) (by simpa using hv)
    | zero =>
      obtain rfl : b = a := by simpa using ha
      obtain rfl : u = v := by simpa using hv
      have hsame : (s.memWrite .word b u).memRead .word b = u := memRead_memWrite_same s .word b u hwf
      have hplatform := storeWords_platform (.inl h)
      rw [memWrite_platform] at hplatform
      rw [← hsame, State.memRead, State.memRead, hplatform, memWrite_platform]
      refine Memory.readSized_word_congr fun x hlo hhi => (storeWords_bytes (.inl h) x).1 ?_
      rintro ⟨c, hc, -, -, hclo, -⟩
      have : WordBelow b c := hbelow.1 c hc
      unfold WordBelow at this
      omega

/-! ## The transfer of an STM -/

/-- R437: a listed register is stored as it is, unless it is a written-back base that is not the lowest. -/
theorem storedWord_of_kept {m : BitVec 5} {w : Bool} {rn r : RegNum} {regs : List RegNum} {s : State} {k : Nat}
    (hk : regs[k]? = some r) (hkept : ¬(w = true ∧ r = rn ∧ 0 < k)) :
    storedWord m w rn regs s r = if r = 15 then s.storedPc else s.readRegIn m r := by
  unfold storedWord
  refine if_neg fun h => hkept ?_
  simp only [Bool.and_eq_true, beq_iff_eq, bne_iff_ne] at h
  obtain ⟨⟨hw, hr⟩, hhead⟩ := h
  refine ⟨hw, hr, Nat.pos_of_ne_zero ?_⟩
  rintro rfl
  exact hhead (by rwa [List.head?_eq_getElem?])

/-- The draw of R437 changes the draw counter only. -/
theorem drawnBase_state (b : Bool) (s : State) :
    (if b then s.draw.2 else s) = { s with draws := (if b then s.draw.2 else s).draws } := by
  cases b <;> rfl

/-- What the stores of an STM to normal memory leave: the words, `W`, and every other byte as it was. -/
structure StoredList (m : BitVec 5) (w : Bool) (rn : RegNum) (regs : List RegNum) (start : Word) (s u : State) :
    Prop where
  rest : u = { s with mem := u.mem, written := u.written, draws := u.draws }
  words : Memory.wf s.mem = true → ∀ k r, regs[k]? = some r → ¬(w = true ∧ r = rn ∧ 0 < k) →
    u.memRead .word (start + BitVec.ofNat 32 (4 * k)) = if r = 15 then s.storedPc else s.readRegIn m r
  entered : ∀ b : Nat, b ∈ u.written ↔ b ∈ s.written ∨
    ((alignTo .word start).toNat ≤ b ∧ b < (alignTo .word start).toNat + 4 * regs.length)
  bytes : ∀ x : Nat, x < (alignTo .word start).toNat ∨ (alignTo .word start).toNat + 4 * regs.length ≤ x →
    Memory.read u.mem x = Memory.read s.mem x

/-- R433 steps 2 to 4 for an STM on normal memory. -/
theorem storeWords_storedList {m : BitVec 5} {w : Bool} {rn : RegNum} {regs : List RegNum} {start : Word} {s : State}
    (ht : Transfers .store start regs.length s)
    (hio : ∀ a ∈ wordAddresses start regs.length, s.isIo .word a = false) :
    ∃ u, storeWords (privileged s.cpsr)
        ((wordAddresses start regs.length).zip (regs.map (storedWord m w rn regs s)))
        (if drawsBase w rn regs then s.draw.2 else s) = .done u ∧ StoredList m w rn regs start s u := by
  rw [drawnBase_state]
  generalize (if drawsBase w rn regs then s.draw.2 else s).draws = d
  have hlength : (wordAddresses start regs.length).length = (regs.map (storedWord m w rn regs s)).length := by
    rw [length_wordAddresses, List.length_map]
  obtain ⟨u, hu, hstate⟩ := storeWords_normal (priv := privileged s.cpsr) (s := { s with draws := d })
    (fun p hp => hio p.1 (List.of_mem_zip hp).1) fun p hp => ht.served p.1 (List.of_mem_zip hp).1
  have storable := storable_wordAddresses ht.inside hio ht.served
  refine ⟨u, hu, ?_, fun hwf k r hk hkept => ?_, fun b => ?_, fun x hx => ?_⟩
  · rw [hstate]
  · have hlt : k < regs.length := (List.getElem?_eq_some_iff.mp hk).1
    rw [← storedWord_of_kept hk hkept]
    exact storeWords_memRead hu hwf hio (pairwise_wordAddresses ht.inside) k _ _ (getElem?_wordAddresses hlt)
      (by rw [List.getElem?_map, hk]; rfl)
  · obtain ⟨-, hkeep, hnew⟩ := storeWords_bytes (.inl hu) b
    rw [← storable]
    exact ⟨hnew, fun h => h.elim hkeep (storeWords_entered hlength hu b)⟩
  · refine (storeWords_bytes (.inl hu) x).1 fun h => ?_
    have := (storable x).mp h
    omega

/-- An STM whose transfer meets no check and no abort (R433). -/
theorem storeMultiple_of_transfers {m : BitVec 5} {mode : Mode4} {w : Bool} {rn : RegNum} {list : BitVec 16}
    {after : State → State} {s : State} {start : Word}
    (hstart : mode4Start mode (s.readReg rn) (listed list).length = start)
    (ht : Transfers .store start (listed list).length s)
    (hio : ∀ a ∈ wordAddresses start (listed list).length, s.isIo .word a = false) :
    ∃ u, storeMultiple m mode w rn list after s =
        advance (after (writeBase rn
          (if w then some (mode4NewBase mode (s.readReg rn) (listed list).length) else none) u)) ∧
      StoredList m w rn (listed list) start s u := by
  obtain ⟨u, hu, stored⟩ := storeWords_storedList (m := m) (w := w) (rn := rn) ht hio
  refine ⟨u, ?_, stored⟩
  have inside : ¬wordsWrap start (listed list).length = true := by simp [ht.inside]
  have checked : ¬(!aligned .word start && s.platform.alignCheck) = true := by
    rcases ht.aligned with h | h <;> simp [h]
  have normal : ¬mixedIo (wordAddresses start (listed list).length) (list.getLsbD 15) s = true := fun h => by
    simp only [mixedIo, Bool.and_eq_true, List.any_eq_true] at h
    obtain ⟨⟨a, ha, hdevice⟩, -⟩ := h
    simp [hio a ha] at hdevice
  simp only [storeMultiple, hstart, if_neg inside, if_neg checked, if_neg normal, hu]

/-- Where the base is written back, no other register changes (R433 step 5). -/
theorem regsKept_writeBase {s u : State} (hregs : u.regs = s.regs) (hcpsr : u.cpsr = s.cpsr) (w : Bool) (rn : RegNum)
    (v : Word) :
    RegsKept (modeBits s.cpsr) (if w then [rn] else []) s (writeBase rn (if w then some v else none) u) := by
  intro r hr
  cases w with
  | false => exact phys_congr hregs r
  | true =>
    refine (phys_writeRegIn u _ rn v r).trans ?_
    rw [if_neg (by rw [hcpsr]; exact hr rn (by simp)), phys_congr hregs]

theorem readReg_of_writeBase {u t : State} {rn : RegNum} {v : Word} (hrn : rn ≠ 15)
    (hregs : t.regs = (writeBase rn (some v) u).regs) (hcpsr : t.cpsr = u.cpsr) : t.readReg rn = v := by
  unfold State.readReg
  rw [hcpsr, readRegIn_congr hregs _ hrn]
  exact readRegIn_writeRegIn_same u _ rn v hrn

section
variable {m : BitVec 5} {w : Bool} {rn : RegNum} {regs : List RegNum} {start : Word} {s u t : State}

/-- The frame of an STM: the base where it is written back, the bytes of the list, the set `W`. -/
theorem StoredList.frame (h : StoredList m w rn regs start s u) {v : Word}
    (ht : t = { writeBase rn (if w then some v else none) u with pc := s.pc + 4 }) :
    StoreFrame (if w then [rn] else []) (alignTo .word start).toNat (4 * regs.length) s t := by
  obtain ⟨rest, -, entered, bytes⟩ := h
  have kept := regsKept_writeBase (s := s) (u := u) (by rw [rest]) (by rw [rest]) w rn v
  obtain ⟨mem, written, draws, rfl⟩ : ∃ m w d, u = { s with mem := m, written := w, draws := d } := ⟨_, _, _, rest⟩
  subst ht
  refine ⟨kept, ?_, ?_, ?_⟩
  · simpa using bytes
  · intro x
    simpa using ⟨fun hx => (entered x).mpr (.inl hx), (entered x).mp⟩
  · simp

end

section
variable {c : Cond} {mode : Mode4} {w : Bool} {rn : RegNum} {list : BitVec 16} {s : State}

theorem exec_stm1 (h : Runs (.stm1 c mode w rn list) s) :
    exec (.stm1 c mode w rn list) s = storeMultiple (modeBits s.cpsr) mode w rn list id s := by
  simp only [exec, execStm1]
  exact conditional_of_runs h rfl

theorem exec_stm2 {e : ExcMode} (h : Runs (.stm2 c mode w rn list) s) (he : s.currentExc = some e) :
    exec (.stm2 c mode w rn list) s =
      storeMultiple userBits mode w rn list (fun t => { t with userBankHazard := true }) s := by
  simp only [exec, execStm2]
  rw [conditional_of_runs h rfl, he]

/-- No check applies. -/
theorem firstFault_eq_none : ∀ {l : List (Bool × EncodingFault)}, firstFault l = none → ∀ p ∈ l, p.1 = false
  | [], _, _, hp => by cases hp
  | (hit, why) :: rest, h, p, hp => by
    cases hit with
    | true => cases h
    | false =>
      rcases List.mem_cons.mp hp with rfl | hp
      · rfl
      · exact firstFault_eq_none (l := rest) h p hp

/-- R433: R15 is no base of an STM. -/
theorem stm1_rn_ne_fifteen (h : Runs (.stm1 c mode w rn list) s) : rn ≠ 15 := by
  simpa using firstFault_eq_none h.unpredictable_eq_none (rn == 15#4, .pcBase) (by simp)

/-- R438: STM (2) has no base writeback. -/
theorem stm2_no_writeback (h : Runs (.stm2 c mode w rn list) s) : w = false :=
  firstFault_eq_none h.unpredictable_eq_none (w, .userBankWriteback) (by simp)

theorem advance_of_pc_eq {u : State} (hpc : u.pc = s.pc) (h : s.pc ≠ 0xFFFFFFFC) :
    advance u = .next { u with pc := s.pc + 4 } := by
  rw [← hpc] at h ⊢
  exact advance_of_ne h

variable {start : Word}

/-- R437: what a completed STM (1) does. -/
theorem exec_stm1_of_transfers (h : Executes (.stm1 c mode w rn list) s)
    (hstart : mode4Start mode (s.readReg rn) (listed list).length = start)
    (ht : Transfers .store start (listed list).length s)
    (hio : ∀ a ∈ wordAddresses start (listed list).length, s.isIo .word a = false) :
    ∃ u, exec (.stm1 c mode w rn list) s = .next
        { writeBase rn (if w then some (mode4NewBase mode (s.readReg rn) (listed list).length) else none) u with
          pc := s.pc + 4 } ∧
      StoredList (modeBits s.cpsr) w rn (listed list) start s u := by
  obtain ⟨u, hu, stored⟩ := storeMultiple_of_transfers (m := modeBits s.cpsr) (w := w) (after := id)
    hstart ht hio
  have hpc : u.pc = s.pc := by rw [stored.rest]
  refine ⟨u, ?_, stored⟩
  rw [exec_stm1 h.toRuns, hu]
  exact advance_of_pc_eq (by rw [id, writeBase_pc, hpc]) h.notLast

/-- R438, R440: what a completed STM (2) does. -/
theorem exec_stm2_of_transfers (h : Executes (.stm2 c mode w rn list) s) (hexc : s.currentExc ≠ none)
    (hstart : mode4Start mode (s.readReg rn) (listed list).length = start)
    (ht : Transfers .store start (listed list).length s)
    (hio : ∀ a ∈ wordAddresses start (listed list).length, s.isIo .word a = false) :
    ∃ u, exec (.stm2 c mode w rn list) s = .next { u with userBankHazard := true, pc := s.pc + 4 } ∧
      StoredList userBits w rn (listed list) start s u := by
  obtain ⟨e, he⟩ := Option.ne_none_iff_exists'.mp hexc
  obtain ⟨u, hu, stored⟩ := storeMultiple_of_transfers (m := userBits) (w := w)
    (after := fun t => { t with userBankHazard := true }) hstart ht hio
  have hpc : u.pc = s.pc := by rw [stored.rest]
  refine ⟨u, ?_, stored⟩
  rw [exec_stm2 h.toRuns he, hu]
  obtain rfl := stm2_no_writeback h.toRuns
  exact advance_of_pc_eq hpc h.notLast

end

/-- Settles O47: the words of the transfer are one above the other, so each holds what its own store wrote. (The
obligation's own name is that of the model's function.) -/
theorem storeMultiple_spec : Obligations.StoreMultiple := by
  unfold Obligations.StoreMultiple
  intro c mode w rn list s regs n start first stored entered ht hio
  constructor
  · intro h
    obtain ⟨u, hexec, hlist⟩ := exec_stm1_of_transfers h rfl ht hio
    refine ⟨_, hexec, fun hwf k r hk hkept => ?_, fun b => ?_, rfl, ?_, fun hw => ?_, hlist.frame rfl⟩
    · rw [← hlist.words hwf k r hk hkept]
      exact congrFun₂ (memRead_congr (writeBase_mem ..) (writeBase_platform ..)) _ _
    · rw [← hlist.entered b, ← writeBase_written u]
    · rw [writeBase_ioLog, hlist.rest]
    · subst hw
      exact readReg_of_writeBase (u := u) (stm1_rn_ne_fifteen h.toRuns) rfl (writeBase_cpsr ..)
  · intro h hexc
    obtain ⟨u, hexec, hlist⟩ := exec_stm2_of_transfers h hexc rfl ht hio
    obtain rfl := stm2_no_writeback h.toRuns
    refine ⟨_, hexec, hlist.words, hlist.entered, rfl, ?_, rfl, hlist.frame (v := 0) ?_⟩
    · rw [hlist.rest]
    · rw [hlist.rest]
      rfl

end Sys2Proof.Machine
end

section
/-! What a load or store leaves of the registers and of the machine, the base writeback and the Data Abort included (R385,
R387, R571 to R573). -/

namespace Sys2Proof.Machine

/-! ## Registers of one mode -/

/-- The number under which a mode that sees a physical register names it (R43). -/
def PhysReg.number : PhysReg → Nat
  | .low n => n.val
  | .mid _ k => 8 + k.val
  | .sp _ => 13
  | .lr _ => 14

theorem number_of_physReg {m : BitVec 5} {n : RegNum} {r : PhysReg} (h : physReg m n = some r) :
    r.number = n.toNat := by
  unfold physReg at h
  split at h
  · cases h; rfl
  · split at h
    · cases h; simp only [PhysReg.number]; omega
    · split at h
      · next h13 => cases h; rw [h13]; rfl
      · split at h
        · next h14 => cases h; rw [h14]; rfl
        · cases h

/-- In one mode two names denote two physical registers (R43). -/
theorem physReg_inj {m : BitVec 5} {n k : RegNum} {r : PhysReg} (hn : physReg m n = some r)
    (hk : physReg m k = some r) : n = k :=
  BitVec.eq_of_toNat_eq ((number_of_physReg hn).symm.trans (number_of_physReg hk))

/-- A register read after another one of the same mode is written. -/
theorem readRegIn_writeRegIn_other (s : State) (m : BitVec 5) {n k : RegNum} (v : Word) (hn : n ≠ 15) (hne : n ≠ k) :
    (s.writeRegIn m k v).readRegIn m n = s.readRegIn m n := by
  obtain ⟨r, hr⟩ := physReg_isSome (m := m) hn
  simp only [State.readRegIn, hr]
  rw [phys_writeRegIn, if_neg fun hk => hne (physReg_inj hr hk)]

/-! ## The base register -/

theorem writeBase_state (rn : RegNum) (nb : Option Word) (s : State) :
    writeBase rn nb s = { s with regs := (writeBase rn nb s).regs } := by
  cases nb with
  | none => rfl
  | some b => exact writeRegIn_state s _ rn b

theorem abortBase_state (rn : RegNum) (nb : Option Word) (s : State) :
    abortBase rn nb s = { s with regs := (abortBase rn nb s).regs } := by
  unfold abortBase
  split
  · rfl
  · exact writeBase_state rn nb s

theorem phys_writeBase (rn : RegNum) (nb : Option Word) (s : State) (r : PhysReg) :
    (writeBase rn nb s).phys r =
      if physReg (modeBits s.cpsr) rn = some r then nb.getD (s.phys r) else s.phys r := by
  cases nb with
  | none => exact (ite_self _).symm
  | some b => exact phys_writeRegIn s _ rn b r

/-- R572 cases 2 and 3: the base is written only where the abort model is Base Updated. -/
theorem phys_abortBase (rn : RegNum) (nb : Option Word) (s : State) (r : PhysReg) :
    (abortBase rn nb s).phys r =
      if physReg (modeBits s.cpsr) rn = some r then
        if s.platform.abortModel = .baseUpdated then nb.getD (s.phys r) else s.phys r
      else s.phys r := by
  unfold abortBase
  split
  · next h => simp [h]
  · next h => rw [phys_writeBase, if_pos h]

/-- The base writeback changes the base register only. -/
theorem regsKept_writeBase_option {s u : State} (hregs : u.regs = s.regs) (hcpsr : u.cpsr = s.cpsr) (rn : RegNum)
    (nb : Option Word) : RegsKept (modeBits s.cpsr) (baseWritten rn nb) s (writeBase rn nb u) := by
  cases nb with
  | none => exact regsKept_writeBase hregs hcpsr false rn 0
  | some b => exact regsKept_writeBase hregs hcpsr true rn b

/-! ## The Data Abort of a load or store -/

/-- What a load or store may have changed before it ends: registers, memory, the set `W`, what devices received, the
coprocessors and the count of draws. -/
def TransferState (s u : State) : Prop :=
  u = { s with
    regs := u.regs, mem := u.mem, written := u.written, ioLog := u.ioLog, coprocs := u.coprocs, draws := u.draws }

section
variable {s u : State}

theorem TransferState.refl (s : State) : TransferState s s := rfl

theorem TransferState.pc (h : TransferState s u) : u.pc = s.pc := by rw [h]

theorem TransferState.cpsr (h : TransferState s u) : u.cpsr = s.cpsr := by rw [h]

theorem TransferState.platform (h : TransferState s u) : u.platform = s.platform := by rw [h]

theorem TransferState.abortBase (h : TransferState s u) (rn : RegNum) (nb : Option Word) :
    TransferState s (abortBase rn nb u) := by
  unfold TransferState
  rw [abortBase_state rn nb u]
  rw [h]

theorem phys_dataAbort {r : PhysReg} (hr : r ≠ .lr .abt) : (dataAbort u).phys r = u.phys r :=
  (phys_setPhys u (.lr .abt) r (u.pc + 8)).trans (if_neg hr)

/-- R571: where the Data Abort leaves the machine. -/
theorem TransferState.dataAborted (h : TransferState s u) : DataAborted s (dataAbort u) where
  link := by
    rw [← h.pc]
    exact phys_setPhys_same u (.lr .abt) (u.pc + 8)
  saved := by rw [h]; rfl
  status := by rw [h]; rfl
  target := by rw [h]; rfl

/-- What the Data Abort leaves unchanged. -/
theorem TransferState.dataAbort_rest (h : TransferState s u) :
    dataAbort u = { s with
      regs := (dataAbort u).regs, pc := (dataAbort u).pc, cpsr := (dataAbort u).cpsr, spsr := (dataAbort u).spsr,
      mem := u.mem, written := u.written, ioLog := u.ioLog, coprocs := u.coprocs, draws := u.draws,
      privDropPending := false, userBankHazard := false } := by
  rw [h]
  rfl

/-- R572: the registers after a Data Abort, but for the base. -/
theorem TransferState.phys_other (h : TransferState s u) {rn : RegNum} {nb : Option Word} {r : PhysReg}
    (hr : r ≠ .lr .abt) (hrn : physReg (modeBits s.cpsr) rn ≠ some r) :
    (dataAbort (Machine.abortBase rn nb u)).phys r = u.phys r := by
  rw [phys_dataAbort hr, phys_abortBase, h.cpsr, if_neg hrn]

/-- R573: the base register after a Data Abort. -/
theorem TransferState.phys_base (h : TransferState s u) {rn : RegNum} {nb : Option Word} {r : PhysReg}
    (hr : r ≠ .lr .abt) (hrn : physReg (modeBits s.cpsr) rn = some r) :
    (dataAbort (Machine.abortBase rn nb u)).phys r =
      if s.platform.abortModel = .baseUpdated then nb.getD (u.phys r) else u.phys r := by
  rw [phys_dataAbort hr, phys_abortBase, h.cpsr, h.platform, if_pos hrn]

end

end Sys2Proof.Machine
end

section
/-! The twelve single loads and stores (R385 to R401): the access of each, what it leaves, and how it ends. -/

namespace Sys2Proof.Machine

/-! ## One access -/

section
variable (s : State) (size : Size) (a v : Word)

theorem load_state : (s.load size a).2 = { s with ioLog := (s.load size a).2.ioLog } := by
  unfold State.load; split <;> rfl

theorem load_of_normal (h : s.isIo size a = false) : s.load size a = (s.memRead size a, s) := by
  unfold State.load; rw [if_neg (by simp [h])]

theorem load_of_device (h : s.isIo size a = true) :
    s.load size a = (ioValue s.ioLog (alignTo size a) size,
      { s with ioLog := s.ioLog ++ [⟨alignTo size a, size, none⟩] }) := by
  unfold State.load; rw [if_pos h]

theorem store_of_normal (h : s.isIo size a = false) : s.store size a v = s.memWrite size a v := by
  unfold State.store; rw [if_neg (by simp [h])]

theorem store_of_device (h : s.isIo size a = true) :
    s.store size a v = { s with ioLog := s.ioLog ++ [⟨alignTo size a, size, some (narrow size v)⟩] } := by
  unfold State.store; rw [if_pos h]

theorem mem_foldl_insertAddr (lo x : Nat) : ∀ (l w : List Nat),
    x ∈ l.foldl (fun w k => insertAddr (lo + k) w) w ↔ x ∈ w ∨ ∃ k ∈ l, x = lo + k
  | [], w => by simp
  | k :: rest, w => by
    rw [List.foldl_cons, mem_foldl_insertAddr lo x rest, mem_insertAddr, List.exists_mem_cons_iff]
    tauto

/-- R121: the bytes that a store to normal memory enters in `W`. -/
theorem mem_memWrite_written (x : Nat) :
    x ∈ (s.memWrite size a v).written ↔
      x ∈ s.written ∨ ((alignTo size a).toNat ≤ x ∧ x < (alignTo size a).toNat + sizeBytes size) := by
  rw [memWrite_written, mem_foldl_insertAddr]
  refine or_congr_right ⟨fun ⟨k, hk, hx⟩ => ?_, fun hx => ⟨x - (alignTo size a).toNat, ?_, by omega⟩⟩
  · have := List.mem_range.mp hk
    omega
  · exact List.mem_range.mpr (by omega)

/-- A store changes no byte outside its own. -/
theorem read_store_other {x : Nat}
    (hx : x < (alignTo size a).toNat ∨ (alignTo size a).toNat + sizeBytes size ≤ x) :
    Memory.read (s.store size a v).mem x = Memory.read s.mem x := by
  cases h : s.isIo size a with
  | true => rw [store_of_device s size a v h]
  | false =>
    rw [store_of_normal s size a v h]
    exact Memory.read_writeSized_other _ size v s.mem _ x hx

/-- A store enters no byte outside its own in `W`, and takes none out. -/
theorem store_entered (x : Nat) :
    (x ∈ s.written → x ∈ (s.store size a v).written) ∧
    (x ∈ (s.store size a v).written →
      x ∈ s.written ∨ ((alignTo size a).toNat ≤ x ∧ x < (alignTo size a).toNat + sizeBytes size)) := by
  cases h : s.isIo size a with
  | true => rw [store_of_device s size a v h]; exact ⟨id, .inl⟩
  | false =>
    rw [store_of_normal s size a v h, mem_memWrite_written]
    exact ⟨.inl, id⟩

end

/-! ## What each instruction that runs does -/

section
variable {c : Cond} {idx : Index} {up p w : Bool} {rn rd : RegNum} {off : Offset2} {off3 : Offset3} {s : State}

theorem exec_ldr (h : Runs (.ldr c idx up rn rd off) s) :
    exec (.ldr c idx up rn rd off) s =
      if rd = 15 then loadPc rn (mode2 idx up rn off s) s
      else loadWord (privileged s.cpsr) rn rd (mode2 idx up rn off s) s := by
  simp only [exec, execLdr]
  exact conditional_of_runs h rfl

theorem exec_ldrt (h : Runs (.ldrt c up rn rd off) s) :
    exec (.ldrt c up rn rd off) s = loadWord false rn rd (mode2 .post up rn off s) s := by
  simp only [exec, execLdrt]
  exact conditional_of_runs h rfl

theorem exec_ldrb (h : Runs (.ldrb c idx up rn rd off) s) :
    exec (.ldrb c idx up rn rd off) s =
      loadWith .byte (privileged s.cpsr) rn (mode2 idx up rn off s) (toRegister rd) s := by
  simp only [exec, execLdrb]
  exact conditional_of_runs h rfl

theorem exec_ldrbt (h : Runs (.ldrbt c up rn rd off) s) :
    exec (.ldrbt c up rn rd off) s = loadWith .byte false rn (mode2 .post up rn off s) (toRegister rd) s := by
  simp only [exec, execLdrbt]
  exact conditional_of_runs h rfl

theorem exec_ldrh (h : Runs (.ldrh c p up w rn rd off3) s) :
    exec (.ldrh c p up w rn rd off3) s =
      loadWith .half (privileged s.cpsr) rn (mode3 p up w rn off3 s) (toRegister rd) s := by
  simp only [exec, execLdrh]
  exact conditional_of_runs h rfl

theorem exec_ldrsb (h : Runs (.ldrsb c p up w rn rd off3) s) :
    exec (.ldrsb c p up w rn rd off3) s =
      loadWith .byte (privileged s.cpsr) rn (mode3 p up w rn off3 s)
        (fun v => toRegister rd (signExtendByte v)) s := by
  simp only [exec, execLdrsb]
  exact conditional_of_runs h rfl

theorem exec_ldrsh (h : Runs (.ldrsh c p up w rn rd off3) s) :
    exec (.ldrsh c p up w rn rd off3) s =
      loadWith .half (privileged s.cpsr) rn (mode3 p up w rn off3 s)
        (fun v => toRegister rd (signExtendHalf v)) s := by
  simp only [exec, execLdrsh]
  exact conditional_of_runs h rfl

theorem exec_str (h : Runs (.str c idx up rn rd off) s) :
    exec (.str c idx up rn rd off) s =
      storeWith .word (privileged s.cpsr) rn (mode2 idx up rn off s) (s.storeValue rd) s := by
  simp only [exec, execStr]
  exact conditional_of_runs h rfl

theorem exec_strt (h : Runs (.strt c up rn rd off) s) :
    exec (.strt c up rn rd off) s =
      storeWith .word false rn (mode2 .post up rn off s) (s.storeValue rd) s := by
  simp only [exec, execStrt]
  exact conditional_of_runs h rfl

theorem exec_strb (h : Runs (.strb c idx up rn rd off) s) :
    exec (.strb c idx up rn rd off) s =
      storeWith .byte (privileged s.cpsr) rn (mode2 idx up rn off s) (s.readReg rd) s := by
  simp only [exec, execStrb]
  exact conditional_of_runs h rfl

theorem exec_strbt (h : Runs (.strbt c up rn rd off) s) :
    exec (.strbt c up rn rd off) s =
      storeWith .byte false rn (mode2 .post up rn off s) (s.readReg rd) s := by
  simp only [exec, execStrbt]
  exact conditional_of_runs h rfl

theorem exec_strh (h : Runs (.strh c p up w rn rd off3) s) :
    exec (.strh c p up w rn rd off3) s =
      storeWith .half (privileged s.cpsr) rn (mode3 p up w rn off3 s) (s.readReg rd) s := by
  simp only [exec, execStrh]
  exact conditional_of_runs h rfl

end

section
variable {i : Instr} {s : State} {x : Access} {value : Word → Word} {v : Word}

/-- The load of each instruction that has a destination other than R15 (R390 to R396). -/
theorem exec_eq_loadWith (h : Runs i s) (hi : loadOf i s = some (x, value)) (hrd : x.rd ≠ 15) :
    exec i s = loadWith x.size x.priv x.rn x.ad (fun v => toRegister x.rd (value v)) s := by
  cases i <;> cases hi
  case ldr => exact (exec_ldr h).trans (if_neg hrd)
  case ldrt => exact exec_ldrt h
  case ldrb => exact exec_ldrb h
  case ldrbt => exact exec_ldrbt h
  case ldrh => exact exec_ldrh h
  case ldrsb => exact exec_ldrsb h
  case ldrsh => exact exec_ldrsh h

/-- The store of each instruction (R397 to R401). -/
theorem exec_eq_storeWith (h : Runs i s) (hi : storeOf i s = some (x, v)) :
    exec i s = storeWith x.size x.priv x.rn x.ad v s := by
  cases i <;> cases hi
  case str => exact exec_str h
  case strt => exact exec_strt h
  case strb => exact exec_strb h
  case strbt => exact exec_strbt h
  case strh => exact exec_strh h

/-! ## Registers that the encoding keeps apart (R373, R383) -/

theorem mode2_newBase_isSome {idx : Index} {up : Bool} {rn : RegNum} {off : Offset2} :
    (mode2 idx up rn off s).newBase.isSome = idx.writesBack := by
  cases idx <;> rfl

theorem mode3_newBase_isSome {p u w : Bool} {rn : RegNum} {off : Offset3} :
    (mode3 p u w rn off s).newBase.isSome = (!p || w) := by
  cases p <;> cases w <;> rfl

/-- The checks that both addressing modes make of a base that is written back. -/
theorem base_of_checks {l : List (Bool × EncodingFault)} {wb : Bool} {rn rd : RegNum} (h : firstFault l = none)
    (hpc : (wb && rn == 15#4, .pcBaseWriteback) ∈ l) (hdata : (wb && rd == rn, .dataIsBase) ∈ l) (hwb : wb = true) :
    rn ≠ 15 ∧ rd ≠ rn := by
  have hpc := firstFault_eq_none h _ hpc
  have hdata := firstFault_eq_none h _ hdata
  subst hwb
  exact ⟨by simpa using hpc, by simpa using hdata⟩

theorem data_ne_fifteen {l : List (Bool × EncodingFault)} {rd : RegNum} (h : firstFault l = none)
    (hpc : (rd == 15#4, .pcOperand) ∈ l) : rd ≠ 15 := by
  simpa using firstFault_eq_none h _ hpc

/-- A written-back base is not R15 and not the destination. -/
theorem load_base (h : Runs i s) (hi : loadOf i s = some (x, value)) (hb : x.ad.newBase.isSome = true) :
    x.rn ≠ 15 ∧ x.rd ≠ x.rn := by
  have hu := h.unpredictable_eq_none
  cases i <;> cases hi
  case ldr | ldrb => exact base_of_checks hu (by simp [mode2Checks]) (by simp [mode2Checks]) (mode2_newBase_isSome ▸ hb)
  case ldrt | ldrbt => exact base_of_checks hu (by simp [mode2Checks]) (by simp [mode2Checks]) rfl
  case ldrh | ldrsb | ldrsh =>
    exact base_of_checks hu (by simp [mode3Checks]) (by simp [mode3Checks]) (mode3_newBase_isSome ▸ hb)

theorem store_base (h : Runs i s) (hi : storeOf i s = some (x, v)) (hb : x.ad.newBase.isSome = true) :
    x.rn ≠ 15 ∧ x.rd ≠ x.rn := by
  have hu := h.unpredictable_eq_none
  cases i <;> cases hi
  case str | strb => exact base_of_checks hu (by simp [mode2Checks]) (by simp [mode2Checks]) (mode2_newBase_isSome ▸ hb)
  case strt | strbt => exact base_of_checks hu (by simp [mode2Checks]) (by simp [mode2Checks]) rfl
  case strh => exact base_of_checks hu (by simp [mode3Checks]) (by simp [mode3Checks]) (mode3_newBase_isSome ▸ hb)

end

/-! ## How an access ends (R385, R387) -/

section
variable {size : Size} {priv : Bool} {rn rd : RegNum} {ad : Addressing} {v : Word} {finish : Word → State → Result}
  {s : State}

theorem loadWith_of_served (hal : alignmentOf size ad.address s = .proceed)
    (hab : s.memAbort ad.address size .load priv = false) :
    loadWith size priv rn ad finish s =
      finish (s.load size ad.address).1 (writeBase rn ad.newBase (s.load size ad.address).2) := by
  simp [loadWith, hal, hab]

theorem loadWith_of_aborted (hal : alignmentOf size ad.address s = .proceed)
    (hab : s.memAbort ad.address size .load priv = true) :
    loadWith size priv rn ad finish s = .next (dataAbort (abortBase rn ad.newBase s)) := by
  simp [loadWith, hal, hab]

theorem loadWith_of_unaligned (hal : alignmentOf size ad.address s = .abort) :
    loadWith size priv rn ad finish s = .next (dataAbort s) := by
  simp [loadWith, hal]

theorem loadWith_of_stop (hal : alignmentOf size ad.address s = .stop) :
    loadWith size priv rn ad finish s = .fault .unalignedHalfword := by
  simp [loadWith, hal]

theorem storeWith_of_served (hal : alignmentOf size ad.address s = .proceed)
    (hab : s.memAbort ad.address size .store priv = false) :
    storeWith size priv rn ad v s = advance (writeBase rn ad.newBase (s.store size ad.address v)) := by
  simp [storeWith, hal, hab]

theorem storeWith_of_aborted (hal : alignmentOf size ad.address s = .proceed)
    (hab : s.memAbort ad.address size .store priv = true) :
    storeWith size priv rn ad v s = .next (dataAbort (abortBase rn ad.newBase s)) := by
  simp [storeWith, hal, hab]

theorem storeWith_of_unaligned (hal : alignmentOf size ad.address s = .abort) :
    storeWith size priv rn ad v s = .next (dataAbort s) := by
  simp [storeWith, hal]

theorem storeWith_of_stop (hal : alignmentOf size ad.address s = .stop) :
    storeWith size priv rn ad v s = .fault .unalignedHalfword := by
  simp [storeWith, hal]

end

/-! ## The registers after a load -/

section
variable {s u t : State} {rn rd : RegNum} {nb : Option Word} {v : Word}

/-- The base that a completed load or store has written back. -/
theorem readReg_of_base (hbase : nb.isSome = true → rn ≠ 15) (hregs : t.regs = (writeBase rn nb u).regs)
    (hcpsr : modeBits t.cpsr = modeBits u.cpsr) : ∀ b, nb = some b → t.readReg rn = b := by
  rintro b rfl
  have hrn := hbase rfl
  unfold State.readReg
  rw [hcpsr, readRegIn_congr hregs _ hrn]
  exact readRegIn_writeRegIn_same u _ rn b hrn

/-- Rd holds the value, the base the new base, every other register what it held (R385 step 5). -/
theorem registers_of_load (hu : u.regs = s.regs) (hc : u.cpsr = s.cpsr) (hrd : rd ≠ 15)
    (hbase : nb.isSome = true → rn ≠ 15 ∧ rd ≠ rn)
    (ht : t = { (writeBase rn nb u).writeReg rd v with pc := s.pc + 4 }) :
    t.readReg rd = v ∧ (∀ b, nb = some b → t.readReg rn = b) ∧
      RegsKept (modeBits s.cpsr) (rd :: baseWritten rn nb) s t := by
  have hregs : t.regs = ((writeBase rn nb u).writeReg rd v).regs := by rw [ht]
  have hcpsr : t.cpsr = (writeBase rn nb u).cpsr := by rw [ht]; simp
  refine ⟨?_, ?_, fun r hr => ?_⟩
  · unfold State.readReg
    rw [hcpsr, readRegIn_congr hregs _ hrd]
    exact readRegIn_writeRegIn_same _ _ rd v hrd
  · rintro b rfl
    obtain ⟨hrn, hne⟩ := hbase rfl
    unfold State.readReg
    rw [hcpsr, readRegIn_congr hregs _ hrn]
    refine (readRegIn_writeRegIn_other _ _ v hrn hne.symm).trans ?_
    rw [writeBase_cpsr]
    exact readRegIn_writeRegIn_same u _ rn b hrn
  · rw [phys_congr hregs]
    refine (phys_writeRegIn _ _ rd v r).trans ?_
    rw [writeBase_cpsr, hc, if_neg (hr rd (by simp))]
    exact regsKept_writeBase_option hu hc rn nb r fun n hn => hr n (by simp [hn])

end

/-- Settles O38: the load is `loadWith` with a register write, and the encoding keeps Rd and a written-back base apart. -/
theorem singleLoads : Obligations.SingleLoads := by
  unfold Obligations.SingleLoads
  intro i s x value hi hrd h hal hab
  have hexec := (exec_eq_loadWith h.toRuns hi hrd).trans (loadWith_of_served hal hab)
  obtain ⟨hread, hbase, hkept⟩ := registers_of_load (s := s) (u := (s.load x.size x.ad.address).2)
    (v := value (s.load x.size x.ad.address).1) (load_regs ..) (load_cpsr ..) hrd (load_base h.toRuns hi) rfl
  refine ⟨_, hexec.trans (advance_of_pc_eq (by simp) h.notLast), fun hio => ?_, fun hio => ?_, hbase, rfl, by simp,
    hkept, ?_⟩
  · rw [hread, load_of_normal s _ _ hio]
    simp
  · rw [hread, load_of_device s _ _ hio]
    simp
  · simp

/-- Settles O41: the store is `storeWith`, and its bytes are those of one sized write. -/
theorem singleStores : Obligations.SingleStores := by
  unfold Obligations.SingleStores
  intro i s x v hi h hal hab
  have hexec := (exec_eq_storeWith h.toRuns hi).trans (storeWith_of_served hal hab)
  refine ⟨_, hexec.trans (advance_of_pc_eq (by simp) h.notLast), fun hio => ?_, fun hio => ?_,
    readReg_of_base (fun hb => (store_base h.toRuns hi hb).1) rfl (by simp), rfl, by simp, ?_⟩
  · rw [store_of_normal s _ _ v hio]
    refine ⟨by simp, fun hwf k hk => ?_, fun b => ?_⟩
    · rw [writeBase_mem]
      exact Memory.read_writeSized hwf (alignTo_end _ _) hk
    · rw [writeBase_written]
      exact mem_memWrite_written s _ _ v b
  · rw [store_of_device s _ _ v hio]
    simp
  · exact ⟨regsKept_writeBase_option (store_regs ..) (store_cpsr ..) _ _,
      fun b hb => by simpa using read_store_other s _ _ v hb, fun b => by simpa using store_entered s _ _ v b, by simp⟩

/-! ## LDR to R15 (R390) -/

/-- LDR with Rd = R15 is the only load that may have R15 as destination. -/
theorem exec_eq_loadPc {i : Instr} {s : State} {x : Access} {value : Word → Word} (h : Runs i s)
    (hi : loadOf i s = some (x, value)) (hrd : x.rd = 15) :
    x.size = .word ∧ x.priv = privileged s.cpsr ∧ exec i s = loadPc x.rn x.ad s := by
  have hu := h.unpredictable_eq_none
  cases i <;> cases hi
  case ldr => exact ⟨rfl, rfl, (exec_ldr h).trans (if_pos hrd)⟩
  case ldrt | ldrb | ldrbt => exact absurd hrd (data_ne_fifteen hu (by simp))
  case ldrh | ldrsb | ldrsh => exact absurd hrd (data_ne_fifteen hu (by simp [mode3Checks]))

section
variable {rn : RegNum} {ad : Addressing} {s : State}

theorem loadPc_of_checked (h : aligned .word ad.address = true ∨ s.platform.alignCheck = true) :
    loadPc rn ad s = loadWith .word (privileged s.cpsr) rn ad interwork s := by
  unfold loadPc
  exact if_pos (by simpa using h)

theorem loadPc_of_unaligned (ha : aligned .word ad.address = false) (hc : s.platform.alignCheck = false) :
    loadPc rn ad s = .fault .unalignedPcLoad := by
  simp [loadPc, ha, hc]

end

/-! ## The alignment of an access (R109, R110) -/

section
variable {size : Size} {a : Word} {s : State}

theorem alignmentOf_of_aligned (h : aligned size a = true) : alignmentOf size a s = .proceed := by
  simp [alignmentOf, h]

theorem alignmentOf_of_checked (h : aligned size a = false) (hc : s.platform.alignCheck = true) :
    alignmentOf size a s = .abort := by
  simp [alignmentOf, h, hc]

theorem alignmentOf_half (h : aligned .half a = false) (hc : s.platform.alignCheck = false) :
    alignmentOf .half a s = .stop := by
  simp [alignmentOf, h, hc]

theorem alignmentOf_word (h : aligned .word a = false) (hc : s.platform.alignCheck = false) :
    alignmentOf .word a s = .proceed := by
  simp [alignmentOf, h, hc]

theorem alignmentOf_byte : alignmentOf .byte a s = .proceed := alignmentOf_of_aligned (by simp [aligned, alignTo])

end

section
variable {s : State} {rn : RegNum} {ad : Addressing}

/-- R390: what LDR to R15 leaves, the address being aligned and the access served. -/
theorem loadPc_completes (ha : aligned .word ad.address = true)
    (hab : s.memAbort ad.address .word .load (privileged s.cpsr) = false) :
    loadPc rn ad s =
      interwork (s.load .word ad.address).1 (writeBase rn ad.newBase (s.load .word ad.address).2) :=
  (loadPc_of_checked (.inl ha)).trans (loadWith_of_served (alignmentOf_of_aligned ha) hab)

end

/-- Settles O40: the word loaded goes to `interwork`, after the base is written back. -/
theorem loadToPc : Obligations.LoadToPc := by
  unfold Obligations.LoadToPc
  intro c idx up rn off s i ad v h
  have hi : loadOf i s = some (⟨.word, privileged s.cpsr, rn, 15, ad⟩, rotateLoaded ad.address) := rfl
  have hexec : exec i s = loadPc rn ad s := (exec_eq_loadPc h hi rfl).2.2
  refine ⟨fun ha hab => ?_, fun ha hc => hexec.trans (loadPc_of_unaligned ha hc), fun ha hc => ?_⟩
  · rw [hexec.trans (loadPc_completes ha hab)]
    refine ⟨fun hv => ⟨_, hexec.trans ((loadPc_completes ha hab).trans (interwork_next.mpr ⟨hv, rfl⟩)), rfl, ?_,
      readReg_of_base (u := (s.load .word ad.address).2) (fun hb => (load_base h hi hb).1) rfl ?_,
      regsKept_writeBase_option (load_regs ..) (load_cpsr ..) _ _, ?_⟩, fun hv => if_pos hv⟩
    · intro k
      rw [jump_cpsr, bit_setT, writeBase_cpsr, load_cpsr]
    · simp
    · simp [State.jump]
  · rw [hexec, loadPc_of_checked (.inr hc), loadWith_of_unaligned (alignmentOf_of_checked ha hc)]
    rfl

/-! ## Aborted and unaligned accesses -/

section
variable {i : Instr} {s : State} {x : Access}

/-- Every load that reaches its access is `loadWith`: LDR to R15 stops before it at an unaligned address (R390). -/
theorem exec_eq_loadWith_of_reached {value : Word → Word} (h : Runs i s) (hi : loadOf i s = some (x, value))
    (hpc : x.rd = 15 → aligned x.size x.ad.address = true ∨ s.platform.alignCheck = true) :
    ∃ finish, exec i s = loadWith x.size x.priv x.rn x.ad finish s := by
  by_cases hrd : x.rd = 15
  · obtain ⟨hsize, hpriv, hexec⟩ := exec_eq_loadPc h hi hrd
    have hreached := hpc hrd
    rw [hsize] at hreached ⊢
    rw [hpriv]
    exact ⟨_, hexec.trans (loadPc_of_checked hreached)⟩
  · exact ⟨_, exec_eq_loadWith h hi hrd⟩

/-- R110: under alignment checking an unaligned access is a Data Abort with nothing changed. -/
theorem exec_of_unaligned (hi : (∃ f, loadOf i s = some (x, f)) ∨ ∃ v, storeOf i s = some (x, v)) (h : Runs i s)
    (ha : aligned x.size x.ad.address = false) (hc : s.platform.alignCheck = true) :
    exec i s = .next (dataAbort s) := by
  have hal := alignmentOf_of_checked ha hc
  obtain ⟨f, hi⟩ | ⟨v, hi⟩ := hi
  · obtain ⟨finish, hexec⟩ := exec_eq_loadWith_of_reached h hi fun _ => .inr hc
    exact hexec.trans (loadWith_of_unaligned hal)
  · exact (exec_eq_storeWith h hi).trans (storeWith_of_unaligned hal)

/-- R393, R395, R400: an odd halfword address stops. -/
theorem exec_of_odd_half (hi : (∃ f, loadOf i s = some (x, f)) ∨ ∃ v, storeOf i s = some (x, v)) (h : Runs i s)
    (hsize : x.size = .half) (ha : aligned x.size x.ad.address = false) (hc : s.platform.alignCheck = false) :
    exec i s = .fault .unalignedHalfword := by
  have hal : alignmentOf x.size x.ad.address s = .stop := by
    rw [hsize] at ha ⊢
    exact alignmentOf_half ha hc
  obtain ⟨f, hi⟩ | ⟨v, hi⟩ := hi
  · have hrd : x.rd ≠ 15 := fun hrd => by
      rw [(exec_eq_loadPc h hi hrd).1] at hsize
      cases hsize
    exact (exec_eq_loadWith h hi hrd).trans (loadWith_of_stop hal)
  · exact (exec_eq_storeWith h hi).trans (storeWith_of_stop hal)

/-- R387: an aborted access is a Data Abort after the base is written as the abort model says. -/
theorem exec_of_aborted {kind : AccessKind}
    (hi : (∃ f, loadOf i s = some (x, f) ∧ kind = .load) ∨ ∃ v, storeOf i s = some (x, v) ∧ kind = .store)
    (h : Runs i s) (hal : alignmentOf x.size x.ad.address s = .proceed)
    (hpc : kind = .load → x.rd = 15 → aligned x.size x.ad.address = true)
    (hab : s.memAbort x.ad.address x.size kind x.priv = true) :
    exec i s = .next (dataAbort (abortBase x.rn x.ad.newBase s)) := by
  obtain ⟨f, hi, rfl⟩ | ⟨v, hi, rfl⟩ := hi
  · obtain ⟨finish, hexec⟩ := exec_eq_loadWith_of_reached h hi fun hrd => .inl (hpc rfl hrd)
    exact hexec.trans (loadWith_of_aborted hal hab)
  · exact (exec_eq_storeWith h hi).trans (storeWith_of_aborted hal hab)

end

/-- Settles O42: nothing is done before the entry but the base writeback of the abort model. -/
theorem singleAborts : Obligations.SingleAborts := by
  unfold Obligations.SingleAborts
  intro i s x kind hi h hal hpc hab
  have base := (TransferState.refl s).abortBase x.rn x.ad.newBase
  refine ⟨_, exec_of_aborted hi h hal hpc hab, base.dataAborted, ?_, fun r hr hrn => ?_, fun r hr hrn => ?_⟩
  · conv_lhs => rw [base.dataAbort_rest]
    simp
  · exact (TransferState.refl s).phys_other hr hrn
  · exact (TransferState.refl s).phys_base hr hrn

end Sys2Proof.Machine
end

section
/-! SWP and SWPB (R460 to R464): the load and the store of one location. -/

namespace Sys2Proof.Machine

section
variable {c : Cond} {rn rd rm : RegNum} {size : Size} {result : Word → Word → Word} {s : State}

theorem exec_swp (h : Runs (.swp c rn rd rm) s) :
    exec (.swp c rn rd rm) s = exchange .word rn rd rm rotateLoaded s := by
  simp only [exec, execSwp]
  exact conditional_of_runs h rfl

theorem exec_swpb (h : Runs (.swpb c rn rd rm) s) :
    exec (.swpb c rn rd rm) s = exchange .byte rn rd rm (fun _ v => v) s := by
  simp only [exec, execSwpb]
  exact conditional_of_runs h rfl

/-- The exchange of each of the two instructions, to a register other than R15 (R462). -/
theorem exec_eq_exchange {i : Instr}
    (hi : (i = .swp c rn rd rm ∧ size = .word) ∨ (i = .swpb c rn rd rm ∧ size = .byte)) (h : Runs i s) :
    rd ≠ 15 ∧ exec i s =
      exchange size rn rd rm (fun a v => if size = .word then rotateLoaded a v else v) s := by
  have hu := h.unpredictable_eq_none
  obtain ⟨rfl, rfl⟩ | ⟨rfl, rfl⟩ := hi
  all_goals
    have hpc : [rn, rd, rm].contains 15#4 = false := firstFault_eq_none hu (_, .pcOperand) (List.mem_cons_self ..)
    refine ⟨fun hrd => by simp [hrd] at hpc, ?_⟩
  · exact exec_swp h
  · exact exec_swpb h

theorem exchange_of_unaligned (hal : alignmentOf size (s.readReg rn) s = .abort) :
    exchange size rn rd rm result s = .next (dataAbort s) :=
  exchange_next.mpr (.inl ⟨hal, rfl⟩)

/-- R463, R464: an aborted exchange has made its load, unless that aborted. -/
theorem exchange_of_aborted (hal : alignmentOf size (s.readReg rn) s = .proceed)
    (hab : s.memAbort (s.readReg rn) size .load (privileged s.cpsr) = true ∨
      s.memAbort (s.readReg rn) size .store (privileged s.cpsr) = true) :
    exchange size rn rd rm result s = .next (dataAbort
      (if s.memAbort (s.readReg rn) size .load (privileged s.cpsr) then s else (s.load size (s.readReg rn)).2)) := by
  refine exchange_next.mpr ?_
  cases hl : s.memAbort (s.readReg rn) size .load (privileged s.cpsr) with
  | true => exact .inr (.inl ⟨hal, rfl, rfl⟩)
  | false => exact .inr (.inr (.inl ⟨hal, rfl, by simpa [hl] using hab, rfl⟩))

theorem exchange_of_served (hal : alignmentOf size (s.readReg rn) s = .proceed)
    (hl : s.memAbort (s.readReg rn) size .load (privileged s.cpsr) = false)
    (hs : s.memAbort (s.readReg rn) size .store (privileged s.cpsr) = false) :
    exchange size rn rd rm result s =
      advance (((s.load size (s.readReg rn)).2.store size (s.readReg rn) (s.readReg rm)).writeReg rd
        (result (s.readReg rn) (s.load size (s.readReg rn)).1)) := by
  simp [exchange, hal, hl, hs]

end

section
variable {s : State} {size : Size} {a v : Word}

theorem load_transferState (s : State) (size : Size) (a : Word) : TransferState s (s.load size a).2 := by
  rw [load_state]
  rfl

theorem swapped_of_normal (hio : s.isIo size a = false) :
    (s.load size a).2.store size a v = s.memWrite size a v := by
  rw [load_of_normal s size a hio]
  exact store_of_normal s size a v hio

/-- R126: a device receives the load and then the store. -/
theorem swapped_of_device (hio : s.isIo size a = true) :
    (s.load size a).2.store size a v =
      { s with ioLog := s.ioLog ++
        [⟨alignTo size a, size, none⟩, ⟨alignTo size a, size, some (narrow size v)⟩] } := by
  rw [store_of_device _ size a v (by rwa [isIo_congr (load_platform s size a)]), load_of_device s size a hio]
  simp

end

/-- Settles O50: one load, then one store at the same address, then the write of Rd. -/
theorem swaps : Obligations.Swaps := by
  unfold Obligations.Swaps
  intro c rn rd rm s size i hi a lo h hal hl hs
  obtain ⟨hrd, hexec⟩ := exec_eq_exchange hi h.toRuns
  obtain ⟨hread, -, hkept⟩ := registers_of_load (s := s) (rn := rn) (nb := none)
    (u := (s.load size a).2.store size a (s.readReg rm))
    (v := if size = .word then rotateLoaded a (s.load size a).1 else (s.load size a).1)
    (by rw [store_regs, load_regs]) (by rw [store_cpsr, load_cpsr]) hrd (by simp) rfl
  refine ⟨_, (hexec.trans (exchange_of_served hal hl hs)).trans (advance_of_pc_eq (by simp) h.notLast),
    fun hio => ?_, fun hio => ?_, rfl, by simp, hkept, fun x hx => ?_, fun x => ?_, by simp⟩
  · have hload := load_of_normal s size a hio
    have hstore := swapped_of_normal (v := s.readReg rm) hio
    refine ⟨fun hw => ?_, fun hb => ?_, fun hwf => ?_, ?_, fun b => ?_⟩
    · subst hw
      exact hread.trans (by rw [if_pos rfl, hload])
    · subst hb
      exact hread.trans (by rw [if_neg (by decide), hload]; rfl)
    · rw [← memRead_memWrite_same s size a (s.readReg rm) hwf]
      refine congrFun₂ (memRead_congr ?_ (by simp)) size a
      rw [hstore, writeReg_mem]
    · rw [hstore, writeReg_ioLog, memWrite_ioLog]
    · rw [hstore, writeReg_written]
      exact mem_memWrite_written s size a _ b
  · have hload := load_of_device s size a hio
    refine ⟨fun hw => ?_, fun hb => ?_, ?_⟩
    · subst hw
      exact hread.trans (by rw [if_pos rfl, hload])
    · subst hb
      exact hread.trans (by rw [if_neg (by decide), hload]; rfl)
    · rw [swapped_of_device hio]
      simp
  · simpa using read_store_other (s.load size a).2 size a (s.readReg rm) hx
  · simpa using store_entered (s.load size a).2 size a (s.readReg rm) x

/-- Settles O51: before the entry an aborted exchange has made its load at most. -/
theorem swapAborts : Obligations.SwapAborts := by
  unfold Obligations.SwapAborts
  intro c rn rd rm s size i hi a h hal hab
  have hexec := (exec_eq_exchange hi h).2.trans (exchange_of_aborted hal hab)
  cases hl : s.memAbort a size .load (privileged s.cpsr) with
  | true =>
    rw [if_pos hl] at hexec
    have hu := TransferState.refl s
    exact ⟨_, hexec, hu.dataAborted, fun r hr => phys_dataAbort hr, by simp [dataAbort], hu.dataAbort_rest⟩
  | false =>
    rw [if_neg (ne_true_of_eq_false hl)] at hexec
    have hu := load_transferState s size a
    refine ⟨_, hexec, hu.dataAborted, fun r hr => ?_, ?_, ?_⟩
    · rw [phys_dataAbort hr, phys_congr (load_regs s size a)]
    · change (s.load size a).2.ioLog = _
      cases hio : s.isIo size a with
      | true => rw [load_of_device s size a hio]; simp
      | false => rw [load_of_normal s size a hio]; simp
    · refine hu.dataAbort_rest.trans ?_
      rw [load_mem, load_written, load_coprocs, load_draws]
      rfl

end Sys2Proof.Machine
end

section
/-! What the fetch of a step stops on (R121, R124, R348, R570). -/

namespace Sys2Proof.Machine

section
variable {s : State}

theorem fetchAndRun_of_ended {r : Result} (h : fetch s = .ended r) : fetchAndRun s = r := by
  unfold fetchAndRun; rw [h]

theorem fetch_of_stale (hT : flagT s.cpsr = false) (hstale : isStale s = true) :
    fetch s = .ended (.fault .staleInstruction) := by
  simp [fetch, hT, hstale]

theorem fetch_of_permission (hT : flagT s.cpsr = false) (hstale : isStale s = false)
    (hperm : (s.privDropPending && permissionDiffers s) = true) : fetch s = .ended (.fault .stalePermission) := by
  simp only [fetch, hT, hstale, hperm, Bool.false_eq_true, if_false, if_true]

theorem fetch_of_io (hT : flagT s.cpsr = false) (hstale : isStale s = false)
    (hperm : (s.privDropPending && permissionDiffers s) = false) (hio : s.isIo .word s.pc = true) :
    fetch s = .ended (.fault .fetchFromIo) := by
  simp only [fetch, hT, hstale, hperm, hio, Bool.false_eq_true, if_false, if_true]

theorem fetch_of_abort (hT : flagT s.cpsr = false) (hstale : isStale s = false)
    (hperm : (s.privDropPending && permissionDiffers s) = false) (hio : s.isIo .word s.pc = false)
    (hab : s.memAbort s.pc .word .fetch (privileged s.cpsr) = true) : fetch s = .ended (.next (prefetchAbort s)) := by
  simp only [fetch, hT, hstale, hperm, hio, hab, Bool.false_eq_true, if_false, if_true]

end

/-- Settles O13: the boundary proceeds, and the checks of the fetch follow one another in the order of R61. -/
theorem fetchStops : Obligations.FetchStops := by
  unfold Obligations.FetchStops
  intro s hr held hf hi hT u
  have hstep : ∀ r, fetch u = .ended r → step s = r := fun r h =>
    (step_of_proceed (boundary_of_quiet hr held (by simp [hf]) (by simp [hi]))).trans (fetchAndRun_of_ended h)
  have hTu : flagT u.cpsr = false := by rwa [takeInputs_cpsr]
  refine ⟨fun hstale => hstep _ (fetch_of_stale hTu hstale),
    fun hstale hp hd => hstep _ (fetch_of_permission hTu hstale (by rw [hp, hd]; rfl)),
    fun hstale hperm hio => hstep _ (fetch_of_io hTu hstale hperm hio), fun hstale hperm hio hab => ?_⟩
  rw [hstep _ (fetch_of_abort hTu hstale hperm hio hab), prefetchAbort, takeInputs_pc]

end Sys2Proof.Machine
end

section
/-! LDM, STM, LDC and STC as one shape (R433, R496, R497): the checks of a sequence of words, then its loads or its
stores, which complete or end in a Data Abort. -/

namespace Sys2Proof.Machine

/-! ## The checks of a sequence -/

/-- What is checked before the first access of a sequence, in this order: the end of the address space (R103), the
alignment exception (R110), I/O that R129 and R130 forbid. -/
def sequenceChecks (q : Sequence) (s : State) (body : Result) : Result :=
  if wordsWrap q.first q.addresses.length then .fault .wordsPastTop
  else if !aligned .word q.first && s.platform.alignCheck then .next (dataAbort s)
  else if q.multiple && mixedIo q.addresses q.pcListed s then .fault .mixedIo
  else body

/-- A sequence that no check stops. -/
structure Sequence.Passes (q : Sequence) (s : State) : Prop where
  inside : wordsWrap q.first q.addresses.length = false
  aligned : aligned .word q.first = true ∨ s.platform.alignCheck = false
  unmixed : q.multiple = true → mixedIo q.addresses q.pcListed s = false

section
variable {q : Sequence} {s : State} {body : Result}

theorem sequenceChecks_of_wrap (h : wordsWrap q.first q.addresses.length = true) :
    sequenceChecks q s body = .fault .wordsPastTop :=
  if_pos h

theorem sequenceChecks_of_unaligned (hwrap : wordsWrap q.first q.addresses.length = false)
    (ha : aligned .word q.first = false) (hc : s.platform.alignCheck = true) :
    sequenceChecks q s body = .next (dataAbort s) := by
  simp [sequenceChecks, hwrap, ha, hc]

theorem not_checked_of_aligned (h : aligned .word q.first = true ∨ s.platform.alignCheck = false) :
    (!aligned .word q.first && s.platform.alignCheck) = false := by
  rcases h with h | h <;> simp [h]

theorem sequenceChecks_of_mixed (hwrap : wordsWrap q.first q.addresses.length = false)
    (ha : aligned .word q.first = true ∨ s.platform.alignCheck = false) (hm : q.multiple = true)
    (hmixed : mixedIo q.addresses q.pcListed s = true) : sequenceChecks q s body = .fault .mixedIo := by
  simp only [sequenceChecks, hwrap, not_checked_of_aligned ha, hm, hmixed, Bool.false_eq_true, if_false,
    Bool.and_self, if_true]

theorem Sequence.Passes.checks (h : q.Passes s) : sequenceChecks q s body = body := by
  have unmixed : (q.multiple && mixedIo q.addresses q.pcListed s) = false := by
    cases hm : q.multiple with
    | true => rw [h.unmixed hm]; rfl
    | false => rfl
  simp only [sequenceChecks, h.inside, not_checked_of_aligned h.aligned, unmixed, Bool.false_eq_true, if_false]

end

/-- R129, R130: what an LDM or STM may not touch. -/
theorem mixedIo_iff {addrs : List Word} {pcListed : Bool} {s : State} :
    mixedIo addrs pcListed s = true ↔
      (∃ a ∈ addrs, s.isIo .word a = true) ∧ (pcListed = true ∨ ∃ a ∈ addrs, s.isIo .word a = false) := by
  simp only [mixedIo, Bool.and_eq_true, Bool.or_eq_true, List.any_eq_true, Bool.not_eq_true', List.all_eq_false,
    Bool.not_eq_true]

theorem mixedIo_of_normal {addrs : List Word} {pcListed : Bool} {s : State}
    (h : ∀ a ∈ addrs, s.isIo .word a = false) : mixedIo addrs pcListed s = false := by
  refine Bool.eq_false_iff.mpr fun hm => ?_
  obtain ⟨⟨a, ha, hio⟩, -⟩ := mixedIo_iff.mp hm
  simp [h a ha] at hio

theorem mixedIo_of_devices {addrs : List Word} {s : State} (h : ∀ a ∈ addrs, s.isIo .word a = true) :
    mixedIo addrs false s = false := by
  refine Bool.eq_false_iff.mpr fun hm => ?_
  obtain ⟨-, hpc | ⟨a, ha, hio⟩⟩ := mixedIo_iff.mp hm
  · cases hpc
  · simp [h a ha] at hio

/-! ## The words of a sequence -/

/-- The loads of a sequence: `aborted` is what is done to the state before a Data Abort, `finish` what ends a completed
one. -/
def loadTransfer (addrs : List Word) (aborted : State → State) (finish : List Word → State → Result) (s : State) :
    Result :=
  match loadWords (privileged s.cpsr) addrs s with
  | .aborted t => .next (dataAbort (aborted t))
  | .done words t => finish words t

/-- The stores of a sequence; after an abort the storable words are drawn (R113) and the base is as the abort model
says. -/
def storeTransfer (addrs values : List Word) (rn : RegNum) (nb : Option Word) (finish : State → Result) (s : State) :
    Result :=
  match storeWords (privileged s.cpsr) (addrs.zip values) s with
  | .aborted t => .next (dataAbort (abortBase rn nb (drawStored (privileged s.cpsr) addrs t)))
  | .done t => finish t

section
variable {addrs values : List Word} {aborted : State → State} {rn : RegNum} {nb : Option Word} {s : State}

theorem loadTransfer_of_served {finish : List Word → State → Result}
    (h : ∀ a ∈ addrs, s.memAbort a .word .load (privileged s.cpsr) = false) :
    loadTransfer addrs aborted finish s =
      finish (wordsAnswered addrs s) { s with ioLog := s.ioLog ++ deliveredLoads addrs s } := by
  rw [loadTransfer, loadWords_done h]

theorem loadTransfer_of_aborted {finish : List Word → State → Result}
    (h : ∃ a ∈ addrs, s.memAbort a .word .load (privileged s.cpsr) = true) :
    loadTransfer addrs aborted finish s = .next (dataAbort (aborted { s with
      ioLog := s.ioLog ++ deliveredLoads (beforeAbort .load (privileged s.cpsr) addrs s) s })) := by
  rw [loadTransfer, loadWords_aborted h]

/-- What a completed sequence of stores leaves: each byte of its storable words entered in `W`, no byte outside them
changed, the device words delivered. -/
structure StoresDone (addrs values : List Word) (s u : State) : Prop where
  rest : u = { s with mem := u.mem, written := u.written, ioLog := u.ioLog }
  ioLog : u.ioLog = s.ioLog ++ deliveredStores addrs values s
  bytes : ∀ x : Nat, ¬Storable (privileged s.cpsr) addrs s x → Memory.read u.mem x = Memory.read s.mem x
  entered : ∀ x : Nat, x ∈ u.written ↔ x ∈ s.written ∨ Storable (privileged s.cpsr) addrs s x
  completed : storeWords (privileged s.cpsr) (addrs.zip values) s = .done u

theorem beforeAbort_of_served {kind : AccessKind} {priv : Bool}
    (h : ∀ a ∈ addrs, s.memAbort a .word kind priv = false) : beforeAbort kind priv addrs s = addrs :=
  List.takeWhile_eq_self_iff.mpr fun a ha => by simp [h a ha]

theorem storeTransfer_of_served {finish : State → Result} (hl : addrs.length = values.length)
    (h : ∀ a ∈ addrs, s.memAbort a .word .store (privileged s.cpsr) = false) :
    ∃ u, storeTransfer addrs values rn nb finish s = finish u ∧ StoresDone addrs values s u := by
  obtain ⟨u, hlog, hu⟩ := storeWords_ends (priv := privileged s.cpsr) (s := s) hl
  rw [if_pos h] at hu
  rw [beforeAbort_of_served h] at hlog
  refine ⟨u, by rw [storeTransfer, hu], storeWords_state (.inl hu), hlog,
    fun x => (storeWords_bytes (.inl hu) x).1, fun x => ?_, hu⟩
  obtain ⟨-, hkeep, hnew⟩ := storeWords_bytes (.inl hu) x
  exact ⟨hnew, fun hx => hx.elim hkeep (storeWords_entered hl hu x)⟩

/-- Stores to devices change no memory and not `W`, up to an abort included. -/
theorem storeWords_devices_keep {priv : Bool} : ∀ {pairs : List (Word × Word)} {s t : State},
    (∀ p ∈ pairs, s.isIo .word p.1 = true) →
      (storeWords priv pairs s = .done t ∨ storeWords priv pairs s = .aborted t) →
        t.mem = s.mem ∧ t.written = s.written
  | [], s, t, _, h => by
    simp only [storeWords, StoredWords.done.injEq, reduceCtorEq, or_false] at h
    rw [← h]
    exact ⟨rfl, rfl⟩
  | (a, v) :: rest, s, t, hio, h => by
    rw [storeWords] at h
    split at h
    · simp only [reduceCtorEq, StoredWords.aborted.injEq, false_or] at h
      rw [← h]
      exact ⟨rfl, rfl⟩
    · rw [store_of_isIo (hio (a, v) (by simp))] at h
      exact storeWords_devices_keep (s := { s with ioLog := s.ioLog ++ [wordStoreEvent a v] })
        (fun p hp => hio p (by simp [hp])) h

theorem drawStored_of_devices {priv : Bool} : ∀ {addrs : List Word} {s : State},
    (∀ a ∈ addrs, s.isIo .word a = true) → drawStored priv addrs s = s
  | [], _, _ => rfl
  | a :: rest, s, h => by
    rw [drawStored, if_pos (by simp [h a (by simp)])]
    exact drawStored_of_devices fun b hb => h b (by simp [hb])

/-- What an aborted sequence of stores leaves (R113): the storable words drawn and entered in `W`, the device words
below the first abort delivered, nothing else changed. -/
structure StoresAborted (addrs values : List Word) (s u : State) : Prop where
  rest : u = { s with mem := u.mem, written := u.written, ioLog := u.ioLog, draws := u.draws }
  ioLog : u.ioLog = s.ioLog ++ deliveredStores (beforeAbort .store (privileged s.cpsr) addrs s) values s
  bytes : ∀ x : Nat, ¬Storable (privileged s.cpsr) addrs s x → Memory.read u.mem x = Memory.read s.mem x
  entered : ∀ x : Nat, x ∈ u.written ↔ x ∈ s.written ∨ Storable (privileged s.cpsr) addrs s x
  draws : u.draws = s.draws + 4 * addrs.countP fun a =>
    !s.memAbort a .word .store (privileged s.cpsr) && !s.isIo .word a
  devices : (∀ a ∈ addrs, s.isIo .word a = true) → u.mem = s.mem ∧ u.written = s.written

theorem storeTransfer_of_aborted {finish : State → Result} (hl : addrs.length = values.length)
    (h : ∃ a ∈ addrs, s.memAbort a .word .store (privileged s.cpsr) = true) :
    ∃ u, storeTransfer addrs values rn nb finish s = .next (dataAbort (abortBase rn nb u)) ∧
      StoresAborted addrs values s u := by
  obtain ⟨t, hlog, ht⟩ := storeWords_ends (priv := privileged s.cpsr) (s := s) hl
  rw [if_neg (by simpa using h)] at ht
  have hstate := storeWords_state (.inr ht)
  have hp : t.platform = s.platform := by rw [hstate]
  have hstorable : Storable (privileged s.cpsr) addrs t = Storable (privileged s.cpsr) addrs s := by
    funext x
    simp only [Storable, memAbort_congr hp, isIo_congr hp]
  have hdrawn := drawStored_bytes (privileged s.cpsr) addrs t
  rw [hstorable] at hdrawn
  refine ⟨drawStored (privileged s.cpsr) addrs t, by rw [storeTransfer, ht], ?_, ?_, fun x hx => ?_, fun x => ?_, ?_,
    fun hio => ?_⟩
  · rw [drawStored_state, hstate]
  · rw [drawStored_state, hlog]
  · exact ((hdrawn x).1 hx).trans ((storeWords_bytes (.inr ht) x).1 hx)
  · obtain ⟨-, hkeep, hnew⟩ := storeWords_bytes (.inr ht) x
    rw [(hdrawn x).2]
    exact ⟨fun hx => hx.elim hnew .inr, fun hx => hx.imp_left hkeep⟩
  · rw [drawStored_draws, memAbort_congr hp, isIo_congr hp]
    congr 1
    rw [hstate]
  · rw [drawStored_of_devices (by rwa [isIo_congr hp])]
    exact storeWords_devices_keep (fun p hm => hio p.1 (List.of_mem_zip hm).1) (.inr ht)

end

/-! ## LDM and STM -/

section
variable {m : BitVec 5} {c : Cond} {mode : Mode4} {w : Bool} {rn : RegNum} {list : BitVec 16} {l : BitVec 15}
  {s : State}

/-- The new base of an LDM or STM, where it writes one (R431). -/
def multipleBase (mode : Mode4) (w : Bool) (rn : RegNum) (list : BitVec 16) (s : State) : Option Word :=
  if w then some (mode4NewBase mode (s.readReg rn) (listed list).length) else none

/-- The addresses of an LDM or STM (R431). -/
def multipleAddresses (mode : Mode4) (rn : RegNum) (list : BitVec 16) (s : State) : List Word :=
  wordAddresses (mode4Start mode (s.readReg rn) (listed list).length) (listed list).length

theorem length_multipleAddresses : (multipleAddresses mode rn list s).length = (listed list).length :=
  length_wordAddresses _ _

theorem loadMultiple_eq {finish : List (RegNum × Word) → State → Result} :
    loadMultiple m mode w rn list finish s =
      sequenceChecks (multipleSequence .load mode rn list s) s
        (loadTransfer (multipleAddresses mode rn list s)
          (fun t => abortBase rn (multipleBase mode w rn list s) (drawRegs m (lostRegs m rn (listed list) t) t))
          (fun words t => finish ((listed list).zip words) (writeBase rn (multipleBase mode w rn list s) t)) s) := by
  simp only [loadMultiple, sequenceChecks, loadTransfer, multipleSequence, length_wordAddresses, Bool.true_and,
    multipleAddresses, multipleBase, abortLoadMultiple] <;> rfl

theorem storeMultiple_eq {after : State → State} :
    storeMultiple m mode w rn list after s =
      sequenceChecks (multipleSequence .store mode rn list s) s
        (storeTransfer (multipleAddresses mode rn list s) ((listed list).map (storedWord m w rn (listed list) s)) rn
          (multipleBase mode w rn list s) (fun t => advance (after (writeBase rn (multipleBase mode w rn list s) t)))
          { s with draws := (if drawsBase w rn (listed list) then s.draw.2 else s).draws }) := by
  simp only [storeMultiple, sequenceChecks, storeTransfer, multipleSequence, length_wordAddresses, Bool.true_and,
    multipleAddresses, multipleBase]
  rw [← drawnBase_state] <;> rfl

theorem exec_ldm1 (h : Runs (.ldm1 c mode w rn list) s) :
    exec (.ldm1 c mode w rn list) s = loadMultiple (modeBits s.cpsr) mode w rn list (fun pairs t =>
      match pcWord pairs with
      | some value => interwork value (commitLoaded w rn pairs t)
      | none => advance (commitLoaded w rn pairs t)) s := by
  simp only [exec, execLdm1]
  exact conditional_of_runs h rfl

theorem exec_ldm2 {e : ExcMode} (h : Runs (.ldm2 c mode w rn l) s) (he : s.currentExc = some e) :
    exec (.ldm2 c mode w rn l) s = loadMultiple userBits mode w rn (0#1 ++ l) (fun pairs t =>
      advance { writeRegs userBits pairs t with userBankHazard := true }) s := by
  simp only [exec, execLdm2]
  rw [conditional_of_runs h rfl, he]

theorem exec_ldm3 {e : ExcMode} (h : Runs (.ldm3 c mode w rn l) s) (he : s.currentExc = some e) :
    exec (.ldm3 c mode w rn l) s = loadMultiple (modeBits s.cpsr) mode w rn (1#1 ++ l) (fun pairs t =>
      returnFromException (if bit ((pcWord pairs).getD 0) 1 then some .interworkTarget else none) 0xFFFFFFFC
        ((pcWord pairs).getD 0) (commitLoaded w rn pairs t)) s := by
  simp only [exec, execLdm3]
  rw [conditional_of_runs h rfl, he]

theorem exec_ldm2_of_none (h : Runs (.ldm2 c mode w rn l) s) (he : s.currentExc = none) :
    exec (.ldm2 c mode w rn l) s = .fault .userBankMode := by
  simp only [exec, execLdm2]
  rw [conditional_of_runs h rfl, he]

theorem exec_ldm3_of_none (h : Runs (.ldm3 c mode w rn l) s) (he : s.currentExc = none) :
    exec (.ldm3 c mode w rn l) s = .fault .noSpsr := by
  simp only [exec, execLdm3]
  rw [conditional_of_runs h rfl, he]

theorem exec_stm2_of_none (h : Runs (.stm2 c mode w rn list) s) (he : s.currentExc = none) :
    exec (.stm2 c mode w rn list) s = .fault .userBankMode := by
  simp only [exec, execStm2]
  rw [conditional_of_runs h rfl, he]

end

/-! ## LDC and STC -/

/-- The coprocessor with number `cp` accepts an instruction with a row, whose operation the host supplies and whose
count the contract allows (R482, R484). -/
structure Accepted (i : Instr) (cp : BitVec 4) (s : State) (k : Coproc) (r : CoprocRule) : Prop where
  attached : s.coproc cp = some k
  row : acceptingRule k (encode i) (privileged s.cpsr) = some r
  supplied : r.supplied = true
  pos : 1 ≤ r.count
  le : r.count ≤ 16

section
variable {i : Instr} {c : Cond} {mode : Mode5} {n : Bool} {rn : RegNum} {crd cp : BitVec 4} {s : State} {k : Coproc}
  {r : CoprocRule}

/-- The addresses of an LDC or STC of `n` words (R496). -/
abbrev coprocWords (mode : Mode5) (rn : RegNum) (n : Nat) (s : State) : List Word :=
  wordAddresses (alignTo .word (mode5 mode (s.readReg rn)).address) n

theorem coprocSequence_eq_some {kind : AccessKind} {q : Sequence}
    (h : coprocSequence kind i mode rn cp s = some q) :
    ∃ k r, Accepted i cp s k r ∧
      q = ⟨kind, (mode5 mode (s.readReg rn)).address, coprocWords mode rn r.count s, false, false⟩ := by
  unfold coprocSequence at h
  split at h
  · cases h
  · next r hr =>
    obtain ⟨k, hk, hrow⟩ := Option.bind_eq_some_iff.mp hr
    split at h
    · next hc =>
      obtain ⟨hs, hpos, hle⟩ := hc
      cases h
      exact ⟨k, r, ⟨hk, hrow, hs, hpos, hle⟩, rfl⟩
    · cases h

/-- R496: the checks of an accepted LDC or STC. -/
theorem coprocTransfer_eq {ad : Addressing} {kind : AccessKind} {body : List Word → State → Result}
    (hpos : 1 ≤ r.count) (hle : r.count ≤ 16) :
    coprocTransfer ad r.count body s =
      sequenceChecks ⟨kind, ad.address, wordAddresses (alignTo .word ad.address) r.count, false, false⟩ s
        (body (wordAddresses (alignTo .word ad.address) r.count) s) := by
  unfold coprocTransfer
  rw [if_neg (by omega)]
  simp only [sequenceChecks, length_wordAddresses, Bool.false_and, Bool.false_eq_true, if_false]
  rfl

theorem loadCoproc_eq (h : Accepted i cp s k r) :
    loadCoproc (encode i) mode rn cp s =
      sequenceChecks ⟨.load, (mode5 mode (s.readReg rn)).address, coprocWords mode rn r.count s, false, false⟩ s
        (loadTransfer (coprocWords mode rn r.count s)
          (fun t => abortBase rn (mode5 mode (s.readReg rn)).newBase
            ({ t with draws := t.draws + 1 }.setCoproc cp (Config.cpLdcAborted k (encode i) t.draws)))
          (fun words t => advance (writeBase rn (mode5 mode (s.readReg rn)).newBase
            (t.setCoproc cp (Config.cpLdc k (encode i) words)))) s) := by
  unfold loadCoproc
  rw [withCoproc_of_accepted h.attached h.row, if_pos h.supplied]
  dsimp only
  rw [coprocTransfer_eq (kind := .load) h.pos h.le]
  congr 1
  unfold loadTransfer
  split <;> next hw => rw [hw]

theorem storeCoproc_eq (h : Accepted i cp s k r) :
    storeCoproc (encode i) mode rn cp s =
      sequenceChecks ⟨.store, (mode5 mode (s.readReg rn)).address, coprocWords mode rn r.count s, false, false⟩ s
        (storeTransfer (coprocWords mode rn r.count s) ((List.range r.count).map (Config.cpStcWord k (encode i))) rn
          (mode5 mode (s.readReg rn)).newBase
          (fun t => advance (writeBase rn (mode5 mode (s.readReg rn)).newBase
            (t.setCoproc cp (Config.cpStc k (encode i))))) s) := by
  unfold storeCoproc
  rw [withCoproc_of_accepted h.attached h.row, if_pos h.supplied]
  dsimp only
  rw [coprocTransfer_eq (kind := .store) h.pos h.le]
  congr 1
  unfold storeTransfer
  split <;> next hw => rw [hw]

theorem exec_eq_loadCoproc (hi : i = .ldc c mode n rn crd cp ∨ i = .ldc2 mode n rn crd cp) (h : Runs i s) :
    exec i s = loadCoproc (encode i) mode rn cp s := by
  obtain rfl | rfl := hi
  · exact exec_ldc h
  · exact exec_ldc2 h

theorem exec_eq_storeCoproc (hi : i = .stc c mode n rn crd cp ∨ i = .stc2 mode n rn crd cp) (h : Runs i s) :
    exec i s = storeCoproc (encode i) mode rn cp s := by
  obtain rfl | rfl := hi
  · exact exec_stc h
  · exact exec_stc2 h

end

/-! ## Every sequence -/

/-- What an aborted sequence has done to memory, `W` and devices before its base writeback and its entry. -/
structure AbortedSequence (q : Sequence) (s u : State) : Prop where
  state : TransferState s u
  loads : q.kind = .load → u.mem = s.mem ∧ u.written = s.written ∧
    u.ioLog = s.ioLog ++ deliveredLoads (beforeAbort .load (privileged s.cpsr) q.addresses s) s
  stores : q.kind = .store → ∃ values : List Word, values.length = q.addresses.length ∧
    u.ioLog = s.ioLog ++ deliveredStores (beforeAbort .store (privileged s.cpsr) q.addresses s) values s ∧
    ((∀ a ∈ q.addresses, s.isIo .word a = true) → u.mem = s.mem ∧ u.written = s.written)

/-- R572 cases 4 and 5: the registers that an aborted LDM draws. -/
theorem drawRegs_transferState {s u : State} (h : TransferState s u) (m : BitVec 5) (regs : List RegNum) :
    TransferState s (drawRegs m regs u) := by
  unfold TransferState
  rw [drawRegs_state, h]

section
variable {addrs values : List Word} {s u : State}

theorem StoresAborted.transferState (h : StoresAborted addrs values s u) : TransferState s u := by
  unfold TransferState
  rw [h.rest]

/-- The state that has drawn a value for its base (R437) differs in the count of draws only. -/
theorem StoresAborted.abortedSequence {d : Nat} {q : Sequence} (hk : q.kind = .store)
    (hl : q.addresses.length = values.length) (h : StoresAborted q.addresses values { s with draws := d } u) :
    AbortedSequence q s u where
  state := by
    unfold TransferState
    rw [h.rest]
  loads hload := by rw [hk] at hload; cases hload
  stores _ := ⟨values, hl.symm, h.ioLog, h.devices⟩

end

section
variable {i : Instr} {s : State} {q : Sequence} {addrs : List Word}

/-- What an instruction of the multiple and coprocessor families does: the checks of its sequence, and, where a word
aborts, the Data Abort after the base writeback. -/
def RunsSequence (i : Instr) (s : State) (q : Sequence) : Prop :=
  ∃ body, exec i s = sequenceChecks q s body ∧
    ((∃ a ∈ q.addresses, s.memAbort a .word q.kind (privileged s.cpsr) = true) →
      ∃ rn nb u, body = .next (dataAbort (abortBase rn nb u)) ∧ AbortedSequence q s u)

theorem runsSequence_of_loadMultiple {m : BitVec 5} {mode : Mode4} {w : Bool} {rn : RegNum} {list : BitVec 16}
    {finish : List (RegNum × Word) → State → Result} (h : exec i s = loadMultiple m mode w rn list finish s) :
    RunsSequence i s (multipleSequence .load mode rn list s) := by
  refine ⟨_, h.trans loadMultiple_eq, fun hab => ⟨_, _, _, loadTransfer_of_aborted hab, ?_, fun _ => ?_, nofun⟩⟩
  · refine drawRegs_transferState ?_ m _
    rfl
  · rw [drawRegs_state]
    exact ⟨rfl, rfl, rfl⟩

theorem runsSequence_of_storeMultiple {m : BitVec 5} {mode : Mode4} {w : Bool} {rn : RegNum} {list : BitVec 16}
    {after : State → State} (h : exec i s = storeMultiple m mode w rn list after s) :
    RunsSequence i s (multipleSequence .store mode rn list s) := by
  have hl : (multipleAddresses mode rn list s).length =
      ((listed list).map (storedWord m w rn (listed list) s)).length := by
    rw [length_multipleAddresses, List.length_map]
  refine ⟨_, h.trans storeMultiple_eq, fun hab => ?_⟩
  obtain ⟨u, hu, aborted⟩ := storeTransfer_of_aborted hl
    (s := { s with draws := (if drawsBase w rn (listed list) then s.draw.2 else s).draws }) hab
  exact ⟨_, _, u, hu, aborted.abortedSequence rfl hl⟩

theorem runsSequence_of_loadCoproc {mode : Mode5} {rn : RegNum} {cp : BitVec 4} {k : Coproc} {r : CoprocRule}
    (h : exec i s = loadCoproc (encode i) mode rn cp s) (ha : Accepted i cp s k r) :
    RunsSequence i s
      ⟨.load, (mode5 mode (s.readReg rn)).address, coprocWords mode rn r.count s, false, false⟩ :=
  ⟨_, h.trans (loadCoproc_eq ha), fun hab =>
    ⟨_, _, _, loadTransfer_of_aborted hab, ⟨rfl, fun _ => ⟨rfl, rfl, rfl⟩, nofun⟩⟩⟩

theorem runsSequence_of_storeCoproc {mode : Mode5} {rn : RegNum} {cp : BitVec 4} {k : Coproc} {r : CoprocRule}
    (h : exec i s = storeCoproc (encode i) mode rn cp s) (ha : Accepted i cp s k r) :
    RunsSequence i s
      ⟨.store, (mode5 mode (s.readReg rn)).address, coprocWords mode rn r.count s, false, false⟩ := by
  have hl : (coprocWords mode rn r.count s).length =
      ((List.range r.count).map (Config.cpStcWord k (encode i))).length := by
    rw [length_wordAddresses, List.length_map, List.length_range]
  refine ⟨_, h.trans (storeCoproc_eq ha), fun hab => ?_⟩
  obtain ⟨u, hu, aborted⟩ := storeTransfer_of_aborted hl hab
  exact ⟨_, _, u, hu, aborted.abortedSequence (d := s.draws) rfl hl⟩

/-- Every instruction that makes a sequence of word accesses (R433, R496, R497). -/
theorem runsSequence_of_sequenceOf (h : Runs i s) (hi : sequenceOf i s = some q) : RunsSequence i s q := by
  cases i
  case ldm1 =>
    cases hi
    exact runsSequence_of_loadMultiple (exec_ldm1 h)
  case ldm2 =>
    obtain ⟨e, he, rfl⟩ := Option.map_eq_some_iff.mp hi
    exact runsSequence_of_loadMultiple (exec_ldm2 h he)
  case ldm3 =>
    obtain ⟨e, he, rfl⟩ := Option.map_eq_some_iff.mp hi
    exact runsSequence_of_loadMultiple (exec_ldm3 h he)
  case stm1 =>
    cases hi
    exact runsSequence_of_storeMultiple (exec_stm1 h)
  case stm2 =>
    obtain ⟨e, he, rfl⟩ := Option.map_eq_some_iff.mp hi
    exact runsSequence_of_storeMultiple (exec_stm2 h he)
  case ldc =>
    obtain ⟨k, r, ha, rfl⟩ := coprocSequence_eq_some hi
    exact runsSequence_of_loadCoproc (exec_ldc h) ha
  case ldc2 =>
    obtain ⟨k, r, ha, rfl⟩ := coprocSequence_eq_some hi
    exact runsSequence_of_loadCoproc (exec_ldc2 h) ha
  case stc =>
    obtain ⟨k, r, ha, rfl⟩ := coprocSequence_eq_some hi
    exact runsSequence_of_storeCoproc (exec_stc h) ha
  case stc2 =>
    obtain ⟨k, r, ha, rfl⟩ := coprocSequence_eq_some hi
    exact runsSequence_of_storeCoproc (exec_stc2 h) ha
  all_goals cases hi

end

/-- Settles O43: the alignment rule of a single access, the checks of a sequence, and the exchange of SWP. -/
theorem alignment : Obligations.Alignment := by
  unfold Obligations.Alignment
  refine ⟨fun i s x hi h => ⟨fun ha => ?_, exec_of_unaligned hi h, fun ha hc hsize => exec_of_odd_half hi h hsize ha hc,
    fun ha hc hsize => ?_⟩, fun i s q h hi hwrap ha hc => ?_, fun c rn rd rm s h ha hc => ?_⟩
  · obtain ha | hsize := ha
    · exact alignmentOf_of_aligned ha
    · rw [hsize]
      exact alignmentOf_byte
  · rw [hsize] at ha ⊢
    exact alignmentOf_word ha hc
  · obtain ⟨body, hexec, -⟩ := runsSequence_of_sequenceOf h hi
    exact hexec.trans (sequenceChecks_of_unaligned hwrap ha hc)
  · exact (exec_swp h).trans (exchange_of_unaligned (alignmentOf_of_checked ha hc))

/-- Settles O49: the mode is asked before the checks of the sequence, which come in their order. -/
theorem multipleStops : Obligations.MultipleStops := by
  unfold Obligations.MultipleStops
  refine ⟨fun c mode w rn l list s he => ⟨fun h => exec_ldm2_of_none h he, fun h => exec_ldm3_of_none h he,
    fun h => exec_stm2_of_none h he⟩, fun i s q h hi => ?_⟩
  obtain ⟨body, hexec, -⟩ := runsSequence_of_sequenceOf h hi
  rw [hexec]
  exact ⟨sequenceChecks_of_wrap, fun hwrap ha hm hio hmixed =>
    sequenceChecks_of_mixed hwrap ha hm (mixedIo_iff.mpr ⟨hio, hmixed⟩)⟩

end Sys2Proof.Machine
end

section
/-! LDC and STC that a coprocessor accepts (R484, R492 to R499): their words, one by one on memory or on devices, and
their aborts. -/

namespace Sys2Proof.Machine

/-! ## The addresses of a transfer from a masked address -/

theorem alignTo_word_alignTo (a : Word) : alignTo .word (alignTo .word a) = alignTo .word a := by
  simp [alignTo, BitVec.and_assoc]

theorem wordsWrap_alignTo (a : Word) (n : Nat) : wordsWrap (alignTo .word a) n = wordsWrap a n := by
  simp [wordsWrap, alignTo, BitVec.and_assoc]

/-- The storable bytes of a transfer lie within its words. -/
theorem storable_inside {priv : Bool} {start : Word} {n x : Nat} {s : State} (hwrap : wordsWrap start n = false)
    (h : Storable priv (wordAddresses start n) s x) :
    (alignTo .word start).toNat ≤ x ∧ x < (alignTo .word start).toNat + 4 * n := by
  have hlast := wordsWrap_eq_false hwrap
  obtain ⟨a, ha, -, -, hlo, hhi⟩ := h
  obtain ⟨k, hk, rfl⟩ := mem_wordAddresses.mp ha
  rw [toNat_alignTo_add_fourTimes (by omega)] at hlo hhi
  omega

/-- Each word of normal memory of a completed sequence of stores holds what was stored there, also where other words go
to devices. -/
theorem storeWords_memRead_of_normal {priv : Bool} : ∀ {addrs values : List Word} {s t : State},
    storeWords priv (addrs.zip values) s = .done t → Memory.wf s.mem = true → addrs.Pairwise WordBelow →
      ∀ (k : Nat) (a v : Word), addrs[k]? = some a → values[k]? = some v → s.isIo .word a = false →
        t.memRead .word a = v
  | [], _, _, _, _, _, _, k, a, v, ha, _, _ => by simp at ha
  | _ :: _, [], _, _, _, _, _, k, a, v, _, hv, _ => by simp at hv
  | b :: rest, u :: values, s, t, h, hwf, hbelow, k, a, v, ha, hv, hio => by
    rw [List.pairwise_cons] at hbelow
    rw [List.zip_cons_cons, storeWords] at h
    split at h
    · cases h
    cases k with
    | succ k =>
      exact storeWords_memRead_of_normal h (store_keeps_wf s .word b u hwf) hbelow.2 k a v (by simpa using ha)
        (by simpa using hv) (by rwa [isIo_congr (store_platform s .word b u)])
    | zero =>
      obtain rfl : b = a := by simpa using ha
      obtain rfl : u = v := by simpa using hv
      rw [store_of_not_io hio] at h
      have hsame : (s.memWrite .word b u).memRead .word b = u := memRead_memWrite_same s .word b u hwf
      have hplatform := storeWords_platform (.inl h)
      rw [memWrite_platform] at hplatform
      rw [← hsame, State.memRead, State.memRead, hplatform, memWrite_platform]
      refine Memory.readSized_word_congr fun x hlo hhi => (storeWords_bytes (.inl h) x).1 ?_
      rintro ⟨c, hc, -, -, hclo, -⟩
      have : WordBelow b c := hbelow.1 c hc
      unfold WordBelow at this
      omega

/-! ## What a transfer leaves -/

section
variable {s u : State}

theorem TransferState.writeBase (h : TransferState s u) (rn : RegNum) (nb : Option Word) :
    TransferState s (writeBase rn nb u) := by
  unfold TransferState
  rw [writeBase_state rn nb u, h]

theorem TransferState.setCoproc (h : TransferState s u) (cp : BitVec 4) (c : Coproc) :
    TransferState s (u.setCoproc cp c) := by
  unfold TransferState State.setCoproc
  rw [h]

theorem TransferState.resumed (h : TransferState s u) (pc : Word) (coprocs : Vector (Option Coproc) 16) :
    { u with pc := pc, coprocs := coprocs } = { s with
      regs := u.regs, pc := pc, mem := u.mem, written := u.written, ioLog := u.ioLog, coprocs := coprocs,
      draws := u.draws } := by
  rw [h]

theorem StoresDone.transferState {addrs values : List Word} (h : StoresDone addrs values s u) : TransferState s u := by
  unfold TransferState
  rw [h.rest]

end

/-! ## What an accepted instruction needs -/

section
variable {i : Instr} {c : Cond} {mode : Mode5} {n : Bool} {rn : RegNum} {crd cp : BitVec 4} {s : State} {k : Coproc}
  {r : CoprocRule}

theorem mode5_newBase_isSome {base : Word} : (mode5 mode base).newBase.isSome = mode.writesBack := by
  cases mode <;> rfl

/-- R493, R494: R15 is no written-back base. -/
theorem coproc_base_ne_fifteen (hi : (i = .ldc c mode n rn crd cp ∨ i = .ldc2 mode n rn crd cp) ∨
    (i = .stc c mode n rn crd cp ∨ i = .stc2 mode n rn crd cp)) (h : Runs i s) {base : Word}
    (hb : (mode5 mode base).newBase.isSome = true) : rn ≠ 15 := by
  rw [mode5_newBase_isSome] at hb
  have hu : firstFault [(mode.writesBack && rn == 15#4, .pcBaseWriteback)] = none := by
    obtain (rfl | rfl) | (rfl | rfl) := hi <;> exact h.unpredictable_eq_none
  have hpc := firstFault_eq_none hu _ (List.mem_singleton_self _)
  rw [hb] at hpc
  simpa using hpc

theorem coproc_passes {kind : AccessKind} {start : Word} {count : Nat} (hwrap : wordsWrap start count = false)
    (ha : aligned .word start = true ∨ s.platform.alignCheck = false) :
    Sequence.Passes ⟨kind, start, wordAddresses (alignTo .word start) count, false, false⟩ s :=
  ⟨by rwa [length_wordAddresses], ha, nofun⟩

/-! ## Completed transfers -/

/-- R496: what an accepted LDC leaves, no word of it aborted. -/
theorem exec_ldc_of_served (hi : i = .ldc c mode n rn crd cp ∨ i = .ldc2 mode n rn crd cp) (h : Executes i s)
    (hk : Accepted i cp s k r) (hwrap : wordsWrap (mode5 mode (s.readReg rn)).address r.count = false)
    (ha : aligned .word (mode5 mode (s.readReg rn)).address = true ∨ s.platform.alignCheck = false)
    (hab : ∀ a ∈ coprocWords mode rn r.count s, s.memAbort a .word .load (privileged s.cpsr) = false) :
    ∃ u, exec i s = .next { writeBase rn (mode5 mode (s.readReg rn)).newBase u with pc := s.pc + 4 } ∧
      u = { s with
        ioLog := s.ioLog ++ deliveredLoads (coprocWords mode rn r.count s) s
        coprocs := s.coprocs.set cp.toNat
          (some (Config.cpLdc k (encode i) (wordsAnswered (coprocWords mode rn r.count s) s))) } := by
  refine ⟨_, ?_, rfl⟩
  rw [exec_eq_loadCoproc hi h.toRuns, loadCoproc_eq hk, (coproc_passes hwrap ha).checks, loadTransfer_of_served hab]
  exact advance_of_pc_eq (by rw [writeBase_pc, setCoproc_pc]) h.notLast

/-- R497: what an accepted STC leaves, no word of it aborted. -/
theorem exec_stc_of_served (hi : i = .stc c mode n rn crd cp ∨ i = .stc2 mode n rn crd cp) (h : Executes i s)
    (hk : Accepted i cp s k r) (hwrap : wordsWrap (mode5 mode (s.readReg rn)).address r.count = false)
    (ha : aligned .word (mode5 mode (s.readReg rn)).address = true ∨ s.platform.alignCheck = false)
    (hab : ∀ a ∈ coprocWords mode rn r.count s, s.memAbort a .word .store (privileged s.cpsr) = false) :
    ∃ u, exec i s = .next { writeBase rn (mode5 mode (s.readReg rn)).newBase
        (u.setCoproc cp (Config.cpStc k (encode i))) with pc := s.pc + 4 } ∧
      StoresDone (coprocWords mode rn r.count s) ((List.range r.count).map (Config.cpStcWord k (encode i))) s u := by
  obtain ⟨u, hu, done⟩ := storeTransfer_of_served (rn := rn) (nb := (mode5 mode (s.readReg rn)).newBase)
    (values := (List.range r.count).map (Config.cpStcWord k (encode i)))
    (finish := fun t => advance (writeBase rn (mode5 mode (s.readReg rn)).newBase
      (t.setCoproc cp (Config.cpStc k (encode i))))) (by simp [length_wordAddresses]) hab
  refine ⟨u, ?_, done⟩
  rw [exec_eq_storeCoproc hi h.toRuns, storeCoproc_eq hk, (coproc_passes hwrap ha).checks, hu]
  exact advance_of_pc_eq (by rw [writeBase_pc, setCoproc_pc, done.rest]) h.notLast

end

/-- Settles O54: the words are those that the loads answer, and only the coprocessor, the base and the device log
change. -/
theorem coprocessorLoads : Obligations.CoprocessorLoads := by
  unfold Obligations.CoprocessorLoads
  intro c mode n rn crd cp s i k r hi h hk hr hs hpos hle ad addrs hwrap ha hab
  obtain ⟨u, hexec, hu⟩ := exec_ldc_of_served hi h ⟨hk, hr, hs, hpos, hle⟩ hwrap ha hab
  refine ⟨_, hexec, ?_, ?_, readReg_of_base (coproc_base_ne_fifteen (.inl hi) h.toRuns) rfl (by simp), rfl, ?_,
    regsKept_writeBase_option (by rw [hu]) (by rw [hu]) _ _, ?_⟩
  · rw [writeBase_coprocs, hu]
  · rw [writeBase_ioLog, hu]
  · rw [writeBase_draws, hu]
  · rw [writeBase_state, hu]

/-- Settles O55: the words lie one above the other, so each word of normal memory holds what was stored there. -/
theorem coprocessorStores : Obligations.CoprocessorStores := by
  unfold Obligations.CoprocessorStores
  intro c mode n rn crd cp s i k r hi h hk hr hs hpos hle ad addrs values stored hwrap ha hab
  obtain ⟨u, hexec, done⟩ := exec_stc_of_served hi h ⟨hk, hr, hs, hpos, hle⟩ hwrap ha hab
  have hwrap' : wordsWrap (alignTo .word ad.address) r.count = false := by rwa [wordsWrap_alignTo]
  have inside : ∀ x, stored x →
      (alignTo .word ad.address).toNat ≤ x ∧ x < (alignTo .word ad.address).toNat + 4 * r.count := fun x hx => by
    have := storable_inside hwrap' hx
    rwa [alignTo_word_alignTo] at this
  have hcoprocs : u.coprocs = s.coprocs := by rw [done.rest]
  have hplatform : u.platform = s.platform := by rw [done.rest]
  refine ⟨_, hexec, ?_, fun hwf j a hj hio => ?_, ?_, ?_, ?_,
    readReg_of_base (coproc_base_ne_fifteen (.inr hi) h.toRuns) rfl (by simp), rfl, ?_, ?_, fun x hx => ?_,
    fun x => ?_, ?_⟩
  · simp [hcoprocs]
  · have hlt : j < r.count := by
      have := (List.getElem?_eq_some_iff.mp hj).1
      rwa [length_wordAddresses] at this
    have hread := storeWords_memRead_of_normal done.completed hwf (pairwise_wordAddresses hwrap') j a
      (Config.cpStcWord k (encode i) j) hj (by simp [hlt]) hio
    rw [← hread]
    exact congrFun₂ (memRead_congr (writeBase_mem ..) (writeBase_platform ..)) _ _
  · simpa using done.bytes
  · simpa using done.entered
  · simpa using done.ioLog
  · rw [writeBase_draws, setCoproc_draws, done.rest]
  · exact regsKept_writeBase_option (u := u.setCoproc _ _) (by rw [done.rest]; rfl) (by rw [done.rest]; rfl) _ _
  · have hout : ¬stored x := fun h => by
      have := inside x h
      omega
    simpa using done.bytes x hout
  · simpa using ⟨fun hx => (done.entered x).mpr (.inl hx), fun hx => ((done.entered x).mp hx).imp_right (inside x)⟩
  · exact (TransferState.writeBase (done.transferState.setCoproc _ _) _ _).resumed _ _

/-! ## Aborted transfers -/

section
variable {i : Instr} {c : Cond} {mode : Mode5} {n : Bool} {rn : RegNum} {crd cp : BitVec 4} {s : State} {k : Coproc}
  {r : CoprocRule}

/-- R498: what an aborted LDC leaves. -/
theorem exec_ldc_of_aborted (hi : i = .ldc c mode n rn crd cp ∨ i = .ldc2 mode n rn crd cp) (h : Runs i s)
    (hk : Accepted i cp s k r) (hwrap : wordsWrap (mode5 mode (s.readReg rn)).address r.count = false)
    (ha : aligned .word (mode5 mode (s.readReg rn)).address = true ∨ s.platform.alignCheck = false)
    (hab : ∃ a ∈ coprocWords mode rn r.count s, s.memAbort a .word .load (privileged s.cpsr) = true) :
    ∃ u, exec i s = .next (dataAbort (abortBase rn (mode5 mode (s.readReg rn)).newBase u)) ∧
      u = { s with
        ioLog := s.ioLog ++
          deliveredLoads (beforeAbort .load (privileged s.cpsr) (coprocWords mode rn r.count s) s) s
        draws := s.draws + 1
        coprocs := s.coprocs.set cp.toNat (some (Config.cpLdcAborted k (encode i) s.draws)) } := by
  refine ⟨_, ?_, rfl⟩
  rw [exec_eq_loadCoproc hi h, loadCoproc_eq hk, (coproc_passes hwrap ha).checks, loadTransfer_of_aborted hab]
  rfl

theorem exec_stc_of_aborted (hi : i = .stc c mode n rn crd cp ∨ i = .stc2 mode n rn crd cp) (h : Runs i s)
    (hk : Accepted i cp s k r) (hwrap : wordsWrap (mode5 mode (s.readReg rn)).address r.count = false)
    (ha : aligned .word (mode5 mode (s.readReg rn)).address = true ∨ s.platform.alignCheck = false)
    (hab : ∃ a ∈ coprocWords mode rn r.count s, s.memAbort a .word .store (privileged s.cpsr) = true) :
    ∃ u, exec i s = .next (dataAbort (abortBase rn (mode5 mode (s.readReg rn)).newBase u)) ∧
      StoresAborted (coprocWords mode rn r.count s) ((List.range r.count).map (Config.cpStcWord k (encode i))) s u := by
  rw [exec_eq_storeCoproc hi h, storeCoproc_eq hk, (coproc_passes hwrap ha).checks]
  exact storeTransfer_of_aborted (by simp [length_wordAddresses]) hab

end

/-- Settles O56: the state before the entry is that of the transfer, with the base as the abort model says. -/
theorem coprocessorAborts : Obligations.CoprocessorAborts := by
  unfold Obligations.CoprocessorAborts
  intro c mode n rn crd cp s i k r kind hi h hk hr hs hpos hle priv ad addrs made values hwrap ha hab
  obtain ⟨rfl, hi⟩ | ⟨rfl, hi⟩ := hi
  · obtain ⟨u, hexec, hu⟩ := exec_ldc_of_aborted hi h ⟨hk, hr, hs, hpos, hle⟩ hwrap ha hab
    have work : TransferState s u := by
      unfold TransferState
      rw [hu]
    have hregs : u.regs = s.regs := by rw [hu]
    have entry := work.abortBase rn ad.newBase
    refine ⟨_, hexec, entry.dataAborted, fun q hq hrn => ?_, fun q hq hrn => ?_, fun _ => ?_, nofun,
      entry.dataAbort_rest⟩
    · rw [work.phys_other hq hrn, phys_congr hregs]
    · rw [work.phys_base hq hrn, phys_congr hregs]
    · change (abortBase ..).mem = _ ∧ (abortBase ..).written = _ ∧ (abortBase ..).ioLog = _ ∧
        (abortBase ..).coprocs = _ ∧ (abortBase ..).draws = _
      rw [abortBase_state, hu]
      exact ⟨rfl, rfl, rfl, rfl, rfl⟩
  · obtain ⟨u, hexec, aborted⟩ := exec_stc_of_aborted hi h ⟨hk, hr, hs, hpos, hle⟩ hwrap ha hab
    have work := aborted.transferState
    have hregs : u.regs = s.regs := by rw [aborted.rest]
    have hcoprocs : u.coprocs = s.coprocs := by rw [aborted.rest]
    have entry := work.abortBase rn ad.newBase
    refine ⟨_, hexec, entry.dataAborted, fun q hq hrn => ?_, fun q hq hrn => ?_, nofun, fun _ => ?_,
      entry.dataAbort_rest⟩
    · rw [work.phys_other hq hrn, phys_congr hregs]
    · rw [work.phys_base hq hrn, phys_congr hregs]
    · change (abortBase ..).coprocs = _ ∧ (abortBase ..).ioLog = _ ∧
        (∀ x, _ → Memory.read (abortBase ..).mem x = _) ∧ (∀ x, x ∈ (abortBase ..).written ↔ _) ∧
        (abortBase ..).draws = _
      rw [abortBase_state]
      exact ⟨hcoprocs, aborted.ioLog, aborted.bytes, aborted.entered, aborted.draws⟩

end Sys2Proof.Machine
end

section
/-! An LDM or STM that a word aborts (R439, R571 to R573, R113). -/

namespace Sys2Proof.Machine

/-! ## The registers that an aborted LDM draws -/

theorem phys_drawRegs_other {m : BitVec 5} {r : PhysReg} : ∀ {regs : List RegNum} {s : State},
    (∀ n ∈ regs, physReg m n ≠ some r) → (drawRegs m regs s).phys r = s.phys r
  | [], _, _ => rfl
  | n :: rest, s, h => by
    rw [drawRegs, phys_drawRegs_other fun k hk => h k (by simp [hk]), phys_writeRegIn, if_neg (h n (by simp))]
    rfl

section
variable {m : BitVec 5} {rn n : RegNum} {regs : List RegNum} {s u : State} {r : PhysReg}

/-- R572 case 4: where one register is loaded, none is lost. -/
theorem lostRegs_of_single (h : regs.length ≤ 1) : lostRegs m rn regs s = [] := if_pos h

theorem mem_of_mem_lostRegs (h : n ∈ lostRegs m rn regs s) :
    n ∈ regs ∧ physReg m n ≠ physReg (modeBits s.cpsr) rn := by
  unfold lostRegs at h
  split at h
  · cases h
  · simpa using ⟨(List.mem_filter.mp h).1, (by simpa using (List.mem_filter.mp h).2 : _ ∧ _).2⟩

/-- R572 case 5: the base is not lost. -/
theorem phys_lostRegs_base (h : physReg (modeBits u.cpsr) rn = some r) :
    (drawRegs m (lostRegs m rn regs u) u).phys r = u.phys r :=
  phys_drawRegs_other fun _ hn e => (mem_of_mem_lostRegs hn).2 (e.trans h.symm)

theorem phys_lostRegs_other (h : regs.length = 1 ∨ ∀ n ∈ regs, physReg m n ≠ some r) :
    (drawRegs m (lostRegs m rn regs u) u).phys r = u.phys r := by
  refine phys_drawRegs_other fun n hn => ?_
  obtain h | h := h
  · rw [lostRegs_of_single (by omega)] at hn
    cases hn
  · exact h n (mem_of_mem_lostRegs hn).1

end

/-- What a Data Abort leaves unchanged, the coprocessors included. -/
theorem TransferState.dataAbort_rest_of_coprocs {s u : State} (h : TransferState s u) (hc : u.coprocs = s.coprocs) :
    dataAbort u = { s with
      regs := (dataAbort u).regs, pc := (dataAbort u).pc, cpsr := (dataAbort u).cpsr, spsr := (dataAbort u).spsr,
      mem := u.mem, written := u.written, ioLog := u.ioLog, draws := u.draws,
      privDropPending := false, userBankHazard := false } := by
  refine h.dataAbort_rest.trans ?_
  rw [hc]

/-! ## The five instructions -/

section
variable {i : Instr} {kind : AccessKind} {m : BitVec 5} {c : Cond} {mode : Mode4} {w : Bool} {rn : RegNum}
  {list : BitVec 16} {s : State}

theorem multiple_passes
    (hwrap : wordsWrap (mode4Start mode (s.readReg rn) (listed list).length) (listed list).length = false)
    (ha : aligned .word (mode4Start mode (s.readReg rn) (listed list).length) = true ∨
      s.platform.alignCheck = false)
    (hio : (∀ a ∈ multipleAddresses mode rn list s, s.isIo .word a = false) ∨
      ((∀ a ∈ multipleAddresses mode rn list s, s.isIo .word a = true) ∧ list.getLsbD 15 = false)) :
    (multipleSequence kind mode rn list s).Passes s where
  inside := by
    unfold multipleSequence
    rwa [length_wordAddresses]
  aligned := ha
  unmixed _ := by
    obtain hio | ⟨hio, hpc⟩ := hio
    · exact mixedIo_of_normal hio
    · change mixedIo (multipleAddresses mode rn list s) (list.getLsbD 15) s = false
      rw [hpc]
      exact mixedIo_of_devices hio

/-- The registers that each of the five instructions transfers, and the shape that it shares with the others. -/
theorem exec_eq_multiple
    (hi : (kind = .load ∧ m = modeBits s.cpsr ∧ i = .ldm1 c mode w rn list) ∨
      (kind = .load ∧ m = userBits ∧ s.currentExc ≠ none ∧
        ∃ l : BitVec 15, i = .ldm2 c mode w rn l ∧ list = 0#1 ++ l) ∨
      (kind = .load ∧ m = modeBits s.cpsr ∧ s.currentExc ≠ none ∧
        ∃ l : BitVec 15, i = .ldm3 c mode w rn l ∧ list = 1#1 ++ l) ∨
      (kind = .store ∧ m = modeBits s.cpsr ∧ i = .stm1 c mode w rn list) ∨
      (kind = .store ∧ m = userBits ∧ s.currentExc ≠ none ∧ i = .stm2 c mode w rn list)) (h : Runs i s) :
    (kind = .load ∧ ∃ finish, exec i s = loadMultiple m mode w rn list finish s) ∨
      (kind = .store ∧ ∃ after, exec i s = storeMultiple m mode w rn list after s) := by
  obtain ⟨hk, rfl, rfl⟩ | ⟨hk, rfl, he, l, rfl, rfl⟩ | ⟨hk, rfl, he, l, rfl, rfl⟩ | ⟨hk, rfl, rfl⟩ |
    ⟨hk, rfl, he, rfl⟩ := hi
  · exact .inl ⟨hk, _, exec_ldm1 h⟩
  · obtain ⟨e, he⟩ := Option.ne_none_iff_exists'.mp he
    exact .inl ⟨hk, _, exec_ldm2 h he⟩
  · obtain ⟨e, he⟩ := Option.ne_none_iff_exists'.mp he
    exact .inl ⟨hk, _, exec_ldm3 h he⟩
  · exact .inr ⟨hk, _, exec_stm1 h⟩
  · obtain ⟨e, he⟩ := Option.ne_none_iff_exists'.mp he
    exact .inr ⟨hk, _, exec_stm2 h he⟩

/-- R573 for an LDM or STM: the base register after an abort. -/
theorem getD_multipleBase (v : Word) :
    (if s.platform.abortModel = .baseUpdated then (multipleBase mode w rn list s).getD v else v) =
      if w = true ∧ s.platform.abortModel = .baseUpdated then mode4NewBase mode (s.readReg rn) (listed list).length
      else v := by
  cases w <;> simp [multipleBase]

theorem length_storedWords : (multipleAddresses mode rn list s).length =
    ((listed list).map (storedWord m w rn (listed list) s)).length := by
  rw [length_multipleAddresses, List.length_map]

/-- R437: the words that an STM stores. -/
theorem getElem?_storedWords {regs : List RegNum} {j : Nat} {r : RegNum} (hj : regs[j]? = some r)
    (hkept : ¬(w = true ∧ r = rn ∧ 0 < j)) :
    (regs.map (storedWord m w rn regs s))[j]? = some (if r = 15 then s.storedPc else s.readRegIn m r) := by
  rw [List.getElem?_map, hj, ← storedWord_of_kept hj hkept]
  rfl

/-- R439: what an aborted LDM leaves. -/
theorem loadMultiple_of_aborted {finish : List (RegNum × Word) → State → Result}
    (hp : (multipleSequence .load mode rn list s).Passes s)
    (hab : ∃ a ∈ multipleAddresses mode rn list s, s.memAbort a .word .load (privileged s.cpsr) = true) :
    ∃ u, loadMultiple m mode w rn list finish s = .next (dataAbort (abortBase rn (multipleBase mode w rn list s)
        (drawRegs m (lostRegs m rn (listed list) u) u))) ∧
      u = { s with ioLog := s.ioLog ++
        deliveredLoads (beforeAbort .load (privileged s.cpsr) (multipleAddresses mode rn list s) s) s } :=
  ⟨_, by rw [loadMultiple_eq, hp.checks, loadTransfer_of_aborted hab], rfl⟩

/-- R439: what an aborted STM leaves; the draw for its base (R437) is counted. -/
theorem storeMultiple_of_aborted {after : State → State} (hp : (multipleSequence .store mode rn list s).Passes s)
    (hab : ∃ a ∈ multipleAddresses mode rn list s, s.memAbort a .word .store (privileged s.cpsr) = true) :
    ∃ d u, storeMultiple m mode w rn list after s = .next (dataAbort (abortBase rn (multipleBase mode w rn list s) u)) ∧
      StoresAborted (multipleAddresses mode rn list s) ((listed list).map (storedWord m w rn (listed list) s))
        { s with draws := d } u := by
  refine ⟨(if drawsBase w rn (listed list) then s.draw.2 else s).draws, ?_⟩
  rw [storeMultiple_eq, hp.checks]
  exact storeTransfer_of_aborted length_storedWords hab

end

/-- Settles O48: an LDM has drawn the registers it loses, an STM the words it may have stored, before the base writeback
of the abort model and the entry. -/
theorem multipleAborts : Obligations.MultipleAborts := by
  unfold Obligations.MultipleAborts
  intro i kind bank c mode w rn list s hi h priv n start addrs made hwrap ha hio hab
  have passes : (multipleSequence kind mode rn list s).Passes s := multiple_passes hwrap ha hio
  obtain ⟨rfl, finish, hexec⟩ | ⟨rfl, after, hexec⟩ := exec_eq_multiple hi h
  · obtain ⟨u, hu, rest⟩ := loadMultiple_of_aborted passes hab
    have hregs : u.regs = s.regs := by rw [rest]
    have hcpsr : u.cpsr = s.cpsr := by rw [rest]
    have work : TransferState s (drawRegs bank (lostRegs bank rn (listed list) u) u) := by
      refine drawRegs_transferState ?_ _ _
      unfold TransferState
      rw [rest]
    have entry := work.abortBase rn (multipleBase mode w rn list s)
    refine ⟨_, hexec.trans hu, entry.dataAborted, fun r hr hrn => ?_, fun _ => ⟨?_, ?_, ?_, fun r hr hrn hout => ?_⟩,
      nofun, entry.dataAbort_rest_of_coprocs ?_⟩
    · rw [work.phys_base hr hrn, getD_multipleBase, phys_lostRegs_base (by rwa [hcpsr]), phys_congr hregs]
    · refine (abortBase_mem ..).trans ?_
      rw [drawRegs_state, rest]
    · refine (abortBase_written ..).trans ?_
      rw [drawRegs_state, rest]
    · refine (abortBase_ioLog ..).trans ?_
      rw [drawRegs_state, rest]
      rfl
    · rw [work.phys_other hr hrn, phys_lostRegs_other hout, phys_congr hregs]
    · rw [abortBase_coprocs, drawRegs_state, rest]
  · obtain ⟨d, u, hu, aborted⟩ := storeMultiple_of_aborted passes hab
    have hregs : u.regs = s.regs := by rw [aborted.rest]
    have work : TransferState s u := by
      unfold TransferState
      rw [aborted.rest]
    have entry := work.abortBase rn (multipleBase mode w rn list s)
    have hlength : ((listed list).map (storedWord bank w rn (listed list) s)).length = n := List.length_map ..
    refine ⟨_, hexec.trans hu, entry.dataAborted, fun r hr hrn => ?_, nofun, fun _ => ⟨fun r hr hrn => ?_, ?_, ?_,
      _, hlength, ?_, fun j r hj hkept => getElem?_storedWords hj hkept⟩, entry.dataAbort_rest_of_coprocs ?_⟩
    · rw [work.phys_base hr hrn, getD_multipleBase, phys_congr hregs]
    · rw [work.phys_other hr hrn, phys_congr hregs]
    · change ∀ x, _ → Memory.read (abortBase ..).mem x = _
      rw [abortBase_mem]
      exact aborted.bytes
    · change ∀ x, x ∈ (abortBase ..).written ↔ _
      rw [abortBase_written]
      exact aborted.entered
    · exact (abortBase_ioLog ..).trans aborted.ioLog
    · rw [abortBase_coprocs, aborted.rest]

end Sys2Proof.Machine
end

section
/-! The registers that an LDM writes (R433, R434), and sequences of words to devices: LDM, STM, LDC and STC all of whose
words are I/O (R126 to R130, R439, R496 to R498). -/

namespace Sys2Proof.Machine

/-! ## The register list -/

theorem mem_listed {list : BitVec 16} {n : RegNum} : n ∈ listed list ↔ list.getLsbD n.toNat = true := by
  simp only [listed, List.mem_map, List.mem_filter, List.mem_range]
  constructor
  · rintro ⟨j, ⟨hj, hl⟩, rfl⟩
    rwa [BitVec.toNat_ofNat, Nat.mod_eq_of_lt hj]
  · intro h
    exact ⟨n.toNat, ⟨n.isLt, h⟩, by simp⟩

theorem nodup_listed (list : BitVec 16) : (listed list).Nodup := by
  refine List.Nodup.map_on (fun j hj k hk hjk => ?_) (List.nodup_range.filter _)
  have hj := List.mem_range.mp (List.mem_of_mem_filter hj)
  have hk := List.mem_range.mp (List.mem_of_mem_filter hk)
  have := congrArg BitVec.toNat hjk
  rwa [BitVec.toNat_ofNat, BitVec.toNat_ofNat, Nat.mod_eq_of_lt hj, Nat.mod_eq_of_lt hk] at this

/-- A list without bit 15 does not have the PC. -/
theorem getLsbD_fifteen (l : BitVec 15) : (0#1 ++ l).getLsbD 15 = false := by
  rw [BitVec.getLsbD_append]
  simp

theorem fifteen_not_mem_listed (l : BitVec 15) : (15 : RegNum) ∉ listed (0#1 ++ l) := fun h => by
  have := mem_listed.mp h
  rw [show (15 : RegNum).toNat = 15 from rfl, getLsbD_fifteen] at this
  cases this

/-! ## Registers written one after the other -/

theorem readRegIn_of_regs_eq {m : BitVec 5} {n : RegNum} {v : Word} {t u : State} (hn : n ≠ 15)
    (h : u.readRegIn m n = v) (hregs : t.regs = u.regs) : t.readRegIn m n = v :=
  (readRegIn_congr hregs m hn).trans h

section
variable {m : BitVec 5} {n rn : RegNum} {v : Word} {w : Bool}

theorem phys_writeRegs_other {r : PhysReg} : ∀ {pairs : List (RegNum × Word)} {s : State},
    (∀ p ∈ pairs, physReg m p.1 ≠ some r) → (writeRegs m pairs s).phys r = s.phys r
  | [], _, _ => rfl
  | (n, v) :: rest, s, h => by
    rw [writeRegs, phys_writeRegs_other fun p hp => h p (by simp [hp]), phys_writeRegIn, if_neg (h (n, v) (by simp))]

theorem readRegIn_writeRegs_other (hn : n ≠ 15) {pairs : List (RegNum × Word)} {s : State}
    (h : ∀ p ∈ pairs, p.1 ≠ n) : (writeRegs m pairs s).readRegIn m n = s.readRegIn m n := by
  obtain ⟨r, hr⟩ := physReg_isSome (m := m) hn
  simp only [State.readRegIn, hr]
  exact phys_writeRegs_other fun p hp e => h p hp (physReg_inj e hr)

/-- R433 step 5: a register that is written once holds what was written. -/
theorem readRegIn_writeRegs (hn : n ≠ 15) {pairs : List (RegNum × Word)} {s : State}
    (hnodup : (pairs.map Prod.fst).Nodup) (hmem : (n, v) ∈ pairs) : (writeRegs m pairs s).readRegIn m n = v := by
  induction pairs generalizing s with
  | nil => cases hmem
  | cons p rest ih =>
    rw [List.map_cons, List.nodup_cons] at hnodup
    rw [writeRegs]
    obtain rfl | hrest := List.mem_cons.mp hmem
    · have hnot : ∀ q ∈ rest, q.1 ≠ n := fun q hq e => hnodup.1 (List.mem_map.mpr ⟨q, hq, e⟩)
      rw [readRegIn_writeRegs_other hn hnot]
      exact readRegIn_writeRegIn_same s m n v hn
    · exact ih hnodup.2 hrest

variable {pairs : List (RegNum × Word)} {s : State}

/-- R434 without the PC in the list. -/
theorem commitLoaded_of_no_pc (hpc : ∀ p ∈ pairs, p.1 ≠ 15) :
    commitLoaded w rn pairs s =
      if w && pairs.any (fun p => p.1 == rn) then
        (writeRegs (modeBits s.cpsr) pairs s).draw.2.writeReg rn (writeRegs (modeBits s.cpsr) pairs s).draw.1
      else writeRegs (modeBits s.cpsr) pairs s := by
  have hall : pairs.filter (fun p => p.1 != 15) = pairs :=
    List.filter_eq_self.mpr fun p hp => by simpa using hpc p hp
  rw [commitLoaded, hall]

theorem pcWord_of_no_pc (hpc : ∀ p ∈ pairs, p.1 ≠ 15) : pcWord pairs = none := by
  rw [pcWord, List.find?_eq_none.mpr fun p hp => by simpa using hpc p hp]
  rfl

theorem commitLoaded_state :
    commitLoaded w rn pairs s =
      { s with regs := (commitLoaded w rn pairs s).regs, draws := (commitLoaded w rn pairs s).draws } := by
  unfold commitLoaded
  dsimp only
  split
  · rw [State.writeReg, writeRegIn_state, State.draw, writeRegs_state]
  · rw [writeRegs_state]

/-- R434: a loaded register that is no written-back base holds its word. -/
theorem readReg_commitLoaded (hpc : ∀ p ∈ pairs, p.1 ≠ 15) (hnodup : (pairs.map Prod.fst).Nodup)
    (hmem : (n, v) ∈ pairs) (hkept : ¬(w = true ∧ n = rn)) : (commitLoaded w rn pairs s).readReg n = v := by
  have hn := hpc _ hmem
  have hread := readRegIn_writeRegs (m := modeBits s.cpsr) (s := s) hn hnodup hmem
  have hcpsr : (writeRegs (modeBits s.cpsr) pairs s).cpsr = s.cpsr := by rw [writeRegs_state]
  rw [commitLoaded_of_no_pc hpc]
  split
  · next h =>
    simp only [Bool.and_eq_true] at h
    unfold State.readReg State.writeReg
    rw [writeRegIn_cpsr, readRegIn_writeRegIn_other _ _ _ hn fun e => hkept ⟨h.1, e⟩, draw_cpsr, hcpsr]
    exact (readRegIn_congr rfl _ hn).trans hread
  · unfold State.readReg
    rwa [hcpsr]

/-- R434: a base that is not loaded keeps what was written back. -/
theorem readReg_commitLoaded_base (hpc : ∀ p ∈ pairs, p.1 ≠ 15) (hrn : rn ≠ 15) (hnot : ∀ p ∈ pairs, p.1 ≠ rn) :
    (commitLoaded w rn pairs s).readReg rn = s.readReg rn := by
  have hcpsr : (writeRegs (modeBits s.cpsr) pairs s).cpsr = s.cpsr := by rw [writeRegs_state]
  have hany : pairs.any (fun p => p.1 == rn) = false :=
    List.any_eq_false.mpr fun p hp => by simpa using hnot p hp
  rw [commitLoaded_of_no_pc hpc, hany, Bool.and_false, if_neg (by decide)]
  unfold State.readReg
  rw [hcpsr, readRegIn_writeRegs_other hrn hnot]

/-- R434: no register is written but those of the list and a written-back base. -/
theorem phys_commitLoaded (hpc : ∀ p ∈ pairs, p.1 ≠ 15) {r : PhysReg}
    (hr : ∀ p ∈ pairs, physReg (modeBits s.cpsr) p.1 ≠ some r)
    (hrn : w = true → physReg (modeBits s.cpsr) rn ≠ some r) : (commitLoaded w rn pairs s).phys r = s.phys r := by
  have hother := phys_writeRegs_other (s := s) hr
  have hcpsr : (writeRegs (modeBits s.cpsr) pairs s).cpsr = s.cpsr := by rw [writeRegs_state]
  rw [commitLoaded_of_no_pc hpc]
  split
  · next h =>
    simp only [Bool.and_eq_true] at h
    refine (phys_writeRegIn _ _ rn _ r).trans ?_
    rw [draw_cpsr, hcpsr, if_neg (hrn h.1)]
    exact (phys_congr rfl r).trans hother
  · exact hother

end

/-! ## What devices are told and what they answer -/

section
variable {addrs values : List Word} {s u : State}

theorem deliveredLoads_of_devices (h : ∀ a ∈ addrs, s.isIo .word a = true) :
    deliveredLoads addrs s = addrs.map wordLoadEvent := by
  rw [deliveredLoads, List.filter_eq_self.mpr h]

theorem deliveredStores_of_devices (h : ∀ a ∈ addrs, s.isIo .word a = true) :
    deliveredStores addrs values s = addrs.zipWith wordStoreEvent values := by
  rw [deliveredStores, List.filter_eq_self.mpr fun p hp => h p.1 (List.of_mem_zip hp).1]
  exact List.map_zip_eq_zipWith

theorem wordsAnswered_of_devices (hio : ∀ a ∈ addrs, s.isIo .word a = true) :
    wordsAnswered addrs s = addrs.mapIdx fun j a =>
      ioValue (s.ioLog ++ (addrs.map wordLoadEvent).take j) (alignTo .word a) .word := by
  refine List.mapIdx_eq_mapIdx_iff.mpr fun j hj => ?_
  rw [if_pos (hio _ (List.getElem_mem hj)), deliveredLoads_of_devices fun a ha => hio a (List.mem_of_mem_take ha),
    List.map_take]

theorem StoresDone.of_devices (h : StoresDone addrs values s u) (hio : ∀ a ∈ addrs, s.isIo .word a = true) :
    u = { s with ioLog := s.ioLog ++ addrs.zipWith wordStoreEvent values } := by
  obtain ⟨hmem, hwritten⟩ := storeWords_devices_keep (fun p hp => hio p.1 (List.of_mem_zip hp).1) (.inl h.completed)
  rw [h.rest, hmem, hwritten, h.ioLog, deliveredStores_of_devices hio]

end

/-! ## LDM without the PC -/

section
variable {m : BitVec 5} {c : Cond} {mode : Mode4} {w : Bool} {rn : RegNum} {l : BitVec 15} {s u t : State}

theorem length_wordsAnswered (addrs : List Word) (s : State) : (wordsAnswered addrs s).length = addrs.length :=
  List.length_mapIdx

/-- The registers of an LDM with the words they are loaded with. -/
def loadedPairs (mode : Mode4) (rn : RegNum) (list : BitVec 16) (s : State) : List (RegNum × Word) :=
  (listed list).zip (wordsAnswered (multipleAddresses mode rn list s) s)

theorem fst_loadedPairs {list : BitVec 16} : (loadedPairs mode rn list s).map Prod.fst = listed list :=
  List.map_fst_zip (by rw [length_wordsAnswered, length_multipleAddresses])

theorem listed_of_mem_loadedPairs {list : BitVec 16} {p : RegNum × Word} (h : p ∈ loadedPairs mode rn list s) :
    p.1 ∈ listed list :=
  (List.of_mem_zip h).1

theorem loadedPairs_no_pc {p : RegNum × Word} (h : p ∈ loadedPairs mode rn (0#1 ++ l) s) : p.1 ≠ 15 := fun e =>
  fifteen_not_mem_listed l (e ▸ listed_of_mem_loadedPairs h)

/-- The k-th register is loaded with the k-th answer of the device. -/
theorem mem_loadedPairs_of_devices {list : BitVec 16} {k : Nat} {r : RegNum}
    (hio : ∀ a ∈ multipleAddresses mode rn list s, s.isIo .word a = true) (hk : (listed list)[k]? = some r) :
    (r, ioValue (s.ioLog ++ ((multipleAddresses mode rn list s).map wordLoadEvent).take k)
      (alignTo .word (mode4Start mode (s.readReg rn) (listed list).length + BitVec.ofNat 32 (4 * k))) .word) ∈
      loadedPairs mode rn list s := by
  refine List.mem_of_getElem? (i := k) (List.getElem?_zip_eq_some.mpr ⟨hk, ?_⟩)
  rw [wordsAnswered_of_devices hio, List.getElem?_mapIdx, multipleAddresses,
    getElem?_wordAddresses (List.getElem?_eq_some_iff.mp hk).1]
  rfl

/-- An LDM whose transfer meets no check and no abort (R433). -/
theorem loadMultiple_of_served {list : BitVec 16} {finish : List (RegNum × Word) → State → Result}
    (hp : (multipleSequence .load mode rn list s).Passes s)
    (hab : ∀ a ∈ multipleAddresses mode rn list s, s.memAbort a .word .load (privileged s.cpsr) = false) :
    ∃ u, loadMultiple m mode w rn list finish s =
        finish (loadedPairs mode rn list s) (writeBase rn (multipleBase mode w rn list s) u) ∧
      u = { s with ioLog := s.ioLog ++ deliveredLoads (multipleAddresses mode rn list s) s } :=
  ⟨_, by rw [loadMultiple_eq, hp.checks, loadTransfer_of_served hab]; rfl, rfl⟩

/-- R434: what a completed LDM (1) without the PC leaves. -/
theorem exec_ldm1_of_served (h : Executes (.ldm1 c mode w rn (0#1 ++ l)) s)
    (hp : (multipleSequence .load mode rn (0#1 ++ l) s).Passes s)
    (hab : ∀ a ∈ multipleAddresses mode rn (0#1 ++ l) s, s.memAbort a .word .load (privileged s.cpsr) = false) :
    ∃ u, exec (.ldm1 c mode w rn (0#1 ++ l)) s = .next
        { commitLoaded w rn (loadedPairs mode rn (0#1 ++ l) s)
          (writeBase rn (multipleBase mode w rn (0#1 ++ l) s) u) with pc := s.pc + 4 } ∧
      u = { s with ioLog := s.ioLog ++ deliveredLoads (multipleAddresses mode rn (0#1 ++ l) s) s } := by
  obtain ⟨u, hload, hu⟩ := loadMultiple_of_served (m := modeBits s.cpsr) (w := w) hp hab
  refine ⟨u, ?_, hu⟩
  rw [exec_ldm1 h.toRuns, hload, pcWord_of_no_pc fun p => loadedPairs_no_pc]
  exact advance_of_pc_eq (by rw [commitLoaded_state, writeBase_pc, hu]) h.notLast

theorem ldm1_rn_ne_fifteen {list : BitVec 16} (h : Runs (.ldm1 c mode w rn list) s) : rn ≠ 15 := by
  simpa using firstFault_eq_none h.unpredictable_eq_none (rn == 15#4, .pcBase) (by simp)

/-- R435: LDM (2) has no base writeback. -/
theorem ldm2_no_writeback (h : Runs (.ldm2 c mode w rn l) s) : w = false :=
  firstFault_eq_none h.unpredictable_eq_none (w, .userBankWriteback) (by simp)

/-- R435, R440: what a completed LDM (2) leaves. -/
theorem exec_ldm2_of_served (h : Executes (.ldm2 c mode w rn l) s) (hexc : s.currentExc ≠ none)
    (hp : (multipleSequence .load mode rn (0#1 ++ l) s).Passes s)
    (hab : ∀ a ∈ multipleAddresses mode rn (0#1 ++ l) s, s.memAbort a .word .load (privileged s.cpsr) = false) :
    ∃ u, exec (.ldm2 c mode w rn l) s = .next
        { writeRegs userBits (loadedPairs mode rn (0#1 ++ l) s) u with userBankHazard := true, pc := s.pc + 4 } ∧
      u = { s with ioLog := s.ioLog ++ deliveredLoads (multipleAddresses mode rn (0#1 ++ l) s) s } := by
  obtain ⟨e, he⟩ := Option.ne_none_iff_exists'.mp hexc
  obtain ⟨u, hload, hu⟩ := loadMultiple_of_served (m := userBits) (w := w) hp hab
  refine ⟨u, ?_, hu⟩
  rw [exec_ldm2 h.toRuns he, hload]
  obtain rfl := ldm2_no_writeback h.toRuns
  exact advance_of_pc_eq (by rw [writeRegs_state]; exact (writeBase_pc ..).trans (by rw [hu])) h.notLast

/-- The frame of an LDM (1): the list, and a base that is written back. -/
theorem loadFrame_of_ldm1 (hregs : u.regs = s.regs) (hu : u = { s with ioLog := u.ioLog })
    (ht : t = { commitLoaded w rn (loadedPairs mode rn (0#1 ++ l) s)
      (writeBase rn (multipleBase mode w rn (0#1 ++ l) s) u) with pc := s.pc + 4 }) :
    LoadFrame (modeBits s.cpsr) (if w then rn :: listed (0#1 ++ l) else listed (0#1 ++ l)) s t where
  registers r hr := by
    have hcpsr : u.cpsr = s.cpsr := by rw [hu]
    have hlist : ∀ n ∈ listed (0#1 ++ l), physReg (modeBits s.cpsr) n ≠ some r := fun n hn =>
      hr n (by cases w <;> simp [hn])
    have hrn : w = true → physReg (modeBits s.cpsr) rn ≠ some r := fun hw => hr rn (by simp [hw])
    rw [phys_congr (congrArg State.regs ht)]
    refine (phys_commitLoaded (fun p => loadedPairs_no_pc) (fun p hp => ?_) fun hw => ?_).trans ?_
    · rw [writeBase_cpsr, hcpsr]
      exact hlist _ (listed_of_mem_loadedPairs hp)
    · rw [writeBase_cpsr, hcpsr]
      exact hrn hw
    · rw [phys_writeBase, hcpsr, phys_congr hregs]
      cases w with
      | true => exact if_neg (hrn rfl)
      | false => exact ite_self _
  rest := by
    rw [ht, commitLoaded_state, writeBase_state, hu]

/-- The frame of an LDM (2): the User mode registers of the list. -/
theorem loadFrame_of_ldm2 (hregs : u.regs = s.regs) (hu : u = { s with ioLog := u.ioLog })
    (ht : t = { writeRegs userBits (loadedPairs mode rn (0#1 ++ l) s) u with
      userBankHazard := true, pc := s.pc + 4 }) :
    LoadFrame userBits (listed (0#1 ++ l)) s { t with userBankHazard := s.userBankHazard } where
  registers r hr := by
    refine (phys_congr (congrArg State.regs ht) r).trans ((phys_writeRegs_other fun p hp => ?_).trans
      (phys_congr hregs r))
    exact hr _ (listed_of_mem_loadedPairs hp)
  rest := by
    rw [ht, writeRegs_state, hu]

/-- R434: what a completed LDM (1) without the PC does. -/
theorem ldm1_completes (h : Executes (.ldm1 c mode w rn (0#1 ++ l)) s)
    (hp : (multipleSequence .load mode rn (0#1 ++ l) s).Passes s)
    (hab : ∀ a ∈ multipleAddresses mode rn (0#1 ++ l) s, s.memAbort a .word .load (privileged s.cpsr) = false) :
    Completes (.ldm1 c mode w rn (0#1 ++ l)) s fun t =>
      t.ioLog = s.ioLog ++ deliveredLoads (multipleAddresses mode rn (0#1 ++ l) s) s ∧
      (∀ n v, (n, v) ∈ loadedPairs mode rn (0#1 ++ l) s → ¬(w = true ∧ n = rn) → t.readReg n = v) ∧
      (w = true → rn ∉ listed (0#1 ++ l) →
        t.readReg rn = mode4NewBase mode (s.readReg rn) (listed (0#1 ++ l)).length) ∧
      t.pc = s.pc + 4 ∧
      LoadFrame (modeBits s.cpsr) (if w then rn :: listed (0#1 ++ l) else listed (0#1 ++ l)) s t := by
  obtain ⟨u, hexec, hu⟩ := exec_ldm1_of_served h hp hab
  have hrn := ldm1_rn_ne_fifteen h.toRuns
  have hpc : ∀ p ∈ loadedPairs mode rn (0#1 ++ l) s, p.1 ≠ 15 := fun p => loadedPairs_no_pc
  have hnodup : ((loadedPairs mode rn (0#1 ++ l) s).map Prod.fst).Nodup := by
    rw [fst_loadedPairs]
    exact nodup_listed _
  refine ⟨_, hexec, ?_, fun n v hmem hkept => ?_, ?_, rfl, loadFrame_of_ldm1 (by rw [hu]) (by rw [hu]) rfl⟩
  · rw [commitLoaded_state, writeBase_ioLog, hu]
  · have hread := readReg_commitLoaded (s := writeBase rn (multipleBase mode w rn (0#1 ++ l) s) u)
      hpc hnodup hmem hkept
    exact readRegIn_of_regs_eq (hpc _ hmem) hread rfl
  · rintro rfl hnot
    have hbase := readReg_of_base (u := u) (nb := multipleBase mode true rn (0#1 ++ l) s) (fun _ => hrn) rfl
      (by rw [writeBase_cpsr]) _ rfl
    have hkept := readReg_commitLoaded_base (w := true) (s := writeBase rn (multipleBase mode true rn (0#1 ++ l) s) u)
      hpc hrn fun p hp e => hnot (e ▸ listed_of_mem_loadedPairs hp)
    exact readRegIn_of_regs_eq hrn (hkept.trans hbase) rfl

/-- R435, R440: what a completed LDM (2) does. -/
theorem ldm2_completes (h : Executes (.ldm2 c mode w rn l) s) (hexc : s.currentExc ≠ none)
    (hp : (multipleSequence .load mode rn (0#1 ++ l) s).Passes s)
    (hab : ∀ a ∈ multipleAddresses mode rn (0#1 ++ l) s, s.memAbort a .word .load (privileged s.cpsr) = false) :
    Completes (.ldm2 c mode w rn l) s fun t =>
      t.ioLog = s.ioLog ++ deliveredLoads (multipleAddresses mode rn (0#1 ++ l) s) s ∧
      (∀ n v, (n, v) ∈ loadedPairs mode rn (0#1 ++ l) s → t.readUserReg n = v) ∧
      t.pc = s.pc + 4 ∧ t.userBankHazard = true ∧
      LoadFrame userBits (listed (0#1 ++ l)) s { t with userBankHazard := s.userBankHazard } := by
  obtain ⟨u, hexec, hu⟩ := exec_ldm2_of_served h hexc hp hab
  have hnodup : ((loadedPairs mode rn (0#1 ++ l) s).map Prod.fst).Nodup := by
    rw [fst_loadedPairs]
    exact nodup_listed _
  refine ⟨_, hexec, ?_, fun n v hmem => ?_, rfl, rfl, loadFrame_of_ldm2 (by rw [hu]) (by rw [hu]) rfl⟩
  · rw [writeRegs_state, hu]
  · have hread := readRegIn_writeRegs (m := userBits) (s := u) (loadedPairs_no_pc hmem) hnodup hmem
    exact readRegIn_of_regs_eq (loadedPairs_no_pc hmem) hread rfl

end

/-! ## STM to devices -/

section
variable {m : BitVec 5} {c : Cond} {mode : Mode4} {w : Bool} {rn : RegNum} {list : BitVec 16} {l : BitVec 15}
  {s u t : State}

/-- An STM to devices whose transfer meets no check and no abort (R433): its words are delivered, nothing is stored. -/
theorem storeMultiple_to_devices {after : State → State} (hp : (multipleSequence .store mode rn list s).Passes s)
    (hio : ∀ a ∈ multipleAddresses mode rn list s, s.isIo .word a = true)
    (hab : ∀ a ∈ multipleAddresses mode rn list s, s.memAbort a .word .store (privileged s.cpsr) = false) :
    ∃ d u, storeMultiple m mode w rn list after s =
        advance (after (writeBase rn (multipleBase mode w rn list s) u)) ∧
      u = { s with
        draws := d
        ioLog := s.ioLog ++ (multipleAddresses mode rn list s).zipWith wordStoreEvent
          ((listed list).map (storedWord m w rn (listed list) s)) } := by
  obtain ⟨u, hstore, done⟩ := storeTransfer_of_served (rn := rn) (nb := multipleBase mode w rn list s)
    (finish := fun t => advance (after (writeBase rn (multipleBase mode w rn list s) t)))
    (s := { s with draws := (if drawsBase w rn (listed list) then s.draw.2 else s).draws })
    (length_storedWords (m := m) (w := w)) hab
  exact ⟨_, u, by rw [storeMultiple_eq, hp.checks, hstore], done.of_devices hio⟩

/-- R437: the words that an STM without the PC delivers are those of the registers. -/
theorem getElem?_storedWords_of_no_pc {j : Nat} {r : RegNum} (hj : (listed (0#1 ++ l))[j]? = some r)
    (hkept : ¬(w = true ∧ r = rn ∧ 0 < j)) :
    ((listed (0#1 ++ l)).map (storedWord m w rn (listed (0#1 ++ l)) s))[j]? = some (s.readRegIn m r) := by
  have hr : r ≠ 15 := fun e => fifteen_not_mem_listed l (e ▸ List.mem_of_getElem? hj)
  rw [getElem?_storedWords hj hkept, if_neg hr]

/-- The frame of a store that leaves memory and `W` as they were. -/
theorem storeFrame_of_devices {dest : List RegNum} (hkept : RegsKept (modeBits s.cpsr) dest s t)
    (ht : t = { s with regs := t.regs, pc := t.pc, ioLog := t.ioLog, draws := t.draws }) :
    StoreFrame dest 0 0 s t := by
  have hmem : t.mem = s.mem := by rw [ht]
  have hwritten : t.written = s.written := by rw [ht]
  refine ⟨hkept, fun x _ => by rw [hmem], fun x => by rw [hwritten]; exact ⟨id, .inl⟩, ?_⟩
  rw [hmem, hwritten]
  exact ht

/-- What an STM without the PC tells devices: a word for each register, the register's own but for a written-back base
that is not the lowest (R437); memory is as it was. -/
def DeliversList (m : BitVec 5) (mode : Mode4) (w : Bool) (rn : RegNum) (list : BitVec 16) (s t : State) : Prop :=
  ∃ values : List Word, values.length = (listed list).length ∧
    (∀ k r, (listed list)[k]? = some r → ¬(w = true ∧ r = rn ∧ 0 < k) → values[k]? = some (s.readRegIn m r)) ∧
    t.ioLog = s.ioLog ++ (multipleAddresses mode rn list s).zipWith wordStoreEvent values ∧ t.mem = s.mem

theorem deliversList_of_storedWords (hmem : t.mem = s.mem)
    (hlog : t.ioLog = s.ioLog ++ (multipleAddresses mode rn (0#1 ++ l) s).zipWith wordStoreEvent
      ((listed (0#1 ++ l)).map (storedWord m w rn (listed (0#1 ++ l)) s))) :
    DeliversList m mode w rn (0#1 ++ l) s t :=
  ⟨_, List.length_map .., fun _ _ => getElem?_storedWords_of_no_pc, hlog, hmem⟩

/-- R437: what an STM (1) to devices does. -/
theorem stm1_to_devices (h : Executes (.stm1 c mode w rn (0#1 ++ l)) s)
    (hp : (multipleSequence .store mode rn (0#1 ++ l) s).Passes s)
    (hio : ∀ a ∈ multipleAddresses mode rn (0#1 ++ l) s, s.isIo .word a = true)
    (hab : ∀ a ∈ multipleAddresses mode rn (0#1 ++ l) s, s.memAbort a .word .store (privileged s.cpsr) = false) :
    Completes (.stm1 c mode w rn (0#1 ++ l)) s fun t =>
      DeliversList (modeBits s.cpsr) mode w rn (0#1 ++ l) s t ∧
      (w = true → t.readReg rn = mode4NewBase mode (s.readReg rn) (listed (0#1 ++ l)).length) ∧
      t.pc = s.pc + 4 ∧ StoreFrame (if w then [rn] else []) 0 0 s t := by
  obtain ⟨d, u, hstore, hu⟩ := storeMultiple_to_devices (m := modeBits s.cpsr) (w := w) (after := id) hp hio hab
  have hexec := (exec_stm1 h.toRuns).trans hstore
  refine ⟨_, hexec.trans (advance_of_pc_eq (by rw [id, writeBase_pc, hu]) h.notLast), ?_, ?_, rfl, ?_⟩
  · exact deliversList_of_storedWords ((writeBase_mem ..).trans (by rw [hu])) ((writeBase_ioLog ..).trans (by rw [hu]))
  · rintro rfl
    have hrn := stm1_rn_ne_fifteen h.toRuns
    have hbase := readReg_of_base (u := u) (nb := multipleBase mode true rn (0#1 ++ l) s) (fun _ => hrn) rfl
      (by rw [writeBase_cpsr]) _ rfl
    exact readRegIn_of_regs_eq hrn hbase rfl
  · refine storeFrame_of_devices (regsKept_writeBase (by rw [hu]) (by rw [hu]) w rn _) ?_
    rw [id, writeBase_state, hu]

/-- R438, R440: what an STM (2) to devices does. -/
theorem stm2_to_devices (h : Executes (.stm2 c mode w rn (0#1 ++ l)) s) (hexc : s.currentExc ≠ none)
    (hp : (multipleSequence .store mode rn (0#1 ++ l) s).Passes s)
    (hio : ∀ a ∈ multipleAddresses mode rn (0#1 ++ l) s, s.isIo .word a = true)
    (hab : ∀ a ∈ multipleAddresses mode rn (0#1 ++ l) s, s.memAbort a .word .store (privileged s.cpsr) = false) :
    Completes (.stm2 c mode w rn (0#1 ++ l)) s fun t =>
      DeliversList userBits mode w rn (0#1 ++ l) s t ∧ t.pc = s.pc + 4 ∧ t.userBankHazard = true ∧
      StoreFrame [] 0 0 s { t with userBankHazard := s.userBankHazard } := by
  obtain ⟨e, he⟩ := Option.ne_none_iff_exists'.mp hexc
  obtain ⟨d, u, hstore, hu⟩ := storeMultiple_to_devices (m := userBits) (w := w)
    (after := fun t => { t with userBankHazard := true }) hp hio hab
  have hexec := (exec_stm2 h.toRuns he).trans hstore
  obtain rfl := stm2_no_writeback h.toRuns
  have hregs : u.regs = s.regs := by rw [hu]
  refine ⟨_, hexec.trans (advance_of_pc_eq ((writeBase_pc ..).trans (by rw [hu])) h.notLast), ?_, rfl, rfl, ?_⟩
  · exact deliversList_of_storedWords ((writeBase_mem ..).trans (by rw [hu])) ((writeBase_ioLog ..).trans (by rw [hu]))
  · refine storeFrame_of_devices (fun r _ => phys_congr hregs r) ?_
    rw [hu]
    rfl

end

/-! ## LDC and STC to devices -/

section
variable {start : Word} {n : Nat} {s : State}

/-- The words of a transfer from a masked address are aligned. -/
theorem alignTo_of_mem_masked {a : Word} (h : a ∈ wordAddresses (alignTo .word start) n) : alignTo .word a = a := by
  obtain ⟨k, hk, rfl⟩ := mem_wordAddresses.mp h
  refine BitVec.eq_of_toNat_eq ?_
  rw [toNat_alignTo_word, fourTimes, BitVec.toNat_add, toNat_alignTo_word, BitVec.toNat_ofNat]
  omega

/-- R496: the words that devices answer to an LDC, by their masked addresses. -/
theorem wordsAnswered_of_masked (hio : ∀ a ∈ wordAddresses (alignTo .word start) n, s.isIo .word a = true) :
    wordsAnswered (wordAddresses (alignTo .word start) n) s =
      (wordAddresses (alignTo .word start) n).mapIdx fun j a =>
        ioValue (s.ioLog ++ ((wordAddresses (alignTo .word start) n).map wordLoadEvent).take j) a .word := by
  rw [wordsAnswered_of_devices hio]
  refine List.mapIdx_eq_mapIdx_iff.mpr fun j hj => ?_
  rw [alignTo_of_mem_masked (List.getElem_mem hj)]

end

/-! ## A sequence to devices that a word aborts -/

/-- R439, R498: the accesses below the first abort. -/
theorem beforeAbort_eq_take {kind : AccessKind} {priv : Bool} {s : State} {a : Word} : ∀ {addrs : List Word} {k : Nat},
    addrs[k]? = some a → s.memAbort a .word kind priv = true →
      (∀ b ∈ addrs.take k, s.memAbort b .word kind priv = false) → beforeAbort kind priv addrs s = addrs.take k
  | [], _, h, _, _ => by simp at h
  | b :: rest, 0, h, hab, _ => by
    obtain rfl : b = a := by simpa using h
    simp [beforeAbort, hab]
  | b :: rest, k + 1, h, hab, hbelow => by
    rw [List.take_succ_cons] at hbelow ⊢
    rw [beforeAbort, List.takeWhile_cons, hbelow b (by simp), Bool.not_false, if_pos rfl]
    exact congrArg (b :: ·) (beforeAbort_eq_take (by simpa using h) hab fun d hd => hbelow d (by simp [hd]))

theorem map_address_zipWith : ∀ {addrs values : List Word}, addrs.length ≤ values.length →
    (addrs.zipWith wordStoreEvent values).map IoEvent.address = addrs.map (alignTo .word)
  | [], _, _ => rfl
  | a :: rest, [], h => by simp at h
  | a :: rest, v :: values, h => by
    rw [List.zipWith_cons_cons, List.map_cons, List.map_cons, map_address_zipWith (by simpa using h)]
    rfl

section
variable {q : Sequence} {s u : State} {k : Nat}

/-- A sequence loads or stores, it does not fetch. -/
theorem kind_of_sequenceOf {i : Instr} (h : sequenceOf i s = some q) : q.kind = .load ∨ q.kind = .store := by
  cases i
  case ldm1 => cases h; exact .inl rfl
  case ldm2 | ldm3 => obtain ⟨e, -, rfl⟩ := Option.map_eq_some_iff.mp h; exact .inl rfl
  case stm1 => cases h; exact .inr rfl
  case stm2 => obtain ⟨e, -, rfl⟩ := Option.map_eq_some_iff.mp h; exact .inr rfl
  case ldc | ldc2 => obtain ⟨k, r, -, rfl⟩ := coprocSequence_eq_some h; exact .inl rfl
  case stc | stc2 => obtain ⟨k, r, -, rfl⟩ := coprocSequence_eq_some h; exact .inr rfl
  all_goals cases h

/-- What devices have received before the abort: each word below it once, in ascending order. -/
theorem AbortedSequence.delivered (h : AbortedSequence q s u) (hio : ∀ a ∈ q.addresses, s.isIo .word a = true)
    (hmade : beforeAbort q.kind (privileged s.cpsr) q.addresses s = q.addresses.take k)
    (hkind : q.kind = .load ∨ q.kind = .store) :
    u.mem = s.mem ∧ u.written = s.written ∧ ∃ delivered : List IoEvent, u.ioLog = s.ioLog ++ delivered ∧
      delivered.map IoEvent.address = (q.addresses.take k).map (alignTo .word) ∧
      ∀ e ∈ delivered, e.size = .word ∧ (e.stored.isNone = true ↔ q.kind = .load) := by
  have hiok : ∀ a ∈ q.addresses.take k, s.isIo .word a = true := fun a ha => hio a (List.mem_of_mem_take ha)
  obtain hload | hstore := hkind
  · obtain ⟨hmem, hwritten, hlog⟩ := h.loads hload
    rw [← hload, hmade, deliveredLoads_of_devices hiok] at hlog
    refine ⟨hmem, hwritten, _, hlog, by rw [List.map_map]; rfl, fun e he => ?_⟩
    obtain ⟨a, -, rfl⟩ := List.mem_map.mp he
    exact ⟨rfl, by simp [hload, wordLoadEvent]⟩
  · obtain ⟨values, hl, hlog, hkeep⟩ := h.stores hstore
    obtain ⟨hmem, hwritten⟩ := hkeep hio
    rw [← hstore, hmade, deliveredStores_of_devices hiok] at hlog
    refine ⟨hmem, hwritten, _, hlog, map_address_zipWith (by simp [hl]), fun e he => ?_⟩
    rw [← List.map_uncurry_zip_eq_zipWith] at he
    obtain ⟨p, -, rfl⟩ := List.mem_map.mp he
    exact ⟨rfl, by simp [hstore, Function.uncurry, wordStoreEvent]⟩

end

/-- Settles O59: LDM and STM by their registers, LDC and STC by their coprocessor, and every aborted sequence by what it
has delivered. -/
theorem deviceSequences : Obligations.DeviceSequences := by
  unfold Obligations.DeviceSequences
  refine ⟨?_, ?_, ?_⟩
  · intro c mode w rn l s regs n start events word stored hio
    refine ⟨fun ht => ?_, fun ht => ?_⟩
    · have hp : (multipleSequence .load mode rn (0#1 ++ l) s).Passes s :=
        multiple_passes ht.inside ht.aligned (.inr ⟨hio, getLsbD_fifteen l⟩)
      have hevents : deliveredLoads (multipleAddresses mode rn (0#1 ++ l) s) s = events :=
        deliveredLoads_of_devices hio
      have hword : ∀ {k r}, regs[k]? = some r → (r, word k) ∈ loadedPairs mode rn (0#1 ++ l) s := fun hk =>
        mem_loadedPairs_of_devices hio hk
      refine ⟨fun h => ?_, fun h hexc => ?_⟩
      · obtain ⟨t, hexec, hlog, hread, hrest⟩ := ldm1_completes h hp ht.served
        exact ⟨t, hexec, hevents ▸ hlog, fun k r hk => hread r _ (hword hk), hrest⟩
      · obtain ⟨t, hexec, hlog, hread, hrest⟩ := ldm2_completes h hexc hp ht.served
        exact ⟨t, hexec, hevents ▸ hlog, fun k r hk => hread r _ (hword hk), hrest⟩
    · have hp : (multipleSequence .store mode rn (0#1 ++ l) s).Passes s :=
        multiple_passes ht.inside ht.aligned (.inr ⟨hio, getLsbD_fifteen l⟩)
      exact ⟨fun h => stm1_to_devices h hp hio ht.served, fun h hexc => stm2_to_devices h hexc hp hio ht.served⟩
  · intro c mode n rn crd cp s i k r kind hi h hk hr hs hpos hle ad addrs loads answers words hwrap ha hserved
    have hio : ∀ a ∈ addrs, s.isIo .word a = true := fun a h => (hserved a h).2
    have hab := fun a h => (hserved a h).1
    have accepted : Accepted i cp s k r := ⟨hk, hr, hs, hpos, hle⟩
    obtain ⟨rfl, hi⟩ | ⟨rfl, hi⟩ := hi
    · obtain ⟨u, hexec, hu⟩ := exec_ldc_of_served hi h accepted hwrap ha hab
      rw [deliveredLoads_of_devices hio, wordsAnswered_of_masked hio] at hu
      refine ⟨_, hexec, fun _ => ⟨?_, ?_⟩, nofun,
        readReg_of_base (coproc_base_ne_fifteen (.inl hi) h.toRuns) rfl (by simp), rfl, ?_,
        regsKept_writeBase_option (by rw [hu]) (by rw [hu]) _ _, ?_⟩
      · rw [writeBase_ioLog, hu]
      · rw [writeBase_coprocs, hu]
      · rw [writeBase_draws, hu]
      · rw [writeBase_state, hu]
    · obtain ⟨u, hexec, done⟩ := exec_stc_of_served hi h accepted hwrap ha hab
      have hu := done.of_devices hio
      refine ⟨_, hexec, nofun, fun _ => ⟨?_, ?_⟩,
        readReg_of_base (coproc_base_ne_fifteen (.inr hi) h.toRuns) rfl (by simp), rfl, ?_,
        regsKept_writeBase_option (u := u.setCoproc _ _) (by rw [hu]; rfl) (by rw [hu]; rfl) _ _, ?_⟩
      · rw [writeBase_ioLog, setCoproc_ioLog, hu]
      · rw [writeBase_coprocs, setCoproc_coprocs, hu]
      · rw [writeBase_draws, setCoproc_draws, hu]
      · rw [writeBase_state, hu]
        rfl
  · intro i s q k h hi hpc hwrap ha hio ⟨a, hk, hab⟩ hbelow
    obtain ⟨body, hexec, haborted⟩ := runsSequence_of_sequenceOf h hi
    obtain ⟨rn, nb, u, hbody, aborted⟩ := haborted ⟨a, List.mem_of_getElem? hk, hab⟩
    have hp : q.Passes s := ⟨hwrap, ha, fun _ => by rw [hpc]; exact mixedIo_of_devices hio⟩
    rw [hp.checks, hbody] at hexec
    refine ⟨_, hexec, (aborted.state.abortBase rn nb).dataAborted, ?_⟩
    change (abortBase rn nb u).mem = _ ∧ (abortBase rn nb u).written = _ ∧
      ∃ delivered, (abortBase rn nb u).ioLog = _ ∧ _
    rw [abortBase_mem, abortBase_written, abortBase_ioLog]
    exact aborted.delivered hio (beforeAbort_eq_take hk hab hbelow) (kind_of_sequenceOf hi)

end Sys2Proof.Machine
end

section
/-! The fields of an instruction word (R9, R160): a field cut in two, and a part of a field whose value is known. -/

namespace Sys2Proof

/-! ## Fields of a word -/

section
variable {w : Word} {lo k n m : Nat}

theorem bits_append (w : Word) (lo n m : Nat) : bits w (lo + m) n ++ bits w lo m = bits w lo (n + m) :=
  BitVec.extractLsb'_append_extractLsb'_eq_extractLsb' rfl

/-- A field is the concatenation of two values exactly when they are its two parts. -/
theorem append_eq_bits {a : BitVec n} {b : BitVec m} :
    a ++ b = bits w lo (n + m) ↔ a = bits w (lo + m) n ∧ b = bits w lo m := by
  constructor
  · intro h
    rw [← bits_append] at h
    exact ⟨by simpa only [BitVec.extractLsb'_append_eq_left] using congrArg (BitVec.extractLsb' m n) h,
      by simpa only [BitVec.extractLsb'_append_eq_right] using congrArg (BitVec.extractLsb' 0 m) h⟩
  · rintro ⟨rfl, rfl⟩
    exact bits_append w lo n m

theorem bits_eq_append (a : BitVec n) (b : BitVec m) :
    bits w lo (n + m) = a ++ b ↔ bits w (lo + m) n = a ∧ bits w lo m = b := by
  rw [eq_comm, append_eq_bits, eq_comm, eq_comm (a := b)]

/-- A word is its field of 32 bits. -/
theorem eq_word_iff {x : Word} : x = w ↔ x = bits w 0 32 := by
  rw [bits, BitVec.extractLsb'_eq_self]

theorem eq_bits_comm {v : BitVec n} : v = bits w lo n ↔ bits w lo n = v := eq_comm

/-- A part of a field whose value is known. -/
theorem bits_of_bits {v : BitVec n} (h : bits w lo n = v) (k m : Nat) (hle : k + m ≤ n) :
    bits w (lo + k) m = v.extractLsb' k m := by
  subst h
  refine BitVec.eq_of_getLsbD_eq fun i hi => ?_
  simp only [bits, BitVec.getLsbD_extractLsb', hi, show k + i < n by omega, decide_true, Bool.true_and, Nat.add_assoc]

theorem bits_one (w : Word) (k : Nat) : bits w k 1 = BitVec.ofBool (bit w k) := by
  refine BitVec.eq_of_getLsbD_eq fun i hi => ?_
  obtain rfl : i = 0 := by omega
  simp [bits, bit]

theorem bit_of_bits_one {v : BitVec 1} (h : bits w k 1 = v) : bit w k = v.getLsbD 0 := by
  rw [← h, bits_one]
  simp

theorem bits_one_eq_ofBool {b : Bool} : bits w k 1 = BitVec.ofBool b ↔ bit w k = b := by
  rw [bits_one, BitVec.ofBool_eq_iff_eq]

theorem bits_one_eq_zero : bits w k 1 = 0#1 ↔ bit w k = false := bits_one_eq_ofBool (b := false)

theorem bits_one_eq_one : bits w k 1 = 1#1 ↔ bit w k = true := bits_one_eq_ofBool (b := true)

theorem bits_one_ne_zero : bits w k 1 ≠ 0 ↔ bits w k 1 = 1 := by
  rw [bits_one]; cases bit w k <;> decide

theorem bits_one_ne_one : bits w k 1 ≠ 1 ↔ bits w k 1 = 0 := by
  rw [bits_one]; cases bit w k <;> decide

/-! ### The values of a short field -/

theorem two_bit_eq_three {x : BitVec 2} (h0 : x ≠ 0) (h1 : x ≠ 1) (h2 : x ≠ 2) : x = 3 := by
  revert x; decide

theorem three_bit_cases (x : BitVec 3) : x = 0 ∨ x = 1 ∨ x = 2 ∨ x = 3 ∨ x = 4 ∨ x = 5 ∨ x = 6 ∨ x = 7 := by
  revert x; decide

theorem four_bit_cases (x : BitVec 4) :
    x = 0 ∨ x = 1 ∨ x = 2 ∨ x = 3 ∨ x = 4 ∨ x = 5 ∨ x = 6 ∨ x = 7 ∨ x = 8 ∨ x = 9 ∨ x = 10 ∨ x = 11 ∨ x = 12 ∨
      x = 13 ∨ x = 14 ∨ x = 15 := by
  revert x; decide

end

end Sys2Proof
end

section
/-! The operands of the encoding (R251 to R262, R363, R376, R431, R491): what the decoder reads of an encoded operand, and
what the encoder writes of a decoded one. -/

namespace Sys2Proof

/-! ## The parts of an encoding and their codes -/

theorem Cond.ofBits_toBits (c : Cond) : Cond.ofBits c.toBits = c := by cases c <;> decide

theorem Cond.toBits_ofBits {c : BitVec 4} (h : c ≠ 15) : (Cond.ofBits c).toBits = c := by
  revert c; decide

theorem Cond.toBits_ne_fifteen (c : Cond) : c.toBits ≠ 15 := by cases c <;> decide

theorem Shift.ofBits_toBits (sh : Shift) : Shift.ofBits sh.toBits = sh := by cases sh <;> decide

theorem Shift.toBits_ofBits (sh : BitVec 2) : (Shift.ofBits sh).toBits = sh := by
  revert sh; decide

section
variable {w : Word}

/-! ### Addressing mode 4 -/

theorem Mode4.toBits_ofBits (w : Word) : (Mode4.ofBits (bit w 24) (bit w 23)).toBits = bits w 23 2 := by
  have hpu : ∀ p u, (Mode4.ofBits p u).toBits = BitVec.ofBool p ++ BitVec.ofBool u := by decide
  rw [hpu, ← bits_one, ← bits_one]
  exact bits_append w 23 1 1

theorem Mode4.ofBits_of_field {m : Mode4} (h : bits w 23 2 = m.toBits) : Mode4.ofBits (bit w 24) (bit w 23) = m := by
  have hinj : ∀ m m' : Mode4, m.toBits = m'.toBits → m = m' := by
    intro m m'; cases m <;> cases m' <;> decide
  exact hinj _ _ ((Mode4.toBits_ofBits w).trans h)

/-! ### Addressing mode 5 -/

theorem Mode5.low_ofWord (w : Word) : (Mode5.ofWord w).low = bits w 0 8 := by
  unfold Mode5.ofWord
  split_ifs <;> rfl

theorem Mode5.wBit_ofWord (w : Word) : (Mode5.ofWord w).wBit = bits w 21 1 := by
  rw [bits_one]
  unfold Mode5.ofWord
  split_ifs <;> simp_all [Mode5.wBit]

theorem Mode5.puBits_ofWord (h : ¬(bits w 23 2 = 0 ∧ bits w 21 1 = 0)) : (Mode5.ofWord w).puBits = bits w 23 2 := by
  have hpu : BitVec.ofBool (bit w 24) ++ BitVec.ofBool (bit w 23) = bits w 23 2 := by
    rw [← bits_one, ← bits_one]
    exact bits_append w 23 1 1
  rw [← hpu] at h ⊢
  unfold Mode5.ofWord
  rw [bits_one] at h
  generalize bit w 23 = u, bit w 24 = p, bit w 21 = i at h
  revert h
  cases p <;> cases i <;> cases u <;> simp [Mode5.puBits]

theorem Mode5.ofWord_of_fields {m : Mode5} (hpu : bits w 23 2 = m.puBits) (hw : bits w 21 1 = m.wBit)
    (hlow : bits w 0 8 = m.low) : Mode5.ofWord w = m := by
  cases m <;> rw [eq_comm, Mode5.puBits] at hpu
  case offset up words | pre up words | post up words =>
    rw [append_eq_bits] at hpu
    simp_all [Mode5.ofWord, Mode5.wBit, Mode5.low, eq_bits_comm, bits_one_eq_ofBool, bits_one_eq_one, bits_one_eq_zero]
  case unindexed option =>
    rw [show (0b01 : BitVec 2) = 0#1 ++ 1#1 from rfl, append_eq_bits] at hpu
    simp_all [Mode5.ofWord, Mode5.wBit, Mode5.low, eq_bits_comm, bits_one_eq_one, bits_one_eq_zero]

theorem Mode5.fields_allocated {m : Mode5} (hpu : bits w 23 2 = m.puBits) (hw : bits w 21 1 = m.wBit) :
    ¬(bits w 23 2 = 0 ∧ bits w 21 1 = 0) := by
  rw [hpu, hw]
  cases m with
  | offset up | pre up | post up => cases up <;> simp [Mode5.puBits, Mode5.wBit]
  | unindexed => simp [Mode5.puBits, Mode5.wBit]

/-! ### The shifter operand -/

theorem Operand2.iBit_ofWord (w : Word) : (Operand2.ofWord w).iBit = bits w 25 1 := by
  rw [bits_one]
  unfold Operand2.ofWord
  split_ifs <;> simp_all [Operand2.iBit]

theorem Operand2.low_ofWord (h : bit w 25 = true ∨ bit w 4 = false ∨ bit w 7 = false) :
    (Operand2.ofWord w).low = bits w 0 12 := by
  unfold Operand2.ofWord
  split_ifs with h25 h4 <;> simp only [Operand2.low]
  · exact append_eq_bits.mpr ⟨rfl, rfl⟩
  · iterate 4 rw [append_eq_bits]
    simp_all [bits_one, Shift.toBits_ofBits]
  · iterate 3 rw [append_eq_bits]
    simp_all [bits_one, Shift.toBits_ofBits]

theorem Operand2.ofWord_of_fields {op : Operand2} (hi : bits w 25 1 = op.iBit) (hlow : bits w 0 12 = op.low) :
    Operand2.ofWord w = op := by
  cases op <;> rw [eq_comm, Operand2.low] at hlow
  case imm rotate immed =>
    rw [append_eq_bits] at hlow
    simp_all [Operand2.ofWord, Operand2.iBit, bits_one_eq_one]
  case shiftImm amount sh rm =>
    iterate 3 rw [append_eq_bits] at hlow
    obtain ⟨⟨⟨rfl, hsh⟩, h4⟩, rfl⟩ := hlow
    simp_all [Operand2.ofWord, Operand2.iBit, bits_one_eq_zero, ← hsh, Shift.ofBits_toBits, eq_bits_comm]
  case shiftReg rs sh rm =>
    iterate 4 rw [append_eq_bits] at hlow
    obtain ⟨⟨⟨⟨rfl, -⟩, hsh⟩, h4⟩, rfl⟩ := hlow
    simp_all [Operand2.ofWord, Operand2.iBit, bits_one_eq_one, bits_one_eq_zero, ← hsh, Shift.ofBits_toBits,
      eq_bits_comm]

theorem Operand2.bit_of_fields {op : Operand2} (hi : bits w 25 1 = op.iBit) (hlow : bits w 0 12 = op.low) :
    bit w 25 = true ∨ bit w 4 = false ∨ bit w 7 = false := by
  cases op <;> rw [eq_comm, Operand2.low] at hlow
  case imm rotate immed => exact .inl (bits_one_eq_one.mp hi)
  case shiftImm amount sh rm =>
    iterate 3 rw [append_eq_bits] at hlow
    obtain ⟨⟨-, h4⟩, -⟩ := hlow
    exact .inr (.inl (bits_one_eq_zero.mp h4.symm))
  case shiftReg rs sh rm =>
    iterate 4 rw [append_eq_bits] at hlow
    obtain ⟨⟨⟨⟨-, h7⟩, -⟩, -⟩, -⟩ := hlow
    exact .inr (.inr (bits_one_eq_zero.mp h7.symm))

/-! ### Addressing mode 2 -/

theorem Index.pBit_ofBits (p w : Bool) : (Index.ofBits p w).pBit = BitVec.ofBool p := by cases p <;> cases w <;> rfl

theorem Index.wBit_ofBits {p w : Bool} (h : ¬(p = false ∧ w = true)) : (Index.ofBits p w).wBit = BitVec.ofBool w := by
  cases p <;> cases w <;> simp_all [Index.ofBits, Index.wBit]

theorem Index.ofBits_of_fields {idx : Index} (hp : bits w 24 1 = idx.pBit) (hw : bits w 21 1 = idx.wBit) :
    Index.ofBits (bit w 24) (bit w 21) = idx := by
  have h24 := bit_of_bits_one hp
  have h21 := bit_of_bits_one hw
  cases idx <;> simp [Index.ofBits, h24, h21, Index.pBit, Index.wBit]

/-- P = 0 with W = 1 are the T forms (R363). -/
theorem Index.fields_not_user {idx : Index} (hp : bits w 24 1 = idx.pBit) (hw : bits w 21 1 = idx.wBit) :
    ¬(bits w 24 1 = 0 ∧ bits w 21 1 = 1) := by
  rw [hp, hw]
  cases idx <;> decide

theorem Offset2.iBit_ofWord (w : Word) : (Offset2.ofWord w).iBit = bits w 25 1 := by
  rw [bits_one]
  unfold Offset2.ofWord
  split_ifs <;> simp_all [Offset2.iBit]

theorem Offset2.low_ofWord (h : bit w 25 = false ∨ bit w 4 = false) : (Offset2.ofWord w).low = bits w 0 12 := by
  unfold Offset2.ofWord
  split_ifs with h25 <;> simp only [Offset2.low]
  iterate 3 rw [append_eq_bits]
  simp_all [bits_one, Shift.toBits_ofBits]

theorem Offset2.ofWord_of_fields {off : Offset2} (hi : bits w 25 1 = off.iBit) (hlow : bits w 0 12 = off.low) :
    Offset2.ofWord w = off := by
  cases off <;> rw [eq_comm, Offset2.low] at hlow
  case imm offset => simp_all [Offset2.ofWord, Offset2.iBit, bits_one_eq_zero]
  case reg amount sh rm =>
    iterate 3 rw [append_eq_bits] at hlow
    obtain ⟨⟨⟨rfl, hsh⟩, -⟩, rfl⟩ := hlow
    simp_all [Offset2.ofWord, Offset2.iBit, bits_one_eq_one, ← hsh, Shift.ofBits_toBits]

theorem Offset2.bit_four_of_fields {off : Offset2} (hi : bits w 25 1 = off.iBit) (hlow : bits w 0 12 = off.low) :
    bit w 25 = false ∨ bit w 4 = false := by
  cases off with
  | imm offset => exact .inl (bits_one_eq_zero.mp hi)
  | reg amount sh rm =>
    rw [eq_comm, Offset2.low] at hlow
    iterate 3 rw [append_eq_bits] at hlow
    obtain ⟨⟨-, h4⟩, -⟩ := hlow
    exact .inr (bits_one_eq_zero.mp h4.symm)

/-! ### The offset of addressing mode 3 -/

theorem Offset3.iBit_ofWord (w : Word) : (Offset3.ofWord w).iBit = bits w 22 1 := by
  rw [bits_one]
  unfold Offset3.ofWord
  split_ifs <;> simp_all [Offset3.iBit]

theorem Offset3.high_ofWord (w : Word) : (Offset3.ofWord w).high = bits w 8 4 := by
  unfold Offset3.ofWord
  split_ifs
  · exact BitVec.extractLsb'_append_eq_left
  · rfl

theorem Offset3.low_ofWord (w : Word) : (Offset3.ofWord w).low = bits w 0 4 := by
  unfold Offset3.ofWord
  split_ifs
  · exact BitVec.extractLsb'_append_eq_right
  · rfl

theorem Offset3.ofWord_of_fields {off : Offset3} (hi : bits w 22 1 = off.iBit) (hhigh : bits w 8 4 = off.high)
    (hlow : bits w 0 4 = off.low) : Offset3.ofWord w = off := by
  cases off with
  | imm offset =>
    have hoff : offset.extractLsb' 4 4 ++ offset.extractLsb' 0 4 = offset := by
      exact (BitVec.extractLsb'_append_extractLsb'_eq_extractLsb' rfl).trans BitVec.extractLsb'_eq_self
    simp_all [Offset3.ofWord, Offset3.iBit, Offset3.high, Offset3.low, bits_one_eq_one]
  | reg sbz rm => simp_all [Offset3.ofWord, Offset3.iBit, Offset3.high, Offset3.low, bits_one_eq_zero]

end

end Sys2Proof
end

section
/-! The formats of the encoder (R190 to R200): a word is an encoding exactly when its fields are those of the instruction,
cut as the decoder cuts them. -/

namespace Sys2Proof

/-! ## The formats of the encoder, field by field -/

section
variable {w : Word} {c : Cond} {cc : BitVec 4}

theorem encodeDp_eq_iff {opcode : BitVec 4} {s : Bool} {rn rd : RegNum} {op : Operand2} :
    encodeDp c opcode s rn rd op = w ↔
      bits w 28 4 = c.toBits ∧ bits w 26 2 = 0 ∧ bits w 25 1 = op.iBit ∧ bits w 21 4 = opcode ∧ bit w 20 = s ∧
        bits w 16 4 = rn ∧ bits w 12 4 = rd ∧ bits w 0 12 = op.low := by
  rw [eq_word_iff, encodeDp]
  iterate 7 rw [append_eq_bits]
  simp [eq_bits_comm, bits_one_eq_ofBool, and_assoc]

theorem encodeMul_eq_iff {op : BitVec 3} {s : Bool} {hi lo rs rm : RegNum} :
    encodeMul c op s hi lo rs rm = w ↔
      bits w 28 4 = c.toBits ∧ bits w 25 3 = 0 ∧ bit w 24 = false ∧ bits w 21 3 = op ∧ bit w 20 = s ∧
        bits w 16 4 = hi ∧ bits w 12 4 = lo ∧ bits w 8 4 = rs ∧ bit w 7 = true ∧ bits w 5 2 = 0 ∧ bit w 4 = true ∧
        bits w 0 4 = rm := by
  rw [eq_word_iff, encodeMul, show 0b0000#4 = 0b000#3 ++ 0#1 from rfl, show 0b1001#4 = 1#1 ++ 0b00#2 ++ 1#1 from rfl]
  iterate 11 rw [append_eq_bits]
  simp [eq_bits_comm, bits_one_eq_ofBool, bits_one_eq_one, bits_one_eq_zero, and_assoc]

theorem encode_swp_eq_iff {rn rd rm : RegNum} :
    encode (.swp c rn rd rm) = w ↔
      bits w 28 4 = c.toBits ∧ bits w 25 3 = 0 ∧ bit w 24 = true ∧ bit w 23 = false ∧ bit w 22 = false ∧
        bits w 20 2 = 0 ∧ bits w 16 4 = rn ∧ bits w 12 4 = rd ∧ bits w 8 4 = 0 ∧ bit w 7 = true ∧ bits w 5 2 = 0 ∧
        bit w 4 = true ∧ bits w 0 4 = rm := by
  rw [eq_word_iff, encode, show 0b00010000#8 = 0b000#3 ++ 1#1 ++ 0#1 ++ 0#1 ++ 0b00#2 from rfl,
    show 0b1001#4 = 1#1 ++ 0b00#2 ++ 1#1 from rfl]
  iterate 12 rw [append_eq_bits]
  simp [eq_bits_comm, bits_one_eq_one, bits_one_eq_zero, and_assoc]

theorem encode_swpb_eq_iff {rn rd rm : RegNum} :
    encode (.swpb c rn rd rm) = w ↔
      bits w 28 4 = c.toBits ∧ bits w 25 3 = 0 ∧ bit w 24 = true ∧ bit w 23 = false ∧ bit w 22 = true ∧
        bits w 20 2 = 0 ∧ bits w 16 4 = rn ∧ bits w 12 4 = rd ∧ bits w 8 4 = 0 ∧ bit w 7 = true ∧ bits w 5 2 = 0 ∧
        bit w 4 = true ∧ bits w 0 4 = rm := by
  rw [eq_word_iff, encode, show 0b00010100#8 = 0b000#3 ++ 1#1 ++ 0#1 ++ 1#1 ++ 0b00#2 from rfl,
    show 0b1001#4 = 1#1 ++ 0b00#2 ++ 1#1 from rfl]
  iterate 12 rw [append_eq_bits]
  simp [eq_bits_comm, bits_one_eq_one, bits_one_eq_zero, and_assoc]

theorem encodeHalf_eq_iff {p u i : Bool} {l : BitVec 1} {rn rd : RegNum} {sh : BitVec 2} {off : Offset3} :
    encodeHalf c p u i l rn rd sh off = w ↔
      bits w 28 4 = c.toBits ∧ bits w 25 3 = 0 ∧ bit w 24 = p ∧ bit w 23 = u ∧ bits w 22 1 = off.iBit ∧ bit w 21 = i ∧
        bits w 20 1 = l ∧ bits w 16 4 = rn ∧ bits w 12 4 = rd ∧ bits w 8 4 = off.high ∧ bit w 7 = true ∧
        bits w 5 2 = sh ∧ bit w 4 = true ∧ bits w 0 4 = off.low := by
  rw [eq_word_iff, encodeHalf]
  iterate 13 rw [append_eq_bits]
  simp [eq_bits_comm, bits_one_eq_ofBool, bits_one_eq_one, and_assoc]

theorem encodeLs_eq_iff {p b i l : BitVec 1} {u : Bool} {rn rd : RegNum} {off : Offset2} :
    encodeLs c p u b i l rn rd off = w ↔
      bits w 28 4 = c.toBits ∧ bits w 26 2 = 1 ∧ bits w 25 1 = off.iBit ∧ bits w 24 1 = p ∧ bit w 23 = u ∧
        bits w 22 1 = b ∧ bits w 21 1 = i ∧ bits w 20 1 = l ∧ bits w 16 4 = rn ∧ bits w 12 4 = rd ∧
        bits w 0 12 = off.low := by
  rw [eq_word_iff, encodeLs]
  iterate 10 rw [append_eq_bits]
  simp [eq_bits_comm, bits_one_eq_ofBool, and_assoc]

theorem encodeLsm_eq_iff {m : Mode4} {s l : BitVec 1} {i : Bool} {rn : RegNum} {list : BitVec 16} :
    encodeLsm c m s i l rn list = w ↔
      bits w 28 4 = c.toBits ∧ bits w 25 3 = 4 ∧ bits w 23 2 = m.toBits ∧ bits w 22 1 = s ∧ bit w 21 = i ∧
        bits w 20 1 = l ∧ bits w 16 4 = rn ∧ bits w 0 16 = list := by
  rw [eq_word_iff, encodeLsm]
  iterate 7 rw [append_eq_bits]
  simp [eq_bits_comm, bits_one_eq_ofBool, and_assoc]

theorem encodeCpLs_eq_iff {m : Mode5} {n : Bool} {l : BitVec 1} {rn : RegNum} {crd cp : BitVec 4} :
    encodeCpLs cc m n l rn crd cp = w ↔
      bits w 28 4 = cc ∧ bits w 25 3 = 6 ∧ bits w 23 2 = m.puBits ∧ bit w 22 = n ∧ bits w 21 1 = m.wBit ∧
        bits w 20 1 = l ∧ bits w 16 4 = rn ∧ bits w 12 4 = crd ∧ bits w 8 4 = cp ∧ bits w 0 8 = m.low := by
  rw [eq_word_iff, encodeCpLs]
  iterate 9 rw [append_eq_bits]
  simp [eq_bits_comm, bits_one_eq_ofBool, and_assoc]

theorem encodeCdp_eq_iff {op1 crn crd cp : BitVec 4} {op2 : BitVec 3} {crm : BitVec 4} :
    encodeCdp cc op1 crn crd cp op2 crm = w ↔
      bits w 28 4 = cc ∧ bits w 24 4 = 0b1110 ∧ bits w 20 4 = op1 ∧ bits w 16 4 = crn ∧ bits w 12 4 = crd ∧
        bits w 8 4 = cp ∧ bits w 5 3 = op2 ∧ bit w 4 = false ∧ bits w 0 4 = crm := by
  rw [eq_word_iff, encodeCdp]
  iterate 8 rw [append_eq_bits]
  simp [eq_bits_comm, bits_one_eq_zero, and_assoc]

theorem encodeCpMove_eq_iff {op1 : BitVec 3} {l : BitVec 1} {crn rd cp : BitVec 4} {op2 : BitVec 3} {crm : BitVec 4} :
    encodeCpMove cc op1 l crn rd cp op2 crm = w ↔
      bits w 28 4 = cc ∧ bits w 24 4 = 0b1110 ∧ bits w 21 3 = op1 ∧ bits w 20 1 = l ∧ bits w 16 4 = crn ∧
        bits w 12 4 = rd ∧ bits w 8 4 = cp ∧ bits w 5 3 = op2 ∧ bit w 4 = true ∧ bits w 0 4 = crm := by
  rw [eq_word_iff, encodeCpMove]
  iterate 9 rw [append_eq_bits]
  simp [eq_bits_comm, bits_one_eq_one, and_assoc]

/-! ### The control extension space -/

theorem encode_bkpt_eq_iff {hi : BitVec 12} {lo : BitVec 4} :
    encode (.bkpt hi lo) = w ↔
      bits w 28 4 = 14 ∧ bits w 25 3 = 0 ∧ bits w 23 2 = 2 ∧ bits w 21 2 = 1 ∧ bit w 20 = false ∧
        bits w 8 12 = hi ∧ bits w 4 4 = 7 ∧ bits w 0 4 = lo := by
  rw [eq_word_iff, encode, show 0b00010010#8 = 0b000#3 ++ 0b10#2 ++ 0b01#2 ++ 0#1 from rfl]
  iterate 7 rw [append_eq_bits]
  simp [eq_bits_comm, bits_one_eq_zero, and_assoc]

theorem encode_bx_eq_iff {rm : RegNum} :
    encode (.bx c rm) = w ↔
      bits w 28 4 = c.toBits ∧ bits w 25 3 = 0 ∧ bits w 23 2 = 2 ∧ bits w 21 2 = 1 ∧ bit w 20 = false ∧
        bits w 8 12 = 0xFFF ∧ bits w 4 4 = 1 ∧ bits w 0 4 = rm := by
  rw [eq_word_iff, encode, show 0b00010010#8 = 0b000#3 ++ 0b10#2 ++ 0b01#2 ++ 0#1 from rfl]
  iterate 7 rw [append_eq_bits]
  simp [eq_bits_comm, bits_one_eq_zero, and_assoc]

theorem encode_blx2_eq_iff {rm : RegNum} :
    encode (.blx2 c rm) = w ↔
      bits w 28 4 = c.toBits ∧ bits w 25 3 = 0 ∧ bits w 23 2 = 2 ∧ bits w 21 2 = 1 ∧ bit w 20 = false ∧
        bits w 8 12 = 0xFFF ∧ bits w 4 4 = 3 ∧ bits w 0 4 = rm := by
  rw [eq_word_iff, encode, show 0b00010010#8 = 0b000#3 ++ 0b10#2 ++ 0b01#2 ++ 0#1 from rfl]
  iterate 7 rw [append_eq_bits]
  simp [eq_bits_comm, bits_one_eq_zero, and_assoc]

theorem encode_clz_eq_iff {rd rm : RegNum} :
    encode (.clz c rd rm) = w ↔
      bits w 28 4 = c.toBits ∧ bits w 25 3 = 0 ∧ bits w 23 2 = 2 ∧ bits w 21 2 = 3 ∧ bit w 20 = false ∧
        bits w 16 4 = 15 ∧ bits w 12 4 = rd ∧ bits w 8 4 = 15 ∧ bits w 4 4 = 1 ∧ bits w 0 4 = rm := by
  rw [eq_word_iff, encode, show 0b00010110#8 = 0b000#3 ++ 0b10#2 ++ 0b11#2 ++ 0#1 from rfl]
  iterate 9 rw [append_eq_bits]
  simp [eq_bits_comm, bits_one_eq_zero, and_assoc]

theorem encode_mrs_eq_iff {r : Bool} {rd : RegNum} :
    encode (.mrs c r rd) = w ↔
      bits w 28 4 = c.toBits ∧ bits w 25 3 = 0 ∧ bits w 23 2 = 2 ∧ bit w 22 = r ∧ bit w 21 = false ∧ bit w 20 = false ∧
        bits w 16 4 = 15 ∧ bits w 12 4 = rd ∧ bits w 0 12 = 0 := by
  rw [eq_word_iff, encode,
    show statusBits 0 r 0 = 0b000#3 ++ 0b10#2 ++ BitVec.ofBool r ++ 0#1 ++ 0#1 from rfl]
  iterate 8 rw [append_eq_bits]
  simp [eq_bits_comm, bits_one_eq_ofBool, bits_one_eq_zero, and_assoc]

theorem encode_msrReg_eq_iff {r : Bool} {mask : BitVec 4} {rm : RegNum} :
    encode (.msrReg c r mask rm) = w ↔
      bits w 28 4 = c.toBits ∧ bits w 25 3 = 0 ∧ bits w 23 2 = 2 ∧ bit w 22 = r ∧ bit w 21 = true ∧ bit w 20 = false ∧
        bits w 16 4 = mask ∧ bits w 12 4 = 15 ∧ bits w 8 4 = 0 ∧ bits w 4 4 = 0 ∧ bits w 0 4 = rm := by
  rw [eq_word_iff, encode,
    show statusBits 0 r 1 = 0b000#3 ++ 0b10#2 ++ BitVec.ofBool r ++ 1#1 ++ 0#1 from rfl]
  iterate 10 rw [append_eq_bits]
  simp [eq_bits_comm, bits_one_eq_ofBool, bits_one_eq_one, bits_one_eq_zero, and_assoc]

theorem encode_msrImm_eq_iff {r : Bool} {mask rotate : BitVec 4} {immed : BitVec 8} :
    encode (.msrImm c r mask rotate immed) = w ↔
      bits w 28 4 = c.toBits ∧ bits w 25 3 = 1 ∧ bits w 23 2 = 2 ∧ bit w 22 = r ∧ bit w 21 = true ∧ bit w 20 = false ∧
        bits w 16 4 = mask ∧ bits w 12 4 = 15 ∧ bits w 8 4 = rotate ∧ bits w 0 8 = immed := by
  rw [eq_word_iff, encode,
    show statusBits 1 r 1 = 0b001#3 ++ 0b10#2 ++ BitVec.ofBool r ++ 1#1 ++ 0#1 from rfl]
  iterate 9 rw [append_eq_bits]
  simp [eq_bits_comm, bits_one_eq_ofBool, bits_one_eq_one, bits_one_eq_zero, and_assoc]

/-! ### Branches and SWI -/

theorem encode_blx1_eq_iff {h : Bool} {immed : BitVec 24} :
    encode (.blx1 h immed) = w ↔ bits w 28 4 = 15 ∧ bits w 25 3 = 5 ∧ bit w 24 = h ∧ bits w 0 24 = immed := by
  rw [eq_word_iff, encode]
  iterate 3 rw [append_eq_bits]
  simp [eq_bits_comm, bits_one_eq_ofBool, and_assoc]

theorem encode_b_eq_iff {immed : BitVec 24} :
    encode (.b c immed) = w ↔
      bits w 28 4 = c.toBits ∧ bits w 25 3 = 5 ∧ bit w 24 = false ∧ bits w 0 24 = immed := by
  rw [eq_word_iff, encode]
  iterate 3 rw [append_eq_bits]
  simp [eq_bits_comm, bits_one_eq_zero, and_assoc]

theorem encode_bl_eq_iff {immed : BitVec 24} :
    encode (.bl c immed) = w ↔
      bits w 28 4 = c.toBits ∧ bits w 25 3 = 5 ∧ bit w 24 = true ∧ bits w 0 24 = immed := by
  rw [eq_word_iff, encode]
  iterate 3 rw [append_eq_bits]
  simp [eq_bits_comm, bits_one_eq_one, and_assoc]

theorem encode_swi_eq_iff {immed : BitVec 24} :
    encode (.swi c immed) = w ↔
      bits w 28 4 = c.toBits ∧ bits w 25 3 = 7 ∧ bit w 24 = true ∧ bits w 0 24 = immed := by
  rw [eq_word_iff, encode, show 0b1111#4 = 0b111#3 ++ 1#1 from rfl]
  iterate 3 rw [append_eq_bits]
  simp [eq_bits_comm, bits_one_eq_one, and_assoc]

end

end Sys2Proof
end

section
/-! Encoding a decoded word (R160 to R200), region by region of the decoder. -/

namespace Sys2Proof

/-! ## The decoder by the class of a word, bits 27:25 (R170) -/

section
variable {w : Word}

theorem decodeConditional_of_class_zero (h : bits w 25 3 = 0) :
    decodeConditional w =
      if bits w 7 1 = 1 ∧ bits w 4 1 = 1 then decodeMultiplies w
      else if bits w 23 2 = 0b10 ∧ bits w 20 1 = 0 then decodeMisc w
      else decodeDataProcessing w :=
  if_pos h

theorem decodeConditional_of_class_one (h : bits w 25 3 = 1) :
    decodeConditional w =
      if bits w 23 2 = 0b10 ∧ bits w 20 1 = 0 then decodeMsrImmediate w else decodeDataProcessing w := by
  simp [decodeConditional, h]

theorem decodeConditional_of_class_two (h : bits w 25 3 = 2) : decodeConditional w = decodeLoadStore w := by
  simp [decodeConditional, h]

theorem decodeConditional_of_class_three (h : bits w 25 3 = 3) :
    decodeConditional w = if bits w 4 1 = 0 then decodeLoadStore w else .undefSpace w := by
  simp [decodeConditional, h]

theorem decodeConditional_of_class_four (h : bits w 25 3 = 4) : decodeConditional w = decodeMultiple w := by
  simp [decodeConditional, h]

theorem decodeConditional_of_class_five (h : bits w 25 3 = 5) :
    decodeConditional w =
      if bits w 24 1 = 0 then .b (Cond.ofBits (bits w 28 4)) (bits w 0 24)
      else .bl (Cond.ofBits (bits w 28 4)) (bits w 0 24) := by
  simp [decodeConditional, h]

theorem decodeConditional_of_class_six (h : bits w 25 3 = 6) :
    decodeConditional w =
      if bits w 23 2 = 0 ∧ bits w 21 1 = 0 then .undefCoprocSpace w
      else if bits w 20 1 = 1 then
        .ldc (Cond.ofBits (bits w 28 4)) (Mode5.ofWord w) (bit w 22) (bits w 16 4) (bits w 12 4) (bits w 8 4)
      else .stc (Cond.ofBits (bits w 28 4)) (Mode5.ofWord w) (bit w 22) (bits w 16 4) (bits w 12 4) (bits w 8 4) := by
  simp [decodeConditional, h]

theorem decodeConditional_of_class_seven (h : bits w 25 3 = 7) :
    decodeConditional w =
      if bits w 24 1 = 1 then .swi (Cond.ofBits (bits w 28 4)) (bits w 0 24)
      else if bits w 4 1 = 0 then
        .cdp (Cond.ofBits (bits w 28 4)) (bits w 20 4) (bits w 16 4) (bits w 12 4) (bits w 8 4) (bits w 5 3)
          (bits w 0 4)
      else if bits w 20 1 = 0 then
        .mcr (Cond.ofBits (bits w 28 4)) (bits w 21 3) (bits w 16 4) (bits w 12 4) (bits w 8 4) (bits w 5 3)
          (bits w 0 4)
      else
        .mrc (Cond.ofBits (bits w 28 4)) (bits w 21 3) (bits w 16 4) (bits w 12 4) (bits w 8 4) (bits w 5 3)
          (bits w 0 4) := by
  simp [decodeConditional, h]

end

/-! ## Encoding a decoded word -/

theorem encode_ite {p : Prop} [Decidable p] {i j : Instr} {w : Word} (hi : p → encode i = w) (hj : encode j = w) :
    encode (if p then i else j) = w := by
  split_ifs with h
  · exact hi h
  · exact hj

section
variable {w : Word}

theorem encode_decodeMultiplies (hc : bits w 28 4 ≠ 15) (h25 : bits w 25 3 = 0) (h7 : bit w 7 = true)
    (h4 : bit w 4 = true) : encode (decodeMultiplies w) = w := by
  have h5 := two_bit_eq_three (x := bits w 5 2)
  unfold decodeMultiplies
  split_ifs <;>
    simp_all [↓encode_swp_eq_iff, ↓encode_swpb_eq_iff, encode, encodeMul_eq_iff, encodeHalf_eq_iff, Cond.toBits_ofBits,
      Offset3.iBit_ofWord, Offset3.high_ofWord, Offset3.low_ofWord, bits_one_eq_zero, bits_one_eq_one]

theorem encode_decodeMisc (hc : bits w 28 4 ≠ 15) (h25 : bits w 25 3 = 0) (h23 : bits w 23 2 = 2)
    (h20 : bit w 20 = false) : encode (decodeMisc w) = w := by
  unfold decodeMisc
  split_ifs <;>
    simp_all [↓encode_mrs_eq_iff, ↓encode_msrReg_eq_iff, ↓encode_bx_eq_iff, ↓encode_clz_eq_iff, ↓encode_blx2_eq_iff,
      ↓encode_bkpt_eq_iff, encode, Cond.toBits_ofBits, bits_one_eq_zero]

theorem encode_decodeMsrImmediate (hc : bits w 28 4 ≠ 15) (h25 : bits w 25 3 = 1) (h23 : bits w 23 2 = 2)
    (h20 : bit w 20 = false) : encode (decodeMsrImmediate w) = w := by
  unfold decodeMsrImmediate
  split_ifs <;> simp_all [↓encode_msrImm_eq_iff, encode, Cond.toBits_ofBits, bits_one_eq_one]

/-- The comparisons have S = 1: with opcode 10xx and S = 0 a word is in a control extension space (R174, R176). -/
theorem encode_decodeDataProcessing (hc : bits w 28 4 ≠ 15) (h26 : bits w 26 2 = 0)
    (hop : bit w 25 = true ∨ bit w 4 = false ∨ bit w 7 = false) (hs : bits w 23 2 = 2 → bit w 20 = true) :
    encode (decodeDataProcessing w) = w := by
  have dp {opcode s rn rd} (ho : bits w 21 4 = opcode) (hs : bit w 20 = s) (hn : bits w 16 4 = rn)
      (hd : bits w 12 4 = rd) : encodeDp (Cond.ofBits (bits w 28 4)) opcode s rn rd (Operand2.ofWord w) = w :=
    encodeDp_eq_iff.mpr ⟨(Cond.toBits_ofBits hc).symm, h26, (Operand2.iBit_ofWord w).symm, ho, hs, hn, hd,
      (Operand2.low_ofWord hop).symm⟩
  have cmp {v : BitVec 4} (h : bits w 21 4 = v) (hv : v.extractLsb' 2 2 = 2) : bit w 20 = true :=
    hs ((bits_of_bits h 2 2 (by decide)).trans hv)
  rcases four_bit_cases (bits w 21 4) with h | h | h | h | h | h | h | h | h | h | h | h | h | h | h | h <;>
    simp only [decodeDataProcessing, h, BitVec.ofNat_eq_ofNat, BitVec.reduceEq, if_true, if_false]
  · exact dp h rfl rfl rfl
  · exact dp h rfl rfl rfl
  · exact dp h rfl rfl rfl
  · exact dp h rfl rfl rfl
  · exact dp h rfl rfl rfl
  · exact dp h rfl rfl rfl
  · exact dp h rfl rfl rfl
  · exact dp h rfl rfl rfl
  · exact encode_ite (dp h (cmp h rfl) rfl) rfl
  · exact encode_ite (dp h (cmp h rfl) rfl) rfl
  · exact encode_ite (dp h (cmp h rfl) rfl) rfl
  · exact encode_ite (dp h (cmp h rfl) rfl) rfl
  · exact dp h rfl rfl rfl
  · exact encode_ite (fun hz => dp h rfl hz rfl) rfl
  · exact dp h rfl rfl rfl
  · exact encode_ite (fun hz => dp h rfl hz rfl) rfl

theorem encode_decodeLoadStore (hc : bits w 28 4 ≠ 15) (h26 : bits w 26 2 = 1)
    (hoff : bit w 25 = false ∨ bit w 4 = false) : encode (decodeLoadStore w) = w := by
  unfold decodeLoadStore
  split_ifs <;>
    simp_all [encode, encodeLs_eq_iff, Cond.toBits_ofBits, Offset2.iBit_ofWord, Offset2.low_ofWord hoff,
      bits_one_eq_zero, bits_one_eq_one, Index.pBit_ofBits, Index.wBit_ofBits, bits_one_eq_ofBool]

theorem encode_decodeMultiple (hc : bits w 28 4 ≠ 15) (h25 : bits w 25 3 = 4) : encode (decodeMultiple w) = w := by
  have hlist : bits w 0 16 = BitVec.ofBool (bit w 15) ++ bits w 0 15 := by
    rw [← bits_one]
    exact (bits_append w 0 1 15).symm
  unfold decodeMultiple
  split_ifs <;>
    simp_all [encode, encodeLsm_eq_iff, Cond.toBits_ofBits, Mode4.toBits_ofBits, bits_one_eq_zero, bits_one_eq_one]

/-- R170: the data-processing words are those of bits 27:26 = 00 that are in no extension space. -/
theorem encode_decodeConditional (hc : bits w 28 4 ≠ 15) : encode (decodeConditional w) = w := by
  have hcond : bits w 28 4 = (Cond.ofBits (bits w 28 4)).toBits := (Cond.toBits_ofBits hc).symm
  have hs (h : ¬(bits w 23 2 = 2 ∧ bits w 20 1 = 0)) (h23 : bits w 23 2 = 2) : bit w 20 = true :=
    bits_one_eq_one.mp (bits_one_ne_zero.mp fun h20 => h ⟨h23, h20⟩)
  have h14 (h7 : bits w 25 3 = 7) (hswi : ¬bits w 24 1 = 1) : bits w 24 4 = 0b1110 := by
    rw [← bits_append w 24 3 1, h7, bits_one_ne_one.mp hswi]
    rfl
  rcases three_bit_cases (bits w 25 3) with h | h | h | h | h | h | h | h
  · rw [decodeConditional_of_class_zero h]
    split_ifs with h74 hmisc
    · exact encode_decodeMultiplies hc h (bits_one_eq_one.mp h74.1) (bits_one_eq_one.mp h74.2)
    · exact encode_decodeMisc hc h hmisc.1 (bits_one_eq_zero.mp hmisc.2)
    · refine encode_decodeDataProcessing hc (bits_of_bits h 1 2 (by decide)) (.inr ?_) (hs hmisc)
      rcases Decidable.not_and_iff_or_not.mp h74 with h7 | h4
      · exact .inr (bits_one_eq_zero.mp (bits_one_ne_one.mp h7))
      · exact .inl (bits_one_eq_zero.mp (bits_one_ne_one.mp h4))
  · rw [decodeConditional_of_class_one h]
    split_ifs with hmsr
    · exact encode_decodeMsrImmediate hc h hmsr.1 (bits_one_eq_zero.mp hmsr.2)
    · exact encode_decodeDataProcessing hc (bits_of_bits h 1 2 (by decide))
        (.inl (bits_one_eq_one.mp (bits_of_bits h 0 1 (by decide)))) (hs hmsr)
  · rw [decodeConditional_of_class_two h]
    exact encode_decodeLoadStore hc (bits_of_bits h 1 2 (by decide))
      (.inl (bits_one_eq_zero.mp (bits_of_bits h 0 1 (by decide))))
  · rw [decodeConditional_of_class_three h]
    split_ifs with h4
    · exact encode_decodeLoadStore hc (bits_of_bits h 1 2 (by decide)) (.inr (bits_one_eq_zero.mp h4))
    · rfl
  · rw [decodeConditional_of_class_four h]
    exact encode_decodeMultiple hc h
  · rw [decodeConditional_of_class_five h]
    split_ifs with hl
    · exact encode_b_eq_iff.mpr ⟨hcond, h, bits_one_eq_zero.mp hl, rfl⟩
    · exact encode_bl_eq_iff.mpr ⟨hcond, h, bits_one_eq_one.mp (bits_one_ne_zero.mp hl), rfl⟩
  · have ls {l} (hcp : ¬(bits w 23 2 = 0 ∧ bits w 21 1 = 0)) (hl : bits w 20 1 = l) :=
      encodeCpLs_eq_iff.mpr ⟨hcond, h, (Mode5.puBits_ofWord hcp).symm, rfl, (Mode5.wBit_ofWord w).symm, hl, rfl,
        rfl, rfl, (Mode5.low_ofWord w).symm⟩
    rw [decodeConditional_of_class_six h]
    split_ifs with hcp hl
    · rfl
    · exact ls hcp hl
    · exact ls hcp (bits_one_ne_one.mp hl)
  · rw [decodeConditional_of_class_seven h]
    split_ifs with hswi h4 hl
    · exact encode_swi_eq_iff.mpr ⟨hcond, h, bits_one_eq_one.mp hswi, rfl⟩
    · exact encodeCdp_eq_iff.mpr ⟨hcond, h14 h hswi, rfl, rfl, rfl, rfl, rfl, bits_one_eq_zero.mp h4, rfl⟩
    · exact encodeCpMove_eq_iff.mpr ⟨hcond, h14 h hswi, rfl, hl, rfl, rfl, rfl, rfl,
        bits_one_eq_one.mp (bits_one_ne_zero.mp h4), rfl⟩
    · exact encodeCpMove_eq_iff.mpr ⟨hcond, h14 h hswi, rfl, bits_one_ne_zero.mp hl, rfl, rfl, rfl, rfl,
        bits_one_eq_one.mp (bits_one_ne_zero.mp h4), rfl⟩

theorem encode_decodeUnconditional (hc : bits w 28 4 = 15) : encode (decodeUnconditional w) = w := by
  unfold decodeUnconditional
  split_ifs <;>
    simp_all [↓encode_blx1_eq_iff, encode, encodeCpLs_eq_iff, encodeCdp_eq_iff, encodeCpMove_eq_iff,
      Mode5.puBits_ofWord, Mode5.wBit_ofWord, Mode5.low_ofWord, bits_one_eq_zero, bits_one_eq_one]

/-- Settles O1: in each region of the decoder the fields an instruction is read from are those it is written to. -/
theorem encodeOfDecode : Obligations.EncodeOfDecode := by
  unfold Obligations.EncodeOfDecode
  intro w
  unfold decodeWord
  split_ifs with h
  · exact encode_decodeUnconditional h
  · exact encode_decodeConditional h

end
end Sys2Proof
end

section
/-! The UNDEFINED spaces (R218, R219, R223 to R226) in the fields the decoder tests, and the words it answers them for. -/

namespace Sys2Proof

/-! ## The spaces -/

section
variable {w : Word}

theorem has_iff {lo len v : Nat} : Word.has w lo len v = true ↔ bits w lo len = BitVec.ofNat len v := by
  simp [Word.has, bits]

theorem inCoprocSpace_iff :
    inCoprocSpace w = true ↔ bits w 25 3 = 6 ∧ bits w 23 2 = 0 ∧ bits w 21 1 = 0 := by
  have h23 : bits w 23 5 = 0b11000 ↔ bits w 25 3 = 6 ∧ bits w 23 2 = 0 := bits_eq_append 6#3 0#2
  rw [inCoprocSpace, Bool.and_eq_true, has_iff, has_iff, ← and_assoc]
  exact and_congr_left fun _ => h23

theorem inUnconditionalSpace_iff :
    inUnconditionalSpace w = true ↔
      bits w 28 4 = 15 ∧ bits w 25 3 ≠ 5 ∧ bits w 25 3 ≠ 6 ∧ bits w 24 4 ≠ 0b1110 := by
  have h25 : bits w 25 3 = (bits w 24 4).extractLsb' 1 3 := bits_of_bits rfl 1 3 (by decide)
  have h27 : bits w 27 1 = (bits w 24 4).extractLsb' 3 1 := bits_of_bits rfl 3 1 (by decide)
  simp only [inUnconditionalSpace, Bool.and_eq_true, Bool.or_eq_true, has_iff, h25, h27]
  refine and_congr_right fun _ => ?_
  generalize bits w 24 4 = x
  revert x
  decide

theorem inControlImmSpace_iff :
    inControlImmSpace w = true ↔
      bits w 28 4 ≠ 15 ∧ bits w 25 3 = 1 ∧ (bits w 23 2 = 2 ∧ bits w 20 1 = 0) ∧ bits w 21 1 = 0 := by
  have h23 : bits w 23 5 = 0b00110 ↔ bits w 25 3 = 1 ∧ bits w 23 2 = 2 := bits_eq_append 1#3 2#2
  have h20 : bits w 20 2 = 0 ↔ bits w 21 1 = 0 ∧ bits w 20 1 = 0 := bits_eq_append 0#1 0#1
  simp only [inControlImmSpace, Bool.and_eq_true, Bool.not_eq_true', Bool.eq_false_iff, ne_eq, has_iff]
  rw [← BitVec.ofNat_eq_ofNat, ← BitVec.ofNat_eq_ofNat]
  tauto

/-- Bits 7:4 of the multiplies, the swaps and the extension spaces around them. -/
theorem bits_four_four_eq_nine : bits w 4 4 = 9 ↔ (bits w 7 1 = 1 ∧ bits w 4 1 = 1) ∧ bits w 5 2 = 0 := by
  have h4 : bits w 4 4 = 9 ↔ bits w 5 3 = 4 ∧ bits w 4 1 = 1 := bits_eq_append 4#3 1#1
  have h5 : bits w 5 3 = 4 ↔ bits w 7 1 = 1 ∧ bits w 5 2 = 0 := bits_eq_append 1#1 0#2
  tauto

theorem inArithSpace_iff :
    inArithSpace w = true ↔
      bits w 28 4 ≠ 15 ∧ bits w 25 3 = 0 ∧ bits w 24 1 = 0 ∧ (bits w 21 3 = 2 ∨ bits w 21 3 = 3) ∧
        (bits w 7 1 = 1 ∧ bits w 4 1 = 1) ∧ bits w 5 2 = 0 := by
  have h24 : bits w 24 4 = 0 ↔ bits w 25 3 = 0 ∧ bits w 24 1 = 0 := bits_eq_append 0#3 0#1
  have h22 : bits w 22 2 = 1 ↔ bits w 21 3 = 2 ∨ bits w 21 3 = 3 := by
    rw [show bits w 22 2 = (bits w 21 3).extractLsb' 1 2 from bits_of_bits rfl 1 2 (by decide)]
    generalize bits w 21 3 = x
    revert x
    decide
  simp only [inArithSpace, Bool.and_eq_true, Bool.not_eq_true', Bool.eq_false_iff, ne_eq, has_iff,
    ← BitVec.ofNat_eq_ofNat, bits_four_four_eq_nine, h24, h22]
  tauto

theorem inLoadStoreSpace_iff :
    inLoadStoreSpace w = true ↔
      bits w 28 4 ≠ 15 ∧ bits w 25 3 = 0 ∧ bits w 24 1 = 1 ∧ ¬(bits w 23 1 = 0 ∧ bits w 20 2 = 0) ∧
        (bits w 7 1 = 1 ∧ bits w 4 1 = 1) ∧ bits w 5 2 = 0 := by
  have h24 : bits w 24 4 = 1 ↔ bits w 25 3 = 0 ∧ bits w 24 1 = 1 := bits_eq_append 0#3 1#1
  simp only [inLoadStoreSpace, Bool.and_eq_true, Bool.not_eq_true', Bool.eq_false_iff, ne_eq, has_iff,
    ← BitVec.ofNat_eq_ofNat, bits_four_four_eq_nine, h24]
  tauto

theorem inDoubleSpace_iff :
    inDoubleSpace w = true ↔
      bits w 28 4 ≠ 15 ∧ bits w 25 3 = 0 ∧ bits w 20 1 = 0 ∧ (bits w 7 1 = 1 ∧ bits w 4 1 = 1) ∧
        bits w 5 2 ≠ 0 ∧ bits w 5 2 ≠ 1 := by
  have h6 : bits w 6 2 = 3 ↔ bits w 7 1 = 1 ∧ bits w 6 1 = 1 := bits_eq_append 1#1 1#1
  have h5 : bits w 6 1 = 1 ↔ bits w 5 2 ≠ 0 ∧ bits w 5 2 ≠ 1 := by
    rw [show bits w 6 1 = (bits w 5 2).extractLsb' 1 1 from bits_of_bits rfl 1 1 (by decide)]
    generalize bits w 5 2 = x
    revert x
    decide
  simp only [inDoubleSpace, Bool.and_eq_true, Bool.not_eq_true', Bool.eq_false_iff, ne_eq, has_iff,
    ← BitVec.ofNat_eq_ofNat, h6, h5]
  tauto

theorem inControlRegSpace_iff :
    inControlRegSpace w = true ↔
      bits w 28 4 ≠ 15 ∧ bits w 25 3 = 0 ∧ (bits w 23 2 = 2 ∧ bits w 20 1 = 0) ∧
        ¬(bits w 7 1 = 1 ∧ bits w 4 1 = 1) ∧ bits w 4 4 ≠ 0 ∧
        ¬(bits w 4 4 = 1 ∧ (bits w 21 2 = 1 ∨ bits w 21 2 = 3)) ∧ ¬(bits w 4 4 = 3 ∧ bits w 21 2 = 1) ∧
        ¬(bits w 4 4 = 7 ∧ bits w 21 2 = 1) := by
  have h23 : bits w 23 5 = 0b00010 ↔ bits w 25 3 = 0 ∧ bits w 23 2 = 2 := bits_eq_append 0#3 2#2
  have h21 : bits w 21 1 = 1 ↔ bits w 21 2 = 1 ∨ bits w 21 2 = 3 := by
    rw [show bits w 21 1 = (bits w 21 2).extractLsb' 0 1 from bits_of_bits rfl 0 1 (by decide)]
    generalize bits w 21 2 = x
    revert x
    decide
  simp only [inControlRegSpace, Bool.and_eq_true, Bool.not_eq_true', Bool.eq_false_iff, ne_eq, has_iff,
    ← BitVec.ofNat_eq_ofNat, h23, h21]
  tauto

theorem inUndefinedSpace_iff :
    inUndefinedSpace w = true ↔ bits w 28 4 ≠ 15 ∧ bits w 25 3 = 3 ∧ bits w 4 1 = 1 := by
  simp [inUndefinedSpace, Bool.eq_false_iff, has_iff, and_assoc]

/-! ## The decoder answers an UNDEFINED row in its space only -/

theorem inItsSpace_decodeUnconditional (hc : bits w 28 4 = 15) : (decodeUnconditional w).inItsSpace = true := by
  unfold decodeUnconditional
  split_ifs with h5 h6 hcp <;> try rfl
  · exact inCoprocSpace_iff.mpr ⟨h6, hcp⟩
  · exact inUnconditionalSpace_iff.mpr ⟨hc, h5, h6, ‹_›⟩

theorem inItsSpace_decodeMultiplies (hc : bits w 28 4 ≠ 15) (h25 : bits w 25 3 = 0)
    (h74 : bits w 7 1 = 1 ∧ bits w 4 1 = 1) : (decodeMultiplies w).inItsSpace = true := by
  have hop := three_bit_cases (bits w 21 3)
  have h24 := bits_one_ne_zero (w := w) (k := 24)
  have harith := inArithSpace_iff (w := w)
  have hls := inLoadStoreSpace_iff (w := w)
  have hdouble := inDoubleSpace_iff (w := w)
  unfold decodeMultiplies
  split_ifs <;> simp_all [Instr.inItsSpace]

theorem inItsSpace_decodeMisc (hc : bits w 28 4 ≠ 15) (h25 : bits w 25 3 = 0)
    (h74 : ¬(bits w 7 1 = 1 ∧ bits w 4 1 = 1)) (h23 : bits w 23 2 = 2 ∧ bits w 20 1 = 0) :
    (decodeMisc w).inItsSpace = true := by
  have hspace := inControlRegSpace_iff (w := w)
  unfold decodeMisc
  split_ifs <;> simp_all [Instr.inItsSpace]

theorem inItsSpace_decodeDataProcessing : (decodeDataProcessing w).inItsSpace = true := by
  rcases four_bit_cases (bits w 21 4) with h | h | h | h | h | h | h | h | h | h | h | h | h | h | h | h <;>
    simp only [decodeDataProcessing, h, BitVec.ofNat_eq_ofNat, BitVec.reduceEq, if_true, if_false,
      apply_ite Instr.inItsSpace] <;>
    simp [Instr.inItsSpace]

theorem inItsSpace_decodeLoadStore : (decodeLoadStore w).inItsSpace = true := by
  unfold decodeLoadStore
  split_ifs <;> rfl

theorem inItsSpace_decodeMultiple : (decodeMultiple w).inItsSpace = true := by
  unfold decodeMultiple
  split_ifs <;> rfl

theorem inItsSpace_decodeMsrImmediate (hc : bits w 28 4 ≠ 15) (h25 : bits w 25 3 = 1)
    (h23 : bits w 23 2 = 2 ∧ bits w 20 1 = 0) : (decodeMsrImmediate w).inItsSpace = true := by
  unfold decodeMsrImmediate
  split_ifs with h21
  · rfl
  · rfl
  · exact inControlImmSpace_iff.mpr ⟨hc, h25, h23, bits_one_ne_one.mp h21⟩

theorem inItsSpace_decodeConditional (hc : bits w 28 4 ≠ 15) : (decodeConditional w).inItsSpace = true := by
  rcases three_bit_cases (bits w 25 3) with h | h | h | h | h | h | h | h
  · rw [decodeConditional_of_class_zero h]
    split_ifs with h74 hmisc
    · exact inItsSpace_decodeMultiplies hc h h74
    · exact inItsSpace_decodeMisc hc h h74 hmisc
    · exact inItsSpace_decodeDataProcessing
  · rw [decodeConditional_of_class_one h]
    split_ifs with hmsr
    · exact inItsSpace_decodeMsrImmediate hc h hmsr
    · exact inItsSpace_decodeDataProcessing
  · rw [decodeConditional_of_class_two h]
    exact inItsSpace_decodeLoadStore
  · rw [decodeConditional_of_class_three h]
    split_ifs with h4
    · exact inItsSpace_decodeLoadStore
    · exact inUndefinedSpace_iff.mpr ⟨hc, h, bits_one_ne_zero.mp h4⟩
  · rw [decodeConditional_of_class_four h]
    exact inItsSpace_decodeMultiple
  · rw [decodeConditional_of_class_five h]
    split_ifs <;> rfl
  · rw [decodeConditional_of_class_six h]
    split_ifs with hcp
    · exact inCoprocSpace_iff.mpr ⟨h, hcp⟩
    · rfl
    · rfl
  · rw [decodeConditional_of_class_seven h]
    split_ifs <;> rfl

/-- R218 to R226: an UNDEFINED row is answered for the words of its space only. -/
theorem inItsSpace_decodeWord (w : Word) : (decodeWord w).inItsSpace = true := by
  unfold decodeWord
  split_ifs with h
  · exact inItsSpace_decodeUnconditional h
  · exact inItsSpace_decodeConditional h

/-! ## Every word of a space is decoded to its row -/

theorem decodeWord_of_conditional (hc : bits w 28 4 ≠ 15) : decodeWord w = decodeConditional w := if_neg hc

theorem decodeWord_of_inUndefinedSpace (h : inUndefinedSpace w = true) : decodeWord w = .undefSpace w := by
  obtain ⟨hc, h25, h4⟩ := inUndefinedSpace_iff.mp h
  rw [decodeWord_of_conditional hc, decodeConditional_of_class_three h25, if_neg (bits_one_ne_zero.mpr h4)]

theorem decodeWord_of_inArithSpace (h : inArithSpace w = true) : decodeWord w = .undefArith w := by
  obtain ⟨hc, h25, h24, hop, h74, h5⟩ := inArithSpace_iff.mp h
  rw [decodeWord_of_conditional hc, decodeConditional_of_class_zero h25, if_pos h74]
  rcases hop with hop | hop <;> simp [decodeMultiplies, h5, h24, hop]

theorem decodeWord_of_inLoadStoreSpace (h : inLoadStoreSpace w = true) : decodeWord w = .undefLoadStore w := by
  obtain ⟨hc, h25, h24, hswap, h74, h5⟩ := inLoadStoreSpace_iff.mp h
  rw [decodeWord_of_conditional hc, decodeConditional_of_class_zero h25, if_pos h74, decodeMultiplies, if_pos h5,
    if_neg (bits_one_ne_zero.mpr h24), if_neg hswap]

theorem decodeWord_of_inDoubleSpace (h : inDoubleSpace w = true) : decodeWord w = .undefDouble w := by
  obtain ⟨hc, h25, h20, h74, h50, h51⟩ := inDoubleSpace_iff.mp h
  rw [decodeWord_of_conditional hc, decodeConditional_of_class_zero h25, if_pos h74, decodeMultiplies, if_neg h50,
    if_neg h51, if_pos h20]

theorem decodeWord_of_inControlRegSpace (h : inControlRegSpace w = true) : decodeWord w = .undefControlReg w := by
  obtain ⟨hc, h25, h23, h74, h0, h1, h3, h7⟩ := inControlRegSpace_iff.mp h
  rw [decodeWord_of_conditional hc, decodeConditional_of_class_zero h25, if_neg h74, if_pos h23, decodeMisc, if_neg h0]
  split_ifs <;> simp_all

theorem decodeWord_of_inControlImmSpace (h : inControlImmSpace w = true) : decodeWord w = .undefControlImm w := by
  obtain ⟨hc, h25, h23, h21⟩ := inControlImmSpace_iff.mp h
  rw [decodeWord_of_conditional hc, decodeConditional_of_class_one h25, if_pos h23, decodeMsrImmediate,
    if_neg (bits_one_ne_one.mpr h21)]

theorem decodeWord_of_inCoprocSpace (h : inCoprocSpace w = true) : decodeWord w = .undefCoprocSpace w := by
  obtain ⟨h25, hcp⟩ := inCoprocSpace_iff.mp h
  by_cases hc : bits w 28 4 = 15
  · simp [decodeWord, hc, decodeUnconditional, h25, hcp]
  · rw [decodeWord_of_conditional hc, decodeConditional_of_class_six h25, if_pos hcp]

theorem decodeWord_of_inUnconditionalSpace (h : inUnconditionalSpace w = true) :
    decodeWord w = .undefUnconditional w := by
  obtain ⟨hc, h5, h6, h24⟩ := inUnconditionalSpace_iff.mp h
  rw [decodeWord, if_pos hc, decodeUnconditional, if_neg h5, if_neg h6, if_neg h24]

end

/-- Settles O4: an UNDEFINED row is answered in its space only, and every word of a space is answered that row. -/
theorem undefinedSpaces : Obligations.UndefinedSpaces := by
  unfold Obligations.UndefinedSpaces
  intro w
  have space {i : Instr} (h : decodeWord w = i) : i.inItsSpace = true := h ▸ inItsSpace_decodeWord w
  exact ⟨⟨space, decodeWord_of_inUndefinedSpace⟩, ⟨space, decodeWord_of_inArithSpace⟩,
    ⟨space, decodeWord_of_inLoadStoreSpace⟩, ⟨space, decodeWord_of_inDoubleSpace⟩,
    ⟨space, decodeWord_of_inControlRegSpace⟩, ⟨space, decodeWord_of_inControlImmSpace⟩,
    ⟨space, decodeWord_of_inCoprocSpace⟩, ⟨space, decodeWord_of_inUnconditionalSpace⟩⟩

end Sys2Proof
end

section
/-! Decoding an encoded instruction (R160 to R228), format by format. -/

namespace Sys2Proof

/-! ## The region of a word by its fields -/

section
variable {w : Word}

theorem decodeWord_eq_multiplies (hc : bits w 28 4 ≠ 15) (h25 : bits w 25 3 = 0) (h7 : bit w 7 = true)
    (h4 : bit w 4 = true) : decodeWord w = decodeMultiplies w := by
  rw [decodeWord_of_conditional hc, decodeConditional_of_class_zero h25,
    if_pos ⟨bits_one_eq_one.mpr h7, bits_one_eq_one.mpr h4⟩]

theorem decodeWord_eq_misc (hc : bits w 28 4 ≠ 15) (h25 : bits w 25 3 = 0) (h7 : bit w 7 = false)
    (h23 : bits w 23 2 = 2) (h20 : bit w 20 = false) : decodeWord w = decodeMisc w := by
  rw [decodeWord_of_conditional hc, decodeConditional_of_class_zero h25,
    if_neg fun h => bits_one_ne_one.mpr (bits_one_eq_zero.mpr h7) h.1, if_pos ⟨h23, bits_one_eq_zero.mpr h20⟩]

theorem class_eq_append (w : Word) : bits w 25 3 = bits w 26 2 ++ bits w 25 1 := (bits_append w 25 2 1).symm

theorem decodeWord_eq_dataProcessing (hc : bits w 28 4 ≠ 15) (h26 : bits w 26 2 = 0)
    (hop : bit w 25 = true ∨ bit w 4 = false ∨ bit w 7 = false) (hs : bits w 23 2 = 2 → bit w 20 = true) :
    decodeWord w = decodeDataProcessing w := by
  have hs' : ¬(bits w 23 2 = 2 ∧ bits w 20 1 = 0) := fun h => by
    have := hs h.1
    simp_all [bits_one]
  rw [decodeWord_of_conditional hc]
  cases h : bit w 25
  · have h25 : bits w 25 3 = 0 := by rw [class_eq_append, h26, bits_one, h]; rfl
    have h74 : ¬(bits w 7 1 = 1 ∧ bits w 4 1 = 1) := by
      rintro ⟨h7, h4⟩
      simp_all [bits_one_eq_one]
    rw [decodeConditional_of_class_zero h25, if_neg h74, if_neg hs']
  · have h25 : bits w 25 3 = 1 := by rw [class_eq_append, h26, bits_one, h]; rfl
    rw [decodeConditional_of_class_one h25, if_neg hs']

theorem decodeWord_eq_loadStore (hc : bits w 28 4 ≠ 15) (h26 : bits w 26 2 = 1)
    (hoff : bit w 25 = false ∨ bit w 4 = false) : decodeWord w = decodeLoadStore w := by
  rw [decodeWord_of_conditional hc]
  cases h : bit w 25
  · have h25 : bits w 25 3 = 2 := by rw [class_eq_append, h26, bits_one, h]; rfl
    rw [decodeConditional_of_class_two h25]
  · have h25 : bits w 25 3 = 3 := by rw [class_eq_append, h26, bits_one, h]; rfl
    have h4 : bits w 4 1 = 0 := bits_one_eq_zero.mpr (by simpa [h] using hoff)
    rw [decodeConditional_of_class_three h25, if_pos h4]

end

/-! ## Decoding an encoded instruction -/

/-- The word of a well-formed instruction is decoded to it: its format gives the fields (each hypothesis is named after
the bit its field begins at), they give the region, and the decoder of the region reads the instruction from them. -/
theorem decodeWord_of_encode_eq {i : Instr} {w : Word} (hi : i.wellFormed = true) (hw : encode i = w) :
    decodeWord w = i := by
  cases i with
  | undefCoprocSpace => exact hw ▸ decodeWord_of_inCoprocSpace hi
  | undefUnconditional => exact hw ▸ decodeWord_of_inUnconditionalSpace hi
  | undefControlImm => exact hw ▸ decodeWord_of_inControlImmSpace hi
  | undefArith => exact hw ▸ decodeWord_of_inArithSpace hi
  | undefLoadStore => exact hw ▸ decodeWord_of_inLoadStoreSpace hi
  | undefDouble => exact hw ▸ decodeWord_of_inDoubleSpace hi
  | undefControlReg => exact hw ▸ decodeWord_of_inControlRegSpace hi
  | undefSpace => exact hw ▸ decodeWord_of_inUndefinedSpace hi
  | unpredBkpt | unpredBx | unpredClz | unpredMrs | unpredMsrReg | unpredMsrImm | unpredMul | unpredSwp | unpredTst
  | unpredTeq | unpredCmp | unpredCmn | unpredMov | unpredMvn => cases hi
  | blx1 h immed =>
    obtain ⟨hc, h25, h24, h0⟩ := encode_blx1_eq_iff.mp hw
    simp [decodeWord, decodeUnconditional, hc, h25, h24, h0]
  | cdp2 =>
    obtain ⟨hc, h24, h20, h16, h12, h8, h5, h4, h0⟩ := encodeCdp_eq_iff.mp hw
    have h25 : bits w 25 3 = 7 := bits_of_bits h24 1 3 (by decide)
    simp [decodeWord, decodeUnconditional, hc, h25, h24, h20, h16, h12, h8, h5, h4, h0, bits_one_eq_zero]
  | cdp c =>
    obtain ⟨hc, h24, h20, h16, h12, h8, h5, h4, h0⟩ := encodeCdp_eq_iff.mp hw
    have h25 : bits w 25 3 = 7 := bits_of_bits h24 1 3 (by decide)
    have hl : bits w 24 1 = 0 := bits_of_bits h24 0 1 (by decide)
    rw [decodeWord_of_conditional (hc ▸ c.toBits_ne_fifteen), decodeConditional_of_class_seven h25]
    simp [hl, hc, h20, h16, h12, h8, h5, h4, h0, bits_one_eq_zero, Cond.ofBits_toBits]
  | mcr2 | mrc2 =>
    obtain ⟨hc, h24, h21, h20, h16, h12, h8, h5, h4, h0⟩ := encodeCpMove_eq_iff.mp hw
    have h25 : bits w 25 3 = 7 := bits_of_bits h24 1 3 (by decide)
    simp [decodeWord, decodeUnconditional, hc, h25, h24, h21, h20, h16, h12, h8, h5, h4, h0, bits_one_eq_zero]
  | mcr c | mrc c =>
    obtain ⟨hc, h24, h21, h20, h16, h12, h8, h5, h4, h0⟩ := encodeCpMove_eq_iff.mp hw
    have h25 : bits w 25 3 = 7 := bits_of_bits h24 1 3 (by decide)
    have hl : bits w 24 1 = 0 := bits_of_bits h24 0 1 (by decide)
    rw [decodeWord_of_conditional (hc ▸ c.toBits_ne_fifteen), decodeConditional_of_class_seven h25]
    simp [hl, hc, h21, h20, h16, h12, h8, h5, h4, h0, bits_one_eq_zero, Cond.ofBits_toBits]
  | ldc2 mode | stc2 mode =>
    obtain ⟨hc, h25, h23, h22, h21, h20, h16, h12, h8, h0⟩ := encodeCpLs_eq_iff.mp hw
    rw [decodeWord, if_pos hc, decodeUnconditional, if_neg (by rw [h25]; decide), if_pos h25,
      if_neg (Mode5.fields_allocated h23 h21), Mode5.ofWord_of_fields h23 h21 h0]
    simp [h22, bit_of_bits_one h20, h16, h12, h8]
  | ldc c mode | stc c mode =>
    obtain ⟨hc, h25, h23, h22, h21, h20, h16, h12, h8, h0⟩ := encodeCpLs_eq_iff.mp hw
    rw [decodeWord_of_conditional (hc ▸ c.toBits_ne_fifteen), decodeConditional_of_class_six h25,
      if_neg (Mode5.fields_allocated h23 h21), Mode5.ofWord_of_fields h23 h21 h0]
    simp [hc, h22, h20, h16, h12, h8, Cond.ofBits_toBits]
  | mul c | mla c | umull c | umlal c | smull c | smlal c =>
    obtain ⟨hc, h25, h24, h21, h20, h16, h12, h8, h7, h5, h4, h0⟩ := encodeMul_eq_iff.mp hw
    rw [decodeWord_eq_multiplies (hc ▸ c.toBits_ne_fifteen) h25 h7 h4]
    simp [decodeMultiplies, hc, h24, h21, h20, h16, h12, h8, h5, h0, Cond.ofBits_toBits, bits_one_eq_zero]
  | swp c =>
    obtain ⟨hc, h25, h24, h23, h22, h20, h16, h12, h8, h7, h5, h4, h0⟩ := encode_swp_eq_iff.mp hw
    rw [decodeWord_eq_multiplies (hc ▸ c.toBits_ne_fifteen) h25 h7 h4]
    simp [decodeMultiplies, hc, h24, h23, h22, h20, h16, h12, h8, h5, h0, Cond.ofBits_toBits, bits_one_eq_zero]
  | swpb c =>
    obtain ⟨hc, h25, h24, h23, h22, h20, h16, h12, h8, h7, h5, h4, h0⟩ := encode_swpb_eq_iff.mp hw
    rw [decodeWord_eq_multiplies (hc ▸ c.toBits_ne_fifteen) h25 h7 h4]
    simp [decodeMultiplies, hc, h24, h23, h22, h20, h16, h12, h8, h5, h0, Cond.ofBits_toBits, bits_one_eq_zero]
  | strh c | ldrh c | ldrsb c | ldrsh c =>
    obtain ⟨hc, h25, h24, h23, h22, h21, h20, h16, h12, h8, h7, h5, h4, h0⟩ := encodeHalf_eq_iff.mp hw
    rw [decodeWord_eq_multiplies (hc ▸ c.toBits_ne_fifteen) h25 h7 h4]
    simp [decodeMultiplies, hc, h24, h23, h21, h20, h16, h12, h5, Offset3.ofWord_of_fields h22 h8 h0,
      Cond.ofBits_toBits]
  | bkpt =>
    obtain ⟨hc, h25, h23, h21, h20, h8, h4, h0⟩ := encode_bkpt_eq_iff.mp hw
    have h7 : bits w 7 1 = 0 := bits_of_bits h4 3 1 (by decide)
    rw [decodeWord_eq_misc (hc ▸ by decide) h25 (bits_one_eq_zero.mp h7) h23 h20]
    simp [decodeMisc, hc, h21, h8, h4, h0]
  | bx c =>
    obtain ⟨hc, h25, h23, h21, h20, h8, h4, h0⟩ := encode_bx_eq_iff.mp hw
    have h7 : bits w 7 1 = 0 := bits_of_bits h4 3 1 (by decide)
    rw [decodeWord_eq_misc (hc ▸ c.toBits_ne_fifteen) h25 (bits_one_eq_zero.mp h7) h23 h20]
    simp [decodeMisc, hc, h21, h8, h4, h0, Cond.ofBits_toBits]
  | blx2 c =>
    obtain ⟨hc, h25, h23, h21, h20, h8, h4, h0⟩ := encode_blx2_eq_iff.mp hw
    have h7 : bits w 7 1 = 0 := bits_of_bits h4 3 1 (by decide)
    rw [decodeWord_eq_misc (hc ▸ c.toBits_ne_fifteen) h25 (bits_one_eq_zero.mp h7) h23 h20]
    simp [decodeMisc, hc, h21, h8, h4, h0, Cond.ofBits_toBits]
  | clz c =>
    obtain ⟨hc, h25, h23, h21, h20, h16, h12, h8, h4, h0⟩ := encode_clz_eq_iff.mp hw
    have h7 : bits w 7 1 = 0 := bits_of_bits h4 3 1 (by decide)
    rw [decodeWord_eq_misc (hc ▸ c.toBits_ne_fifteen) h25 (bits_one_eq_zero.mp h7) h23 h20]
    simp [decodeMisc, hc, h21, h16, h12, h8, h4, h0, Cond.ofBits_toBits]
  | mrs c =>
    obtain ⟨hc, h25, h23, h22, h21, h20, h16, h12, h0⟩ := encode_mrs_eq_iff.mp hw
    have h7 : bits w 7 1 = 0 := bits_of_bits h0 7 1 (by decide)
    have h4 : bits w 4 4 = 0 := bits_of_bits h0 4 4 (by decide)
    rw [decodeWord_eq_misc (hc ▸ c.toBits_ne_fifteen) h25 (bits_one_eq_zero.mp h7) h23 h20]
    simp [decodeMisc, hc, h22, h21, h16, h12, h4, h0, bits_one_eq_zero, Cond.ofBits_toBits]
  | msrReg c =>
    obtain ⟨hc, h25, h23, h22, h21, h20, h16, h12, h8, h4, h0⟩ := encode_msrReg_eq_iff.mp hw
    have h7 : bits w 7 1 = 0 := bits_of_bits h4 3 1 (by decide)
    rw [decodeWord_eq_misc (hc ▸ c.toBits_ne_fifteen) h25 (bits_one_eq_zero.mp h7) h23 h20]
    simp [decodeMisc, hc, h22, h21, h16, h12, h8, h4, h0, bits_one_eq_zero, Cond.ofBits_toBits]
  | msrImm c =>
    obtain ⟨hc, h25, h23, h22, h21, h20, h16, h12, h8, h0⟩ := encode_msrImm_eq_iff.mp hw
    rw [decodeWord_of_conditional (hc ▸ c.toBits_ne_fifteen), decodeConditional_of_class_one h25]
    simp [decodeMsrImmediate, hc, h23, h22, h21, h20, h16, h12, h8, h0, bits_one_eq_zero, bits_one_eq_one,
      Cond.ofBits_toBits]
  | and c | eor c | sub c | rsb c | add c | adc c | sbc c | rsc c | orr c | mov c | bic c | mvn c =>
    obtain ⟨hc, h26, h25, h21, h20, h16, h12, h0⟩ := encodeDp_eq_iff.mp hw
    have h23 := bits_of_bits h21 2 2 (by decide)
    rw [decodeWord_eq_dataProcessing (hc ▸ c.toBits_ne_fifteen) h26 (Operand2.bit_of_fields h25 h0)
      fun h => absurd (h23.symm.trans h) (by decide)]
    simp [decodeDataProcessing, hc, h21, h20, h16, h12, Operand2.ofWord_of_fields h25 h0, Cond.ofBits_toBits]
  | tst c | teq c | cmp c | cmn c =>
    obtain ⟨hc, h26, h25, h21, h20, h16, h12, h0⟩ := encodeDp_eq_iff.mp hw
    rw [decodeWord_eq_dataProcessing (hc ▸ c.toBits_ne_fifteen) h26 (Operand2.bit_of_fields h25 h0) fun _ => h20]
    simp [decodeDataProcessing, hc, h21, h16, h12, Operand2.ofWord_of_fields h25 h0, Cond.ofBits_toBits]
  | ldrt c | ldrbt c | strt c | strbt c =>
    obtain ⟨hc, h26, h25, h24, h23, h22, h21, h20, h16, h12, h0⟩ := encodeLs_eq_iff.mp hw
    rw [decodeWord_eq_loadStore (hc ▸ c.toBits_ne_fifteen) h26 (Offset2.bit_four_of_fields h25 h0)]
    simp [decodeLoadStore, hc, h24, h23, h22, h21, h20, h16, h12, Offset2.ofWord_of_fields h25 h0, Cond.ofBits_toBits]
  | ldr c idx | ldrb c idx | str c idx | strb c idx =>
    obtain ⟨hc, h26, h25, h24, h23, h22, h21, h20, h16, h12, h0⟩ := encodeLs_eq_iff.mp hw
    rw [decodeWord_eq_loadStore (hc ▸ c.toBits_ne_fifteen) h26 (Offset2.bit_four_of_fields h25 h0), decodeLoadStore,
      if_neg (Index.fields_not_user h24 h21), Index.ofBits_of_fields h24 h21]
    simp [hc, h23, h22, h20, h16, h12, Offset2.ofWord_of_fields h25 h0, Cond.ofBits_toBits]
  | ldm3 c | ldm2 c =>
    obtain ⟨hc, h25, h23, h22, h21, h20, h16, h0⟩ := encodeLsm_eq_iff.mp hw
    rw [decodeWord_of_conditional (hc ▸ c.toBits_ne_fifteen), decodeConditional_of_class_four h25]
    obtain ⟨h15, h0⟩ := append_eq_bits.mp h0.symm
    simp [decodeMultiple, hc, Mode4.ofBits_of_field h23, h22, h21, h20, h16, h15.symm, h0.symm, Cond.ofBits_toBits]
  | ldm1 c | stm2 c | stm1 c =>
    obtain ⟨hc, h25, h23, h22, h21, h20, h16, h0⟩ := encodeLsm_eq_iff.mp hw
    rw [decodeWord_of_conditional (hc ▸ c.toBits_ne_fifteen), decodeConditional_of_class_four h25]
    simp [decodeMultiple, hc, Mode4.ofBits_of_field h23, h22, h21, h20, h16, h0, Cond.ofBits_toBits]
  | b c =>
    obtain ⟨hc, h25, h24, h0⟩ := encode_b_eq_iff.mp hw
    rw [decodeWord_of_conditional (hc ▸ c.toBits_ne_fifteen), decodeConditional_of_class_five h25]
    simp [hc, h24, h0, bits_one_eq_zero, Cond.ofBits_toBits]
  | bl c =>
    obtain ⟨hc, h25, h24, h0⟩ := encode_bl_eq_iff.mp hw
    rw [decodeWord_of_conditional (hc ▸ c.toBits_ne_fifteen), decodeConditional_of_class_five h25]
    simp [hc, h24, h0, bits_one_eq_zero, Cond.ofBits_toBits]
  | swi c =>
    obtain ⟨hc, h25, h24, h0⟩ := encode_swi_eq_iff.mp hw
    rw [decodeWord_of_conditional (hc ▸ c.toBits_ne_fifteen), decodeConditional_of_class_seven h25]
    simp [hc, h24, h0, bits_one_eq_one, Cond.ofBits_toBits]

theorem wordOfBytes_bytesOfWord (w : Word) :
    wordOfBytes (w.extractLsb' 0 8) (w.extractLsb' 8 8) (w.extractLsb' 16 8) (w.extractLsb' 24 8) = w := by
  unfold wordOfBytes
  rw [eq_word_iff]
  iterate 3 rw [append_eq_bits]
  exact ⟨⟨⟨rfl, rfl⟩, rfl⟩, rfl⟩

theorem decode_bytesOfWord (w : Word) : decode (bytesOfWord w) = .ok (decodeWord w) :=
  congrArg (fun v => Except.ok (decodeWord v)) (wordOfBytes_bytesOfWord w)

/-- Settles O2: the fields of an encoding lead the decoder to its row, and the four bytes are those of the word. -/
theorem decodeOfEncode : Obligations.DecodeOfEncode := by
  unfold Obligations.DecodeOfEncode
  intro i hi
  have h : decodeWord (encode i) = i := decodeWord_of_encode_eq hi rfl
  exact ⟨h, by rw [decode_bytesOfWord, h]⟩

end Sys2Proof
end

section
/-! When an instruction is executed (R164, R165, R222): its frame, its condition, and the rule of R440. -/

namespace Sys2Proof.Machine

/-! ## Every instruction in its frame (R165, R166, R222) -/

section
variable {i : Instr} {c : Cond} {body : State → Result} {s : State} {w : Word}

theorem conditional_fault {why : EncodingFault} (hi : i.unpredictable = some why) :
    conditional i c body s = .fault (.unpredictable why) := by
  simp [conditional, encodingFault, hi]

theorem always_fault {why : EncodingFault} (hi : i.unpredictable = some why) :
    always i body s = .fault (.unpredictable why) := by
  simp [always, encodingFault, hi]

/-- The condition an UNDEFINED word is executed under: none in the unconditional space (R166). -/
def undefinedCond (w : Word) : Option Cond := if bits w 28 4 = 15 then none else some (Cond.ofBits (bits w 28 4))

theorem undefinedWord_of_cond (hi : i.unpredictable = none) (h : undefinedCond w = some c) (s : State) :
    undefinedWord w s = conditional i c (fun s => .next (undefinedException s)) s := by
  unfold undefinedCond at h
  split_ifs at h with h15
  cases h
  have hne : (bits w 28 4 == 15) = false := beq_false_of_ne h15
  simp only [undefinedWord, undefinedTraps, hne, Bool.false_or, conditional, encodingFault, hi]

theorem undefinedWord_of_unconditional (hi : i.unpredictable = none) (h : undefinedCond w = none) (s : State) :
    undefinedWord w s = always i (fun s => .next (undefinedException s)) s := by
  unfold undefinedCond at h
  split_ifs at h with h15
  simp [undefinedWord, undefinedTraps, h15, always_runs hi]

/-- An instruction with a condition is a conditional instruction: the encoding check, the condition, its own body. -/
theorem exec_eq_conditional (h : condOf i = some c) : ∃ body, ∀ s, exec i s = conditional i c body s := by
  cases i
  case undefCoprocSpace | undefUnconditional | undefControlImm | undefArith | undefLoadStore | undefDouble |
      undefControlReg | undefSpace => exact ⟨_, undefinedWord_of_cond rfl h⟩
  all_goals cases h
  all_goals exact ⟨_, fun _ => rfl⟩

/-- An instruction without a condition field is an unconditional one: the encoding check, then its own body. The
UNPREDICTABLE rows never pass the check, so any body serves for them. -/
theorem exec_eq_always (h : condOf i = none) : ∃ body, ∀ s, exec i s = always i body s := by
  cases i
  case undefCoprocSpace | undefUnconditional | undefControlImm | undefArith | undefLoadStore | undefDouble |
      undefControlReg | undefSpace => exact ⟨_, undefinedWord_of_unconditional rfl h⟩
  case blx1 | cdp2 | mcr2 | mrc2 | ldc2 | stc2 | bkpt => exact ⟨_, fun _ => rfl⟩
  case unpredBkpt | unpredBx | unpredClz | unpredMrs | unpredMsrReg | unpredMsrImm | unpredMul | unpredSwp | unpredTst |
      unpredTeq | unpredCmp | unpredCmn | unpredMov | unpredMvn => exact ⟨advance, fun _ => rfl⟩
  all_goals cases h

/-- R222 (1): an UNPREDICTABLE encoding stops. -/
theorem exec_of_unpredictable {why : EncodingFault} (hi : i.unpredictable = some why) (s : State) :
    exec i s = .fault (.unpredictable why) := by
  cases h : condOf i with
  | none =>
    obtain ⟨body, hexec⟩ := exec_eq_always h
    rw [hexec, always_fault hi]
  | some c =>
    obtain ⟨body, hexec⟩ := exec_eq_conditional h
    rw [hexec, conditional_fault hi]

theorem unpredictable_eq_none_of_wellFormed (h : i.wellFormed = true) : i.unpredictable = none := by
  unfold Instr.wellFormed at h
  rw [Bool.and_eq_true, beq_iff_eq] at h
  exact h.1

/-- R165: an instruction whose condition fails only advances. -/
theorem exec_of_failed (hi : i.unpredictable = none) (h : condOf i = some c) (hc : conditionPassed c s.cpsr = false) :
    exec i s = advance s := by
  obtain ⟨body, hexec⟩ := exec_eq_conditional h
  rw [hexec, conditional_failed hi hc]

/-- R222 (2): an UNDEFINED word whose condition, if it has one, passes. -/
theorem undefinedWord_traps (h : ∀ c, undefinedCond w = some c → conditionPassed c s.cpsr = true) :
    undefinedWord w s = .next (undefinedException s) := by
  cases hw : undefinedCond w with
  | none =>
    rw [undefinedWord_of_unconditional (i := .undefSpace w) rfl hw, always_runs rfl]
  | some c => rw [undefinedWord_of_cond (i := .undefSpace w) rfl hw, conditional_passed rfl (h c hw)]

end

/-- Settles O11: a conditional instruction advances where its condition fails, and Table 3-1 is checked
for every code with every value of the four flags. -/
theorem conditions : Obligations.Conditions := by
  unfold Obligations.Conditions
  refine ⟨fun i c s hi h hc hpc => ?_, fun code psr => ?_⟩
  · rw [exec_of_failed (unpredictable_eq_none_of_wellFormed hi) h hc, advance_of_ne hpc]
  · unfold conditionPassed
    generalize flagN psr = n, flagZ psr = z, flagC psr = c, flagV psr = v
    revert code n z c v
    decide

/-- Settles O12: the encoding check comes first in every instruction, and the fourteen rows never pass it. -/
theorem unpredictableStops : Obligations.UnpredictableStops := by
  unfold Obligations.UnpredictableStops
  refine ⟨fun i why s hi => exec_of_unpredictable hi s, fun w s => ?_⟩
  have stops {i : Instr} {why : EncodingFault} (hi : i.unpredictable = some why) := exec_of_unpredictable hi s
  exact ⟨stops rfl, stops rfl, stops rfl, stops rfl, stops rfl, stops rfl, stops rfl, stops rfl, stops rfl, stops rfl,
    stops rfl, stops rfl, stops rfl, stops rfl⟩

/-- Settles O21: each of the eight rows is an UNDEFINED word, under the condition of its word. -/
theorem undefinedWordsTrap : Obligations.UndefinedWordsTrap := by
  unfold Obligations.UndefinedWordsTrap
  rintro w s i (rfl | rfl | rfl | rfl | rfl | rfl | rfl | rfl) h <;> exact undefinedWord_traps h.condition

/-! ## The instruction after LDM (2) or STM (2) (R440) -/

theorem runInstr_of_stops {i : Instr} {s : State} (h : hazardStops i s = true) :
    runInstr i s = .fault .bankedAfterUserBank :=
  if_pos h

theorem clearHazard_of_clear {s : State} (h : s.userBankHazard = false) : clearHazard s = s := by
  unfold clearHazard
  rw [← h]

end Sys2Proof.Machine

namespace Sys2Proof
open Machine

/-- Settles O14: `hazardStops` asks for what R440 asks, and `runInstr` otherwise clears the flag and runs. -/
theorem hazardStops : Obligations.HazardStops := by
  unfold Obligations.HazardStops
  intro i s named executed
  refine ⟨fun hflag hi hexec hnamed => ?_, fun hflag => ?_, fun hflag hnot => ?_⟩
  · exact runInstr_of_stops (hazardStops_iff.mpr ⟨hflag, hi, executedUnder_iff.mpr hexec, hnamed⟩)
  · have hstop : Machine.hazardStops i s = false := by simp [Machine.hazardStops, hflag]
    rw [runInstr_of_clear hstop, clearHazard_of_clear hflag]
  · refine runInstr_of_clear (Bool.eq_false_iff.mpr fun h => ?_)
    obtain ⟨-, hi, hexec, hnamed⟩ := hazardStops_iff.mp h
    rcases hnot with hnot | hnot | hnot
    · exact hnot hi
    · exact hnot (executedUnder_iff.mp hexec)
    · exact hnot hnamed

/-- Settles O3: closed words. -/
theorem decodeSamples : Obligations.DecodeSamples := by
  unfold Obligations.DecodeSamples
  decide

end Sys2Proof
end

section
/-! BX and BLX (2) (R233, R234). -/

namespace Sys2Proof.Machine

section
variable {c : Cond} {rm : RegNum} {s u : State} {i : Instr} {target : Word}

theorem exec_bx (hr : Runs (.bx c rm) s) : exec (.bx c rm) s = interwork (s.readReg rm) s := by
  simp only [exec, execBx]
  exact conditional_of_runs hr rfl

/-- D28: the target is Rm of the state before the link, also where Rm is R14. -/
theorem exec_blx2 (hr : Runs (.blx2 c rm) s) : exec (.blx2 c rm) s = interwork (s.readReg rm) (writeLink s) := by
  simp only [exec, execBlx2]
  exact conditional_of_runs hr rfl

theorem interwork_of_bad (h : bits target 0 2 = 0b10) : interwork target u = .fault .interworkTarget :=
  if_pos h

/-- R234: an instruction that ends in an interworking branch from `u`, the CPSR being as it was. -/
theorem interwork_completes (hi : exec i s = interwork target u) (hcpsr : u.cpsr = s.cpsr)
    (hgood : bits target 0 2 ≠ 0b10) : Completes i s fun t =>
      t = { u with pc := target &&& 0xFFFFFFFE, cpsr := t.cpsr, privDropPending := false } ∧
      ∀ k, bit t.cpsr k = if k = 5 then bit target 0 else bit s.cpsr k := by
  refine ⟨_, hi.trans (interwork_next.mpr ⟨hgood, rfl⟩), rfl, fun k => ?_⟩
  rw [jump_cpsr, bit_setT, hcpsr]

end

/-- Settles O36: both are `interwork` with Rm as it was before, from the state itself and from the state with the
link written, which leaves the CPSR. -/
theorem branchExchange : Obligations.BranchExchange := by
  unfold Obligations.BranchExchange
  intro c rm s target
  refine ⟨fun hr => ?_, fun hr => ?_⟩
  · exact ⟨interwork_completes (exec_bx hr) rfl, fun hbad => (exec_bx hr).trans (interwork_of_bad hbad)⟩
  · exact ⟨interwork_completes (exec_blx2 hr) (writeReg_cpsr s 14 (s.pc + 4)),
      fun hbad => (exec_blx2 hr).trans (interwork_of_bad hbad)⟩

end Sys2Proof.Machine
end

section
/-! The logical class and the comparisons (R264): a result and its flags with C from the shifter, and flags alone. -/

namespace Sys2Proof.Machine

/-! ## The logical class -/

/-- N, Z, C and V of the logical class: V is as it was (R264). -/
theorem nzcv_logicalFlags (psr v : Word) (shifterCarry : Bool) :
    nzcv (logicalFlags psr v shifterCarry) =
      (decide (v.toInt < 0), decide (v = 0), shifterCarry, flagV psr) := by
  rw [logicalFlags, nzcv_setNZCV, bit_31_eq, beq_eq_decide]

/-- What an instruction of the logical class does, both where it reads Rn (`logical`) and where not (`move`). -/
theorem writeLogical_completes {i : Instr} {f shifterCarry : Bool} {rd : RegNum} {v : Word} {s : State}
    (hi : exec i s = writeResult f rd v (logicalFlags s.cpsr v shifterCarry) s) (hrd : rd ≠ 15)
    (hpc : s.pc ≠ 0xFFFFFFFC) :
    Completes i s (RegisterOutcome rd v
      (if f then (decide (v.toInt < 0), decide (v = 0), shifterCarry, flagV s.cpsr) else nzcv s.cpsr) s) := by
  have h := writeResult_completes hi hrd hpc (bits_setNZCV s.cpsr _ _ _ _)
  rwa [nzcv_logicalFlags] at h

/-- Settles O23: each of the six writes its result with the flags of the logical class. -/
theorem logicalResults : Obligations.LogicalResults := by
  unfold Obligations.LogicalResults
  intro c f rn rd op s hrd
  exact ⟨fun h => writeLogical_completes (exec_and h.toRuns) hrd h.notLast,
    fun h => writeLogical_completes (exec_eor h.toRuns) hrd h.notLast,
    fun h => writeLogical_completes (exec_orr h.toRuns) hrd h.notLast,
    fun h => writeLogical_completes (exec_bic h.toRuns) hrd h.notLast,
    fun h => writeLogical_completes (exec_mov h.toRuns) hrd h.notLast,
    fun h => writeLogical_completes (exec_mvn h.toRuns) hrd h.notLast⟩

/-! ## The comparisons -/

section
variable {c : Cond} {rn : RegNum} {op : Operand2} {s : State}

theorem exec_tst (h : Runs (.tst c rn op) s) :
    exec (.tst c rn op) s =
      writeFlags (logicalFlags s.cpsr (s.readReg rn &&& (shifterOperand op s).1) (shifterOperand op s).2) s := by
  simp only [exec, execTst]
  exact conditional_of_runs h rfl

theorem exec_teq (h : Runs (.teq c rn op) s) :
    exec (.teq c rn op) s =
      writeFlags (logicalFlags s.cpsr (s.readReg rn ^^^ (shifterOperand op s).1) (shifterOperand op s).2) s := by
  simp only [exec, execTeq]
  exact conditional_of_runs h rfl

theorem exec_cmp (h : Runs (.cmp c rn op) s) :
    exec (.cmp c rn op) s = writeFlags (subFlags s.cpsr (s.readReg rn) (shifterOperand op s).1 false) s := by
  simp only [exec, execCmp]
  exact conditional_of_runs h rfl

theorem exec_cmn (h : Runs (.cmn c rn op) s) :
    exec (.cmn c rn op) s = writeFlags (addFlags s.cpsr (s.readReg rn) (shifterOperand op s).1 false) s := by
  simp only [exec, execCmn]
  exact conditional_of_runs h rfl

end

/-- R278 to R281: the flags written, and nothing else but the pc. -/
theorem writeFlags_completes {i : Instr} {s : State} {psr : Word} {flags : Bool × Bool × Bool × Bool}
    (hi : exec i s = writeFlags psr s) (hpc : s.pc ≠ 0xFFFFFFFC) (hpsr : bits psr 0 28 = bits s.cpsr 0 28)
    (hflags : nzcv psr = flags) : Completes i s (FlagsOutcome flags s) :=
  ⟨_, hi.trans (advance_next.mpr ⟨hpc, rfl⟩), hflags, rfl, fun _ _ => rfl, hpsr, rfl⟩

/-- R280: the Z of a difference says that its operands are equal. -/
theorem nzcv_subFlags_false (psr a b : Word) :
    nzcv (subFlags psr a b false) =
      (decide ((a - b).toInt < 0), decide (a = b), decide (b.toNat ≤ a.toNat),
        decide ((a - b).toInt ≠ a.toInt - b.toInt)) := by
  have hz : a - b = 0 ↔ a = b := sub_eq_zero
  have hcarry : a - b - carryWord false = a - b := BitVec.sub_zero (a - b)
  simp only [nzcv_subFlags, hcarry, hz, Bool.toNat_false, Nat.add_zero, Int.natCast_zero, Int.sub_zero]

/-- R281: the sum of two operands without a carry in. -/
theorem nzcv_addFlags_false (psr a b : Word) :
    nzcv (addFlags psr a b false) =
      (decide ((BitVec.ofNat 32 (a.toNat + b.toNat)).toInt < 0), decide (BitVec.ofNat 32 (a.toNat + b.toNat) = 0),
        decide (2 ^ 32 ≤ a.toNat + b.toNat),
        decide ((BitVec.ofNat 32 (a.toNat + b.toNat)).toInt ≠ a.toInt + b.toInt)) := by
  rw [nzcv_addFlags, sum_eq_ofNat]
  simp only [Bool.toNat_false, Nat.add_zero, Int.natCast_zero, Int.add_zero]

/-- R279: the Z of an exclusive OR says that its operands are equal. -/
theorem nzcv_logicalFlags_xor (psr a b : Word) (shifterCarry : Bool) :
    nzcv (logicalFlags psr (a ^^^ b) shifterCarry) =
      (decide ((a ^^^ b).toInt < 0), decide (a = b), shifterCarry, flagV psr) := by
  have hz : a ^^^ b = 0 ↔ a = b := BitVec.xor_eq_zero_iff
  simp only [nzcv_logicalFlags, hz]

/-- Settles O26: each of the four writes the flags of the operation it is named after. -/
theorem comparisonFlags : Obligations.ComparisonFlags := by
  unfold Obligations.ComparisonFlags
  intro c rn op s
  exact ⟨fun h => writeFlags_completes (exec_tst h.toRuns) h.notLast (bits_setNZCV ..) (nzcv_logicalFlags ..),
    fun h => writeFlags_completes (exec_teq h.toRuns) h.notLast (bits_setNZCV ..) (nzcv_logicalFlags_xor ..),
    fun h => writeFlags_completes (exec_cmp h.toRuns) h.notLast (bits_setNZCV ..) (nzcv_subFlags_false ..),
    fun h => writeFlags_completes (exec_cmn h.toRuns) h.notLast (bits_setNZCV ..) (nzcv_addFlags_false ..)⟩

end Sys2Proof.Machine
end

section
/-! The shifter operand (R251 to R262): the shifts of R15 as arithmetic and bit by bit, then each form of operand as one
of these shifts for every amount. -/

namespace Sys2Proof.Machine

/-! ## The shifts as arithmetic (R15) -/

theorem toNat_lsl (x : Word) (n : Nat) : (lsl x n).toNat = x.toNat * 2 ^ n % 2 ^ 32 := by
  rw [lsl, BitVec.toNat_shiftLeft, Nat.shiftLeft_eq]

theorem toNat_lsr (x : Word) (n : Nat) : (lsr x n).toNat = x.toNat / 2 ^ n := by
  rw [lsr, BitVec.toNat_ushiftRight, Nat.shiftRight_eq_div_pow]

theorem toInt_asr (x : Word) (n : Nat) : (asr x n).toInt = x.toInt / 2 ^ n := by
  rw [asr, BitVec.toInt_sshiftRight, Int.shiftRight_eq_div_pow]
  norm_cast

/-- Rotation right turns the bits: bit `k` is the bit `n` places above it, modulo 32. -/
theorem bit_ror (x : Word) {n k : Nat} (hn : n < 32) (hk : k < 32) : bit (ror x n) k = bit x ((k + n) % 32) := by
  unfold ror bit
  split
  · next h0 => rw [h0, Nat.add_zero, Nat.mod_eq_of_lt hk]
  · simp only [BitVec.getLsbD_or, BitVec.getLsbD_ushiftRight, BitVec.getLsbD_shiftLeft, hk, decide_true, Bool.true_and]
    by_cases hlow : k + n < 32
    · rw [Nat.mod_eq_of_lt hlow, Nat.add_comm n k]
      simp [show k < 32 - n by omega]
    · have hmod : (k + n) % 32 = k - (32 - n) := by omega
      simp [hmod, show ¬ k < 32 - n by omega, BitVec.getLsbD_of_ge x (n + k) (by omega)]

/-! ## Shifts by 32 or more -/

theorem lsl_of_ge (x : Word) {n : Nat} (hn : 32 ≤ n) : lsl x n = 0 := BitVec.shiftLeft_eq_zero hn

theorem lsr_of_ge (x : Word) {n : Nat} (hn : 32 ≤ n) : lsr x n = 0 := BitVec.ushiftRight_eq_zero hn

theorem asr_of_ge (x : Word) {n : Nat} (hn : 32 ≤ n) : asr x n = signFill x := by
  have hmsb : x.msb = bit x 31 := BitVec.msb_eq_getLsbD_last x
  have hones : (0xFFFFFFFF : Word) = BitVec.allOnes 32 := by decide
  unfold asr signFill
  ext k hk
  rw [BitVec.getElem_sshiftRight, dif_neg (by omega), hmsb, hones]
  cases bit x 31 with
  | false => exact (BitVec.getElem_zero hk).symm
  | true => exact (BitVec.getElem_allOnes k hk).symm

/-! ## A register shifted by an immediate (R252 to R261) -/

section
variable (amount : BitVec 5) (x : Word) (c : Bool)

theorem shiftByImmediate_lsl :
    shiftByImmediate .lsl amount x c =
      (lsl x amount.toNat, if amount.toNat = 0 then c else bit x (32 - amount.toNat)) := by
  simp only [shiftByImmediate]
  split
  · next h0 => simp [h0, lsl]
  · rfl

theorem shiftByImmediate_lsr :
    let n := if amount.toNat = 0 then 32 else amount.toNat
    shiftByImmediate .lsr amount x c = (lsr x n, bit x (n - 1)) := by
  simp only [shiftByImmediate]
  split
  · rw [lsr_of_ge x (le_refl 32)]
  · rfl

theorem shiftByImmediate_asr :
    let n := if amount.toNat = 0 then 32 else amount.toNat
    shiftByImmediate .asr amount x c = (asr x n, bit x (n - 1)) := by
  simp only [shiftByImmediate]
  split
  · rw [asr_of_ge x (le_refl 32)]
  · rfl

theorem shiftByImmediate_ror (h : amount.toNat ≠ 0) :
    shiftByImmediate .ror amount x c = (ror x amount.toNat, bit x (amount.toNat - 1)) := if_neg h

/-- ROR #0 is RRX (R261). -/
theorem shiftByImmediate_rrx (h : amount.toNat = 0) :
    shiftByImmediate .ror amount x c = (BitVec.ofBool c ++ bits x 1 31, bit x 0) := if_pos h

/-- RRX as arithmetic: half of the word, and the carry as bit 31. -/
theorem toNat_rrx : (BitVec.ofBool c ++ bits x 1 31 : Word).toNat = x.toNat / 2 + (if c then 2 ^ 31 else 0) := by
  have hhalf : (bits x 1 31).toNat = x.toNat / 2 := by
    simp only [bits, BitVec.extractLsb'_toNat, Nat.shiftRight_eq_div_pow]
    omega
  rw [BitVec.toNat_append, ← Nat.shiftLeft_add_eq_or_of_lt (bits x 1 31).isLt, hhalf]
  cases c
  · simp
  · simp [Nat.shiftLeft_eq, Nat.add_comm]

end

/-- Settles O27: the immediate is a rotation, and each register form its shift by the amount, where 0 stands for
32 or for RRX. -/
theorem immediateShifterOperands : Obligations.ImmediateShifterOperands := by
  unfold Obligations.ImmediateShifterOperands
  constructor
  · intro rotate immed s
    exact ⟨fun k hk => bit_ror _ (by omega) hk, rfl⟩
  · intro amount rm s
    simp only [shifterOperand, shiftByImmediate_lsl, shiftByImmediate_lsr, shiftByImmediate_asr, true_and]
    refine ⟨toNat_lsl _ _, toNat_lsr _ _, toInt_asr _ _, fun hn => ?_, fun hn => ?_⟩
    · rw [shiftByImmediate_ror amount _ _ hn]
      exact ⟨fun k hk => bit_ror _ amount.isLt hk, rfl⟩
    · rw [shiftByImmediate_rrx amount _ _ hn]
      exact ⟨toNat_rrx _ _, rfl⟩

/-! ## A register shifted by a register (R254, R256, R258, R260) -/

section
variable {rs : Word} (x : Word) (c : Bool)

theorem shiftByRegister_zero (sh : Shift) (h : (bits rs 0 8).toNat = 0) :
    shiftByRegister sh rs x c = (x, c) := if_pos h

/-- The ranges of a shift that leaves 0 from 32 on, as one shift by the whole amount (R254, R256). -/
theorem zeroing_ranges {shift : Nat → Word} (carry : Nat → Bool) (hshift : ∀ n, 32 ≤ n → shift n = 0)
    (n : Nat) :
    (if n < 32 then (shift n, carry n) else if n = 32 then (0, carry 32) else (0, false)) =
      (shift n, if n ≤ 32 then carry n else false) := by
  rcases Nat.lt_trichotomy n 32 with hlt | rfl | hgt
  · rw [if_pos hlt, if_pos hlt.le]
  · rw [hshift 32 (le_refl 32)]; rfl
  · rw [if_neg (by omega), if_neg (by omega), if_neg (by omega), hshift n hgt.le]

theorem shiftByRegister_lsl (h : (bits rs 0 8).toNat ≠ 0) :
    let n := (bits rs 0 8).toNat
    shiftByRegister .lsl rs x c = (lsl x n, if n ≤ 32 then bit x (32 - n) else false) :=
  (if_neg h).trans (zeroing_ranges (fun n => bit x (32 - n)) (fun _ => lsl_of_ge x) _)

theorem shiftByRegister_lsr (h : (bits rs 0 8).toNat ≠ 0) :
    let n := (bits rs 0 8).toNat
    shiftByRegister .lsr rs x c = (lsr x n, if n ≤ 32 then bit x (n - 1) else false) :=
  (if_neg h).trans (zeroing_ranges (fun n => bit x (n - 1)) (fun _ => lsr_of_ge x) _)

theorem shiftByRegister_asr (h : (bits rs 0 8).toNat ≠ 0) :
    let n := (bits rs 0 8).toNat
    shiftByRegister .asr rs x c = (asr x n, if n ≤ 32 then bit x (n - 1) else bit x 31) := by
  simp only [shiftByRegister, if_neg h]
  generalize (bits rs 0 8).toNat = n
  rcases Nat.lt_trichotomy n 32 with hlt | rfl | hgt
  · rw [if_pos hlt, if_pos hlt.le]
  · rw [asr_of_ge x (le_refl 32)]; rfl
  · rw [if_neg (by omega), if_neg (by omega), asr_of_ge x hgt.le]

/-- ROR by a multiple of 32 leaves the word, with bit 31 as the carry-out (R260). -/
theorem shiftByRegister_ror (h : (bits rs 0 8).toNat ≠ 0) :
    let n := (bits rs 0 8).toNat
    shiftByRegister .ror rs x c = (ror x (n % 32), bit x ((n + 31) % 32)) := by
  simp only [shiftByRegister, if_neg h]
  generalize (bits rs 0 8).toNat = n
  by_cases hk : n % 32 = 0
  · rw [if_pos hk, show (n + 31) % 32 = 31 by omega, hk]; rfl
  · rw [if_neg hk, show (n + 31) % 32 = n % 32 - 1 by omega]

end

/-- Settles O28: for an amount other than 0 each form is its shift by the whole amount, 32 and more included. -/
theorem registerShifts : Obligations.RegisterShifts := by
  unfold Obligations.RegisterShifts
  intro rs rm s
  refine ⟨fun hn sh => ?_, fun hn => ?_⟩
  · simp only [shifterOperand, shiftByRegister_zero _ _ sh hn, and_self]
  · simp only [shifterOperand, shiftByRegister_lsl _ _ hn, shiftByRegister_lsr _ _ hn, shiftByRegister_asr _ _ hn,
      shiftByRegister_ror _ _ hn, true_and, and_true]
    refine ⟨toNat_lsl _ _, toNat_lsr _ _, toInt_asr _ _, fun k hk => ?_⟩
    rw [bit_ror _ (Nat.mod_lt _ (by decide)) hk, Nat.add_mod_mod]

end Sys2Proof.Machine
end

section
/-! The six multiplies (R324 to R330): a product written with N and Z of the whole result, and the products of the model
as exact numbers modulo 2^32 and 2^64. -/

namespace Sys2Proof.Machine

/-! ## One register: MUL and MLA -/

/-- R324: N and Z of a 32-bit product, C and V as they were. -/
theorem nzcv_mulFlags (psr v : Word) :
    nzcv (mulFlags psr v) = (decide (v.toInt < 0), decide (v = 0), flagC psr, flagV psr) := by
  rw [mulFlags, setNZ, nzcv_setNZCV, bit_31_eq, beq_eq_decide]

/-- A 32-bit product is written as a data-processing result is (R264). -/
theorem writeProduct_eq_writeResult {f : Bool} {rd : RegNum} {v : Word} {s : State} (hrd : rd ≠ 15) :
    writeProduct f rd v s = writeResult f rd v (mulFlags s.cpsr v) s := by
  rw [writeResult, if_neg hrd]
  rfl

/-- R325, R326: what an instruction that writes a 32-bit product does. -/
theorem writeProduct_completes {i : Instr} {f : Bool} {rd : RegNum} {v : Word} {s : State}
    (hi : exec i s = writeProduct f rd v s) (hrd : rd ≠ 15) (hpc : s.pc ≠ 0xFFFFFFFC) :
    Completes i s (RegisterOutcome rd v
      (if f then (decide (v.toInt < 0), decide (v = 0), flagC s.cpsr, flagV s.cpsr) else nzcv s.cpsr) s) := by
  have h := writeResult_completes (hi.trans (writeProduct_eq_writeResult hrd)) hrd hpc (bits_setNZCV s.cpsr _ _ _ _)
  rwa [nzcv_mulFlags] at h

section
variable {c : Cond} {f : Bool} {rd rn rs rm : RegNum} {s : State}

/-- R322: R15 is no destination of MUL and MLA. -/
theorem rd_ne_fifteen_of_mulFault {others : List RegNum} (h : mulFault rd rm others = none) : rd ≠ 15 := by
  rintro rfl
  cases h

theorem exec_mul (h : Runs (.mul c f rd rs rm) s) :
    exec (.mul c f rd rs rm) s =
      writeProduct f rd (BitVec.ofNat 32 ((s.readReg rm).toNat * (s.readReg rs).toNat)) s := by
  simp only [exec, execMul]
  simp only [conditional_of_runs h rfl, BitVec.ofNat_mul, BitVec.ofNat_toNat, BitVec.setWidth_eq]

theorem exec_mla (h : Runs (.mla c f rd rn rs rm) s) :
    exec (.mla c f rd rn rs rm) s =
      writeProduct f rd
        (BitVec.ofNat 32 ((s.readReg rm).toNat * (s.readReg rs).toNat + (s.readReg rn).toNat)) s := by
  simp only [exec, execMla]
  simp only [conditional_of_runs h rfl, BitVec.ofNat_add, BitVec.ofNat_mul, BitVec.ofNat_toNat, BitVec.setWidth_eq]

end

/-- Settles O29: both write a product whose exact value is reduced modulo 2^32, to a register other than R15. -/
theorem shortMultiplies : Obligations.ShortMultiplies := by
  unfold Obligations.ShortMultiplies
  intro c f rd rn rs rm s
  exact ⟨fun h => writeProduct_completes (exec_mul h.toRuns)
      (rd_ne_fifteen_of_mulFault h.unpredictable_eq_none) h.notLast,
    fun h => writeProduct_completes (exec_mla h.toRuns)
      (rd_ne_fifteen_of_mulFault h.unpredictable_eq_none) h.notLast⟩

/-! ## Two registers: the long multiplies -/

/-- The two words of a 64-bit value, put together, are the value. -/
theorem extractLsb'_words_append (v : BitVec 64) : v.extractLsb' 32 32 ++ v.extractLsb' 0 32 = v :=
  (BitVec.extractLsb'_append_extractLsb'_eq_extractLsb' rfl).trans BitVec.extractLsb'_eq_self

/-- The sign of a 64-bit value is the sign of its high word. -/
theorem bit_31_high_word (v : BitVec 64) : bit (v.extractLsb' 32 32) 31 = decide (v.toInt < 0) := by
  simp [bit, ← BitVec.msb_eq_toInt, BitVec.msb_eq_getLsbD_last]

/-- A 64-bit value is zero exactly where both its words are. -/
theorem words_eq_zero (v : BitVec 64) :
    (v.extractLsb' 32 32 == 0 && v.extractLsb' 0 32 == 0) = decide (v = 0) := by
  rw [beq_eq_decide, beq_eq_decide, ← Bool.decide_and]
  refine decide_eq_decide.mpr ⟨fun ⟨hhigh, hlow⟩ => ?_, ?_⟩
  · rw [← extractLsb'_words_append v, hhigh, hlow]
    rfl
  · rintro rfl
    exact ⟨rfl, rfl⟩

/-- R324: N and Z of a 64-bit product, C and V as they were. -/
theorem nzcv_mulLongFlags (psr : Word) (v : BitVec 64) :
    nzcv (mulLongFlags psr (v.extractLsb' 32 32) (v.extractLsb' 0 32)) =
      (decide (v.toInt < 0), decide (v = 0), flagC psr, flagV psr) := by
  rw [mulLongFlags, setNZ, nzcv_setNZCV, bit_31_high_word, words_eq_zero]

section
variable {pairs : List (RegNum × Word)} {psr pc : Word} {s : State}

/-- A register of a list that is written once, read after a PSR of the same mode is in place. -/
theorem readReg_of_writeRegs {n : RegNum} {w : Word} (hn : n ≠ 15) (hnodup : (pairs.map Prod.fst).Nodup)
    (hmem : (n, w) ∈ pairs) (hpsr : bits psr 0 28 = bits s.cpsr 0 28) :
    State.readReg { writeRegs (modeBits s.cpsr) pairs s with cpsr := psr, pc := pc } n = w := by
  unfold State.readReg
  rw [modeBits_of_low hpsr]
  exact readRegIn_of_regs_eq hn (readRegIn_writeRegs hn hnodup hmem) rfl

/-- A list of registers, N, Z, C, V and the pc written change nothing else. -/
theorem registerFrame_of_writeRegs (hpsr : bits psr 0 28 = bits s.cpsr 0 28) :
    RegisterFrame (pairs.map Prod.fst) s { writeRegs (modeBits s.cpsr) pairs s with cpsr := psr, pc := pc } where
  registers _ hr := phys_writeRegs_other fun p hp => hr p.1 (List.mem_map_of_mem hp)
  control := hpsr
  rest := by rw [writeRegs_state]

end

/-- What an instruction that writes a 64-bit value to RdHi and RdLo leaves: the value, the next instruction, the flags,
the frame. -/
def LongOutcome (hi lo : RegNum) (v : BitVec 64) (flags : Bool × Bool × Bool × Bool) (s t : State) : Prop :=
  t.readReg hi ++ t.readReg lo = v ∧ t.pc = s.pc + 4 ∧ RegisterFrame [hi, lo] s t ∧ nzcv t.cpsr = flags

section
variable {i : Instr} {f : Bool} {hi lo : RegNum} {v : BitVec 64} {s : State}

/-- Two registers written one after the other are a list of registers written in one mode. -/
theorem writeReg_writeReg_eq_writeRegs (high low : Word) :
    (s.writeReg hi high).writeReg lo low = writeRegs (modeBits s.cpsr) [(hi, high), (lo, low)] s := by
  simp only [State.writeReg, writeRegs, writeRegIn_cpsr]

/-- A 64-bit value written as its two words, with a PSR that differs in N, Z, C, V only. -/
theorem longOutcome_of_written {psr : Word} (hhi : hi ≠ 15) (hlo : lo ≠ 15) (hne : hi ≠ lo)
    (hpsr : bits psr 0 28 = bits s.cpsr 0 28) :
    LongOutcome hi lo v (nzcv psr) s
      { (s.writeReg hi (v.extractLsb' 32 32)).writeReg lo (v.extractLsb' 0 32) with cpsr := psr, pc := s.pc + 4 } := by
  rw [writeReg_writeReg_eq_writeRegs]
  let pairs : List (RegNum × Word) := [(hi, v.extractLsb' 32 32), (lo, v.extractLsb' 0 32)]
  have hnodup : (pairs.map Prod.fst).Nodup := List.nodup_cons.mpr ⟨by simpa using hne, List.nodup_singleton lo⟩
  have hhigh := readReg_of_writeRegs (pc := s.pc + 4) hhi hnodup (List.mem_cons_self ..) hpsr
  have hlow := readReg_of_writeRegs (pc := s.pc + 4) hlo hnodup (List.mem_cons_of_mem _ (List.mem_cons_self ..)) hpsr
  exact ⟨(congrArg₂ (· ++ ·) hhigh hlow).trans (extractLsb'_words_append v), rfl,
    registerFrame_of_writeRegs (pairs := pairs) hpsr, rfl⟩

/-- R327 to R330: what an instruction that writes a 64-bit product does. -/
theorem writeLongProduct_completes (hexec : exec i s = writeLongProduct f hi lo v s) (hhi : hi ≠ 15) (hlo : lo ≠ 15)
    (hne : hi ≠ lo) (hpc : s.pc ≠ 0xFFFFFFFC) :
    Completes i s (LongOutcome hi lo v
      (if f then (decide (v.toInt < 0), decide (v = 0), flagC s.cpsr, flagV s.cpsr) else nzcv s.cpsr) s) := by
  refine ⟨_, hexec.trans (advance_of_ne (by simpa using hpc)), ?_⟩
  simp only [writeReg_pc]
  cases f
  · exact longOutcome_of_written hhi hlo hne rfl
  · rw [if_pos rfl, ← nzcv_mulLongFlags]
    exact longOutcome_of_written hhi hlo hne (bits_setNZCV ..)

end

/-! ## The exact 64-bit values -/

theorem accumulator_eq_ofNat (hi lo : RegNum) (s : State) :
    accumulator hi lo s = BitVec.ofNat 64 ((s.readReg hi).toNat * 2 ^ 32 + (s.readReg lo).toNat) := by
  rw [accumulator, ← toNat_append_eq_add, BitVec.ofNat_toNat]
  rfl

section
variable {c : Cond} {f : Bool} {hi lo rs rm : RegNum} {s : State}

/-- R322: the destinations of a long multiply are two registers other than R15. -/
theorem destinations_of_mulLongFault (h : mulLongFault hi lo rs rm = none) : hi ≠ 15 ∧ lo ≠ 15 ∧ hi ≠ lo := by
  have hpc : [hi, lo, rs, rm].contains 15#4 = false := firstFault_eq_none h (_, .pcOperand) (List.mem_cons_self ..)
  have hsame : (hi == lo || hi == rm || lo == rm) = false :=
    firstFault_eq_none h (_, .sameRegister) (List.mem_cons_of_mem _ (List.mem_singleton_self _))
  exact ⟨by rintro rfl; simp at hpc, by rintro rfl; simp at hpc, by rintro rfl; simp at hsame⟩

theorem exec_umull (h : Runs (.umull c f hi lo rs rm) s) :
    exec (.umull c f hi lo rs rm) s =
      writeLongProduct f hi lo (BitVec.ofInt 64 ((s.readReg rm).toNat * (s.readReg rs).toNat : Nat)) s := by
  simp only [exec, execUmull]
  rw [conditional_of_runs h rfl, BitVec.ofInt_natCast, unsignedProduct]

theorem exec_umlal (h : Runs (.umlal c f hi lo rs rm) s) :
    exec (.umlal c f hi lo rs rm) s =
      writeLongProduct f hi lo (BitVec.ofInt 64 ((s.readReg rm).toNat * (s.readReg rs).toNat +
        ((s.readReg hi).toNat * 2 ^ 32 + (s.readReg lo).toNat) : Nat)) s := by
  simp only [exec, execUmlal]
  rw [conditional_of_runs h rfl, BitVec.ofInt_natCast, BitVec.ofNat_add, unsignedProduct, accumulator_eq_ofNat]

theorem exec_smull (h : Runs (.smull c f hi lo rs rm) s) :
    exec (.smull c f hi lo rs rm) s =
      writeLongProduct f hi lo (BitVec.ofInt 64 ((s.readReg rm).toInt * (s.readReg rs).toInt)) s := by
  simp only [exec, execSmull]
  rw [conditional_of_runs h rfl, signedProduct]

theorem exec_smlal (h : Runs (.smlal c f hi lo rs rm) s) :
    exec (.smlal c f hi lo rs rm) s =
      writeLongProduct f hi lo (BitVec.ofInt 64 ((s.readReg rm).toInt * (s.readReg rs).toInt +
        ((s.readReg hi).toNat * 2 ^ 32 + (s.readReg lo).toNat : Nat))) s := by
  simp only [exec, execSmlal]
  rw [conditional_of_runs h rfl, BitVec.ofInt_add, BitVec.ofInt_natCast, signedProduct, accumulator_eq_ofNat]

/-- A long multiply that executes writes its 64-bit value to two registers (R322). -/
theorem longMultiply_completes {i : Instr} {v : BitVec 64} (h : Executes i s)
    (hexec : exec i s = writeLongProduct f hi lo v s) (hfault : i.unpredictable = mulLongFault hi lo rs rm) :
    Completes i s (LongOutcome hi lo v
      (if f then (decide (v.toInt < 0), decide (v = 0), flagC s.cpsr, flagV s.cpsr) else nzcv s.cpsr) s) := by
  obtain ⟨hhi, hlo, hne⟩ := destinations_of_mulLongFault (hfault.symm.trans h.unpredictable_eq_none)
  exact writeLongProduct_completes hexec hhi hlo hne h.notLast

end

/-- Settles O30: the four write, to two distinct registers other than R15, a product whose exact value is reduced
modulo 2^64. -/
theorem longMultiplies : Obligations.LongMultiplies := by
  unfold Obligations.LongMultiplies
  intro c f hi lo rs rm s
  exact ⟨fun h => longMultiply_completes h (exec_umull h.toRuns) rfl,
    fun h => longMultiply_completes h (exec_umlal h.toRuns) rfl,
    fun h => longMultiply_completes h (exec_smull h.toRuns) rfl,
    fun h => longMultiply_completes h (exec_smlal h.toRuns) rfl⟩

end Sys2Proof.Machine
end

section
/-! CLZ as the count above the highest one bit (R340), and MSR: the byte merge bit by bit, the checks on a new CPSR
(R345 to R348), and the SPSR of the current mode. -/

namespace Sys2Proof.Machine

/-! ## CLZ -/

section
variable {x : Word} {n k : Nat}

theorem leadingZeros_succ_of_set (h : bit x n = true) : leadingZeros x (n + 1) = 0 := if_pos h

theorem leadingZeros_succ_of_clear (h : bit x n = false) : leadingZeros x (n + 1) = leadingZeros x n + 1 :=
  if_neg (by simp [h])

theorem leadingZeros_le (x : Word) (n : Nat) : leadingZeros x n ≤ n := by
  induction n with
  | zero => exact le_refl 0
  | succ n ih =>
    cases hbit : bit x n with
    | true => simp [leadingZeros_succ_of_set hbit]
    | false => simpa [leadingZeros_succ_of_clear hbit] using ih

/-- The bits counted are zero. -/
theorem bit_of_counted (hk : k < n) (h : n ≤ k + leadingZeros x n) : bit x k = false := by
  induction n with
  | zero => omega
  | succ n ih =>
    cases hbit : bit x n with
    | true => rw [leadingZeros_succ_of_set hbit] at h; omega
    | false =>
      rw [leadingZeros_succ_of_clear hbit] at h
      obtain rfl | hlt := Nat.eq_or_lt_of_le (Nat.le_of_lt_succ hk)
      · exact hbit
      · exact ih hlt (by omega)

/-- The bit at which the count ends is one. -/
theorem bit_below_counted (h : leadingZeros x n < n) : bit x (n - 1 - leadingZeros x n) = true := by
  induction n with
  | zero => omega
  | succ n ih =>
    cases hbit : bit x n with
    | true => simpa [leadingZeros_succ_of_set hbit] using hbit
    | false =>
      rw [leadingZeros_succ_of_clear hbit] at h ⊢
      rw [show n + 1 - 1 - (leadingZeros x n + 1) = n - 1 - leadingZeros x n by omega]
      exact ih (by omega)

/-- The count of a word is 32 for zero alone. -/
theorem leadingZeros_eq_width : leadingZeros x 32 = 32 ↔ x = 0 := by
  constructor
  · intro h
    exact BitVec.eq_of_getLsbD_eq fun k hk => by
      simpa [bit] using bit_of_counted (x := x) hk (by omega)
  · rintro rfl
    refine Nat.le_antisymm (leadingZeros_le 0 32) (Nat.le_of_not_lt fun hlt => ?_)
    simpa [bit] using bit_below_counted hlt

/-- R340: every bit of a word above the one at which the count ends is zero. -/
theorem bit_above_highest (h : 31 - leadingZeros x 32 < k) : bit x k = false := by
  by_cases hk : k < 32
  · exact bit_of_counted hk (by omega)
  · exact BitVec.getLsbD_of_ge x k (Nat.le_of_not_lt hk)

end

section
variable {c : Cond} {rd rm : RegNum} {s : State}

/-- R340: R15 is no operand of CLZ. -/
theorem clz_unpredictable (h : rd = 15 ∨ rm = 15) : (Instr.clz c rd rm).unpredictable = some .pcOperand :=
  if_pos (by simpa using h)

theorem exec_clz_fifteen (h : rd = 15 ∨ rm = 15) : exec (.clz c rd rm) s = .fault (.unpredictable .pcOperand) := by
  simp only [exec, execClz]
  exact conditional_fault (clz_unpredictable h)

theorem clz_rd_ne_fifteen (h : Runs (.clz c rd rm) s) : rd ≠ 15 := fun hrd =>
  absurd ((clz_unpredictable (.inl hrd)).symm.trans h.unpredictable_eq_none) (by simp)

theorem exec_clz (h : Runs (.clz c rd rm) s) :
    exec (.clz c rd rm) s = advance (s.writeReg rd (BitVec.ofNat 32 (leadingZeros (s.readReg rm) 32))) := by
  simp only [exec, execClz]
  exact conditional_of_runs h rfl

end

/-- Settles O31: CLZ is a register write of the count, which ends at the highest one bit. -/
theorem countLeadingZeros : Obligations.CountLeadingZeros := by
  unfold Obligations.CountLeadingZeros
  intro c rd rm s
  refine ⟨exec_clz_fifteen, fun h => ?_⟩
  obtain ⟨t, ht, hout⟩ := writeReg_completes (exec_clz h.toRuns) (clz_rd_ne_fifteen h.toRuns) h.notLast
  refine ⟨t, ht, leadingZeros (s.readReg rm) 32, hout, leadingZeros_eq_width.mpr, fun hne => ?_⟩
  have hlt : leadingZeros (s.readReg rm) 32 < 32 :=
    lt_of_le_of_ne (leadingZeros_le _ 32) (mt leadingZeros_eq_width.mp hne)
  exact ⟨hlt, bit_below_counted hlt, fun _ => bit_above_highest⟩

/-! ## MSR: the byte merge (R345) -/

/-- The byte of a merged PSR from bit `lo` on: the operand's where it is written, the old one where it is not. -/
theorem getLsbD_mergedByte (write : Bool) (old operand : Word) {lo k : Nat} (hlo : lo ≤ k) (hk : k < lo + 8) :
    (if write then bits operand lo 8 else bits old lo 8).getLsbD (k - lo) =
      if write then bit operand k else bit old k := by
  have hlt : k - lo < 8 := by omega
  cases write <;> simp [bits, bit, hlt, Nat.add_sub_cancel' hlo]

/-- A bit of four bytes put together is read in its own byte. -/
theorem getLsbD_four_bytes (b3 b2 b1 b0 : BitVec 8) (k : Nat) :
    (b3 ++ b2 ++ b1 ++ b0).getLsbD k =
      if k < 8 then b0.getLsbD k
      else if k < 16 then b1.getLsbD (k - 8)
      else if k < 24 then b2.getLsbD (k - 16)
      else b3.getLsbD (k - 24) := by
  have h16 : k - 8 < 8 ↔ k < 16 := by omega
  have h24 : k - 16 < 8 ↔ k < 24 := by omega
  simp only [BitVec.getLsbD_append, Nat.sub_sub]
  simp only [Nat.reduceAdd, h16, h24]

/-- R345: a bit of the merged value is the operand's where its byte is selected and may be written. -/
theorem bit_mergeFields (mask : BitVec 4) (low : Bool) (old operand : Word) {k : Nat} (hk : k < 32) :
    bit (mergeFields mask low old operand) k =
      if mask.getLsbD (k / 8) = true ∧ (24 ≤ k ∨ low = true) then bit operand k else bit old k := by
  refine (getLsbD_four_bytes _ _ _ _ k).trans ?_
  split
  · refine (getLsbD_mergedByte (lo := 0) _ _ _ (by omega) (by omega)).trans ?_
    rw [show k / 8 = 0 by omega]
    simp [show ¬ 24 ≤ k by omega]
  split
  · rw [getLsbD_mergedByte _ _ _ (by omega) (by omega), show k / 8 = 1 by omega]
    simp [show ¬ 24 ≤ k by omega]
  split
  · rw [getLsbD_mergedByte _ _ _ (by omega) (by omega), show k / 8 = 2 by omega]
    simp [show ¬ 24 ≤ k by omega]
  · rw [getLsbD_mergedByte _ _ _ (by omega) (by omega), show k / 8 = 3 by omega]
    simp [show 24 ≤ k by omega]

/-- Without privilege the three low bytes stay (R345). -/
theorem bits_mergeFields_unprivileged (mask : BitVec 4) (old operand : Word) :
    bits (mergeFields mask false old operand) 0 24 = bits old 0 24 :=
  bits_ext 0 24 fun k _ hk => by
    rw [bit_mergeFields mask false old operand (by omega), if_neg (by simp [show ¬ 24 ≤ k by omega])]

/-! ## MSR to the CPSR and to the SPSR -/

section
variable {new : Word} {s : State}

/-- R346: a reserved bit that is not zero. -/
theorem writeCpsr_of_reserved (h : reservedBits new ≠ 0) : writeCpsr new s = .fault .reservedPsrBits := if_pos h

theorem writeCpsr_of_illegal (hr : reservedBits new = 0) (hl : legalMode (modeBits new) = false) :
    writeCpsr new s = .fault .illegalMode := by
  simp [writeCpsr, hr, hl]

theorem writeCpsr_of_changed_T (hr : reservedBits new = 0) (hl : legalMode (modeBits new) = true)
    (hT : flagT new ≠ flagT s.cpsr) : writeCpsr new s = .fault .msrChangesT := by
  simp [writeCpsr, hr, hl, hT]

/-- The checks passed: the CPSR is written, and the wait of R348 begins where privilege is left. -/
theorem writeCpsr_of_checked (hr : reservedBits new = 0) (hl : legalMode (modeBits new) = true)
    (hT : flagT new = flagT s.cpsr) (hpc : s.pc ≠ 0xFFFFFFFC) :
    writeCpsr new s = .next { s with
      cpsr := new, pc := s.pc + 4,
      privDropPending := s.privDropPending || (privileged s.cpsr && !privileged new) } := by
  simp only [writeCpsr, hr, hl, hT, ne_eq, not_true_eq_false, if_false, Bool.not_true, bne_self_eq_false,
    Bool.false_eq_true]
  exact advance_of_ne hpc

end

section
variable {i : Instr} {c : Cond} {spsr : Bool} {mask : BitVec 4} {operand : Word} {s : State}

/-- Both forms of MSR are `moveToStatus` of their operand; the carry-out of an immediate is not used (R345). -/
theorem exec_msr
    (hi : (∃ rm, i = .msrReg c spsr mask rm ∧ operand = s.readReg rm) ∨
      (∃ rotate immed, i = .msrImm c spsr mask rotate immed ∧ operand = (shifterOperand (.imm rotate immed) s).1))
    (h : Runs i s) : exec i s = moveToStatus spsr mask operand s := by
  rcases hi with ⟨rm, rfl, rfl⟩ | ⟨rotate, immed, rfl, rfl⟩
  · simp only [exec, execMsrReg]
    exact conditional_of_runs h rfl
  · simp only [exec, execMsrImm]
    exact conditional_of_runs h rfl

theorem moveToStatus_cpsr :
    moveToStatus false mask operand s = writeCpsr (mergeFields mask (privileged s.cpsr) s.cpsr operand) s := rfl

theorem moveToStatus_spsr {e : ExcMode} (he : s.currentExc = some e) :
    moveToStatus true mask operand s =
      advance { s with spsr := s.spsr.set e (mergeFields mask true (s.spsr.get e) operand) } := by
  simp only [moveToStatus, if_true, he]

theorem moveToStatus_spsr_of_none (he : s.currentExc = none) :
    moveToStatus true mask operand s = .fault .noSpsr := by
  simp only [moveToStatus, if_true, he]

end

/-- Settles O33: MSR writes the merged value, whose checks stop in turn; without privilege the merge keeps the low
bytes. -/
theorem moveToCpsr : Obligations.MoveToCpsr := by
  unfold Obligations.MoveToCpsr
  refine ⟨fun mask low old operand k hk => bit_mergeFields mask low old operand hk, fun i c mask operand s hi h => ?_⟩
  rw [exec_msr hi h.toRuns, moveToStatus_cpsr]
  refine ⟨writeCpsr_of_reserved, writeCpsr_of_illegal, writeCpsr_of_changed_T,
    fun hr hl hT => writeCpsr_of_checked hr hl hT h.notLast, fun hpriv => ?_⟩
  rw [hpriv]
  exact bits_mergeFields_unprivileged mask s.cpsr operand

/-- Settles O34: MSR writes the merged value to the SPSR that the mode has. -/
theorem moveToSpsr : Obligations.MoveToSpsr := by
  unfold Obligations.MoveToSpsr
  intro i c mask operand s hi h
  rw [exec_msr hi h.toRuns]
  exact ⟨moveToStatus_spsr_of_none, fun e he => (moveToStatus_spsr he).trans (advance_of_ne h.notLast)⟩

end Sys2Proof.Machine
end

section
/-! Addressing modes 2, 3 and 5 (R360 to R382, R492 to R495) as the three indexed forms of a base and an offset, and the
values that a load makes of what it reads: the rotation of a word (R388) and the sign extensions (R394, R395). -/

namespace Sys2Proof.Machine

/-! ## The values loaded -/

theorem toNat_bits_zero (a : Word) (n : Nat) : (bits a 0 n).toNat = a.toNat % 2 ^ n := by
  rw [bits, BitVec.extractLsb'_toNat, Nat.shiftRight_zero]

/-- The low bits of a word are the word modulo a power of two. -/
theorem bits_zero_eq_ofNat (v : Word) (n : Nat) : bits v 0 n = BitVec.ofNat n v.toNat :=
  BitVec.eq_of_toNat_eq (by rw [toNat_bits_zero, BitVec.toNat_ofNat])

/-- Sign extension of the low bits of a word keeps their signed value (R10). -/
theorem toInt_signExtend_bits_zero (v : Word) {n : Nat} (hn : n ≤ 32) :
    ((bits v 0 n).signExtend 32).toInt = (BitVec.ofNat n v.toNat).toInt := by
  rw [BitVec.toInt_signExtend_of_le hn, bits_zero_eq_ofNat]

/-- R388: the rotation is by a byte for each place that the address stands past a word boundary. -/
theorem rotateLoaded_eq_ror (a v : Word) : rotateLoaded a v = ror v (8 * (a.toNat % 4)) := by
  simp [rotateLoaded, toNat_bits_zero]

/-- Settles O39: the rotation turns the bits by a whole number of bytes, and both extensions keep the signed value. -/
theorem loadedValues : Obligations.LoadedValues := by
  unfold Obligations.LoadedValues
  intro a v
  refine ⟨fun k hk => ?_, toInt_signExtend_bits_zero v (by decide), toInt_signExtend_bits_zero v (by decide)⟩
  rw [rotateLoaded_eq_ror]
  exact bit_ror v (by omega) hk

/-! ## Addresses and writebacks -/

section
variable (up : Bool) (rn : RegNum) (off3 : Offset3) (s : State)

/-- R360: the address and the writeback of the three forms of a base and an offset. -/
theorem indexed_forms (base o : Word) :
    indexed .offset up base o = ⟨applyOffset up base o, none⟩ ∧
    indexed .pre up base o = ⟨applyOffset up base o, some (applyOffset up base o)⟩ ∧
    indexed .post up base o = ⟨base, some (applyOffset up base o)⟩ := ⟨rfl, rfl, rfl⟩

/-- The index of a scaled register offset is the shifter operand without its carry-out (R366). -/
theorem offset2Value_reg (amount : BitVec 5) (sh : Shift) (rm : RegNum) :
    offset2Value (.reg amount sh rm) s = (shifterOperand (.shiftImm amount sh rm) s).1 := rfl

/-- R495: the unindexed form uses the base and writes nothing back. -/
theorem mode5_unindexed (words : BitVec 8) (base : Word) : mode5 (.unindexed words) base = ⟨base, none⟩ := rfl

/-- The three forms of addressing mode 2 (R364 to R372). -/
theorem mode2_forms (off : Offset2) :
    let base := s.readReg rn
    let moved := applyOffset up base (offset2Value off s)
    mode2 .offset up rn off s = ⟨moved, none⟩ ∧ mode2 .pre up rn off s = ⟨moved, some moved⟩ ∧
    mode2 .post up rn off s = ⟨base, some moved⟩ := indexed_forms up _ _

/-- The three forms of addressing mode 3, by P and W (R376 to R382). -/
theorem mode3_forms :
    let base := s.readReg rn
    let moved := applyOffset up base (offset3Value off3 s)
    mode3 true up false rn off3 s = ⟨moved, none⟩ ∧ mode3 true up true rn off3 s = ⟨moved, some moved⟩ ∧
    mode3 false up false rn off3 s = ⟨base, some moved⟩ := indexed_forms up _ _

/-- The three indexed forms of addressing mode 5: four bytes for each word (R492 to R494). -/
theorem mode5_forms (words : BitVec 8) (base : Word) :
    let moved := applyOffset up base (fourTimes words.toNat)
    mode5 (.offset up words) base = ⟨moved, none⟩ ∧ mode5 (.pre up words) base = ⟨moved, some moved⟩ ∧
    mode5 (.post up words) base = ⟨base, some moved⟩ := indexed_forms up base _

end

/-- Settles O37: every kind of offset of modes 2 and 3 goes through the three indexed forms, and so does mode 5 beside its
unindexed form. -/
theorem addressingModes : Obligations.AddressingModes := by
  unfold Obligations.AddressingModes
  refine ⟨fun up rn s => ⟨fun o => mode2_forms up rn s (.imm o), fun amount sh rm => ?_,
    fun o => mode3_forms up rn (.imm o) s, fun rm => mode3_forms up rn (.reg 0 rm) s⟩, fun up words base => ?_⟩
  · rw [← offset2Value_reg]
    exact mode2_forms up rn s (.reg amount sh rm)
  · obtain ⟨hoffset, hpre, hpost⟩ := mode5_forms up words base
    exact ⟨hoffset, hpre, hpost, mode5_unindexed words base⟩

end Sys2Proof.Machine
end

section
/-! LDM on normal memory (R430 to R436): the register list and its addresses, the words of memory that the registers are
loaded with, and the two forms that load the PC. -/

namespace Sys2Proof.Machine

/-! ## The register list and its addresses -/

theorem pairwise_listed (list : BitVec 16) : (listed list).Pairwise fun a b => a.toNat < b.toNat := by
  rw [listed, List.pairwise_map]
  refine (List.pairwise_lt_range.filter _).imp_of_mem fun {j k} hj hk hjk => ?_
  have hj := List.mem_range.mp (List.mem_of_mem_filter hj)
  have hk := List.mem_range.mp (List.mem_of_mem_filter hk)
  rwa [BitVec.toNat_ofNat, BitVec.toNat_ofNat, Nat.mod_eq_of_lt hj, Nat.mod_eq_of_lt hk]

/-- Settles O44: a list is the positions 0 to 15 in order, filtered; the addresses are sums and differences of the base
and four times the count. (The obligation's own name is that of a helper above.) -/
theorem multipleAddresses_spec : Obligations.MultipleAddresses := by
  unfold Obligations.MultipleAddresses
  exact ⟨fun _ _ => mem_listed, pairwise_listed, fun _ _ _ => ⟨rfl, rfl, rfl, rfl, rfl, rfl, rfl, rfl, rfl⟩⟩

/-- A list with bit 15 ends with the PC. -/
theorem getElem?_listed_last (l : BitVec 15) :
    (listed (1#1 ++ l))[(listed (1#1 ++ l)).length - 1]? = some 15 := by
  have hbit : (1#1 ++ l).getLsbD 15 = true := by
    rw [BitVec.getLsbD_append]
    simp
  rw [← List.getLast?_eq_getElem?, listed, List.range_succ, List.filter_append,
    List.filter_cons_of_pos hbit, List.filter_nil, List.map_append, List.map_singleton, List.getLast?_concat]
  rfl

/-! ## The words of normal memory -/

section
variable {m : BitVec 5} {mode : Mode4} {w : Bool} {rn r : RegNum} {list : BitVec 16} {k : Nat} {addrs : List Word}
  {s : State}

/-- The k-th word of an LDM on normal memory (R431, R433). -/
def listedWord (mode : Mode4) (rn : RegNum) (list : BitVec 16) (s : State) (k : Nat) : Word :=
  s.memRead .word (mode4Start mode (s.readReg rn) (listed list).length + BitVec.ofNat 32 (4 * k))

theorem deliveredLoads_of_normal (h : ∀ a ∈ addrs, s.isIo .word a = false) : deliveredLoads addrs s = [] := by
  rw [deliveredLoads, List.filter_eq_nil_iff.mpr fun a ha => by simp [h a ha]]
  rfl

theorem wordsAnswered_of_normal (h : ∀ a ∈ addrs, s.isIo .word a = false) :
    wordsAnswered addrs s = addrs.map (s.memRead .word) := by
  refine List.ext_getElem (by rw [length_wordsAnswered, List.length_map]) fun j _ hj => ?_
  have hlt : j < addrs.length := by rwa [List.length_map] at hj
  have hnormal := h addrs[j] (List.getElem_mem hlt)
  simp [wordsAnswered, hnormal]

/-- The k-th register is loaded with the k-th word. -/
theorem mem_loadedPairs_of_normal (hio : ∀ a ∈ multipleAddresses mode rn list s, s.isIo .word a = false)
    (hk : (listed list)[k]? = some r) : (r, listedWord mode rn list s k) ∈ loadedPairs mode rn list s := by
  refine List.mem_of_getElem? (i := k) (List.getElem?_zip_eq_some.mpr ⟨hk, ?_⟩)
  rw [wordsAnswered_of_normal hio, List.getElem?_map, multipleAddresses,
    getElem?_wordAddresses (List.getElem?_eq_some_iff.mp hk).1]
  rfl

theorem nodup_fst_loadedPairs : ((loadedPairs mode rn list s).map Prod.fst).Nodup := by
  rw [fst_loadedPairs]
  exact nodup_listed list

/-- R433: an LDM on normal memory that no check and no abort stops changes nothing before the base is written. -/
theorem loadMultiple_of_normal {finish : List (RegNum × Word) → State → Result}
    (ht : Transfers .load (mode4Start mode (s.readReg rn) (listed list).length) (listed list).length s)
    (hio : ∀ a ∈ multipleAddresses mode rn list s, s.isIo .word a = false) :
    loadMultiple m mode w rn list finish s =
      finish (loadedPairs mode rn list s) (writeBase rn (multipleBase mode w rn list s) s) := by
  obtain ⟨u, hload, hu⟩ := loadMultiple_of_served (m := m) (w := w) (finish := finish)
    (multiple_passes ht.inside ht.aligned (.inl hio)) ht.served
  rw [deliveredLoads_of_normal hio, List.append_nil] at hu
  rw [hload, hu]

end

/-- Settles O45: each register is loaded with its word, and nothing is delivered to a device. (The obligation's own name
is that of the model's function.) -/
theorem loadMultiple_spec : Obligations.LoadMultiple := by
  unfold Obligations.LoadMultiple
  intro c mode w rn l s regs n start word ht hio
  have hp : (multipleSequence .load mode rn (0#1 ++ l) s).Passes s :=
    multiple_passes ht.inside ht.aligned (.inl hio)
  have hlog : s.ioLog ++ deliveredLoads (multipleAddresses mode rn (0#1 ++ l) s) s = s.ioLog :=
    (congrArg _ (deliveredLoads_of_normal hio)).trans (List.append_nil _)
  have hword : ∀ {k r}, regs[k]? = some r → (r, word k) ∈ loadedPairs mode rn (0#1 ++ l) s := fun hk =>
    mem_loadedPairs_of_normal hio hk
  refine ⟨fun h => ?_, fun h hexc => ?_⟩
  · obtain ⟨t, hexec, hio, hread, hbase, hpc, hframe⟩ := ldm1_completes h hp ht.served
    exact ⟨t, hexec, fun k r hk => hread r _ (hword hk), hbase, hpc, hio.trans hlog, hframe⟩
  · obtain ⟨t, hexec, hio, hread, hpc, hhazard, hframe⟩ := ldm2_completes h hexc hp ht.served
    exact ⟨t, hexec, fun k r hk => hread r _ (hword hk), hpc, hio.trans hlog, hhazard, hframe⟩

/-! ## The PC among the registers -/

section
variable {w : Bool} {rn : RegNum} {v : Word} {pairs : List (RegNum × Word)} {s : State}

/-- The word of the PC is the one that is paired with R15. -/
theorem pcWord_of_mem (hnodup : (pairs.map Prod.fst).Nodup) (hmem : (15, v) ∈ pairs) : pcWord pairs = some v := by
  obtain ⟨p, hfind⟩ : ∃ p, pairs.find? (fun p => p.1 == 15) = some p :=
    Option.isSome_iff_exists.mp (List.find?_isSome.mpr ⟨_, hmem, rfl⟩)
  have hp : p.1 = 15 := by simpa using List.find?_some hfind
  have heq : p = (15, v) := List.inj_on_of_nodup_map hnodup (List.mem_of_find?_eq_some hfind) hmem hp
  rw [pcWord, hfind, heq]
  rfl

/-- R434, R436: the registers are written as if the PC were not listed. -/
theorem commitLoaded_filter (hrn : rn ≠ 15) :
    commitLoaded w rn pairs s = commitLoaded w rn (pairs.filter fun p => p.1 != 15) s := by
  have hbase : ∀ p : RegNum × Word, (p.1 != 15 && p.1 == rn) = (p.1 == rn) := fun p => by
    cases h : p.1 == rn with
    | false => exact Bool.and_false _
    | true => rw [eq_of_beq h, bne_iff_ne.mpr hrn, Bool.and_true]
  simp only [commitLoaded, List.filter_filter, List.any_filter, Bool.and_self, hbase]

theorem filtered_ne_fifteen : ∀ p ∈ pairs.filter (fun p => p.1 != 15), p.1 ≠ 15 := fun p hp => by
  simpa using (List.mem_filter.mp hp).2

theorem nodup_fst_filter (hnodup : (pairs.map Prod.fst).Nodup) :
    ((pairs.filter fun p => p.1 != 15).map Prod.fst).Nodup :=
  hnodup.sublist (List.filter_sublist.map _)

end

/-! ## What an LDM with the PC has loaded before it branches -/

section
variable {c : Cond} {mode : Mode4} {w : Bool} {rn r : RegNum} {list : BitVec 16} {l : BitVec 15} {k : Nat} {s t : State}

/-- The state in which LDM (1) and LDM (3) on normal memory have written R0 to R14 and the base (R434, R436). -/
def loadedState (mode : Mode4) (w : Bool) (rn : RegNum) (list : BitVec 16) (s : State) : State :=
  commitLoaded w rn (loadedPairs mode rn list s) (writeBase rn (multipleBase mode w rn list s) s)

theorem loadedState_rest : loadedState mode w rn list s =
    { s with regs := (loadedState mode w rn list s).regs, draws := (loadedState mode w rn list s).draws } := by
  unfold loadedState
  rw [commitLoaded_state, writeBase_state]

theorem loadedState_cpsr : (loadedState mode w rn list s).cpsr = s.cpsr := by rw [loadedState_rest]

theorem checkedSpsr_loadedState : checkedSpsr (loadedState mode w rn list s) = checkedSpsr s := by
  rw [loadedState_rest]
  rfl

theorem readRegIn_loadedState : (loadedState mode w rn list s).readRegIn (modeBits s.cpsr) r =
    (loadedState mode w rn list s).readReg r := by
  rw [State.readReg, loadedState_cpsr]

theorem readReg_loadedState (hrn : rn ≠ 15) (hio : ∀ a ∈ multipleAddresses mode rn list s, s.isIo .word a = false)
    (hk : (listed list)[k]? = some r) (hr : r ≠ 15) (hkept : ¬(w = true ∧ r = rn)) :
    (loadedState mode w rn list s).readReg r = listedWord mode rn list s k := by
  rw [loadedState, commitLoaded_filter hrn]
  refine readReg_commitLoaded filtered_ne_fifteen (nodup_fst_filter nodup_fst_loadedPairs) ?_ hkept
  exact List.mem_filter.mpr ⟨mem_loadedPairs_of_normal hio hk, by simpa using hr⟩

theorem readReg_loadedState_base (hrn : rn ≠ 15) (hnot : rn ∉ listed list) :
    (loadedState mode true rn list s).readReg rn = mode4NewBase mode (s.readReg rn) (listed list).length := by
  rw [loadedState, commitLoaded_filter hrn]
  refine (readReg_commitLoaded_base filtered_ne_fifteen hrn fun p hp e => ?_).trans
    (readReg_of_writeBase hrn rfl (writeBase_cpsr ..))
  exact hnot (e ▸ listed_of_mem_loadedPairs (List.mem_of_mem_filter hp))

theorem regsKept_loadedState (hrn : rn ≠ 15) :
    RegsKept (modeBits s.cpsr) (if w then rn :: listed list else listed list) s (loadedState mode w rn list s) := by
  intro r hr
  have hbase : w = true → physReg (modeBits s.cpsr) rn ≠ some r := fun hw => hr rn (by simp [hw])
  rw [loadedState, commitLoaded_filter hrn]
  refine (phys_commitLoaded filtered_ne_fifteen (fun p hp => ?_) fun hw => ?_).trans ?_
  · have hlisted := listed_of_mem_loadedPairs (List.mem_of_mem_filter hp)
    rw [writeBase_cpsr]
    exact hr p.1 (by cases w <;> simp [hlisted])
  · rw [writeBase_cpsr]
    exact hbase hw
  · refine regsKept_writeBase (s := s) rfl rfl w rn _ r fun n hn => ?_
    obtain ⟨hw, rfl⟩ : w = true ∧ n = rn := by cases w <;> simp_all
    exact hbase hw

/-- The registers and the frame of LDM (1) with the PC and of LDM (3), but for the pc and the CPSR: the words loaded,
the base written back, every other register kept, nothing else changed but the wait of R348 ended (log entry 22). -/
structure LoadedAndBranched (mode : Mode4) (w : Bool) (rn : RegNum) (list : BitVec 16) (s t : State) : Prop where
  words : ∀ k r, (listed list)[k]? = some r → r ≠ 15 → ¬(w = true ∧ r = rn) →
    t.readRegIn (modeBits s.cpsr) r = listedWord mode rn list s k
  base : w = true → rn ∉ listed list →
    t.readRegIn (modeBits s.cpsr) rn = mode4NewBase mode (s.readReg rn) (listed list).length
  kept : RegsKept (modeBits s.cpsr) (if w then rn :: listed list else listed list) s t
  rest : t = { s with regs := t.regs, pc := t.pc, cpsr := t.cpsr, draws := t.draws, privDropPending := false }

/-- A branch from the loaded state, whatever its target and the new CPSR. -/
theorem loadedAndBranched (hrn : rn ≠ 15) (hio : ∀ a ∈ multipleAddresses mode rn list s, s.isIo .word a = false)
    (ht : t = { loadedState mode w rn list s with pc := t.pc, cpsr := t.cpsr, privDropPending := false }) :
    LoadedAndBranched mode w rn list s t := by
  have hregs : t.regs = (loadedState mode w rn list s).regs := by rw [ht]
  refine ⟨fun k r hk hr hkept => ?_, ?_, fun r hr => ?_, ?_⟩
  · rw [readRegIn_congr hregs _ hr, readRegIn_loadedState]
    exact readReg_loadedState hrn hio hk hr hkept
  · rintro rfl hnot
    rw [readRegIn_congr hregs _ hrn, readRegIn_loadedState]
    exact readReg_loadedState_base hrn hnot
  · exact (phys_congr hregs r).trans (regsKept_loadedState hrn r hr)
  · rw [ht, loadedState_rest]

/-! ## LDM (1) with the PC, and LDM (3) -/

theorem ldm3_rn_ne_fifteen (h : Runs (.ldm3 c mode w rn l) s) : rn ≠ 15 := by
  simpa using firstFault_eq_none h.unpredictable_eq_none (rn == 15#4, .pcBase) (by simp)

/-- The word that LDM (1) with the PC and LDM (3) load last, for the PC. -/
def lastWord (mode : Mode4) (rn : RegNum) (l : BitVec 15) (s : State) : Word :=
  listedWord mode rn (1#1 ++ l) s ((listed (1#1 ++ l)).length - 1)

theorem pcWord_loadedPairs (hio : ∀ a ∈ multipleAddresses mode rn (1#1 ++ l) s, s.isIo .word a = false) :
    pcWord (loadedPairs mode rn (1#1 ++ l) s) = some (lastWord mode rn l s) :=
  pcWord_of_mem nodup_fst_loadedPairs (mem_loadedPairs_of_normal hio (getElem?_listed_last l))

/-- R436: an LDM (3) whose return is a jump with a new CPSR. -/
theorem ldm3_completes_of_jump {new target : Word} (h : Runs (.ldm3 c mode w rn l) s)
    (hio : ∀ a ∈ multipleAddresses mode rn (1#1 ++ l) s, s.isIo .word a = false)
    (hexec : exec (.ldm3 c mode w rn l) s =
      .next ({ loadedState mode w rn (1#1 ++ l) s with cpsr := new }.jump target)) :
    Completes (.ldm3 c mode w rn l) s fun t =>
      LoadedAndBranched mode w rn (1#1 ++ l) s t ∧ t.cpsr = new ∧ t.pc = target :=
  ⟨_, hexec, loadedAndBranched (ldm3_rn_ne_fifteen h) hio rfl, rfl, rfl⟩

variable (ht : Transfers .load (mode4Start mode (s.readReg rn) (listed (1#1 ++ l)).length) (listed (1#1 ++ l)).length s)
  (hio : ∀ a ∈ multipleAddresses mode rn (1#1 ++ l) s, s.isIo .word a = false)

include ht hio

/-- R434: LDM (1) with the PC ends in the interworking branch of its last word. -/
theorem exec_ldm1_eq_interwork (h : Runs (.ldm1 c mode w rn (1#1 ++ l)) s) :
    exec (.ldm1 c mode w rn (1#1 ++ l)) s =
      interwork (lastWord mode rn l s) (loadedState mode w rn (1#1 ++ l) s) := by
  rw [exec_ldm1 h, loadMultiple_of_normal ht hio, pcWord_loadedPairs hio]
  rfl

/-- R436: LDM (3) ends in the return from the exception to its last word. -/
theorem exec_ldm3_eq_return {e : ExcMode} (h : Runs (.ldm3 c mode w rn l) s) (he : s.currentExc = some e) :
    exec (.ldm3 c mode w rn l) s =
      returnFromException (if bit (lastWord mode rn l s) 1 then some .interworkTarget else none) 0xFFFFFFFC
        (lastWord mode rn l s) (loadedState mode w rn (1#1 ++ l) s) := by
  rw [exec_ldm3 h he, loadMultiple_of_normal ht hio, pcWord_loadedPairs hio]
  rfl

/-- R434: a last word that is a target (bits 1:0 not 10). -/
theorem ldm1_completes_to_pc (h : Runs (.ldm1 c mode w rn (1#1 ++ l)) s)
    (hgood : bits (lastWord mode rn l s) 0 2 ≠ 0b10) :
    Completes (.ldm1 c mode w rn (1#1 ++ l)) s fun t =>
      LoadedAndBranched mode w rn (1#1 ++ l) s t ∧ t.pc = lastWord mode rn l s &&& 0xFFFFFFFE ∧
      ∀ k, bit t.cpsr k = if k = 5 then bit (lastWord mode rn l s) 0 else bit s.cpsr k := by
  obtain ⟨t, hexec, hstate, hcpsr⟩ :=
    interwork_completes (exec_ldm1_eq_interwork ht hio h) loadedState_cpsr hgood
  have hpc : t.pc = lastWord mode rn l s &&& 0xFFFFFFFE := by rw [hstate]
  refine ⟨t, hexec, loadedAndBranched (ldm1_rn_ne_fifteen h) hio ?_, hpc, hcpsr⟩
  rw [hpc]
  exact hstate

end

/-- Settles O46: both forms reach one loaded state and branch from it, LDM (1) as BX does, LDM (3) as an exception
return does. -/
theorem loadMultipleToPc : Obligations.LoadMultipleToPc := by
  unfold Obligations.LoadMultipleToPc
  intro c mode w rn l s regs n start word last m loaded ht hio
  have hloaded : ∀ {t}, LoadedAndBranched mode w rn (1#1 ++ l) s t → loaded t := fun h =>
    ⟨h.words, h.base, h.kept, h.rest⟩
  refine ⟨fun h => ⟨fun hgood => ?_, fun hbad => ?_⟩, fun e h he => ?_⟩
  · obtain ⟨t, hexec, hload, hbranch⟩ := ldm1_completes_to_pc ht hio h hgood
    exact ⟨t, hexec, hloaded hload, hbranch⟩
  · exact (exec_ldm1_eq_interwork ht hio h).trans (interwork_of_bad hbad)
  · intro new
    have hexec := exec_ldm3_eq_return ht hio h he
    have hjump : ∀ {target}, exec (.ldm3 c mode w rn l) s =
          .next ({ loadedState mode w rn (1#1 ++ l) s with cpsr := new }.jump target) →
        Completes (.ldm3 c mode w rn l) s fun t => loaded t ∧ t.cpsr = new ∧ t.pc = target := fun hnext => by
      obtain ⟨t, hnext, hload, hbranch⟩ := ldm3_completes_of_jump h hio hnext
      exact ⟨t, hnext, hloaded hload, hbranch⟩
    refine ⟨fun hr => ?_, fun hr hl => ?_, fun hr hl => ?_⟩
    · exact hexec.trans (returnFromException_of_fault
        (checkedSpsr_loadedState.trans (checkedSpsr_of_reserved he hr)))
    · exact hexec.trans (returnFromException_of_fault
        (checkedSpsr_loadedState.trans (checkedSpsr_of_illegal he hr hl)))
    · have hspsr : checkedSpsr (loadedState mode w rn (1#1 ++ l) s) = .next new :=
        checkedSpsr_loadedState.trans (checkedSpsr_of_legal he hr hl)
      refine ⟨fun hT => hjump (hexec.trans (returnFromException_of_thumb hspsr hT)), fun hT hone => ?_,
        fun hT hone => ?_⟩
      · rw [show bit (lastWord mode rn l s) 1 = false from hone] at hexec
        exact hjump (hexec.trans (returnFromException_of_arm hspsr hT))
      · rw [show bit (lastWord mode rn l s) 1 = true from hone] at hexec
        exact hexec.trans (returnFromException_of_bad hspsr hT)

end Sys2Proof.Machine
end

section
/-! SWI and BKPT (R471, R472). -/

namespace Sys2Proof.Machine

/-- R471, R569: the immediate is ignored. -/
theorem exec_swi {c : Cond} {immed : BitVec 24} {s : State} (h : Runs (.swi c immed) s) :
    exec (.swi c immed) s = .next (takeException .swi (s.pc + 4) s) := by
  simp only [exec, execSwi]
  exact conditional_of_runs h rfl

/-- R472, R570: BKPT has no condition and no UNPREDICTABLE encoding, so it enters as a Prefetch Abort from every state. -/
theorem exec_bkpt (hi : BitVec 12) (lo : BitVec 4) (s : State) :
    exec (.bkpt hi lo) s = .next (prefetchAbort s) := by
  simp only [exec, execBkpt]
  exact always_runs rfl

/-- Settles O20: SWI that runs is its body, BKPT always is, and the link of both is the next instruction. -/
theorem swiAndBkpt : Obligations.SwiAndBkpt := by
  unfold Obligations.SwiAndBkpt
  exact ⟨fun _ _ _ h => exec_swi h, exec_bkpt⟩

end Sys2Proof.Machine
end

section
/-! CDP, MCR and MRC that a coprocessor accepts (R482, R486, R487, R490, R499). -/

namespace Sys2Proof.Machine

/-! ## N, Z, C and V from a word (R490) -/

theorem bit_flagsFromWord_high {psr data : Word} {k : Nat} (hk : 28 ≤ k) :
    bit (flagsFromWord psr data) k = bit data k := by
  refine (BitVec.getLsbD_append (x := bits data 28 4) (y := bits psr 0 28) (i := k)).trans ?_
  rw [if_neg (by omega), bits, BitVec.getLsbD_extractLsb', show 28 + (k - 28) = k by omega]
  by_cases hword : k < 32
  · simp [bit, show k - 28 < 4 by omega]
  · simp [bit, BitVec.getLsbD_of_ge data k (by omega)]

theorem nzcv_flagsFromWord (psr data : Word) :
    nzcv (flagsFromWord psr data) = (bit data 31, bit data 30, bit data 29, bit data 28) := by
  simp only [nzcv, flagN, flagZ, flagC, flagV, bit_flagsFromWord_high, Nat.le_refl, Nat.reduceLeDiff]

/-! ## An accepted instruction (R482) -/

section
variable {w : Word} {cp : BitVec 4} {rd : RegNum} {s : State} {k : Coproc} {r : CoprocRule}

/-- R482: the body, where a row accepts the word and its operation is supplied. -/
theorem withCoproc_of_supplied {body : Coproc → Nat → State → Result} (hk : s.coproc cp = some k)
    (hr : acceptingRule k w (privileged s.cpsr) = some r) (hs : r.supplied = true) :
    withCoproc w cp body s = body k r.count s := by
  rw [withCoproc_of_accepted hk hr, if_pos hs]

/-- An operation that leaves the coprocessor a new state and goes to the next word. -/
theorem advance_setCoproc (hpc : s.pc ≠ 0xFFFFFFFC) (new : Coproc) :
    advance (s.setCoproc cp new) = .next { s with coprocs := s.coprocs.set cp.toNat (some new), pc := s.pc + 4 } :=
  advance_of_ne hpc

theorem coprocOperation_of_supplied (hk : s.coproc cp = some k)
    (hr : acceptingRule k w (privileged s.cpsr) = some r) (hs : r.supplied = true) (hpc : s.pc ≠ 0xFFFFFFFC) :
    coprocOperation w cp s =
      .next { s with coprocs := s.coprocs.set cp.toNat (some (Config.cpCdp k w)), pc := s.pc + 4 } :=
  (withCoproc_of_supplied hk hr hs).trans (advance_setCoproc hpc _)

theorem toCoproc_of_supplied (hk : s.coproc cp = some k)
    (hr : acceptingRule k w (privileged s.cpsr) = some r) (hs : r.supplied = true) (hpc : s.pc ≠ 0xFFFFFFFC) :
    toCoproc w cp rd s =
      .next { s with coprocs := s.coprocs.set cp.toNat (some (Config.cpMcr k w (s.readReg rd))), pc := s.pc + 4 } :=
  (withCoproc_of_supplied hk hr hs).trans (advance_setCoproc hpc _)

/-- R490, Rd other than R15. -/
theorem fromCoproc_of_register (hk : s.coproc cp = some k)
    (hr : acceptingRule k w (privileged s.cpsr) = some r) (hs : r.supplied = true) (hpc : s.pc ≠ 0xFFFFFFFC)
    (hrd : rd ≠ 15) :
    fromCoproc w cp rd s =
      .next { (s.setCoproc cp (Config.cpMrc k w)).writeReg rd (Config.cpMrcData k w) with pc := s.pc + 4 } :=
  (withCoproc_of_supplied hk hr hs).trans ((if_neg hrd).trans (advance_of_pc_eq (by simp) hpc))

/-- R490, Rd = R15. -/
theorem fromCoproc_of_pc (hk : s.coproc cp = some k)
    (hr : acceptingRule k w (privileged s.cpsr) = some r) (hs : r.supplied = true) (hpc : s.pc ≠ 0xFFFFFFFC)
    (hrd : rd = 15) :
    fromCoproc w cp rd s = .next { s.setCoproc cp (Config.cpMrc k w) with
      cpsr := flagsFromWord s.cpsr (Config.cpMrcData k w), pc := s.pc + 4 } :=
  (withCoproc_of_supplied hk hr hs).trans ((if_pos hrd).trans (advance_of_pc_eq rfl hpc))

/-- What a write by name leaves in the registers does not depend on the coprocessors. -/
theorem writeReg_setCoproc_regs (s : State) (cp : BitVec 4) (new : Coproc) (rd : RegNum) (v : Word) :
    ((s.setCoproc cp new).writeReg rd v).regs = (s.writeReg rd v).regs := by
  unfold State.writeReg State.writeRegIn
  rw [setCoproc_cpsr]
  split <;> rfl

end

/-! ## MRC -/

theorem exec_eq_fromCoproc {i : Instr} {c : Cond} {op1 : BitVec 3} {crn cp : BitVec 4} {rd : RegNum} {op2 : BitVec 3}
    {crm : BitVec 4} {s : State} (hi : i = .mrc c op1 crn rd cp op2 crm ∨ i = .mrc2 op1 crn rd cp op2 crm)
    (h : Runs i s) : exec i s = fromCoproc (encode i) cp rd s := by
  obtain rfl | rfl := hi
  · exact exec_mrc h
  · exact exec_mrc2 h

/-- R490: the coprocessor's new state, and one register or the flags. -/
theorem fromCoproc_completes {i : Instr} {w : Word} {cp : BitVec 4} {rd : RegNum} {s : State} {k : Coproc}
    {r : CoprocRule} (hi : exec i s = fromCoproc w cp rd s) (hk : s.coproc cp = some k)
    (hr : acceptingRule k w (privileged s.cpsr) = some r) (hs : r.supplied = true) (hpc : s.pc ≠ 0xFFFFFFFC) :
    Completes i s fun t =>
      t.coprocs = s.coprocs.set cp.toNat (some (Config.cpMrc k w)) ∧
      (rd ≠ 15 →
        RegisterOutcome rd (Config.cpMrcData k w) (nzcv s.cpsr) s { t with coprocs := s.coprocs }) ∧
      (rd = 15 →
        FlagsOutcome (nzcv (flagsFromWord s.cpsr (Config.cpMrcData k w))) s { t with coprocs := s.coprocs }) := by
  by_cases hrd : rd = 15
  · refine ⟨_, hi.trans (fromCoproc_of_pc hk hr hs hpc hrd), rfl, fun hne => absurd hrd hne, fun _ => ?_⟩
    exact ⟨rfl, rfl, fun _ _ => rfl, bits_flagsFromWord _ _, rfl⟩
  · refine ⟨_, hi.trans (fromCoproc_of_register hk hr hs hpc hrd), by simp, fun _ => ?_, fun he => absurd he hrd⟩
    exact registerOutcome_of_written hrd (by simp) (writeReg_setCoproc_regs ..) (by simp) rfl (by simp)

/-- Settles O53: each instruction that runs asks its coprocessor, which performs its operation; MRC then writes Rd or
the flags. -/
theorem coprocessorMoves : Obligations.CoprocessorMoves := by
  unfold Obligations.CoprocessorMoves
  refine ⟨fun c op1 crn crd cp op3 rd op2 crm s k r hk hs => ⟨fun h hr => ?_, fun h hr => ?_, fun h hr => ?_,
    fun h hr => ?_⟩, fun c op1 crn cp rd op2 crm s i k r hi h hk hr hs => ?_⟩
  · exact (exec_cdp h.toRuns).trans (coprocOperation_of_supplied hk hr hs h.notLast)
  · exact (exec_cdp2 h.toRuns).trans (coprocOperation_of_supplied hk hr hs h.notLast)
  · exact (exec_mcr h.toRuns).trans (toCoproc_of_supplied hk hr hs h.notLast)
  · exact (exec_mcr2 h.toRuns).trans (toCoproc_of_supplied hk hr hs h.notLast)
  · intro data
    rw [← nzcv_flagsFromWord s.cpsr data]
    exact fromCoproc_completes (exec_eq_fromCoproc hi h.toRuns) hk hr hs h.notLast

end Sys2Proof.Machine
end

section
/-! Interrupts at a boundary (R575 to R579), the vectors (R560, R563) and the generic exception entry (R562). -/

namespace Sys2Proof.Machine

/-! ## Interrupts -/

section
variable {s : State}

theorem boundary_of_fiq (hr : (currentInputs s).reset = false) (held : s.resetHeld = false)
    (h : (currentInputs s).fiq = true) (unmasked : flagF s.cpsr = false) :
    boundary s = .taken (fiqEntry (takeInputs s)) := by
  simp [boundary, hr, held, h, unmasked]

/-- R578: an IRQ is taken where no FIQ is. -/
theorem boundary_of_irq (hr : (currentInputs s).reset = false) (held : s.resetHeld = false)
    (h : (currentInputs s).irq = true) (unmasked : flagI s.cpsr = false)
    (noFiq : (currentInputs s).fiq = false ∨ flagF s.cpsr = true) :
    boundary s = .taken (irqEntry (takeInputs s)) := by
  have fiq : ¬((currentInputs s).fiq && !flagF s.cpsr) = true := by
    obtain hf | hf := noFiq <;> simp [hf]
  simp only [boundary, hr, takeInputs_resetHeld, held, takeInputs_cpsr, if_neg fiq, h, unmasked, Bool.false_eq_true,
    if_false, Bool.not_false, Bool.and_self, if_true]

/-- R575 to R577: of the interrupt inputs a boundary depends only on those that are not masked. -/
theorem boundary_congr {t : State} (htake : takeInputs s = takeInputs t)
    (hreset : (currentInputs s).reset = (currentInputs t).reset)
    (hfiq : flagF s.cpsr = false → (currentInputs s).fiq = (currentInputs t).fiq)
    (hirq : flagI s.cpsr = false → (currentInputs s).irq = (currentInputs t).irq) : boundary s = boundary t := by
  have fiq : ((currentInputs s).fiq && !flagF s.cpsr) = ((currentInputs t).fiq && !flagF s.cpsr) := by
    cases hF : flagF s.cpsr <;> simp [hF, hfiq]
  have irq : ((currentInputs s).irq && !flagI s.cpsr) = ((currentInputs t).irq && !flagI s.cpsr) := by
    cases hI : flagI s.cpsr <;> simp [hI, hirq]
  simp only [boundary, ← htake, hreset, takeInputs_cpsr, fiq, irq]

theorem step_congr {t : State} (h : boundary s = boundary t) : step s = step t := by
  unfold step; rw [h]

end

/-- Settles O16: the boundary takes an unmasked FIQ, then an unmasked IRQ, and does not see a masked input. -/
theorem interrupts : Obligations.Interrupts := by
  unfold Obligations.Interrupts
  refine ⟨fun s hr held => ⟨fun h unmasked => ?_, fun h unmasked noFiq => ?_⟩, fun s x rest => ⟨fun masked => ?_,
    fun masked => ?_⟩⟩
  · rw [step_of_taken (boundary_of_fiq hr held h unmasked), fiqEntry, takeInputs_pc]
  · rw [step_of_taken (boundary_of_irq hr held h unmasked noFiq), irqEntry, takeInputs_pc]
  · exact step_congr (boundary_congr rfl rfl (fun hF => absurd (masked.symm.trans hF) (by decide)) fun _ => rfl)
  · exact step_congr (boundary_congr rfl rfl (fun _ => rfl) fun hI => absurd (masked.symm.trans hI) (by decide))

/-! ## Exception entry -/

/-- An SPSR after one is written. -/
theorem Spsrs.get_set (p : Spsrs) (e m : ExcMode) (v : Word) : (p.set e v).get m = if m = e then v else p.get m := by
  cases e <;> cases m <;> rfl

/-- R562: which exceptions disable FIQ. -/
theorem setsF_iff (e : ExceptionKind) : e.setsF = true ↔ e = .reset ∨ e = .fiq := by
  cases e <;> decide

theorem phys_takeException_link (e : ExceptionKind) (link : Word) (s : State) :
    (takeException e link s).phys (.lr e.mode.bank) = link :=
  phys_setPhys_same s _ link

theorem phys_takeException_other {e : ExceptionKind} {link : Word} {s : State} {r : PhysReg}
    (hr : r ≠ .lr e.mode.bank) : (takeException e link s).phys r = s.phys r :=
  (phys_setPhys s _ r link).trans (if_neg hr)

/-- Settles O18: the high vectors stand at the same offsets from 0xFFFF0000 as the normal ones from 0. -/
theorem vectorTable : Obligations.VectorTable := by
  unfold Obligations.VectorTable
  refine fun p => ⟨?_, by decide⟩
  unfold vector
  cases p.highVectorsSupported && p.hivecs <;> decide

/-- Settles O19: the registers and the SPSRs by the rules of their writes, the CPSR field by field. -/
theorem exceptionEntry : Obligations.ExceptionEntry := by
  unfold Obligations.ExceptionEntry
  intro e link s t
  have hF : flagF t.cpsr = if e = .reset ∨ e = .fiq then true else flagF s.cpsr := by
    rw [takeException_cpsr, flagF_entryCpsr]
    simp only [← setsF_iff]
    cases e.setsF <;> rfl
  exact ⟨phys_takeException_link e link s, fun r hr => phys_takeException_other hr,
    (Spsrs.get_set ..).trans (if_pos rfl), fun m hm => (Spsrs.get_set ..).trans (if_neg hm),
    modeBits_entryCpsr e s.cpsr, flagT_entryCpsr e s.cpsr, hF, flagI_entryCpsr e s.cpsr, bits_entryCpsr e s.cpsr, rfl,
    rfl⟩

end Sys2Proof.Machine
end
